-- ==== Sys2Proof/Word.lean ====
section
/-! DEFINITION. The word types of the CORE: bytes of memory, command words, operand and result words, context indexes. -/

namespace Sys2Proof

/-- One byte of memory (20_memory.md R60). -/
abbrev Byte := BitVec 8

/-- A command word (30_encoding.md R90), or a 32-bit operand. -/
abbrev Word32 := BitVec 32

/-- An operand or result register's word (10_state.md R39, R40). -/
abbrev Word64 := BitVec 64

/-- A context index as the 4-bit fields C and C2 of a command word give it (30_encoding.md R90). -/
abbrev CtxId := Fin 16

end Sys2Proof
end

