-- ==== Sys2Proof/Config.lean ====
section
/-! DEFINITION. The implementation parameters of 00_scope.md R7, the constraints on them, the reference configuration
of R9, and the free values that stand for the spec's draws and for memory nothing has written. -/

namespace Sys2Proof

/-- The parameters of 00_scope.md R7. MemOK is plain data here: the list of memory regions (first address, size) that
exist (DESIGN CHOICE, safe, notes/assumptions/4.md). -/
structure Config where
  /-- `N_CTX`, the number of stream contexts. -/
  nCtx : Nat
  /-- `ADDR_W`, the width of a memory address in bits. -/
  addrW : Nat
  /-- `MemOK`: the regions (first address, number of bytes) that the memory has. -/
  memRegions : List (Nat × Nat)
  /-- `COORD_INTEGER_BITS`. -/
  ib : Nat
  /-- `COORD_FRACTIONAL_BITS`. -/
  fb : Nat
  /-- `COORD_INTEGER_BITS_MP`. -/
  ibmp : Nat
  /-- `COORD_FRACTIONAL_BITS_MP_LOWPRECISION`. -/
  lpfb : Nat
  /-- `NORMAL_FRACTIONAL_BITS`. -/
  nfb : Nat
  /-- `NORMAL_DENOMINATOR`. -/
  nd : Nat
  /-- `DEBUG_RANGE_CHECK`. -/
  debugRangeCheck : Bool
  /-- `HOOK_ENABLED`. -/
  hookEnabled : Bool
deriving DecidableEq, Repr

/-- The constraints of 00_scope.md R7 on the parameters. -/
def Config.valid (k : Config) : Bool :=
  decide (2 ≤ k.nCtx ∧ k.nCtx ≤ 16) && decide (32 ≤ k.addrW ∧ k.addrW ≤ 64)
    && decide (1 ≤ k.ib ∧ k.ib ≤ 31) && decide (1 ≤ k.fb ∧ k.fb ≤ 31)
    && decide (1 ≤ k.ibmp ∧ k.ibmp ≤ k.ib) && decide (1 ≤ k.lpfb ∧ k.lpfb < k.fb)
    && decide (1 ≤ k.nfb ∧ k.nfb ≤ 31) && decide (1 ≤ k.nd ∧ k.nd ≤ 2 ^ k.nfb)

/-- `NCLAMP = min(ND, 2^NFB - 1)` (00_scope.md R7, 90_conflicts.md C1). -/
def Config.nclamp (k : Config) : Nat := min k.nd (2 ^ k.nfb - 1)

/-- The fraction width of an MP coordinate: `L ? LPFB : FB` (42_writer_quant.md R182). -/
def Config.mpFrac (k : Config) (lowPrec : Bool) : Nat := if lowPrec then k.lpfb else k.fb

/-- The reference configuration of 00_scope.md R9: MemOK is true for every address below 2^20. -/
def Config.reference : Config :=
  { nCtx := 4, addrW := 64, memRegions := [(0, 2 ^ 20)], ib := 14, fb := 5, ibmp := 11, lpfb := 3, nfb := 11,
    nd := 2048, debugRangeCheck := false, hookEnabled := true }

/-- The free value of the k-th draw when it is a `draw({0,1})` (20_memory.md R69; notes/assumptions/8.md). -/
opaque Config.freeBit : Nat → Bool

/-- The free value of the k-th draw when it is a `draw(ℕ)` (00_scope.md R12, TruncNat; notes/assumptions/8.md). -/
opaque Config.freeNat : Nat → Nat

/-- The free value of the k-th draw when it is a `draw(ℤ)` (00_scope.md R12, TruncInt; notes/assumptions/8.md). -/
opaque Config.freeInt : Nat → Int

/-- The free value of the byte of memory at an address, where nothing has written it: it is whatever the host left
(20_memory.md R82; notes/assumptions/5.md). -/
opaque Config.freeByte : Nat → Byte

end Sys2Proof
end

