-- ==== Sys2Proof/Machine/Float.lean ====
section
/-! DEFINITION. The floating-point notation of 00_scope.md R12: binary32 patterns as exact values, exact non-negative
rationals, RNE32, RNE64, SQRT32, SignBit, TruncNat and TruncInt. -/

namespace Sys2Proof.Machine

/-! ### Exact non-negative rationals -/

/-- The exact non-negative rational num / den; den is positive in every value the model makes. It is not reduced, so two
of them are compared with `le` and `lt`, never with equality. -/
structure Frac where
  num : Nat
  den : Nat
deriving DecidableEq, Repr

/-- The natural number n. -/
def Frac.ofNat (n : Nat) : Frac := ⟨n, 1⟩

/-- `x ≤ y`. -/
def Frac.le (x y : Frac) : Bool := decide (x.num * y.den ≤ y.num * x.den)

/-- `x < y`. -/
def Frac.lt (x y : Frac) : Bool := decide (x.num * y.den < y.num * x.den)

/-- `x + y`. -/
def Frac.add (x y : Frac) : Frac := ⟨x.num * y.den + y.num * x.den, x.den * y.den⟩

/-- `x - y` for `y ≤ x`. -/
def Frac.sub (x y : Frac) : Frac := ⟨x.num * y.den - y.num * x.den, x.den * y.den⟩

/-- `x * y`. -/
def Frac.mul (x y : Frac) : Frac := ⟨x.num * y.num, x.den * y.den⟩

/-- `x / d` for a natural d > 0. -/
def Frac.divNat (x : Frac) (d : Nat) : Frac := ⟨x.num, x.den * d⟩

/-- `x * 2^e`, exactly. -/
def Frac.scale (x : Frac) (e : Int) : Frac :=
  match e with
  | .ofNat k => ⟨x.num * 2 ^ k, x.den⟩
  | .negSucc k => ⟨x.num, x.den * 2 ^ (k + 1)⟩

/-- The largest natural number that is at most x. -/
def Frac.floor (x : Frac) : Nat := x.num / x.den

/-- The integer nearest x, a tie to the even one. -/
def Frac.roundEven (x : Frac) : Nat :=
  let q := x.num / x.den
  let r := x.num % x.den
  if 2 * r < x.den then q else if x.den < 2 * r then q + 1 else q + q % 2

/-- The integer k with `2^k ≤ x < 2^(k+1)`, for x > 0. -/
def Frac.log2 (x : Frac) : Int :=
  let k : Int := (x.num.log2 : Int) - (x.den.log2 : Int)
  if Frac.le (Frac.scale ⟨1, 1⟩ k) x then k else k - 1

/-! ### Rounding to a binary format -/

/-- x rounded to nearest, ties to even, in a binary format of `p` significant bits whose smallest positive value is
`2^emin`, the exponent unbounded above: the result is `m * 2^e` for the answer `(m, e)`. -/
def roundBinary (p : Nat) (emin : Int) (x : Frac) : Nat × Int :=
  if x.num = 0 then (0, emin)
  else
    let e := max emin (x.log2 - ((p : Int) - 1))
    ((x.scale (-e)).roundEven, e)

/-- The binary32 pattern of `m * 2^e`, sign clear, where `m ≤ 2^24`, `e ≥ -149`, and `m ≥ 2^23` unless e = -149; +infinity
where that value is too large (00_scope.md R12: "Overflow goes to ±infinity"). -/
def packBinary32 (m : Nat) (e : Int) : Nat :=
  min ((e + 149).toNat * 2 ^ 23 + m) 0x7F800000

/-- `bits32(RNE32(x))` for x ≥ 0 (00_scope.md R12). -/
def rne32Bits (x : Frac) : Nat :=
  let r := roundBinary 24 (-149) x
  packBinary32 r.1 r.2

/-- `RNE64(x)` for x ≥ 0 as an exact value. Every product and quotient that the rules round to binary64 is far below the
overflow threshold of binary64, so no infinity arises (notes/assumptions/16.md). -/
def rne64 (x : Frac) : Frac :=
  let r := roundBinary 53 (-1074) x
  (Frac.ofNat r.1).scale r.2

/-! ### binary32 values -/

/-- The value of a binary32 pattern: a NaN, an infinity, or a sign and an exact magnitude. -/
inductive F32 where
  | nan
  | inf (neg : Bool)
  | fin (neg : Bool) (mag : Frac)
deriving DecidableEq, Repr

/-- `f32(b)` (00_scope.md R12). -/
def F32.ofBits (b : Word32) : F32 :=
  let neg := b.getLsbD 31
  let ex : Nat := b.toNat / 2 ^ 23 % 2 ^ 8
  let mt : Nat := b.toNat % 2 ^ 23
  if ex = 255 then (if mt = 0 then .inf neg else .nan)
  else if ex = 0 then .fin neg ⟨mt, 2 ^ 149⟩
  else .fin neg ((Frac.ofNat (2 ^ 23 + mt)).scale ((ex : Int) - 150))

/-- `RNE32(x)` for x ≥ 0 as a value. -/
def rne32 (x : Frac) : F32 := F32.ofBits (BitVec.ofNat 32 (rne32Bits x))

/-- The 32-bit pattern of a magnitude pattern with the sign bit `neg`: `(s == 1) ? -v : v` (44_reader_quant.md R260). -/
def withSign (neg : Bool) (bits : Nat) : Word32 :=
  BitVec.ofNat 32 (bits + if neg then 2 ^ 31 else 0)

/-- The exact magnitude of a finite value; 0 for the others, which the readers never make (44_reader_quant.md R268). -/
def F32.mag : F32 → Frac
  | .fin _ m => m
  | _ => Frac.ofNat 0

/-- `|x| * k` for an exact factor k > 0, as a real product: infinite where x is, NaN where x is. The sign is clear. -/
def F32.absMul (x : F32) (k : Frac) : F32 :=
  match x with
  | .nan => .nan
  | .inf _ => .inf false
  | .fin _ m => .fin false (m.mul k)

/-- `|x| ≥ r` for r > 0; false for NaN (00_scope.md R12, 42_writer_quant.md R186). -/
def F32.absGe (x : F32) (r : Frac) : Bool :=
  match x with
  | .nan => false
  | .inf _ => true
  | .fin _ m => r.le m

/-- `SignBit(f, r)` for r > 0: `f ≤ -r`, false for NaN (00_scope.md R12, 92_eei_decisions.md D10). -/
def F32.signBit (x : F32) (r : Frac) : Bool :=
  match x with
  | .nan => false
  | .inf neg => neg
  | .fin neg m => neg && r.le m

/-- `2^-k`, the resolution of a fraction field of k bits (00_scope.md R7). -/
def resolution (k : Nat) : Frac := ⟨1, 2 ^ k⟩

/-! ### Truncation, with the draws of 00_scope.md R12 (92_eei_decisions.md D15; notes/assumptions/8.md) -/

/-- `TruncNat(x)` for x not negative: the floor, or draw number `k` for NaN and infinity. The second component is the
number of the next draw. -/
def truncNat (x : F32) (k : Nat) : Nat × Nat :=
  match x with
  | .fin _ m => (m.floor, k)
  | _ => (Config.freeNat k, k + 1)

/-! ### Square root -/

/-- Bit by bit from `2^(k-1)` down: the largest r' with r'^2 ≤ n among those that extend r. -/
def isqrtFrom (n : Nat) : Nat → Nat → Nat
  | 0, r => r
  | k + 1, r => isqrtFrom n k (if (r + 2 ^ k) ^ 2 ≤ n then r + 2 ^ k else r)

/-- The integer square root of n. -/
def isqrt (n : Nat) : Nat := isqrtFrom n (n.log2 / 2 + 1) 0

/-- `bits32(SQRT32(x))` for x ≥ 0, the correctly rounded binary32 square root (00_scope.md R12): with `4^k ≤ x < 4^(k+1)`
the root has exponent e = k - 23, and m is the integer nearest `sqrt(x) / 2^e`, found without the root by comparing
`x / 4^e` with `(m + 1/2)^2`. -/
def sqrt32Bits (x : Frac) : Nat :=
  if x.num = 0 then 0
  else
    let e : Int := max (-149) (x.log2 / 2 - 23)
    let y := x.scale (-(2 * e))
    let m := isqrt y.floor
    let half : Frac := ⟨(2 * m + 1) ^ 2, 4⟩
    packBinary32 (if y.lt half then m else if half.lt y then m + 1 else m + m % 2) e

end Sys2Proof.Machine
end

