-- ==== Sys2Proof/Syntax.lean ====
section
/-! DEFINITION. The 53 commands of CORE-CMD v1, one constructor per row of the opcode map (30_encoding.md R92), each with
the fields its row lists as used; and the names of a word that is no command (R93). -/

namespace Sys2Proof

/-- A command of CORE-CMD v1 (30_encoding.md R92). Each constructor carries the fields of the command word that its row
uses, as the word holds them: C and C2 are 4-bit indexes, NB a 6-bit count, I, L and N flags (R90). -/
inductive Instr where
  /-- 0x01 ZZENC32: ZigZagEncode32 (40_codec.md R120). -/
  | zzenc32
  /-- 0x02 ZZDEC32: ZigZagDecode32 (40_codec.md R121). -/
  | zzdec32
  /-- 0x03 ZZENC64: ZigZagEncode64 (40_codec.md R122). -/
  | zzenc64
  /-- 0x04 ZZDEC64: ZigZagDecode64 (40_codec.md R123). -/
  | zzdec64
  /-- 0x05 VSIZE32: ByteSizeVarInt32 (40_codec.md R124). -/
  | vsize32
  /-- 0x06 VSIZE64: ByteSizeVarInt64 (40_codec.md R125). -/
  | vsize64
  /-- 0x10 WBIND: BitWriter Bind (41_writer.md R140). -/
  | wbind (c : CtxId)
  /-- 0x11 WBIT: WriteBit (41_writer.md R141). -/
  | wbit (c : CtxId)
  /-- 0x12 WUNS: WriteUnsigned (41_writer.md R142). -/
  | wuns (c : CtxId) (nb : Fin 64)
  /-- 0x13 WSIGNED: WriteSigned (41_writer.md R143). -/
  | wsigned (c : CtxId) (nb : Fin 64)
  /-- 0x14 WVAR32: WriteVarUInt32 (41_writer.md R145). -/
  | wvar32 (c : CtxId)
  /-- 0x15 WVAR64: WriteVarUInt64 (41_writer.md R146). -/
  | wvar64 (c : CtxId)
  /-- 0x16 WSVAR32: WriteSignedVarInt32 (41_writer.md R147). -/
  | wsvar32 (c : CtxId)
  /-- 0x17 WSVAR64: WriteSignedVarInt64 (41_writer.md R148). -/
  | wsvar64 (c : CtxId)
  /-- 0x18 WUBITVAR: WriteUBitVar (41_writer.md R149). -/
  | wubitvar (c : CtxId)
  /-- 0x19 WCOORD: WriteBitCoord (42_writer_quant.md R181). -/
  | wcoord (c : CtxId)
  /-- 0x1A WCOORDMP: WriteBitCoordMP (42_writer_quant.md R182). -/
  | wcoordmp (c : CtxId) (integral : Bool) (lowPrec : Bool)
  /-- 0x1B WANGLE: WriteBitAngle (42_writer_quant.md R183). -/
  | wangle (c : CtxId) (nb : Fin 64)
  /-- 0x1C WFLOAT: WriteBitFloat (42_writer_quant.md R184). -/
  | wfloat (c : CtxId)
  /-- 0x1D WNORMAL: WriteBitNormal (42_writer_quant.md R185). -/
  | wnormal (c : CtxId)
  /-- 0x1E WVEC3COORD: WriteVec3Coord (and WriteVec3Angles, rule R100) (42_writer_quant.md R187). -/
  | wvec3coord (c : CtxId)
  /-- 0x1F WVEC3NORMAL: WriteVec3Normal (42_writer_quant.md R188). -/
  | wvec3normal (c : CtxId)
  /-- 0x20 WBITS: WriteBits (41_writer.md R150). -/
  | wbits (c : CtxId)
  /-- 0x21 WSTRING: WriteString (41_writer.md R151). -/
  | wstring (c : CtxId)
  /-- 0x30 GETBITS: bits written / bits read (45_status.md R290). -/
  | getbits (c : CtxId)
  /-- 0x31 GETBYTES: bytes written / bytes read (45_status.md R291). -/
  | getbytes (c : CtxId)
  /-- 0x32 GETBITSLEFT: bits remaining (45_status.md R292). -/
  | getbitsleft (c : CtxId)
  /-- 0x33 GETBYTESLEFT: bytes remaining (45_status.md R293). -/
  | getbytesleft (c : CtxId)
  /-- 0x34 GETCAP: capacity (45_status.md R294). -/
  | getcap (c : CtxId)
  /-- 0x35 GETOVF: overflow flag (45_status.md R295). -/
  | getovf (c : CtxId)
  /-- 0x40 RBIND: BitReader Bind (43_reader.md R210). -/
  | rbind (c : CtxId)
  /-- 0x41 RBIT: ReadBit (43_reader.md R211). -/
  | rbit (c : CtxId)
  /-- 0x42 RUNS: ReadUnsigned (43_reader.md R212). -/
  | runs (c : CtxId) (nb : Fin 64)
  /-- 0x43 RSIGNED: ReadSigned (43_reader.md R213). -/
  | rsigned (c : CtxId) (nb : Fin 64)
  /-- 0x44 PEEKUNS: PeekUnsigned (43_reader.md R215). -/
  | peekuns (c : CtxId) (nb : Fin 64)
  /-- 0x45 RVAR32: ReadVarUInt32 (43_reader.md R216). -/
  | rvar32 (c : CtxId)
  /-- 0x46 RVAR64: ReadVarUInt64 (43_reader.md R217). -/
  | rvar64 (c : CtxId)
  /-- 0x47 RSVAR32: ReadSignedVarInt32 (43_reader.md R218). -/
  | rsvar32 (c : CtxId)
  /-- 0x48 RSVAR64: ReadSignedVarInt64 (43_reader.md R219). -/
  | rsvar64 (c : CtxId)
  /-- 0x49 RUBITVAR: ReadUBitVar (43_reader.md R221). -/
  | rubitvar (c : CtxId)
  /-- 0x4A RCOORD: ReadBitCoord (44_reader_quant.md R261). -/
  | rcoord (c : CtxId)
  /-- 0x4B RCOORDMP: ReadBitCoordMP (44_reader_quant.md R262). -/
  | rcoordmp (c : CtxId) (integral : Bool) (lowPrec : Bool)
  /-- 0x4C RANGLE: ReadBitAngle (44_reader_quant.md R263). -/
  | rangle (c : CtxId) (nb : Fin 64)
  /-- 0x4D RFLOAT: ReadBitFloat (44_reader_quant.md R264). -/
  | rfloat (c : CtxId)
  /-- 0x4E RNORMAL: ReadBitNormal (44_reader_quant.md R265). -/
  | rnormal (c : CtxId)
  /-- 0x4F RVEC3COORD: ReadVec3Coord (and ReadVec3Angles, rule R100) (44_reader_quant.md R267). -/
  | rvec3coord (c : CtxId)
  /-- 0x50 RVEC3NORMAL: ReadVec3Normal (44_reader_quant.md R268). -/
  | rvec3normal (c : CtxId)
  /-- 0x51 RSTRING: ReadString (43_reader.md R222). -/
  | rstring (c : CtxId) (nl : Bool)
  /-- 0x52 RBYTES: ReadBytes (43_reader.md R224). -/
  | rbytes (c : CtxId)
  /-- 0x53 RBITS: ReadBits (43_reader.md R223). -/
  | rbits (c : CtxId)
  /-- 0x54 SEEK: Seek (43_reader.md R225). -/
  | seek (c : CtxId)
  /-- 0x55 SEEKREL: SeekRelative (43_reader.md R226). -/
  | seekrel (c : CtxId)
  /-- 0x56 CMPBITS: CompareBits (43_reader.md R227). -/
  | cmpbits (c : CtxId) (c2 : CtxId)
deriving DecidableEq, Repr

/-- Why a 32-bit word is no command: the first three checks of 30_encoding.md R93, in that order. -/
inductive DecodeError where
  /-- R93 step 1: a reserved bit, 31:25, is set. -/
  | reservedBits
  /-- R93 step 2, R95: the opcode is unassigned. -/
  | unassignedOpcode
  /-- R93 step 3: a field that the opcode's row does not list as used is nonzero. -/
  | unusedField
deriving DecidableEq, Repr

end Sys2Proof
end

