-- ==== Sys2Proof/Decode.lean ====
section
/-! DEFINITION. The decoder of command words (30_encoding.md R90, R92, R93, R95), total on every 32-bit word and
rejecting by name; after it the encoder, written from the same tables; and the decoder on the opcode table's numbering. -/

namespace Sys2Proof

/-- The fields of a command word but OP and RSV (30_encoding.md R90). -/
structure Fields where
  c : CtxId
  c2 : CtxId
  nb : Fin 64
  i : Bool
  l : Bool
  n : Bool
deriving DecidableEq, Repr

/-- `w[lo + width - 1 : lo]`, the unsigned integer in those bits (00_scope.md R10). -/
def bitField (w : Word32) (lo width : Nat) : Nat := w.toNat / 2 ^ lo % 2 ^ width

/-- `OP`, bits 7:0. -/
def opField (w : Word32) : Nat := bitField w 0 8

/-- `RSV`, bits 31:25. -/
def rsvField (w : Word32) : Nat := bitField w 25 7

/-- `C`, `C2`, `NB`, `I`, `L`, `N`: bits 11:8, 15:12, 21:16, 22, 23, 24. -/
def fieldsOf (w : Word32) : Fields :=
  { c := Fin.ofNat 16 (bitField w 8 4)
    c2 := Fin.ofNat 16 (bitField w 12 4)
    nb := Fin.ofNat 64 (bitField w 16 6)
    i := bitField w 22 1 == 1
    l := bitField w 23 1 == 1
    n := bitField w 24 1 == 1 }

/-- Which fields a row of the opcode map lists as used (30_encoding.md R92, column "fields used"). -/
inductive Used where
  /-- none -/
  | bare
  /-- C -/
  | ctx
  /-- C, NB -/
  | ctxCount
  /-- C, I, L -/
  | ctxCoordMP
  /-- C, N -/
  | ctxNewline
  /-- C, C2 -/
  | ctxPair
deriving DecidableEq, Repr

/-- Every field the row does not use is zero (30_encoding.md R93 step 3). -/
def Used.othersZero (u : Used) (f : Fields) : Bool :=
  match u with
  | .bare => f.c == 0 && f.c2 == 0 && f.nb == 0 && !f.i && !f.l && !f.n
  | .ctx => f.c2 == 0 && f.nb == 0 && !f.i && !f.l && !f.n
  | .ctxCount => f.c2 == 0 && !f.i && !f.l && !f.n
  | .ctxCoordMP => f.c2 == 0 && f.nb == 0 && !f.n
  | .ctxNewline => f.c2 == 0 && f.nb == 0 && !f.i && !f.l
  | .ctxPair => f.nb == 0 && !f.i && !f.l && !f.n

/-- The opcode map, 30_encoding.md R92: the row's used fields and the command. Every other opcode is unassigned (R95). -/
def opcodeRow (op : Nat) (f : Fields) : Option (Used × Instr) :=
  match op with
  | 0x01 => some (.bare, .zzenc32)
  | 0x02 => some (.bare, .zzdec32)
  | 0x03 => some (.bare, .zzenc64)
  | 0x04 => some (.bare, .zzdec64)
  | 0x05 => some (.bare, .vsize32)
  | 0x06 => some (.bare, .vsize64)
  | 0x10 => some (.ctx, .wbind f.c)
  | 0x11 => some (.ctx, .wbit f.c)
  | 0x12 => some (.ctxCount, .wuns f.c f.nb)
  | 0x13 => some (.ctxCount, .wsigned f.c f.nb)
  | 0x14 => some (.ctx, .wvar32 f.c)
  | 0x15 => some (.ctx, .wvar64 f.c)
  | 0x16 => some (.ctx, .wsvar32 f.c)
  | 0x17 => some (.ctx, .wsvar64 f.c)
  | 0x18 => some (.ctx, .wubitvar f.c)
  | 0x19 => some (.ctx, .wcoord f.c)
  | 0x1A => some (.ctxCoordMP, .wcoordmp f.c f.i f.l)
  | 0x1B => some (.ctxCount, .wangle f.c f.nb)
  | 0x1C => some (.ctx, .wfloat f.c)
  | 0x1D => some (.ctx, .wnormal f.c)
  | 0x1E => some (.ctx, .wvec3coord f.c)
  | 0x1F => some (.ctx, .wvec3normal f.c)
  | 0x20 => some (.ctx, .wbits f.c)
  | 0x21 => some (.ctx, .wstring f.c)
  | 0x30 => some (.ctx, .getbits f.c)
  | 0x31 => some (.ctx, .getbytes f.c)
  | 0x32 => some (.ctx, .getbitsleft f.c)
  | 0x33 => some (.ctx, .getbytesleft f.c)
  | 0x34 => some (.ctx, .getcap f.c)
  | 0x35 => some (.ctx, .getovf f.c)
  | 0x40 => some (.ctx, .rbind f.c)
  | 0x41 => some (.ctx, .rbit f.c)
  | 0x42 => some (.ctxCount, .runs f.c f.nb)
  | 0x43 => some (.ctxCount, .rsigned f.c f.nb)
  | 0x44 => some (.ctxCount, .peekuns f.c f.nb)
  | 0x45 => some (.ctx, .rvar32 f.c)
  | 0x46 => some (.ctx, .rvar64 f.c)
  | 0x47 => some (.ctx, .rsvar32 f.c)
  | 0x48 => some (.ctx, .rsvar64 f.c)
  | 0x49 => some (.ctx, .rubitvar f.c)
  | 0x4A => some (.ctx, .rcoord f.c)
  | 0x4B => some (.ctxCoordMP, .rcoordmp f.c f.i f.l)
  | 0x4C => some (.ctxCount, .rangle f.c f.nb)
  | 0x4D => some (.ctx, .rfloat f.c)
  | 0x4E => some (.ctx, .rnormal f.c)
  | 0x4F => some (.ctx, .rvec3coord f.c)
  | 0x50 => some (.ctx, .rvec3normal f.c)
  | 0x51 => some (.ctxNewline, .rstring f.c f.n)
  | 0x52 => some (.ctx, .rbytes f.c)
  | 0x53 => some (.ctx, .rbits f.c)
  | 0x54 => some (.ctx, .seek f.c)
  | 0x55 => some (.ctx, .seekrel f.c)
  | 0x56 => some (.ctxPair, .cmpbits f.c f.c2)
  | _ => none

/-- The decoder: the first three checks of 30_encoding.md R93 in their order. The field checks of R94 that need N_CTX or
the operand registers, and the mode checks of R96, come when the command runs. -/
def decode (w : Word32) : Except DecodeError Instr :=
  if rsvField w ≠ 0 then .error .reservedBits
  else
    match opcodeRow (opField w) (fieldsOf w) with
    | none => .error .unassignedOpcode
    | some (u, i) => if u.othersZero (fieldsOf w) then .ok i else .error .unusedField

/-- The command's opcode (30_encoding.md R92). It is also what an error's DIAG event records (60_exceptions.md R301). -/
def Instr.opcode : Instr → BitVec 8
  | .zzenc32 => 0x01#8
  | .zzdec32 => 0x02#8
  | .zzenc64 => 0x03#8
  | .zzdec64 => 0x04#8
  | .vsize32 => 0x05#8
  | .vsize64 => 0x06#8
  | .wbind _ => 0x10#8
  | .wbit _ => 0x11#8
  | .wuns _ _ => 0x12#8
  | .wsigned _ _ => 0x13#8
  | .wvar32 _ => 0x14#8
  | .wvar64 _ => 0x15#8
  | .wsvar32 _ => 0x16#8
  | .wsvar64 _ => 0x17#8
  | .wubitvar _ => 0x18#8
  | .wcoord _ => 0x19#8
  | .wcoordmp _ _ _ => 0x1A#8
  | .wangle _ _ => 0x1B#8
  | .wfloat _ => 0x1C#8
  | .wnormal _ => 0x1D#8
  | .wvec3coord _ => 0x1E#8
  | .wvec3normal _ => 0x1F#8
  | .wbits _ => 0x20#8
  | .wstring _ => 0x21#8
  | .getbits _ => 0x30#8
  | .getbytes _ => 0x31#8
  | .getbitsleft _ => 0x32#8
  | .getbytesleft _ => 0x33#8
  | .getcap _ => 0x34#8
  | .getovf _ => 0x35#8
  | .rbind _ => 0x40#8
  | .rbit _ => 0x41#8
  | .runs _ _ => 0x42#8
  | .rsigned _ _ => 0x43#8
  | .peekuns _ _ => 0x44#8
  | .rvar32 _ => 0x45#8
  | .rvar64 _ => 0x46#8
  | .rsvar32 _ => 0x47#8
  | .rsvar64 _ => 0x48#8
  | .rubitvar _ => 0x49#8
  | .rcoord _ => 0x4A#8
  | .rcoordmp _ _ _ => 0x4B#8
  | .rangle _ _ => 0x4C#8
  | .rfloat _ => 0x4D#8
  | .rnormal _ => 0x4E#8
  | .rvec3coord _ => 0x4F#8
  | .rvec3normal _ => 0x50#8
  | .rstring _ _ => 0x51#8
  | .rbytes _ => 0x52#8
  | .rbits _ => 0x53#8
  | .seek _ => 0x54#8
  | .seekrel _ => 0x55#8
  | .cmpbits _ _ => 0x56#8

/-- The command's fields, zero where its row does not use them. -/
def Instr.fields : Instr → Fields
  | .zzenc32 => ⟨0, 0, 0, false, false, false⟩
  | .zzdec32 => ⟨0, 0, 0, false, false, false⟩
  | .zzenc64 => ⟨0, 0, 0, false, false, false⟩
  | .zzdec64 => ⟨0, 0, 0, false, false, false⟩
  | .vsize32 => ⟨0, 0, 0, false, false, false⟩
  | .vsize64 => ⟨0, 0, 0, false, false, false⟩
  | .wbind c => ⟨c, 0, 0, false, false, false⟩
  | .wbit c => ⟨c, 0, 0, false, false, false⟩
  | .wuns c nb => ⟨c, 0, nb, false, false, false⟩
  | .wsigned c nb => ⟨c, 0, nb, false, false, false⟩
  | .wvar32 c => ⟨c, 0, 0, false, false, false⟩
  | .wvar64 c => ⟨c, 0, 0, false, false, false⟩
  | .wsvar32 c => ⟨c, 0, 0, false, false, false⟩
  | .wsvar64 c => ⟨c, 0, 0, false, false, false⟩
  | .wubitvar c => ⟨c, 0, 0, false, false, false⟩
  | .wcoord c => ⟨c, 0, 0, false, false, false⟩
  | .wcoordmp c i l => ⟨c, 0, 0, i, l, false⟩
  | .wangle c nb => ⟨c, 0, nb, false, false, false⟩
  | .wfloat c => ⟨c, 0, 0, false, false, false⟩
  | .wnormal c => ⟨c, 0, 0, false, false, false⟩
  | .wvec3coord c => ⟨c, 0, 0, false, false, false⟩
  | .wvec3normal c => ⟨c, 0, 0, false, false, false⟩
  | .wbits c => ⟨c, 0, 0, false, false, false⟩
  | .wstring c => ⟨c, 0, 0, false, false, false⟩
  | .getbits c => ⟨c, 0, 0, false, false, false⟩
  | .getbytes c => ⟨c, 0, 0, false, false, false⟩
  | .getbitsleft c => ⟨c, 0, 0, false, false, false⟩
  | .getbytesleft c => ⟨c, 0, 0, false, false, false⟩
  | .getcap c => ⟨c, 0, 0, false, false, false⟩
  | .getovf c => ⟨c, 0, 0, false, false, false⟩
  | .rbind c => ⟨c, 0, 0, false, false, false⟩
  | .rbit c => ⟨c, 0, 0, false, false, false⟩
  | .runs c nb => ⟨c, 0, nb, false, false, false⟩
  | .rsigned c nb => ⟨c, 0, nb, false, false, false⟩
  | .peekuns c nb => ⟨c, 0, nb, false, false, false⟩
  | .rvar32 c => ⟨c, 0, 0, false, false, false⟩
  | .rvar64 c => ⟨c, 0, 0, false, false, false⟩
  | .rsvar32 c => ⟨c, 0, 0, false, false, false⟩
  | .rsvar64 c => ⟨c, 0, 0, false, false, false⟩
  | .rubitvar c => ⟨c, 0, 0, false, false, false⟩
  | .rcoord c => ⟨c, 0, 0, false, false, false⟩
  | .rcoordmp c i l => ⟨c, 0, 0, i, l, false⟩
  | .rangle c nb => ⟨c, 0, nb, false, false, false⟩
  | .rfloat c => ⟨c, 0, 0, false, false, false⟩
  | .rnormal c => ⟨c, 0, 0, false, false, false⟩
  | .rvec3coord c => ⟨c, 0, 0, false, false, false⟩
  | .rvec3normal c => ⟨c, 0, 0, false, false, false⟩
  | .rstring c n => ⟨c, 0, 0, false, false, n⟩
  | .rbytes c => ⟨c, 0, 0, false, false, false⟩
  | .rbits c => ⟨c, 0, 0, false, false, false⟩
  | .seek c => ⟨c, 0, 0, false, false, false⟩
  | .seekrel c => ⟨c, 0, 0, false, false, false⟩
  | .cmpbits c c2 => ⟨c, c2, 0, false, false, false⟩

/-- The command word of a command (30_encoding.md R90): each field at its lowest bit, RSV zero. -/
def encode (i : Instr) : Word32 :=
  let f := i.fields
  BitVec.ofNat 32 (i.opcode.toNat + f.c.val * 2 ^ 8 + f.c2.val * 2 ^ 12 + f.nb.val * 2 ^ 16
    + f.i.toNat * 2 ^ 22 + f.l.toNat * 2 ^ 23 + f.n.toNat * 2 ^ 24)

/-- The command that the decoder reads from a word given as opcode_table.json numbers its bits: bit 0 of `w` is bit 0 of
the one command word, and the bits from `nbits` up are zero. A number that does not fit a command word is none. -/
def decodeTableWord (nbits w : Nat) : Option Instr :=
  let v := w % 2 ^ nbits
  if v < 2 ^ 32 then (decode (BitVec.ofNat 32 v)).toOption else none

end Sys2Proof
end

