-- ==== Sys2Proof/Machine/State.lean ====
section
/-! DEFINITION. The state of the CORE and its host memory as plain data (10_state.md R30 to R45, 20_memory.md R60), the
reasons a step can stop (60_exceptions.md R306, R307), and the state after reset (10_state.md R44). -/

namespace Sys2Proof.Machine

/-- What a stream context is bound as (10_state.md R31, R32). The 2-bit value 3 is never held, so it is no constructor. -/
inductive Mode where
  /-- UNBOUND = 0 -/
  | unbound
  /-- WRITER = 1 -/
  | writer
  /-- READER = 2 -/
  | reader
deriving DecidableEq, Repr

/-- One stream context (10_state.md R31). Positions and counts are natural numbers; the widths of R31 are facts of the
invariant `Ctx.Ok` of Sys2Proof/Safety.lean (notes/assumptions/13.md). -/
structure Ctx where
  /-- `MODE`. -/
  mode : Mode
  /-- `BASE`: address of byte 0 of the bound buffer. -/
  base : Nat
  /-- `BYTECAP`: the byte capacity given at bind. -/
  byteCap : Nat
  /-- `BITCAP`: the number of stream bits the context may touch. -/
  bitCap : Nat
  /-- `CURSOR`: stream bit position of the next access. -/
  cursor : Nat
  /-- `OVF`: the sticky overflow flag. -/
  ovf : Bool
deriving DecidableEq, Repr

/-- A context after reset: UNBOUND, every field 0 (10_state.md R44). -/
def Ctx.reset : Ctx := { mode := .unbound, base := 0, byteCap := 0, bitCap := 0, cursor := 0, ovf := false }

/-- An operand or result register (10_state.md R39, R40): its value, and the mark that it has been written since reset.
While the mark is false the register holds no value in the spec's sense, and nothing reads the value field. -/
structure Reg where
  value : Word64
  written : Bool
deriving DecidableEq, Repr

/-- A register nothing has written since reset. The spec gives no value; the field holds 0 (DESIGN CHOICE,
notes/assumptions/1.md for OPA to OPD and 2.md for RES0 and RES1). -/
def Reg.reset : Reg := { value := 0, written := false }

/-- The four operand registers (10_state.md R39). -/
inductive OperandName where
  | opa
  | opb
  | opc
  | opd
deriving DecidableEq, Repr

/-- The two error kinds (60_exceptions.md R300). -/
inductive ErrorKind where
  /-- code 1 -/
  | valueOutOfRange
  /-- code 2 -/
  | bufferOverrun
deriving DecidableEq, Repr

/-- One event of the diagnostic trace: kind, context, opcode of the command being run (10_state.md R41,
60_exceptions.md R301). -/
structure DiagEvent where
  kind : ErrorKind
  c : CtxId
  opcode : BitVec 8
deriving DecidableEq, Repr

/-- The host's byte memory (20_memory.md R60): the (address, byte) pair of every byte that has a known content,
addresses strictly rising (`Memory.wf`). An unlisted byte reads as `unlistedByte`. -/
abbrev Memory := List Host.Cell

/-- What a byte of memory that nothing has written reads as: a free value for each address, since the contents are
whatever the host left and a fresh buffer must not be taken as zero (20_memory.md R82; DESIGN CHOICE in its form, safe,
notes/assumptions/5.md). -/
def unlistedByte (a : Nat) : Byte := Config.freeByte a

/-- The canonical form: addresses strictly rising. That no entry equals what its address reads as unlisted says nothing
here: no value of `unlistedByte` is known, so every byte that has been written stays listed (notes/assumptions/5.md). -/
def Memory.wf (m : Memory) : Bool := decide (m.Pairwise fun x y => x.1 < y.1)

/-- What the host can do to the CORE between commands (00_scope.md R5, R15; notes/assumptions/6.md). -/
inductive HostAction where
  /-- The host writes an operand register (10_state.md R39, 30_encoding.md R99). -/
  | writeOperand (r : OperandName) (v : Word64)
  /-- The host writes a byte of its memory (20_memory.md R76). -/
  | writeByte (a : Nat) (b : Byte)
  /-- The host issues a command word (30_encoding.md R90). -/
  | command (w : Word32)
  /-- The host applies reset (70_reset_and_hazards.md R330). -/
  | reset
deriving DecidableEq, Repr

/-- The machine: the CORE's state, the host's memory, the parameters, and the model's own two fields. -/
structure State where
  /-- The parameters of 00_scope.md R7. No step changes them (notes/assumptions/3.md). -/
  cfg : Config
  /-- The stream contexts (10_state.md R30). Slots at or above `cfg.nCtx` are no contexts of the machine: every command
  that names one is refused (30_encoding.md R94; notes/assumptions/13.md). -/
  ctxs : Vector Ctx 16
  /-- `OPA`. -/
  opa : Reg
  /-- `OPB`. -/
  opb : Reg
  /-- `OPC`. -/
  opc : Reg
  /-- `OPD`. -/
  opd : Reg
  /-- `RES0`. -/
  res0 : Reg
  /-- `RES1`. -/
  res1 : Reg
  /-- `DIAG`, oldest event first (10_state.md R41). -/
  diag : List DiagEvent
  /-- `MEM` (20_memory.md R60). -/
  mem : Memory
  /-- The model's own: how many draws have been taken (notes/assumptions/8.md). -/
  draws : Nat
  /-- The model's own: the host's actions still to come, the next one first (notes/assumptions/6.md). -/
  inbox : List HostAction
deriving DecidableEq, Repr

/-- Why the machine is stuck (60_exceptions.md R307). The only fault: the CORE takes no trap (R308), and an error is a
flag, not a stop (R301). -/
inductive Fault where
  /-- A byte access at an address where MemOK is false (20_memory.md R83, R84). Raised by every access of a command to
  memory, and by a host write to a missing byte (notes/assumptions/15.md). Safe: the spec gives the command no step. -/
  | missingAddress (a : Nat)
deriving DecidableEq, Repr

/-- Why a command is refused (60_exceptions.md R306). All are safe: the spec gives a refused command no meaning. -/
inductive Refusal where
  /-- Raised only by an arm of `exec` whose command has no meaning in the model yet. Safe. -/
  | notModelled (mnemonic : String)
  /-- Raised by `step`: the word is no command (30_encoding.md R93 steps 1 to 3, R95). Safe. -/
  | notACommand (e : DecodeError)
  /-- Raised by every command that names a context C or C2 at or above N_CTX (30_encoding.md R94). Safe. -/
  | badContext
  /-- Raised by CMPBITS with C2 = C (30_encoding.md R94). Safe. -/
  | sameContext
  /-- Raised by the commands that use NB when NB exceeds 32 (30_encoding.md R94). Safe. -/
  | badCount
  /-- Raised by every command that reads an operand register the host never wrote: "a command that reads an unwritten operand
  register is refused" (10_state.md R39; 60_exceptions.md R306; 92_eei_decisions.md D3). Safe. -/
  | operandUnwritten (r : OperandName)
  /-- Raised by the binds, the bulk commands, RSTRING and CMPBITS on an operand out of range (30_encoding.md R94), and by the
  binds on an OPA that does not fit ADDR_W bits (notes/assumptions/12.md). Safe. -/
  | badOperand
  /-- Raised by every command whose context has the wrong MODE (30_encoding.md R96). Safe. -/
  | wrongMode
  /-- Raised by the binds, the bulk commands and the string commands on overlapping buffers (20_memory.md R79). Safe. -/
  | overlap
deriving DecidableEq, Repr

/-- The machine after reset (10_state.md R44, 70_reset_and_hazards.md R330), in the reference configuration (00_scope.md
R9), with no byte of memory listed and no host action pending. -/
def State.reset : State :=
  { cfg := Config.reference
    ctxs := Vector.replicate 16 Ctx.reset
    opa := Reg.reset, opb := Reg.reset, opc := Reg.reset, opd := Reg.reset
    res0 := Reg.reset, res1 := Reg.reset
    diag := [], mem := [], draws := 0, inbox := [] }

end Sys2Proof.Machine
end

