-- ==== Sys2Proof/Machine/Flags.lean ====
section
/-! DEFINITION. The parts of the state, and the one flag of the CORE: the sticky overflow flag OVF with the error
procedure that sets it (60_exceptions.md R300, R301, R304). -/

namespace Sys2Proof.Machine

/-- `ctx[c]` (10_state.md R30). -/
def State.ctx (s : State) (c : CtxId) : Ctx := s.ctxs[c.val]

/-- `ctx[c] <- x`. -/
def State.setCtx (s : State) (c : CtxId) (x : Ctx) : State := { s with ctxs := s.ctxs.set c.val x }

/-- `ctx[c].CURSOR <- p`. -/
def State.setCursor (s : State) (c : CtxId) (p : Nat) : State := s.setCtx c { s.ctx c with cursor := p }

/-- `ctx[c].OVF <- b`. -/
def State.setOvf (s : State) (c : CtxId) (b : Bool) : State := s.setCtx c { s.ctx c with ovf := b }

/-- The same state with another memory. -/
def State.setMem (s : State) (m : Memory) : State := { s with mem := m }

/-- The same state with another number of draws taken. -/
def State.setDraws (s : State) (k : Nat) : State := { s with draws := k }

/-- The same state with other host actions to come. -/
def State.setInbox (s : State) (l : List HostAction) : State := { s with inbox := l }

/-- The same state with another diagnostic trace. -/
def State.setDiag (s : State) (es : List DiagEvent) : State := { s with diag := es }

/-- The code of an error kind (60_exceptions.md R300, 92_eei_decisions.md D38). -/
def ErrorKind.code : ErrorKind → Nat
  | .valueOutOfRange => 1
  | .bufferOverrun => 2

/-- The value of MODE in its 2 bits (10_state.md R31). -/
def Mode.code : Mode → BitVec 2
  | .unbound => 0
  | .writer => 1
  | .reader => 2

/-- `Overflow(c, kind)`, the error procedure (60_exceptions.md R301): it sets OVF, appends one event when HOOK_ENABLED,
and returns to the command, which goes on. `op` is the opcode of the command being run. -/
def State.overflow (s : State) (op : BitVec 8) (c : CtxId) (k : ErrorKind) : State :=
  (s.setOvf c true).setDiag
    (if s.cfg.hookEnabled then s.diag ++ [{ kind := k, c := c, opcode := op }] else s.diag)

end Sys2Proof.Machine
end

