-- ==== Sys2Proof/WellFormed.lean ====
section
/-! DEFINITION. Which commands have legal fields: the field checks of 30_encoding.md R94, on N_CTX. -/

namespace Sys2Proof

/-- `NB ≤ 32` where NB is used (30_encoding.md R94: "Values 33 to 63 are refused"). -/
def legalCount (nb : Fin 64) : Bool := decide (nb.val ≤ 32)

/-- `C < N_CTX` (30_encoding.md R94). -/
def legalCtx (nCtx : Nat) (c : CtxId) : Bool := decide (c.val < nCtx)

/-- The fields of a command are legal for a CORE of `nCtx` contexts (30_encoding.md R94). -/
def Instr.wellFormed (nCtx : Nat) : Instr → Bool
  | .zzenc32 | .zzdec32 | .zzenc64 | .zzdec64 | .vsize32 | .vsize64 => true
  | .wuns c nb | .wsigned c nb | .wangle c nb | .runs c nb | .rsigned c nb | .peekuns c nb | .rangle c nb =>
    legalCtx nCtx c && legalCount nb
  | .wcoordmp c _ _ | .rcoordmp c _ _ | .rstring c _ => legalCtx nCtx c
  | .cmpbits c c2 => legalCtx nCtx c && legalCtx nCtx c2 && decide (c2 ≠ c)
  | .wbind c | .wbit c | .wvar32 c | .wvar64 c | .wsvar32 c | .wsvar64 c | .wubitvar c | .wcoord c | .wfloat c
  | .wnormal c | .wvec3coord c | .wvec3normal c | .wbits c | .wstring c => legalCtx nCtx c
  | .getbits c | .getbytes c | .getbitsleft c | .getbytesleft c | .getcap c | .getovf c => legalCtx nCtx c
  | .rbind c | .rbit c | .rvar32 c | .rvar64 c | .rsvar32 c | .rsvar64 c | .rubitvar c | .rcoord c | .rfloat c
  | .rnormal c | .rvec3coord c | .rvec3normal c | .rbytes c | .rbits c | .seek c | .seekrel c => legalCtx nCtx c

end Sys2Proof
end

