-- ==== Sys2Proof/Machine/Ops.lean ====
section
/-! DEFINITION. The named operations over memory and streams: byte access (20_memory.md R61, R83, R84), stream bits
(R62 to R65), the primitives `Wr` and `Rd` (R66, R67), overlap of buffers (R79), the result registers (10_state.md R40).
The CORE takes no trap (60_exceptions.md R308): its one error mechanism is `State.overflow` of Flags.lean. -/

namespace Sys2Proof.Machine

/-- Why a command does not complete: it is stuck (60_exceptions.md R307) or refused (R306). -/
inductive Stop where
  | fault (f : Fault)
  | refused (r : Refusal)
deriving DecidableEq, Repr

/-- The rest of a command: a value, or the reason there is none. A stopped command leaves no partial effect (R306, R307). -/
abbrev Exec (α : Type) := Except Stop α

/-- A command's outcome as the host reads it. -/
def finish (r : Exec State) : Host.Outcome State Fault Refusal :=
  match r with
  | .ok s => .next s
  | .error (.fault f) => .fault f
  | .error (.refused e) => .refused e

/-- The command is refused for reason `r` unless `p` holds (00_scope.md R11, `refuse`). -/
def require (p : Prop) [Decidable p] (r : Refusal) : Exec Unit :=
  if p then .ok () else .error (.refused r)

/-! ### Memory, one byte at a time -/

/-- `MEM[a]`: the listed byte, or what an unlisted address reads as. -/
def Memory.read (m : Memory) (a : Nat) : Byte :=
  match m with
  | [] => unlistedByte a
  | (k, b) :: t => if k = a then b else Memory.read t a

/-- `MEM[a] <- b`, keeping the canonical form: the entry goes in the place of the one for `a`, or before the first entry
of a higher address. -/
def Memory.write (m : Memory) (a : Nat) (b : Byte) : Memory :=
  match m with
  | [] => [(a, b)]
  | (k, x) :: t =>
    if a < k then (a, b) :: (k, x) :: t
    else if a = k then (a, b) :: t
    else (k, x) :: Memory.write t a b

/-- `MemOK(a, 1)`, with an address of `2^ADDR_W` or more missing (00_scope.md R7, 20_memory.md R83, R84). -/
def memOK (k : Config) (a : Nat) : Bool :=
  decide (a < 2 ^ k.addrW) && k.memRegions.any fun r => decide (r.1 ≤ a ∧ a < r.1 + r.2)

/-- One more than the highest address of the memory regions: no byte exists from there on. -/
def memEnd (k : Config) : Nat := k.memRegions.foldl (fun e r => max e (r.1 + r.2)) 0

/-- `MemRead(a, 1)`; the command is stuck where MemOK is false (20_memory.md R61, R83). -/
def memRead (k : Config) (m : Memory) (a : Nat) : Exec Byte :=
  if memOK k a then .ok (m.read a) else .error (.fault (.missingAddress a))

/-- `MemWrite(a, 1, b)`; the command is stuck where MemOK is false (20_memory.md R61, R83). -/
def memWrite (k : Config) (m : Memory) (a : Nat) (b : Byte) : Exec Memory :=
  if memOK k a then .ok (m.write a b) else .error (.fault (.missingAddress a))

/-! ### Stream bits -/

/-- `StreamBit(c, p)` of a context whose buffer starts at `base` (20_memory.md R62); bit k of a host buffer has the same
layout (R81). -/
def getBit (k : Config) (m : Memory) (base p : Nat) : Exec Bool := do
  let b ← memRead k m (base + p / 8)
  .ok (b.getLsbD (p % 8))

/-- One bit of `PutBits` (20_memory.md R65): a read and a write of one byte that change bit `p mod 8` only. -/
def putBit (k : Config) (m : Memory) (base p : Nat) (v : Bool) : Exec Memory := do
  let b ← memRead k m (base + p / 8)
  let mask : Byte := 1#8 <<< (p % 8)
  memWrite k m (base + p / 8) ((b &&& ~~~mask) ||| (if v then mask else 0))

/-- `GetBits(c, p, n)`: stream bits p to p + n - 1, bit p lowest (20_memory.md R64). -/
def getBits (k : Config) (m : Memory) (base p : Nat) : Nat → Exec Nat
  | 0 => .ok 0
  | n + 1 => do
    let b ← getBit k m base p
    let rest ← getBits k m base (p + 1) n
    .ok (b.toNat + 2 * rest)

/-- `PutBits(c, p, n, v)`: bit k of v to stream bit p + k, for k < n (20_memory.md R65). -/
def putBits (k : Config) (m : Memory) (base p : Nat) : Nat → Nat → Exec Memory
  | 0, _ => .ok m
  | n + 1, v => do
    let m ← putBit k m base p (v.testBit 0)
    putBits k m base (p + 1) n (v / 2)

/-! ### The primitives -/

/-- `Wr(c, n, v)` (20_memory.md R66). On a failure it writes nothing and leaves CURSOR. -/
def wr (op : BitVec 8) (c : CtxId) (n v : Nat) (s : State) : Exec State :=
  let x := s.ctx c
  if x.cursor + n > x.bitCap then .ok (s.overflow op c .bufferOverrun)
  else do
    let m ← putBits s.cfg s.mem x.base x.cursor n (v % 2 ^ n)
    .ok ((s.setCursor c (x.cursor + n)).setMem m)

/-- `Rd(c, n)` (20_memory.md R67). On a failure it returns 0, reads nothing and leaves CURSOR. -/
def rd (op : BitVec 8) (c : CtxId) (n : Nat) (s : State) : Exec (Nat × State) :=
  let x := s.ctx c
  if x.cursor + n > x.bitCap then .ok (0, s.overflow op c .bufferOverrun)
  else do
    let v ← getBits s.cfg s.mem x.base x.cursor n
    .ok (v, s.setCursor c (x.cursor + n))

/-- One field of a composite write: how many bits, and the value whose low bits they are. -/
structure StreamField where
  width : Nat
  value : Nat
deriving DecidableEq, Repr

/-- The sequence of primitives of a composite write command, each with its own capacity check: a field that does not fit
leaves the earlier ones written, and the later ones still run (20_memory.md R68). -/
def wrAll (op : BitVec 8) (c : CtxId) : List StreamField → State → Exec State
  | [], s => .ok s
  | f :: fs, s => do
    let s ← wr op c f.width f.value s
    wrAll op c fs s

/-! ### Buffer regions (20_memory.md R79) -/

/-- The byte regions [a, a + n) and [b, b + m) share a byte; an empty region overlaps nothing. -/
def regionsOverlap (a n b m : Nat) : Bool :=
  decide (0 < n ∧ 0 < m ∧ a < b + m ∧ b < a + n)

/-- Some context that `p` picks is bound to a region that overlaps [a, a + n). -/
def boundOverlap (s : State) (p : CtxId → Ctx → Bool) (a n : Nat) : Bool :=
  (List.finRange 16).any fun d =>
    let x := s.ctx d
    decide (d.val < s.cfg.nCtx) && decide (x.mode ≠ .unbound) && p d x && regionsOverlap a n x.base x.byteCap

/-- A bind of context c as `mode` to [base, base + bytes) overlaps the region of another bound context, one of the two a
writer. -/
def bindOverlap (s : State) (c : CtxId) (mode : Mode) (base bytes : Nat) : Bool :=
  boundOverlap s (fun d x => decide (d ≠ c) && (decide (mode = .writer) || decide (x.mode = .writer))) base bytes

/-- The bytes [a, a + n) overlap the region of a writer: a source of WBITS or WSTRING. -/
def sourceOverlap (s : State) (a n : Nat) : Bool :=
  boundOverlap s (fun _ x => decide (x.mode = .writer)) a n

/-- The bytes [a, a + n) overlap the region of a bound context: a destination of RBITS, RBYTES or RSTRING. -/
def destOverlap (s : State) (a n : Nat) : Bool :=
  boundOverlap s (fun _ _ => true) a n

/-! ### Result registers -/

/-- `RES0 <- v` (10_state.md R40). -/
def State.setRes0 (s : State) (v : Word64) : State := { s with res0 := { value := v, written := true } }

/-- `RES1 <- v` (10_state.md R40). -/
def State.setRes1 (s : State) (v : Word64) : State := { s with res1 := { value := v, written := true } }

/-! ### Free values -/

/-- `n` draws of `draw({0,1})` as one number, the first draw lowest (20_memory.md R69). -/
def freeBits (first : Nat) : Nat → Nat
  | 0 => 0
  | n + 1 => (Config.freeBit first).toNat + 2 * freeBits (first + 1) n

end Sys2Proof.Machine
end

