-- ==== Sys2Proof/Machine/Operands.lean ====
section
/-! DEFINITION. The operand forms of every command (30_encoding.md R91, R97) and the checks a command makes before it
runs (30_encoding.md R94, R96; 10_state.md R39). -/

namespace Sys2Proof.Machine

/-- The operand register of that name (10_state.md R39). -/
def State.operandReg (s : State) : OperandName → Reg
  | .opa => s.opa
  | .opb => s.opb
  | .opc => s.opc
  | .opd => s.opd

/-- A command reads an operand register; it is refused when the host never wrote it (10_state.md R39, 60_exceptions.md
R306). -/
def operand (r : OperandName) (s : State) : Exec Word64 :=
  if (s.operandReg r).written then .ok (s.operandReg r).value else .error (.refused (.operandUnwritten r))

/-- `OPA[31:0]`, the low word (30_encoding.md R97). -/
def lowWord (v : Word64) : Word32 := v.setWidth 32

/-- `OPA[63:32]`, the high word, where y of a vector stands (30_encoding.md R97). -/
def highWord (v : Word64) : Word32 := (v >>> 32).setWidth 32

/-- A binary32 operand `f32(OPA[31:0])` (30_encoding.md R97). -/
def floatOperand (v : Word64) : F32 := F32.ofBits (lowWord v)

/-- `zext_64` of a 32-bit result (30_encoding.md R97). -/
def zext64 (v : Word32) : Word64 := v.setWidth 64

/-- `u64(sext_32(v))`, a signed 32-bit result (30_encoding.md R97). -/
def sext64 (v : Word32) : Word64 := v.signExtend 64

/-- `u64(sext_n(u))` for the n-bit field u; 0 when n = 0 (00_scope.md R10, 43_reader.md R213). -/
def sextField (n u : Nat) : Word64 :=
  if n = 0 then 0
  else if u.testBit (n - 1) then BitVec.ofInt 64 ((u : Int) - 2 ^ n) else BitVec.ofNat 64 u

/-! ### Checks, in the order of 30_encoding.md R93 (notes/assumptions/11.md) -/

/-- `C < N_CTX` (30_encoding.md R94). -/
def needCtx (c : CtxId) (s : State) : Exec Unit := require (legalCtx s.cfg.nCtx c = true) .badContext

/-- `NB ≤ 32` (30_encoding.md R94). -/
def needCount (nb : Fin 64) : Exec Unit := require (legalCount nb = true) .badCount

/-- `ctx[C].MODE` is the mode the command needs (30_encoding.md R96). -/
def needMode (m : Mode) (c : CtxId) (s : State) : Exec Unit := require ((s.ctx c).mode = m) .wrongMode

/-- `ctx[C].MODE ≠ UNBOUND` (30_encoding.md R96). -/
def needBound (c : CtxId) (s : State) : Exec Unit := require ((s.ctx c).mode ≠ .unbound) .wrongMode

end Sys2Proof.Machine
end

