-- ==== Sys2Proof/Machine/Codec.lean ====
section
/-! DEFINITION. The varint and zigzag codec (40_codec.md R120 to R126): the pure functions, which the stream commands use
too, and the six codec commands. -/

namespace Sys2Proof.Machine

/-- `(n << 1) ^ (n >> 31)` with an arithmetic shift (40_codec.md R120). -/
def zigzagEnc32 (n : Word32) : Word32 := (n <<< 1) ^^^ (if n.slt 0 then 0xFFFFFFFF#32 else 0)

/-- `(u >> 1) ^ -(u & 1)` (40_codec.md R121). -/
def zigzagDec32 (u : Word32) : Word32 := (u >>> 1) ^^^ (if u &&& 1 = 1 then 0xFFFFFFFF#32 else 0)

/-- The 64-bit zigzag encoding (40_codec.md R122). -/
def zigzagEnc64 (n : Word64) : Word64 := (n <<< 1) ^^^ (if n.slt 0 then 0xFFFFFFFFFFFFFFFF#64 else 0)

/-- The 64-bit zigzag decoding (40_codec.md R123). -/
def zigzagDec64 (u : Word64) : Word64 := (u >>> 1) ^^^ (if u &&& 1 = 1 then 0xFFFFFFFFFFFFFFFF#64 else 0)

/-- `while v >= 2^(7k): k <- k + 1` from k, at most `fuel` turns (40_codec.md R124). -/
def varSizeFrom (v : Nat) : Nat → Nat → Nat
  | 0, k => k
  | fuel + 1, k => if v ≥ 2 ^ (7 * k) then varSizeFrom v fuel (k + 1) else k

/-- `ByteSizeVarInt(v)`: the smallest k ≥ 1 with v < 2^(7k), for v < 2^64 (40_codec.md R124, R125). -/
def varSize (v : Nat) : Nat := varSizeFrom v 9 1

/-- The bytes of the varint encoding of v < 2^64, lowest group first (41_writer.md R144): 7 payload bits a byte, bit 7 set
on all but the last. Ten turns are enough for a 64-bit value. -/
def varBytesFrom : Nat → Nat → List Nat
  | 0, _ => []
  | fuel + 1, v => if v < 0x80 then [v] else (v % 0x80 + 0x80) :: varBytesFrom fuel (v / 0x80)

/-- The byte sequence of `VarPut(c, v)` (41_writer.md R144). -/
def varBytes (v : Nat) : List Nat := varBytesFrom 10 v

/-- ZZENC32 (40_codec.md R120). -/
def execZzenc32 (s : State) : Host.Outcome State Fault Refusal := finish do
  let a ← operand .opa s
  .ok (s.setRes0 (zext64 (zigzagEnc32 (lowWord a))))

/-- ZZDEC32 (40_codec.md R121). -/
def execZzdec32 (s : State) : Host.Outcome State Fault Refusal := finish do
  let a ← operand .opa s
  .ok (s.setRes0 (sext64 (zigzagDec32 (lowWord a))))

/-- ZZENC64 (40_codec.md R122). -/
def execZzenc64 (s : State) : Host.Outcome State Fault Refusal := finish do
  let a ← operand .opa s
  .ok (s.setRes0 (zigzagEnc64 a))

/-- ZZDEC64 (40_codec.md R123). -/
def execZzdec64 (s : State) : Host.Outcome State Fault Refusal := finish do
  let a ← operand .opa s
  .ok (s.setRes0 (zigzagDec64 a))

/-- VSIZE32 (40_codec.md R124). -/
def execVsize32 (s : State) : Host.Outcome State Fault Refusal := finish do
  let a ← operand .opa s
  .ok (s.setRes0 (BitVec.ofNat 64 (varSize (lowWord a).toNat)))

/-- VSIZE64 (40_codec.md R125). -/
def execVsize64 (s : State) : Host.Outcome State Fault Refusal := finish do
  let a ← operand .opa s
  .ok (s.setRes0 (BitVec.ofNat 64 (varSize a.toNat)))

end Sys2Proof.Machine
end

