-- ==== Sys2Proof/Machine/Bind.lean ====
section
/-! DEFINITION. Binding a stream context to a buffer: the body that WBIND (41_writer.md R140) and RBIND (43_reader.md R210)
share. -/

namespace Sys2Proof.Machine

/-- The bit capacity of a bind: 8·bytes when the override is -1, the override when it is in [0, 8·bytes], none otherwise
(41_writer.md R140, 30_encoding.md R94, 10_state.md R34). -/
def bindCapacity (bytes : Nat) (ovr : Int) : Option Nat :=
  if ovr = -1 then some (8 * bytes)
  else if 0 ≤ ovr ∧ ovr ≤ 8 * (bytes : Int) then some ovr.toNat
  else none

/-- The context that a bind leaves: bound as `mode`, the cursor at the start bit, OVF clear. -/
def boundCtx (mode : Mode) (base bytes cap start : Nat) : Ctx :=
  { mode := mode, base := base, byteCap := bytes, bitCap := cap, cursor := start, ovf := false }

/-- The body of both binds (41_writer.md R140, 43_reader.md R210). It reads and writes no memory (20_memory.md R82). BASE has
ADDR_W bits (10_state.md R31), and a larger OPA is refused (92_eei_decisions.md D29; notes/assumptions/12.md). -/
def bindAs (mode : Mode) (c : CtxId) (s : State) : Exec State := do
  needCtx c s
  let base ← operand .opa s
  let bytes ← operand .opb s
  let start ← operand .opc s
  let ovr ← operand .opd s
  require (base.toNat < 2 ^ s.cfg.addrW) .badOperand
  require (bytes.toNat ≤ 2 ^ 28 - 1) .badOperand
  match bindCapacity bytes.toNat ovr.toInt with
  | none => .error (.refused .badOperand)
  | some cap => do
    require (start.toNat ≤ cap) .badOperand
    require (bindOverlap s c mode base.toNat bytes.toNat = false) .overlap
    .ok (s.setCtx c (boundCtx mode base.toNat bytes.toNat cap start.toNat))

end Sys2Proof.Machine
end

