-- ==== Sys2Proof/Machine/Reader.lean ====
section
/-! DEFINITION. The BitReader commands (43_reader.md R210 to R227). Every read goes through `Rd` (20_memory.md R67), whose
failure yields 0 and does not end the command (R214). -/

namespace Sys2Proof.Machine

/-- RBIND (43_reader.md R210). -/
def execRbind (c : CtxId) (s : State) : Host.Outcome State Fault Refusal := finish (bindAs .reader c s)

/-- RBIT (43_reader.md R211). -/
def execRbit (c : CtxId) (s : State) : Host.Outcome State Fault Refusal := finish do
  needCtx c s
  needMode .reader c s
  let (v, s) ← rd (Instr.rbit c).opcode c 1 s
  .ok (s.setRes0 (BitVec.ofNat 64 v))

/-- RUNS (43_reader.md R212). -/
def execRuns (c : CtxId) (nb : Fin 64) (s : State) : Host.Outcome State Fault Refusal := finish do
  needCtx c s
  needCount nb
  needMode .reader c s
  let (v, s) ← rd (Instr.runs c nb).opcode c nb.val s
  .ok (s.setRes0 (BitVec.ofNat 64 v))

/-- RSIGNED (43_reader.md R213). -/
def execRsigned (c : CtxId) (nb : Fin 64) (s : State) : Host.Outcome State Fault Refusal := finish do
  needCtx c s
  needCount nb
  needMode .reader c s
  let (u, s) ← rd (Instr.rsigned c nb).opcode c nb.val s
  .ok (s.setRes0 (sextField nb.val u))

/-- PEEKUNS (43_reader.md R215): CURSOR and OVF are put back, a failing peek's event stays (92_eei_decisions.md D22). -/
def execPeekuns (c : CtxId) (nb : Fin 64) (s : State) : Host.Outcome State Fault Refusal := finish do
  needCtx c s
  needCount nb
  needMode .reader c s
  let p := (s.ctx c).cursor
  let o := (s.ctx c).ovf
  let (v, s) ← rd (Instr.peekuns c nb).opcode c nb.val s
  .ok (((s.setCursor c p).setOvf c o).setRes0 (BitVec.ofNat 64 v))

/-- The loop of `VarGet(c, K)` (43_reader.md R216): `left` bytes may still be read, `k` have been, `r` is the value so far.
The cap ends the loop without an error (R220). -/
def varGetFrom (op : BitVec 8) (c : CtxId) : Nat → Nat → Nat → State → Exec (Nat × State)
  | 0, _, r, s => .ok (r, s)
  | left + 1, k, r, s => do
    let (b, s) ← rd op c 8 s
    let r := r ||| ((b % 0x80) <<< (7 * k))
    if b < 0x80 then .ok (r, s) else varGetFrom op c left (k + 1) r s

/-- `VarGet(c, K)` (43_reader.md R216). -/
def varGet (op : BitVec 8) (c : CtxId) (cap : Nat) (s : State) : Exec (Nat × State) := varGetFrom op c cap 0 0 s

/-- RVAR32 (43_reader.md R216). -/
def execRvar32 (c : CtxId) (s : State) : Host.Outcome State Fault Refusal := finish do
  needCtx c s
  needMode .reader c s
  let (v, s) ← varGet (Instr.rvar32 c).opcode c 5 s
  .ok (s.setRes0 (zext64 (BitVec.ofNat 32 v)))

/-- RVAR64 (43_reader.md R217). -/
def execRvar64 (c : CtxId) (s : State) : Host.Outcome State Fault Refusal := finish do
  needCtx c s
  needMode .reader c s
  let (v, s) ← varGet (Instr.rvar64 c).opcode c 10 s
  .ok (s.setRes0 (BitVec.ofNat 64 v))

/-- RSVAR32 (43_reader.md R218). -/
def execRsvar32 (c : CtxId) (s : State) : Host.Outcome State Fault Refusal := finish do
  needCtx c s
  needMode .reader c s
  let (v, s) ← varGet (Instr.rsvar32 c).opcode c 5 s
  .ok (s.setRes0 (sext64 (zigzagDec32 (BitVec.ofNat 32 v))))

/-- RSVAR64 (43_reader.md R219). -/
def execRsvar64 (c : CtxId) (s : State) : Host.Outcome State Fault Refusal := finish do
  needCtx c s
  needMode .reader c s
  let (v, s) ← varGet (Instr.rsvar64 c).opcode c 10 s
  .ok (s.setRes0 (zigzagDec64 (BitVec.ofNat 64 v)))

/-- The payload width of a UBitVar selector 1, 2 or 3: 8, 12, 32 (43_reader.md R221). -/
def ubitPayload (sel : Nat) : Nat := if sel = 1 then 8 else if sel = 2 then 12 else 32

/-- RUBITVAR (43_reader.md R221). -/
def execRubitvar (c : CtxId) (s : State) : Host.Outcome State Fault Refusal := finish do
  needCtx c s
  needMode .reader c s
  let (six, s) ← rd (Instr.rubitvar c).opcode c 6 s
  let sel := six % 4
  if sel = 0 then .ok (s.setRes0 (BitVec.ofNat 64 (six / 4)))
  else do
    let (v, s) ← rd (Instr.rubitvar c).opcode c (ubitPayload sel) (s.setCursor c ((s.ctx c).cursor - 4))
    .ok (s.setRes0 (BitVec.ofNat 64 v))

/-- The loop of RSTRING (43_reader.md R222): `i` bytes are stored, `t` says whether a byte was dropped. `fuel` bounds the
reads: each consumes 8 bits or ends the string, so (BITCAP - CURSOR) / 8 + 1 are enough. -/
def readString (op : BitVec 8) (c : CtxId) (dst maxLen : Nat) (nl : Bool) :
    Nat → Nat → Bool → State → Exec (Nat × Bool × State)
  | 0, i, t, s => .ok (i, t, s)
  | fuel + 1, i, t, s => do
    let (b, s) ← rd op c 8 s
    if b = 0 ∨ (nl ∧ b = 0x0A) then .ok (i, t, s)
    else if i + 1 < maxLen then do
      let m ← memWrite s.cfg s.mem (dst + i) (BitVec.ofNat 8 b)
      readString op c dst maxLen nl fuel (i + 1) t (s.setMem m)
    else readString op c dst maxLen nl fuel i true s

/-- RSTRING (43_reader.md R222). -/
def execRstring (c : CtxId) (nl : Bool) (s : State) : Host.Outcome State Fault Refusal := finish do
  needCtx c s
  let dst ← operand .opa s
  let len ← operand .opb s
  require (1 ≤ len.toNat ∧ len.toNat < 2 ^ 31) .badOperand
  needMode .reader c s
  require (destOverlap s dst.toNat len.toNat = false) .overlap
  let fuel := ((s.ctx c).bitCap - (s.ctx c).cursor) / 8 + 1
  let (i, t, s) ← readString (Instr.rstring c nl).opcode c dst.toNat len.toNat nl fuel 0 false s
  let m ← memWrite s.cfg s.mem (dst.toNat + i) 0
  .ok (((s.setMem m).setRes0 (BitVec.ofNat 64 i)).setRes1 (if t then 1 else 0))

/-- Writes `n` zero bytes from address a (43_reader.md R223, the failing case). -/
def zeroBytes (cfg : Config) : Nat → Nat → Memory → Exec Memory
  | 0, _, m => .ok m
  | n + 1, a, m => do
    let m ← memWrite cfg m a 0
    zeroBytes cfg n (a + 1) m

/-- `for j in 0 .. m-1: MemWrite(dst + j, 1, GetBits(c, CURSOR + 8j, min(8, n - 8j)))` (43_reader.md R223): `left` bytes
from destination address a, the stream at bit p, `n` bits still to copy. -/
def copyOut (cfg : Config) (base : Nat) : Nat → Nat → Nat → Nat → Memory → Exec Memory
  | 0, _, _, _, m => .ok m
  | left + 1, a, p, n, m => do
    let v ← getBits cfg m base p (min 8 n)
    let m ← memWrite cfg m a (BitVec.ofNat 8 v)
    copyOut cfg base left (a + 1) (p + 8) (n - 8) m

/-- The body of RBITS for n bits, which RBYTES runs with n = 8·bytes (43_reader.md R223, R224): all or nothing, zeros on
overflow. -/
def readBulk (op : BitVec 8) (c : CtxId) (dst n : Nat) (s : State) : Exec State := do
  let bytes := (n + 7) / 8
  require (destOverlap s dst bytes = false) .overlap
  let x := s.ctx c
  if x.cursor + n > x.bitCap then do
    let m ← zeroBytes s.cfg bytes dst s.mem
    .ok ((s.overflow op c .bufferOverrun).setMem m)
  else do
    let m ← copyOut s.cfg x.base bytes dst x.cursor n s.mem
    .ok ((s.setCursor c (x.cursor + n)).setMem m)

/-- RBYTES (43_reader.md R224, 90_conflicts.md C8): OPB counts bytes. -/
def execRbytes (c : CtxId) (s : State) : Host.Outcome State Fault Refusal := finish do
  needCtx c s
  let dst ← operand .opa s
  let count ← operand .opb s
  require (count.toNat < 2 ^ 28) .badOperand
  needMode .reader c s
  readBulk (Instr.rbytes c).opcode c dst.toNat (8 * count.toNat) s

/-- RBITS (43_reader.md R223). -/
def execRbits (c : CtxId) (s : State) : Host.Outcome State Fault Refusal := finish do
  needCtx c s
  let dst ← operand .opa s
  let count ← operand .opb s
  require (count.toNat < 2 ^ 31) .badOperand
  needMode .reader c s
  readBulk (Instr.rbits c).opcode c dst.toNat count.toNat s

/-- The body of SEEK and SEEKREL: a target out of range sets OVF and moves the cursor to the end (43_reader.md R225,
90_conflicts.md C6). -/
def seekTo (op : BitVec 8) (c : CtxId) (pos : Int) (s : State) : State :=
  let cap := (s.ctx c).bitCap
  if pos < 0 ∨ pos > (cap : Int) then (s.overflow op c .bufferOverrun).setCursor c cap
  else s.setCursor c pos.toNat

/-- SEEK (43_reader.md R225). -/
def execSeek (c : CtxId) (s : State) : Host.Outcome State Fault Refusal := finish do
  needCtx c s
  let a ← operand .opa s
  needMode .reader c s
  .ok (seekTo (Instr.seek c).opcode c a.toInt s)

/-- SEEKREL (43_reader.md R226): the sum is mathematical. -/
def execSeekrel (c : CtxId) (s : State) : Host.Outcome State Fault Refusal := finish do
  needCtx c s
  let a ← operand .opa s
  needMode .reader c s
  .ok (seekTo (Instr.seekrel c).opcode c ((s.ctx c).cursor + a.toInt) s)

/-- The loop of CMPBITS (43_reader.md R227): `chunks` turns are left, `k` bits, `d` says whether a chunk differed. -/
def compareFrom (op : BitVec 8) (c c2 : CtxId) : Nat → Nat → Bool → State → Exec (Bool × State)
  | 0, _, d, s => .ok (d, s)
  | chunks + 1, k, d, s => do
    let w := min 32 k
    let (a, s) ← rd op c w s
    let (b, s) ← rd op c2 w s
    compareFrom op c c2 chunks (k - w) (d || a != b) s

/-- CMPBITS (43_reader.md R227). -/
def execCmpbits (c c2 : CtxId) (s : State) : Host.Outcome State Fault Refusal := finish do
  needCtx c s
  needCtx c2 s
  require (c2 ≠ c) .sameContext
  let count ← operand .opb s
  let n := count.toNat
  require (n < 2 ^ 31) .badOperand
  needMode .reader c s
  needMode .reader c2 s
  let (d, s) ← compareFrom (Instr.cmpbits c c2).opcode c c2 ((n + 31) / 32) n false s
  .ok (s.setRes0 (if d then 1 else 0))

end Sys2Proof.Machine
end

