-- ==== Sys2Proof/Machine/ReaderQuant.lean ====
section
/-! DEFINITION. The quantizing BitReader commands (44_reader_quant.md R260 to R268). A failed field reads as 0 and the
command goes on (R260). -/

namespace Sys2Proof.Machine

/-- `RNE32(ip + fr * 2^-F)` as a pattern, with its sign (44_reader_quant.md R261, R262). -/
def coordBits (neg : Bool) (ip fr width : Nat) : Word32 :=
  withSign neg (rne32Bits ((Frac.ofNat ip).add ⟨fr, 2 ^ width⟩))

/-- A field that is read only when `present`; 0 otherwise. -/
def rdIf (present : Bool) (op : BitVec 8) (c : CtxId) (n : Nat) (s : State) : Exec (Nat × State) :=
  if present then rd op c n s else .ok (0, s)

/-- `CoordGet(c)` (44_reader_quant.md R261). -/
def coordGet (op : BitVec 8) (c : CtxId) (s : State) : Exec (Word32 × State) := do
  let (hi, s) ← rd op c 1 s
  let (hf, s) ← rd op c 1 s
  if hi = 0 ∧ hf = 0 then .ok (0, s)
  else do
    let (sg, s) ← rd op c 1 s
    let (ip, s) ← rdIf (hi == 1) op c s.cfg.ib s
    let (fr, s) ← rdIf (hf == 1) op c s.cfg.fb s
    .ok (coordBits (sg == 1) (if hi = 1 then ip + 1 else 0) fr s.cfg.fb, s)

/-- RCOORD (44_reader_quant.md R261). -/
def execRcoord (c : CtxId) (s : State) : Host.Outcome State Fault Refusal := finish do
  needCtx c s
  needMode .reader c s
  let (v, s) ← coordGet (Instr.rcoord c).opcode c s
  .ok (s.setRes0 (zext64 v))

/-- The value RCOORDMP rebuilds (44_reader_quant.md R262). -/
def coordMpGet (op : BitVec 8) (c : CtxId) (integral lowPrec : Bool) (s : State) : Exec (Word32 × State) := do
  let width := s.cfg.mpFrac lowPrec
  let (inb, s) ← rd op c 1 s
  let iw := if inb = 1 then s.cfg.ibmp else s.cfg.ib
  let (hi, s) ← rd op c 1 s
  if integral then
    if hi = 0 then .ok (0, s)
    else do
      let (sg, s) ← rd op c 1 s
      let (ip, s) ← rd op c iw s
      .ok (coordBits (sg == 1) (ip + 1) 0 0, s)
  else do
    let (sg, s) ← rd op c 1 s
    let (ip, s) ← rdIf (hi == 1) op c iw s
    let (fr, s) ← rd op c width s
    .ok (coordBits (sg == 1) (if hi = 1 then ip + 1 else 0) fr width, s)

/-- RCOORDMP (44_reader_quant.md R262). -/
def execRcoordmp (c : CtxId) (integral lowPrec : Bool) (s : State) : Host.Outcome State Fault Refusal := finish do
  needCtx c s
  needMode .reader c s
  let (v, s) ← coordMpGet (Instr.rcoordmp c integral lowPrec).opcode c integral lowPrec s
  .ok (s.setRes0 (zext64 v))

/-- `bits32(RNE32(i * 360 / 2^n))`, one rounding of the exact quotient (44_reader_quant.md R263). -/
def angleBits (i n : Nat) : Word32 := BitVec.ofNat 32 (rne32Bits ⟨i * 360, 2 ^ n⟩)

/-- RANGLE (44_reader_quant.md R263). -/
def execRangle (c : CtxId) (nb : Fin 64) (s : State) : Host.Outcome State Fault Refusal := finish do
  needCtx c s
  needCount nb
  needMode .reader c s
  let (i, s) ← rd (Instr.rangle c nb).opcode c nb.val s
  .ok (s.setRes0 (zext64 (angleBits i nb.val)))

/-- RFLOAT (44_reader_quant.md R264): the bits as read. -/
def execRfloat (c : CtxId) (s : State) : Host.Outcome State Fault Refusal := finish do
  needCtx c s
  needMode .reader c s
  let (v, s) ← rd (Instr.rfloat c).opcode c 32 s
  .ok (s.setRes0 (BitVec.ofNat 64 v))

/-- `RNE32(RNE64(m * RNE64(1 / ND)))` as a pattern, with its sign (44_reader_quant.md R265). -/
def normalBits (neg : Bool) (m nd : Nat) : Word32 :=
  withSign neg (rne32Bits (rne64 ((Frac.ofNat m).mul (rne64 ⟨1, nd⟩))))

/-- `NormalGet(c)` (44_reader_quant.md R265). -/
def normalGet (op : BitVec 8) (c : CtxId) (s : State) : Exec (Word32 × State) := do
  let (sg, s) ← rd op c 1 s
  let (m, s) ← rd op c s.cfg.nfb s
  .ok (normalBits (sg == 1) m s.cfg.nd, s)

/-- RNORMAL (44_reader_quant.md R265). -/
def execRnormal (c : CtxId) (s : State) : Host.Outcome State Fault Refusal := finish do
  needCtx c s
  needMode .reader c s
  let (v, s) ← normalGet (Instr.rnormal c).opcode c s
  .ok (s.setRes0 (zext64 v))

/-- An axis that is read only when its presence flag is 1; +0.0 otherwise (44_reader_quant.md R267, R268). -/
def axisGet (present : Nat) (get : State → Exec (Word32 × State)) (s : State) : Exec (Word32 × State) :=
  if present = 1 then get s else .ok (0, s)

/-- `RES0 <- bits32(y)·2^32 + bits32(x); RES1 <- zext_64(bits32(z))` (44_reader_quant.md R266). -/
def State.setVector (s : State) (x y z : Word32) : State := (s.setRes0 (y ++ x)).setRes1 (zext64 z)

/-- RVEC3COORD, also ReadVec3Angles (44_reader_quant.md R267, 30_encoding.md R100). -/
def execRvec3coord (c : CtxId) (s : State) : Host.Outcome State Fault Refusal := finish do
  needCtx c s
  needMode .reader c s
  let op := (Instr.rvec3coord c).opcode
  let (px, s) ← rd op c 1 s
  let (py, s) ← rd op c 1 s
  let (pz, s) ← rd op c 1 s
  let (x, s) ← axisGet px (coordGet op c) s
  let (y, s) ← axisGet py (coordGet op c) s
  let (z, s) ← axisGet pz (coordGet op c) s
  .ok (s.setVector x y z)

/-- `SQRT32(RNE32(1 - t))` for t < 1 and +0.0 otherwise, as a pattern (44_reader_quant.md R268). -/
def normalZFrom (t : F32) : Nat :=
  match t with
  | .fin _ m => if m.lt (Frac.ofNat 1) then sqrt32Bits (rne32 ((Frac.ofNat 1).sub m)).mag else 0
  | _ => 0

/-- `RNE32(v * v)` of a component (44_reader_quant.md R268). -/
def normalSquare (v : Word32) : Frac := (rne32 ((F32.ofBits v).mag.mul (F32.ofBits v).mag)).mag

/-- The magnitude of z that RVEC3NORMAL rebuilds, as a pattern, from `t <- RNE32(RNE32(x·x) + RNE32(y·y))`
(44_reader_quant.md R268). -/
def normalZBits (x y : Word32) : Nat := normalZFrom (rne32 ((normalSquare x).add (normalSquare y)))

/-- RVEC3NORMAL (44_reader_quant.md R268). -/
def execRvec3normal (c : CtxId) (s : State) : Host.Outcome State Fault Refusal := finish do
  needCtx c s
  needMode .reader c s
  let op := (Instr.rvec3normal c).opcode
  let (px, s) ← rd op c 1 s
  let (py, s) ← rd op c 1 s
  let (x, s) ← axisGet px (normalGet op c) s
  let (y, s) ← axisGet py (normalGet op c) s
  let (zs, s) ← rd op c 1 s
  .ok (s.setVector x y (withSign (zs == 1) (normalZBits x y)))

end Sys2Proof.Machine
end

