-- ==== Sys2Proof/Machine/Status.lean ====
section
/-! DEFINITION. The status commands (45_status.md R290 to R295). They need a bound context in either mode, write RES0 (and
GETCAP RES1), and change nothing else. -/

namespace Sys2Proof.Machine

/-- GETBITS (45_status.md R290). -/
def execGetbits (c : CtxId) (s : State) : Host.Outcome State Fault Refusal := finish do
  needCtx c s
  needBound c s
  .ok (s.setRes0 (BitVec.ofNat 64 (s.ctx c).cursor))

/-- GETBYTES (45_status.md R291). -/
def execGetbytes (c : CtxId) (s : State) : Host.Outcome State Fault Refusal := finish do
  needCtx c s
  needBound c s
  .ok (s.setRes0 (BitVec.ofNat 64 (((s.ctx c).cursor + 7) / 8)))

/-- GETBITSLEFT (45_status.md R292); the difference is never negative (10_state.md R37). -/
def execGetbitsleft (c : CtxId) (s : State) : Host.Outcome State Fault Refusal := finish do
  needCtx c s
  needBound c s
  .ok (s.setRes0 (BitVec.ofNat 64 ((s.ctx c).bitCap - (s.ctx c).cursor)))

/-- GETBYTESLEFT (45_status.md R293). -/
def execGetbytesleft (c : CtxId) (s : State) : Host.Outcome State Fault Refusal := finish do
  needCtx c s
  needBound c s
  .ok (s.setRes0 (BitVec.ofNat 64 (((s.ctx c).bitCap - (s.ctx c).cursor) / 8)))

/-- GETCAP (45_status.md R294). -/
def execGetcap (c : CtxId) (s : State) : Host.Outcome State Fault Refusal := finish do
  needCtx c s
  needBound c s
  .ok ((s.setRes0 (BitVec.ofNat 64 (s.ctx c).bitCap)).setRes1 (BitVec.ofNat 64 (s.ctx c).byteCap))

/-- GETOVF (45_status.md R295): it does not clear OVF. -/
def execGetovf (c : CtxId) (s : State) : Host.Outcome State Fault Refusal := finish do
  needCtx c s
  needBound c s
  .ok (s.setRes0 (if (s.ctx c).ovf then 1 else 0))

end Sys2Proof.Machine
end

