-- ==== Sys2Proof/Machine/Writer.lean ====
section
/-! DEFINITION. The BitWriter commands (41_writer.md R140 to R151). Every write goes through `Wr` (20_memory.md R66). -/

namespace Sys2Proof.Machine

/-- WBIND (41_writer.md R140). -/
def execWbind (c : CtxId) (s : State) : Host.Outcome State Fault Refusal := finish (bindAs .writer c s)

/-- WBIT (41_writer.md R141): any nonzero OPA writes 1 (92_eei_decisions.md D27). -/
def execWbit (c : CtxId) (s : State) : Host.Outcome State Fault Refusal := finish do
  needCtx c s
  let a ← operand .opa s
  needMode .writer c s
  wr (Instr.wbit c).opcode c 1 (if a ≠ 0 then 1 else 0) s

/-- The debug range check of WUNS (41_writer.md R142, 60_exceptions.md R303): an advisory, the write goes on. -/
def rangeCheck (op : BitVec 8) (c : CtxId) (n v : Nat) (s : State) : State :=
  if s.cfg.debugRangeCheck ∧ n < 32 ∧ v ≥ 2 ^ n then s.overflow op c .valueOutOfRange else s

/-- WUNS (41_writer.md R142). -/
def execWuns (c : CtxId) (nb : Fin 64) (s : State) : Host.Outcome State Fault Refusal := finish do
  needCtx c s
  needCount nb
  let a ← operand .opa s
  needMode .writer c s
  let v := (lowWord a).toNat
  wr (Instr.wuns c nb).opcode c nb.val v (rangeCheck (Instr.wuns c nb).opcode c nb.val v s)

/-- WSIGNED (41_writer.md R143): the two's-complement pattern, taken modulo 2^NB by `Wr`. -/
def execWsigned (c : CtxId) (nb : Fin 64) (s : State) : Host.Outcome State Fault Refusal := finish do
  needCtx c s
  needCount nb
  let a ← operand .opa s
  needMode .writer c s
  wr (Instr.wsigned c nb).opcode c nb.val (lowWord a).toNat s

/-- The varint fast path (20_memory.md R69), after a varint write that began at cursor `p0`: when p0 is byte-aligned and
`w` bits fitted, every stream bit from the new cursor up to p0 + w holds a draw (notes/assumptions/9.md). -/
def varintTail (c : CtxId) (p0 w : Nat) (s : State) : Exec State :=
  let x := s.ctx c
  if p0 % 8 = 0 ∧ p0 + w ≤ x.bitCap then do
    let n := p0 + w - x.cursor
    let m ← putBits s.cfg s.mem x.base x.cursor n (freeBits s.draws n)
    .ok ((s.setMem m).setDraws (s.draws + n))
  else .ok s

/-- `VarPut(c, v)` (41_writer.md R144), then the fast-path rule with window `w` (20_memory.md R69). -/
def varPut (op : BitVec 8) (c : CtxId) (v w : Nat) (s : State) : Exec State := do
  let p0 := (s.ctx c).cursor
  let s ← wrAll op c ((varBytes v).map fun b => { width := 8, value := b }) s
  varintTail c p0 w s

/-- WVAR32 (41_writer.md R145). -/
def execWvar32 (c : CtxId) (s : State) : Host.Outcome State Fault Refusal := finish do
  needCtx c s
  let a ← operand .opa s
  needMode .writer c s
  varPut (Instr.wvar32 c).opcode c (lowWord a).toNat 40 s

/-- WVAR64 (41_writer.md R146). -/
def execWvar64 (c : CtxId) (s : State) : Host.Outcome State Fault Refusal := finish do
  needCtx c s
  let a ← operand .opa s
  needMode .writer c s
  varPut (Instr.wvar64 c).opcode c a.toNat 80 s

/-- WSVAR32 (41_writer.md R147). -/
def execWsvar32 (c : CtxId) (s : State) : Host.Outcome State Fault Refusal := finish do
  needCtx c s
  let a ← operand .opa s
  needMode .writer c s
  varPut (Instr.wsvar32 c).opcode c (zigzagEnc32 (lowWord a)).toNat 40 s

/-- WSVAR64 (41_writer.md R148). -/
def execWsvar64 (c : CtxId) (s : State) : Host.Outcome State Fault Refusal := finish do
  needCtx c s
  let a ← operand .opa s
  needMode .writer c s
  varPut (Instr.wsvar64 c).opcode c (zigzagEnc64 a).toNat 80 s

/-- The number of thresholds 16, 256, 4096 that v equals or exceeds (41_writer.md R149). -/
def ubitGroup (v : Nat) : Nat := (decide (v ≥ 16)).toNat + (decide (v ≥ 256)).toNat + (decide (v ≥ 4096)).toNat

/-- The fields of a UBitVar: the selector in the low 2 bits with v above it, then v's high half in group 3
(41_writer.md R149, 90_conflicts.md C2). -/
def ubitFields (v : Nat) : List StreamField :=
  let g := ubitGroup v
  { width := 6 + 4 * g, value := (4 * v + g) % 2 ^ (6 + 4 * g) } ::
    (if g = 3 then [{ width := 16, value := v / 2 ^ 16 }] else [])

/-- WUBITVAR (41_writer.md R149). -/
def execWubitvar (c : CtxId) (s : State) : Host.Outcome State Fault Refusal := finish do
  needCtx c s
  let a ← operand .opa s
  needMode .writer c s
  wrAll (Instr.wubitvar c).opcode c (ubitFields (lowWord a).toNat) s

/-- `for k in 0 .. n-1: PutBits(c, CURSOR + k, 1, bit k of the buffer at src)` (41_writer.md R150): `n` bits, from source
bit `k` to stream bit `p`. -/
def copyBits (cfg : Config) (base src : Nat) : Nat → Nat → Nat → Memory → Exec Memory
  | 0, _, _, m => .ok m
  | n + 1, k, p, m => do
    let b ← getBit cfg m src k
    let m ← putBit cfg m base p b
    copyBits cfg base src n (k + 1) (p + 1) m

/-- WBITS (41_writer.md R150): all or nothing. -/
def execWbits (c : CtxId) (s : State) : Host.Outcome State Fault Refusal := finish do
  needCtx c s
  let src ← operand .opa s
  let count ← operand .opb s
  let n := count.toNat
  require (n < 2 ^ 31) .badOperand
  needMode .writer c s
  require (sourceOverlap s src.toNat ((n + 7) / 8) = false) .overlap
  let x := s.ctx c
  if x.cursor + n > x.bitCap then .ok (s.overflow (Instr.wbits c).opcode c .bufferOverrun)
  else do
    let m ← copyBits s.cfg x.base src.toNat n 0 x.cursor s.mem
    .ok ((s.setCursor c (x.cursor + n)).setMem m)

/-- The bytes of the string at address a, its NUL included (41_writer.md R151). A byte in a writer's region refuses the
command (20_memory.md R79), a missing byte makes it stuck (R83). `fuel` bounds the bytes read: none exists from `memEnd` on, so
the distance to it and one more are always enough. -/
def scanString (s : State) : Nat → Nat → Exec (List Byte)
  | 0, a => .error (.fault (.missingAddress a))
  | fuel + 1, a => do
    require (sourceOverlap s a 1 = false) .overlap
    let b ← memRead s.cfg s.mem a
    if b = 0 then .ok [b]
    else do
      let rest ← scanString s fuel (a + 1)
      .ok (b :: rest)

/-- WSTRING (41_writer.md R151). No byte read lies in a writer's region, so reading the whole string before the first
write reads the same bytes as the rule's loop (notes/assumptions/14.md). -/
def execWstring (c : CtxId) (s : State) : Host.Outcome State Fault Refusal := finish do
  needCtx c s
  let a ← operand .opa s
  needMode .writer c s
  let bytes ← scanString s (memEnd s.cfg - a.toNat + 1) a.toNat
  wrAll (Instr.wstring c).opcode c (bytes.map fun b => { width := 8, value := b.toNat }) s

end Sys2Proof.Machine
end

