-- ==== Sys2Proof/Machine/WriterQuant.lean ====
section
/-! DEFINITION. The quantizing BitWriter commands (42_writer_quant.md R180 to R188). Each computes its fields from exact
values and writes them in order with `wrAll`; the second component of a field computation is the number of the next draw. -/

namespace Sys2Proof.Machine

/-- A one-bit field. -/
def flagField (b : Bool) : StreamField := { width := 1, value := b.toNat }

/-- The fields of `CoordPut(c, f)` (42_writer_quant.md R181). -/
def coordFields (cfg : Config) (f : F32) (k : Nat) : List StreamField × Nat :=
  let ip := truncNat (f.absMul (Frac.ofNat 1)) k
  let frac := truncNat (f.absMul (Frac.ofNat (2 ^ cfg.fb))) ip.2
  let fr := frac.1 % 2 ^ cfg.fb
  let hasInt := decide (ip.1 ≠ 0)
  let hasFrac := decide (fr ≠ 0)
  let body :=
    if hasInt || hasFrac then
      [flagField (f.signBit (resolution cfg.fb))]
        ++ (if hasInt then [{ width := cfg.ib, value := (ip.1 - 1) % 2 ^ cfg.ib }] else [])
        ++ (if hasFrac then [{ width := cfg.fb, value := fr }] else [])
    else []
  ([flagField hasInt, flagField hasFrac] ++ body, frac.2)

/-- WCOORD (42_writer_quant.md R181). -/
def execWcoord (c : CtxId) (s : State) : Host.Outcome State Fault Refusal := finish do
  needCtx c s
  let a ← operand .opa s
  needMode .writer c s
  let fs := coordFields s.cfg (floatOperand a) s.draws
  wrAll (Instr.wcoord c).opcode c fs.1 (s.setDraws fs.2)

/-- The fields of WriteBitCoordMP (42_writer_quant.md R182, 92_eei_decisions.md D11, D12). -/
def coordMpFields (cfg : Config) (integral lowPrec : Bool) (f : F32) (k : Nat) : List StreamField × Nat :=
  let width := cfg.mpFrac lowPrec
  let ip := truncNat (f.absMul (Frac.ofNat 1)) k
  let frac := truncNat (f.absMul (Frac.ofNat (2 ^ width))) ip.2
  let fr := frac.1 % 2 ^ width
  let sign := flagField (f.signBit (resolution width))
  let inb := decide (ip.1 < 2 ^ cfg.ibmp)
  let iw := if inb then cfg.ibmp else cfg.ib
  let hasInt := decide (ip.1 ≠ 0)
  let int : List StreamField := if hasInt then [{ width := iw, value := (ip.1 - 1) % 2 ^ iw }] else []
  let body :=
    if integral then (if hasInt then sign :: int else [])
    else sign :: (int ++ [{ width := width, value := fr }])
  ([flagField inb, flagField hasInt] ++ body, frac.2)

/-- WCOORDMP (42_writer_quant.md R182). -/
def execWcoordmp (c : CtxId) (integral lowPrec : Bool) (s : State) : Host.Outcome State Fault Refusal := finish do
  needCtx c s
  let a ← operand .opa s
  needMode .writer c s
  let fs := coordMpFields s.cfg integral lowPrec (floatOperand a) s.draws
  wrAll (Instr.wcoordmp c integral lowPrec).opcode c fs.1 (s.setDraws fs.2)

/-- `d = TruncInt(RNE64(f / 360) * 2^n) mod 2^n` (42_writer_quant.md R183): truncation toward zero, then the wrap. For a
NaN or an infinity TruncInt is a draw from the integers (00_scope.md R12). -/
def angleValue (f : F32) (n k : Nat) : Nat × Nat :=
  let t : Int × Nat :=
    match f with
    | .fin neg m =>
      let mag : Int := (((rne64 (m.divNat 360)).scale n).floor : Nat)
      (if neg then -mag else mag, k)
    | _ => (Config.freeInt k, k + 1)
  ((t.1 % 2 ^ n).toNat, t.2)

/-- WANGLE (42_writer_quant.md R183). -/
def execWangle (c : CtxId) (nb : Fin 64) (s : State) : Host.Outcome State Fault Refusal := finish do
  needCtx c s
  needCount nb
  let a ← operand .opa s
  needMode .writer c s
  let d := angleValue (floatOperand a) nb.val s.draws
  wr (Instr.wangle c nb).opcode c nb.val d.1 (s.setDraws d.2)

/-- WFLOAT (42_writer_quant.md R184): the raw pattern. -/
def execWfloat (c : CtxId) (s : State) : Host.Outcome State Fault Refusal := finish do
  needCtx c s
  let a ← operand .opa s
  needMode .writer c s
  wr (Instr.wfloat c).opcode c 32 (lowWord a).toNat s

/-- `RNE32(|f| * ND)` (42_writer_quant.md R185): the product is exact before the rounding, and may round to +infinity
(notes/assumptions/10.md). -/
def normalProduct (cfg : Config) (f : F32) : F32 :=
  match f.absMul (Frac.ofNat cfg.nd) with
  | .fin _ m => rne32 m
  | x => x

/-- The resolution of a normal component, `1/ND` (00_scope.md R7). -/
def normalResolution (cfg : Config) : Frac := ⟨1, cfg.nd⟩

/-- The fields of `NormalPut(c, f)` (42_writer_quant.md R185, 90_conflicts.md C1). -/
def normalFields (cfg : Config) (f : F32) (k : Nat) : List StreamField × Nat :=
  let m := truncNat (normalProduct cfg f) k
  ([flagField (f.signBit (normalResolution cfg)), { width := cfg.nfb, value := min m.1 cfg.nclamp }], m.2)

/-- WNORMAL (42_writer_quant.md R185). -/
def execWnormal (c : CtxId) (s : State) : Host.Outcome State Fault Refusal := finish do
  needCtx c s
  let a ← operand .opa s
  needMode .writer c s
  let fs := normalFields s.cfg (floatOperand a) s.draws
  wrAll (Instr.wnormal c).opcode c fs.1 (s.setDraws fs.2)

/-- The fields of an axis that is present, none for one that is not, and the number of the next draw. -/
def axisFields (present : Bool) (fields : Nat → List StreamField × Nat) (k : Nat) : List StreamField × Nat :=
  if present then fields k else ([], k)

/-- The fields of WriteVec3Coord (42_writer_quant.md R186, R187): three presence flags, then the present axes. -/
def vec3CoordFields (cfg : Config) (x y z : F32) (k : Nat) : List StreamField × Nat :=
  let r := resolution cfg.fb
  let fx := axisFields (x.absGe r) (coordFields cfg x) k
  let fy := axisFields (y.absGe r) (coordFields cfg y) fx.2
  let fz := axisFields (z.absGe r) (coordFields cfg z) fy.2
  ([flagField (x.absGe r), flagField (y.absGe r), flagField (z.absGe r)] ++ fx.1 ++ fy.1 ++ fz.1, fz.2)

/-- WVEC3COORD, also WriteVec3Angles (42_writer_quant.md R187, 30_encoding.md R100). -/
def execWvec3coord (c : CtxId) (s : State) : Host.Outcome State Fault Refusal := finish do
  needCtx c s
  let a ← operand .opa s
  let b ← operand .opb s
  needMode .writer c s
  let fs := vec3CoordFields s.cfg (floatOperand a) (F32.ofBits (highWord a)) (floatOperand b) s.draws
  wrAll (Instr.wvec3coord c).opcode c fs.1 (s.setDraws fs.2)

/-- The fields of WriteVec3Normal (42_writer_quant.md R188): two presence flags, the present axes, the sign of z. -/
def vec3NormalFields (cfg : Config) (x y z : F32) (k : Nat) : List StreamField × Nat :=
  let r := normalResolution cfg
  let fx := axisFields (x.absGe r) (normalFields cfg x) k
  let fy := axisFields (y.absGe r) (normalFields cfg y) fx.2
  ([flagField (x.absGe r), flagField (y.absGe r)] ++ fx.1 ++ fy.1 ++ [flagField (z.signBit r)], fy.2)

/-- WVEC3NORMAL (42_writer_quant.md R188). -/
def execWvec3normal (c : CtxId) (s : State) : Host.Outcome State Fault Refusal := finish do
  needCtx c s
  let a ← operand .opa s
  let b ← operand .opb s
  needMode .writer c s
  let fs := vec3NormalFields s.cfg (floatOperand a) (F32.ofBits (highWord a)) (floatOperand b) s.draws
  wrAll (Instr.wvec3normal c).opcode c fs.1 (s.setDraws fs.2)

end Sys2Proof.Machine
end

