-- ==== Sys2Proof/Machine/Dispatch.lean ====
section
/-! DEFINITION. One arm per command (30_encoding.md R92): the meaning of each. -/

namespace Sys2Proof.Machine

def exec (i : Instr) (s : State) : Host.Outcome State Fault Refusal :=
  match i with
  | .zzenc32 => Sys2Proof.Machine.execZzenc32 s
  | .zzdec32 => Sys2Proof.Machine.execZzdec32 s
  | .zzenc64 => Sys2Proof.Machine.execZzenc64 s
  | .zzdec64 => Sys2Proof.Machine.execZzdec64 s
  | .vsize32 => Sys2Proof.Machine.execVsize32 s
  | .vsize64 => Sys2Proof.Machine.execVsize64 s
  | .wbind c => Sys2Proof.Machine.execWbind c s
  | .wbit c => Sys2Proof.Machine.execWbit c s
  | .wuns c nb => Sys2Proof.Machine.execWuns c nb s
  | .wsigned c nb => Sys2Proof.Machine.execWsigned c nb s
  | .wvar32 c => Sys2Proof.Machine.execWvar32 c s
  | .wvar64 c => Sys2Proof.Machine.execWvar64 c s
  | .wsvar32 c => Sys2Proof.Machine.execWsvar32 c s
  | .wsvar64 c => Sys2Proof.Machine.execWsvar64 c s
  | .wubitvar c => Sys2Proof.Machine.execWubitvar c s
  | .wcoord c => Sys2Proof.Machine.execWcoord c s
  | .wcoordmp c integral lowPrec => Sys2Proof.Machine.execWcoordmp c integral lowPrec s
  | .wangle c nb => Sys2Proof.Machine.execWangle c nb s
  | .wfloat c => Sys2Proof.Machine.execWfloat c s
  | .wnormal c => Sys2Proof.Machine.execWnormal c s
  | .wvec3coord c => Sys2Proof.Machine.execWvec3coord c s
  | .wvec3normal c => Sys2Proof.Machine.execWvec3normal c s
  | .wbits c => Sys2Proof.Machine.execWbits c s
  | .wstring c => Sys2Proof.Machine.execWstring c s
  | .getbits c => Sys2Proof.Machine.execGetbits c s
  | .getbytes c => Sys2Proof.Machine.execGetbytes c s
  | .getbitsleft c => Sys2Proof.Machine.execGetbitsleft c s
  | .getbytesleft c => Sys2Proof.Machine.execGetbytesleft c s
  | .getcap c => Sys2Proof.Machine.execGetcap c s
  | .getovf c => Sys2Proof.Machine.execGetovf c s
  | .rbind c => Sys2Proof.Machine.execRbind c s
  | .rbit c => Sys2Proof.Machine.execRbit c s
  | .runs c nb => Sys2Proof.Machine.execRuns c nb s
  | .rsigned c nb => Sys2Proof.Machine.execRsigned c nb s
  | .peekuns c nb => Sys2Proof.Machine.execPeekuns c nb s
  | .rvar32 c => Sys2Proof.Machine.execRvar32 c s
  | .rvar64 c => Sys2Proof.Machine.execRvar64 c s
  | .rsvar32 c => Sys2Proof.Machine.execRsvar32 c s
  | .rsvar64 c => Sys2Proof.Machine.execRsvar64 c s
  | .rubitvar c => Sys2Proof.Machine.execRubitvar c s
  | .rcoord c => Sys2Proof.Machine.execRcoord c s
  | .rcoordmp c integral lowPrec => Sys2Proof.Machine.execRcoordmp c integral lowPrec s
  | .rangle c nb => Sys2Proof.Machine.execRangle c nb s
  | .rfloat c => Sys2Proof.Machine.execRfloat c s
  | .rnormal c => Sys2Proof.Machine.execRnormal c s
  | .rvec3coord c => Sys2Proof.Machine.execRvec3coord c s
  | .rvec3normal c => Sys2Proof.Machine.execRvec3normal c s
  | .rstring c nl => Sys2Proof.Machine.execRstring c nl s
  | .rbytes c => Sys2Proof.Machine.execRbytes c s
  | .rbits c => Sys2Proof.Machine.execRbits c s
  | .seek c => Sys2Proof.Machine.execSeek c s
  | .seekrel c => Sys2Proof.Machine.execSeekrel c s
  | .cmpbits c c2 => Sys2Proof.Machine.execCmpbits c c2 s

end Sys2Proof.Machine
end

