-- ==== Sys2Proof/Machine/HostActions.lean ====
section
/-! DEFINITION. What the host's actions do (10_state.md R39, 20_memory.md R76, 70_reset_and_hazards.md R330;
notes/assumptions/6.md, 7.md, 15.md). -/

namespace Sys2Proof.Machine

/-- The host writes an operand register, which then holds a value (10_state.md R39). -/
def State.writeOperand (s : State) (r : OperandName) (v : Word64) : State :=
  match r with
  | .opa => { s with opa := { value := v, written := true } }
  | .opb => { s with opb := { value := v, written := true } }
  | .opc => { s with opc := { value := v, written := true } }
  | .opd => { s with opd := { value := v, written := true } }

/-- The host writes a byte of its memory (20_memory.md R76). -/
def hostWriteByte (a : Nat) (b : Byte) (s : State) : Exec State := do
  let m ← memWrite s.cfg s.mem a b
  .ok (s.setMem m)

/-- Reset (70_reset_and_hazards.md R330): every piece of CORE state at its reset value; the memory, the parameters and what
the host still has to do are not the CORE's and stay. -/
def State.hostReset (s : State) : State :=
  { State.reset with cfg := s.cfg, mem := s.mem, draws := s.draws, inbox := s.inbox }

end Sys2Proof.Machine
end

