-- ==== Sys2Proof/Machine/Step.lean ====
section
/-! DEFINITION. One step: the CORE takes the host's next action (00_scope.md R5, 70_reset_and_hazards.md R334;
notes/assumptions/6.md). -/

namespace Sys2Proof.Machine

/-- The CORE runs a command word: it is decoded (30_encoding.md R93) and executed, or refused. -/
def runWord (w : Word32) (s : State) : Host.Outcome State Fault Refusal :=
  match decode w with
  | .ok i => exec i s
  | .error e => .refused (.notACommand e)

/-- One step. With no action pending the CORE is idle and nothing changes (60_exceptions.md R318). -/
def step (s : State) : Host.Outcome State Fault Refusal :=
  match s.inbox with
  | [] => .next s
  | .writeOperand r v :: rest => .next ((s.setInbox rest).writeOperand r v)
  | .writeByte a b :: rest => finish (hostWriteByte a b (s.setInbox rest))
  | .reset :: rest => .next (s.setInbox rest).hostReset
  | .command w :: rest => runWord w (s.setInbox rest)

/-- The state in which the very next step runs the command word `w` of `nbits` bits: the host issues it next. A command is
one 32-bit word (30_encoding.md R98), so the bits above it are dropped. -/
def State.withFetchWord (s : State) (nbits w : Nat) : State :=
  s.setInbox (.command (BitVec.ofNat 32 (w % 2 ^ nbits)) :: s.inbox)

end Sys2Proof.Machine
end

