-- ==== Sys2Proof/Safety.lean ====
section
/-! DEFINITION. The terms of the claims: stream bits read straight from memory, contexts that are ready for a command, the
result of writing a field, which commands read which registers, and the invariant of the machine. -/

namespace Sys2Proof.Machine

/-! ### Bits of memory -/

/-- Bit k of memory, bit `k mod 8` of byte `k div 8` (20_memory.md R62). -/
def memBit (m : Memory) (k : Nat) : Bool := (m.read (k / 8)).getLsbD (k % 8)

/-- The number whose bit i is bit `k + i` of memory, for i < n (20_memory.md R64). -/
def memBits (m : Memory) (k : Nat) : Nat → Nat
  | 0 => 0
  | n + 1 => (memBit m k).toNat + 2 * memBits m (k + 1) n

/-- `StreamBit(c, p)` (20_memory.md R62). -/
def streamBit (s : State) (c : CtxId) (p : Nat) : Bool := memBit s.mem (8 * (s.ctx c).base + p)

/-- `GetBits(c, p, n)` (20_memory.md R64). -/
def streamBits (s : State) (c : CtxId) (p n : Nat) : Nat := memBits s.mem (8 * (s.ctx c).base + p) n

/-! ### Readiness -/

/-- The context's stream bits lie in memory that exists (70_reset_and_hazards.md R332). -/
abbrev Buffered (s : State) (c : CtxId) : Prop :=
  ∀ p < (s.ctx c).bitCap, memOK s.cfg ((s.ctx c).base + p / 8) = true

/-- Context c is bound as `mode`, its index is legal, and its stream bits lie in memory that exists. -/
abbrev Ready (s : State) (mode : Mode) (c : CtxId) : Prop :=
  c.val < s.cfg.nCtx ∧ (s.ctx c).mode = mode ∧ Buffered s c

/-- The bytes [a, a + n) all exist. -/
abbrev BytesOK (k : Config) (a n : Nat) : Prop := ∀ j < n, memOK k (a + j) = true

/-- `n` more bits fit in the stream of c (20_memory.md R66, R67). -/
abbrev Fits (s : State) (c : CtxId) (n : Nat) : Prop := (s.ctx c).cursor + n ≤ (s.ctx c).bitCap

/-! ### What a write leaves -/

/-- `t` is `s` after the `n` low bits of `v` went out at the cursor of c: the cursor has moved by n, those stream bits hold
v, every other bit of memory and every other field is as in s (20_memory.md R65, R66). -/
def Wrote (s : State) (c : CtxId) (n v : Nat) (t : State) : Prop :=
  t = (s.setCursor c ((s.ctx c).cursor + n)).setMem t.mem ∧
  ∀ k, memBit t.mem k =
    if 8 * (s.ctx c).base + (s.ctx c).cursor ≤ k ∧ k < 8 * (s.ctx c).base + (s.ctx c).cursor + n
    then v.testBit (k - (8 * (s.ctx c).base + (s.ctx c).cursor)) else memBit s.mem k

/-- `t` is what `Wr(c, n, v)` of the command with opcode `op` leaves of `s`: the field written when it fits, the error
procedure's effect and nothing else when it does not (20_memory.md R66). -/
def WrOutcome (op : BitVec 8) (c : CtxId) (n v : Nat) (s t : State) : Prop :=
  (Fits s c n → Wrote s c n v t) ∧ (¬Fits s c n → t = s.overflow op c .bufferOverrun)

/-- `t` is what the fields, written one after the other, each with its own check, leave of `s` (20_memory.md R68). -/
def WritesAll (op : BitVec 8) (c : CtxId) : List StreamField → State → State → Prop
  | [], s, t => t = s
  | f :: fs, s, t => ∃ u, WrOutcome op c f.width f.value s u ∧ WritesAll op c fs u t

/-- `v` and `t` are what `Rd(c, n)` of the command with opcode `op` yields and leaves of `s`: the stream bits and a cursor
moved by n when they fit, 0 and the error procedure's effect when they do not (20_memory.md R67). -/
def RdOutcome (op : BitVec 8) (c : CtxId) (n : Nat) (s : State) (v : Nat) (t : State) : Prop :=
  (Fits s c n → v = streamBits s c (s.ctx c).cursor n ∧ t = s.setCursor c ((s.ctx c).cursor + n)) ∧
  (¬Fits s c n → v = 0 ∧ t = s.overflow op c .bufferOverrun)

/-- A read outcome of a field that is there only under a condition; 0 and no access otherwise. -/
def RdOutcomeIf (p : Prop) (op : BitVec 8) (c : CtxId) (n : Nat) (s : State) (v : Nat) (t : State) : Prop :=
  (p → RdOutcome op c n s v t) ∧ (¬p → v = 0 ∧ t = s)

/-- In `u`, context d is a reader over the buffer that the writer c had in `s`, with the memory of `t` and the cursor where
the writer's cursor was in `s`: it reads back what was written from s to t. -/
def Rereads (s : State) (c : CtxId) (t u : State) (d : CtxId) : Prop :=
  u.cfg = s.cfg ∧ u.mem = t.mem ∧ d.val < u.cfg.nCtx ∧ (u.ctx d).mode = .reader ∧
  (u.ctx d).base = (s.ctx c).base ∧ (u.ctx d).bitCap = (s.ctx c).bitCap ∧ (u.ctx d).cursor = (s.ctx c).cursor

/-! ### Varints -/

/-- Byte i of the encoding of v in `size` bytes: 7 payload bits, and bit 7 set on all but the last byte (41_writer.md
R144). -/
def varintByte (v size i : Nat) : Nat := v / 2 ^ (7 * i) % 2 ^ 7 + (if i + 1 < size then 2 ^ 7 else 0)

/-- The 8-bit fields that `VarPut(c, v)` sends when the encoding has `size` bytes (41_writer.md R144). -/
def varintFields (v size : Nat) : List StreamField := (List.range size).map fun i => ⟨8, varintByte v size i⟩

/-- `size` is the least number k ≥ 1 of 7-bit groups that hold v (40_codec.md R124). -/
def IsVarintSize (v size : Nat) : Prop :=
  1 ≤ size ∧ v < 2 ^ (7 * size) ∧ ∀ k, 1 ≤ k → v < 2 ^ (7 * k) → size ≤ k

/-- `t` is what the fast-path rule with window w may leave of `u`, the cursor of c having been p0 before the command
(20_memory.md R69): when p0 is byte-aligned and w bits fitted, the stream bits from the cursor up to p0 + w hold any
values; every other bit of memory is as in u, and without that condition all are. -/
def FastPath (c : CtxId) (p0 w : Nat) (u t : State) : Prop :=
  t = (u.setMem t.mem).setDraws t.draws ∧
  ∀ k, ¬(p0 % 8 = 0 ∧ p0 + w ≤ (u.ctx c).bitCap ∧ 8 * (u.ctx c).base + (u.ctx c).cursor ≤ k ∧
      k < 8 * (u.ctx c).base + (p0 + w)) → memBit t.mem k = memBit u.mem k

/-- `v` and `t` are what `VarGet` yields and leaves of `s` when it may still read `left` bytes, `k` bytes have been read and
they give r (43_reader.md R216). The cap ends the loop with no error (R220). -/
def VarReads (op : BitVec 8) (c : CtxId) : Nat → Nat → Nat → State → Nat → State → Prop
  | 0, _, r, s, v, t => v = r ∧ t = s
  | left + 1, k, r, s, v, t => ∃ b u, RdOutcome op c 8 s b u ∧
    (b < 2 ^ 7 → v = r + b * 2 ^ (7 * k) ∧ t = u) ∧
    (2 ^ 7 ≤ b → VarReads op c left (k + 1) (r + b % 2 ^ 7 * 2 ^ (7 * k)) u v t)

/-! ### Two readers -/

/-- The chunk widths of CMPBITS for n bits: 32 each, then what is left (43_reader.md R227). -/
def compareChunks (n : Nat) : List Nat := List.replicate (n / 32) 32 ++ (if n % 32 = 0 then [] else [n % 32])

/-- `d` and `t` are what the loop of CMPBITS over these chunks yields and leaves of `s` (43_reader.md R227). -/
def CompareReads (op : BitVec 8) (c c2 : CtxId) : List Nat → State → Prop → State → Prop
  | [], s, d, t => ¬d ∧ t = s
  | w :: ws, s, d, t => ∃ a u b v e, RdOutcome op c w s a u ∧ RdOutcome op c2 w u b v ∧ CompareReads op c c2 ws v e t ∧
    (d ↔ a ≠ b ∨ e)

/-! ### Buffers -/

/-- The byte regions [a, a + n) and [b, b + m) share a byte (20_memory.md R79). -/
def SharesByte (a n b m : Nat) : Prop := ∃ x, a ≤ x ∧ x < a + n ∧ b ≤ x ∧ x < b + m

/-- The bytes [a, a + n) share one with the region of some context of the machine that `p` picks. -/
def SharesRegion (s : State) (p : CtxId → Prop) (a n : Nat) : Prop :=
  ∃ d : CtxId, d.val < s.cfg.nCtx ∧ (s.ctx d).mode ≠ .unbound ∧ p d ∧ SharesByte a n (s.ctx d).base (s.ctx d).byteCap

/-- The overlap that refuses a bind of c as `mode` (20_memory.md R79). -/
abbrev BindOverlaps (s : State) (c : CtxId) (mode : Mode) (a n : Nat) : Prop :=
  SharesRegion s (fun d => d ≠ c ∧ (mode = .writer ∨ (s.ctx d).mode = .writer)) a n

/-- The overlap that refuses a source buffer (20_memory.md R79). -/
abbrev SourceOverlaps (s : State) (a n : Nat) : Prop := SharesRegion s (fun d => (s.ctx d).mode = .writer) a n

/-- The overlap that refuses a destination buffer (20_memory.md R79). -/
abbrev DestOverlaps (s : State) (a n : Nat) : Prop := SharesRegion s (fun _ => True) a n

/-- The bit capacity that the operands of a bind give, where they are legal (41_writer.md R140, 30_encoding.md R94). -/
def BindCap (s : State) (cap : Nat) : Prop :=
  s.opb.value.toNat ≤ 2 ^ 28 - 1 ∧
  (s.opd.value = -1 ∧ cap = 8 * s.opb.value.toNat ∨ s.opd.value.toNat = cap ∧ cap ≤ 8 * s.opb.value.toNat) ∧
  s.opc.value.toNat ≤ cap

/-- OPA fits BASE, which has ADDR_W bits (10_state.md R31). -/
abbrev BindBase (s : State) : Prop := s.opa.value.toNat < 2 ^ s.cfg.addrW

/-- The operand registers of a bind have been written. -/
abbrev BindWritten (s : State) : Prop :=
  s.opa.written = true ∧ s.opb.written = true ∧ s.opc.written = true ∧ s.opd.written = true

/-- `t` is `s` with the n bytes from address a set to f 0, f 1, …: no other byte of memory and no other field differs. -/
def SetsBytes (s : State) (a n : Nat) (f : Nat → Byte) (t : State) : Prop :=
  t = s.setMem t.mem ∧ ∀ x, t.mem.read x = if a ≤ x ∧ x < a + n then f (x - a) else s.mem.read x

/-! ### binary32 values and rounding, over exact numbers (00_scope.md R12) -/

/-- The exact value of a fraction. -/
def Frac.toRat (x : Frac) : ℚ := (x.num : ℚ) / x.den

/-- The exponent field of a binary32 pattern. -/
def exp32 (b : Word32) : Nat := b.toNat / 2 ^ 23 % 2 ^ 8

/-- The fraction field of a binary32 pattern. -/
def frac32 (b : Word32) : Nat := b.toNat % 2 ^ 23

/-- `finite(f32(b))`. -/
abbrev Finite32 (b : Word32) : Prop := exp32 b ≠ 255

/-- f32(b) is a NaN. -/
abbrev NaN32 (b : Word32) : Prop := exp32 b = 255 ∧ frac32 b ≠ 0

/-- The sign bit. -/
def neg32 (b : Word32) : Bool := b.getLsbD 31

/-- `|f32(b)|` for a finite pattern. -/
def mag32 (b : Word32) : ℚ :=
  if exp32 b = 0 then (frac32 b : ℚ) * 2 ^ (-149 : ℤ) else (2 ^ 23 + (frac32 b : ℚ)) * 2 ^ ((exp32 b : ℤ) - 150)

/-- `|f32(b)| ≥ r`: true of an infinity, false of a NaN. -/
abbrev AbsGe32 (b : Word32) (r : ℚ) : Prop := ¬NaN32 b ∧ (Finite32 b → r ≤ mag32 b)

/-- `SignBit(f32(b), r)` for r > 0: f ≤ -r. -/
abbrev Sign32 (b : Word32) (r : ℚ) : Prop := neg32 b = true ∧ AbsGe32 b r

/-- `y` is x rounded to nearest, ties to even, in a binary format of p significant bits whose smallest positive value is
`2^emin`, the exponent unbounded above: y is such a value, and every other such value is farther from x, or as far and then
y's significand is even. -/
def IsRNE {K : Type} [Field K] [LinearOrder K] (p : Nat) (emin : ℤ) (x y : K) : Prop :=
  ∃ (m : Nat) (e : ℤ), y = (m : K) * 2 ^ e ∧ m < 2 ^ p ∧ emin ≤ e ∧ (2 ^ (p - 1) ≤ m ∨ e = emin) ∧
    ∀ (m' : Nat) (e' : ℤ), m' < 2 ^ p → emin ≤ e' → (m' : K) * 2 ^ e' ≠ y →
      |x - y| < |x - (m' : K) * 2 ^ e'| ∨ (|x - y| = |x - (m' : K) * 2 ^ e'| ∧ Even m)

/-- The pattern b is `(-1)^neg * RNE32(x)` for a real x ≥ 0 whose rounding is finite. -/
def IsPattern32 {K : Type} [Field K] [LinearOrder K] (b : Word32) (neg : Bool) (x : K) : Prop :=
  neg32 b = neg ∧ Finite32 b ∧ IsRNE 24 (-149) x ((mag32 b : ℚ) : K)

/-! ### The layouts of the quantizing writers -/

/-- The fields of `CoordPut` for integer part `ip`, fraction `fr` and sign `neg` (42_writer_quant.md R181). -/
def coordLayout (ib fb ip fr : Nat) (neg : Bool) : List StreamField :=
  [{ width := 1, value := if ip ≠ 0 then 1 else 0 }, { width := 1, value := if fr ≠ 0 then 1 else 0 }] ++
    (if ip ≠ 0 ∨ fr ≠ 0 then
      [{ width := 1, value := if neg then 1 else 0 }] ++
        (if ip ≠ 0 then [{ width := ib, value := (ip - 1) % 2 ^ ib }] else []) ++
        (if fr ≠ 0 then [{ width := fb, value := fr }] else [])
    else [])

/-- `fs` are the fields `CoordPut` writes for the pattern b, the draws going from number k to number k' (42_writer_quant.md
R180, R181): for a finite value no draw, for the others an integer part and a fraction of any value. -/
def CoordFieldsOf (cfg : Config) (b : Word32) (k : Nat) (fs : List StreamField) (k' : Nat) : Prop :=
  ∃ ip fr, fs = coordLayout cfg.ib cfg.fb ip fr (Sign32 b (1 / 2 ^ cfg.fb)) ∧ fr < 2 ^ cfg.fb ∧
    (Finite32 b → ip = ⌊mag32 b⌋₊ ∧ fr = ⌊mag32 b * 2 ^ cfg.fb⌋₊ % 2 ^ cfg.fb ∧ k' = k) ∧
    (¬Finite32 b → k' = k + 2)

/-- The fields of WriteBitCoordMP for integer part `ip`, fraction `fr` and sign `neg` (42_writer_quant.md R182). -/
def coordMpLayout (cfg : Config) (integral lowPrec : Bool) (ip fr : Nat) (neg : Bool) : List StreamField :=
  let inb := ip < 2 ^ cfg.ibmp
  let iw := if inb then cfg.ibmp else cfg.ib
  let sign : StreamField := { width := 1, value := if neg then 1 else 0 }
  let int : List StreamField := if ip ≠ 0 then [{ width := iw, value := (ip - 1) % 2 ^ iw }] else []
  [{ width := 1, value := if inb then 1 else 0 }, { width := 1, value := if ip ≠ 0 then 1 else 0 }] ++
    (if integral then (if ip ≠ 0 then sign :: int else [])
     else sign :: (int ++ [{ width := cfg.mpFrac lowPrec, value := fr }]))

/-- The fields of WriteBitCoordMP for the pattern b (42_writer_quant.md R182), as `CoordFieldsOf`. -/
def CoordMpFieldsOf (cfg : Config) (integral lowPrec : Bool) (b : Word32) (k : Nat) (fs : List StreamField) (k' : Nat) : Prop :=
  let w := cfg.mpFrac lowPrec
  ∃ ip fr, fs = coordMpLayout cfg integral lowPrec ip fr (Sign32 b (1 / 2 ^ w)) ∧ fr < 2 ^ w ∧
    (Finite32 b → ip = ⌊mag32 b⌋₊ ∧ fr = ⌊mag32 b * 2 ^ w⌋₊ % 2 ^ w ∧ k' = k) ∧
    (¬Finite32 b → k' = k + 2)

/-- `d` is the field of WriteBitAngle for the pattern b and n bits (42_writer_quant.md R183): for a finite value
`TruncInt(RNE64(f / 360) * 2^n) mod 2^n`, otherwise any n-bit value and one draw. -/
def AngleFieldOf (b : Word32) (n k d k' : Nat) : Prop :=
  d < 2 ^ n ∧
  (Finite32 b → k' = k ∧ ∃ y : ℚ, IsRNE 53 (-1074) (mag32 b / 360) y ∧
    (d : ℤ) = (if neg32 b then -⌊y * 2 ^ n⌋ else ⌊y * 2 ^ n⌋) % 2 ^ n) ∧
  (¬Finite32 b → k' = k + 1)

/-- `fs` are the fields `NormalPut` writes for the pattern b (42_writer_quant.md R185): the sign, and the truncation of
`RNE32(|f| * ND)` clamped at NCLAMP; where that is not finite, a draw clamped at NCLAMP. -/
def NormalFieldsOf (cfg : Config) (b : Word32) (k : Nat) (fs : List StreamField) (k' : Nat) : Prop :=
  ∃ m, fs = [{ width := 1, value := if Sign32 b (1 / cfg.nd) then 1 else 0 }, { width := cfg.nfb, value := min m cfg.nclamp }] ∧
    (Finite32 b → ∃ y : ℚ, IsRNE 24 (-149) (mag32 b * cfg.nd) y ∧
      (y < 2 ^ 128 → m = ⌊y⌋₊ ∧ k' = k) ∧ (2 ^ 128 ≤ y → k' = k + 1)) ∧
    (¬Finite32 b → k' = k + 1)

/-- The fields of an axis that is present, none and no draw for one that is not (42_writer_quant.md R186). -/
def AxisFieldsOf (present : Prop) (fieldsOf : Nat → List StreamField → Nat → Prop) (k : Nat) (fs : List StreamField) (k' : Nat) : Prop :=
  (present → fieldsOf k fs k') ∧ (¬present → fs = [] ∧ k' = k)

/-! ### What the quantizing readers rebuild -/

/-- `b` and `t` are what `CoordGet(c)` yields and leaves of `s` (44_reader_quant.md R261). -/
def CoordReads (op : BitVec 8) (c : CtxId) (s : State) (b : Word32) (t : State) : Prop :=
  ∃ hi u₁ hf u₂, RdOutcome op c 1 s hi u₁ ∧ RdOutcome op c 1 u₁ hf u₂ ∧
    (hi = 0 ∧ hf = 0 → b = 0 ∧ t = u₂) ∧
    (¬(hi = 0 ∧ hf = 0) → ∃ sg u₃ ip u₄ fr, RdOutcome op c 1 u₂ sg u₃ ∧
      RdOutcomeIf (hi = 1) op c s.cfg.ib u₃ ip u₄ ∧ RdOutcomeIf (hf = 1) op c s.cfg.fb u₄ fr t ∧
      IsPattern32 (K := ℚ) b (sg == 1) ((if hi = 1 then (ip : ℚ) + 1 else 0) + fr / 2 ^ s.cfg.fb))

/-- `b` and `t` are what RCOORDMP rebuilds and leaves of `s` (44_reader_quant.md R262). -/
def CoordMpReads (op : BitVec 8) (c : CtxId) (integral lowPrec : Bool) (s : State) (b : Word32) (t : State) : Prop :=
  ∃ inb u₁ hi u₂, RdOutcome op c 1 s inb u₁ ∧ RdOutcome op c 1 u₁ hi u₂ ∧
    let iw := if inb = 1 then s.cfg.ibmp else s.cfg.ib
    let w := s.cfg.mpFrac lowPrec
    (integral = true → hi = 0 → b = 0 ∧ t = u₂) ∧
    (integral = true → hi ≠ 0 → ∃ sg u₃ ip, RdOutcome op c 1 u₂ sg u₃ ∧ RdOutcome op c iw u₃ ip t ∧
      IsPattern32 (K := ℚ) b (sg == 1) ((ip : ℚ) + 1)) ∧
    (integral = false → ∃ sg u₃ ip u₄ fr, RdOutcome op c 1 u₂ sg u₃ ∧ RdOutcomeIf (hi = 1) op c iw u₃ ip u₄ ∧
      RdOutcome op c w u₄ fr t ∧
      IsPattern32 (K := ℚ) b (sg == 1) ((if hi = 1 then (ip : ℚ) + 1 else 0) + fr / 2 ^ w))

/-- `b` and `t` are what `NormalGet(c)` yields and leaves of `s`: `RNE32(RNE64(m * RNE64(1 / ND)))` with its sign
(44_reader_quant.md R265). -/
def NormalReads (op : BitVec 8) (c : CtxId) (s : State) (b : Word32) (t : State) : Prop :=
  ∃ sg u m, RdOutcome op c 1 s sg u ∧ RdOutcome op c s.cfg.nfb u m t ∧
    ∃ r d : ℚ, IsRNE 53 (-1074) (1 / (s.cfg.nd : ℚ)) r ∧ IsRNE 53 (-1074) (m * r) d ∧ IsPattern32 (K := ℚ) b (sg == 1) d

/-- An axis that is read when its presence flag p is 1, +0.0 otherwise (44_reader_quant.md R267, R268). -/
def AxisReads (p : Nat) (reads : State → Word32 → State → Prop) (s : State) (b : Word32) (t : State) : Prop :=
  (p = 1 → reads s b t) ∧ (p ≠ 1 → b = 0 ∧ t = s)

/-- `z` is what RVEC3NORMAL rebuilds from x and y, its sign `neg` (44_reader_quant.md R268):
`t <- RNE32(RNE32(x * x) + RNE32(y * y))`, then `SQRT32(RNE32(1 - t))` for t < 1 and +0.0 otherwise. -/
def NormalZ (x y : Word32) (neg : Bool) (z : Word32) : Prop :=
  ∃ xx yy t : Word32, IsPattern32 (K := ℚ) xx false (mag32 x * mag32 x) ∧ IsPattern32 (K := ℚ) yy false (mag32 y * mag32 y) ∧
    IsPattern32 (K := ℚ) t false (mag32 xx + mag32 yy) ∧
    (mag32 t < 1 → ∃ r : Word32, IsPattern32 (K := ℚ) r false (1 - mag32 t) ∧ IsPattern32 (K := ℝ) z neg √(mag32 r : ℝ)) ∧
    (1 ≤ mag32 t → neg32 z = neg ∧ Finite32 z ∧ mag32 z = 0)

end Sys2Proof.Machine

namespace Sys2Proof

/-! ### The commands by what they name (30_encoding.md R91, R92, R96) -/

/-- The contexts a command names: C, and C2 for CMPBITS. The codec commands name none. -/
def Instr.contexts (i : Instr) : List CtxId :=
  match i with
  | .zzenc32 | .zzdec32 | .zzenc64 | .zzdec64 | .vsize32 | .vsize64 => []
  | .cmpbits c c2 => [c, c2]
  | .wuns c _ | .wsigned c _ | .wangle c _ | .runs c _ | .rsigned c _ | .peekuns c _ | .rangle c _ => [c]
  | .wcoordmp c _ _ | .rcoordmp c _ _ | .rstring c _ => [c]
  | .wbind c | .wbit c | .wvar32 c | .wvar64 c | .wsvar32 c | .wsvar64 c | .wubitvar c | .wcoord c | .wfloat c
  | .wnormal c | .wvec3coord c | .wvec3normal c | .wbits c | .wstring c => [c]
  | .getbits c | .getbytes c | .getbitsleft c | .getbytesleft c | .getcap c | .getovf c => [c]
  | .rbind c | .rbit c | .rvar32 c | .rvar64 c | .rsvar32 c | .rsvar64 c | .rubitvar c | .rcoord c | .rfloat c
  | .rnormal c | .rvec3coord c | .rvec3normal c | .rbytes c | .rbits c | .seek c | .seekrel c => [c]

/-- WBIND and RBIND. -/
def Instr.isBind : Instr → Bool
  | .wbind _ | .rbind _ => true
  | _ => false

/-- The mode a command may run in, as a test of its context's MODE (30_encoding.md R96). -/
def Instr.modeOK (i : Instr) (m : Machine.Mode) : Bool :=
  if i.isBind then true
  else if 0x11 ≤ i.opcode.toNat ∧ i.opcode.toNat ≤ 0x21 then decide (m = .writer)
  else if 0x41 ≤ i.opcode.toNat ∧ i.opcode.toNat ≤ 0x56 then decide (m = .reader)
  else decide (m ≠ .unbound)

/-- The operand registers a command reads (30_encoding.md R91). -/
def Instr.reads : Instr → List Machine.OperandName
  | .zzenc32 | .zzdec32 | .zzenc64 | .zzdec64 | .vsize32 | .vsize64 => [.opa]
  | .wbind _ | .rbind _ => [.opa, .opb, .opc, .opd]
  | .wbit _ | .wuns _ _ | .wsigned _ _ | .wvar32 _ | .wvar64 _ | .wsvar32 _ | .wsvar64 _ | .wubitvar _ => [.opa]
  | .wcoord _ | .wcoordmp _ _ _ | .wangle _ _ | .wfloat _ | .wnormal _ => [.opa]
  | .wvec3coord _ | .wvec3normal _ | .wbits _ => [.opa, .opb]
  | .wstring _ => [.opa]
  | .getbits _ | .getbytes _ | .getbitsleft _ | .getbytesleft _ | .getcap _ | .getovf _ => []
  | .rbit _ | .runs _ _ | .rsigned _ _ | .peekuns _ _ | .rvar32 _ | .rvar64 _ | .rsvar32 _ | .rsvar64 _
  | .rubitvar _ | .rcoord _ | .rcoordmp _ _ _ | .rangle _ _ | .rfloat _ | .rnormal _ | .rvec3coord _
  | .rvec3normal _ => []
  | .rstring _ _ | .rbytes _ | .rbits _ => [.opa, .opb]
  | .seek _ | .seekrel _ => [.opa]
  | .cmpbits _ _ => [.opb]

/-- The operand registers of a command hold legal values (30_encoding.md R94). -/
def Instr.OperandsLegal (i : Instr) (s : Machine.State) : Prop :=
  match i with
  | .wbind _ | .rbind _ => ∃ cap, Machine.BindCap s cap
  | .wbits _ | .rbits _ | .cmpbits _ _ => s.opb.value.toNat < 2 ^ 31
  | .rbytes _ => s.opb.value.toNat < 2 ^ 28
  | .rstring _ _ => 1 ≤ s.opb.value.toNat ∧ s.opb.value.toNat < 2 ^ 31
  | _ => True

/-- The word of command i has the opcode `op`, the fields f and no reserved bit, and it decodes to i (30_encoding.md R90,
R92, R93). -/
def CommandWord (i : Instr) (op : Nat) (f : Fields) : Prop :=
  opField (encode i) = op ∧ fieldsOf (encode i) = f ∧ rsvField (encode i) = 0 ∧ decode (encode i) = .ok i

/-- The fields of a word that uses C alone, or none with c = 0. -/
def Fields.ofCtx (c : CtxId) : Fields := { c := c, c2 := 0, nb := 0, i := false, l := false, n := false }

/-- The fields of a word that uses C and NB. -/
def Fields.ofCount (c : CtxId) (nb : Fin 64) : Fields := { Fields.ofCtx c with nb := nb }

/-- A command that writes RES0 (30_encoding.md R91). -/
def Instr.writesRes0 : Instr → Bool
  | .zzenc32 | .zzdec32 | .zzenc64 | .zzdec64 | .vsize32 | .vsize64 => true
  | .getbits _ | .getbytes _ | .getbitsleft _ | .getbytesleft _ | .getcap _ | .getovf _ => true
  | .rbit _ | .runs _ _ | .rsigned _ _ | .peekuns _ _ | .rvar32 _ | .rvar64 _ | .rsvar32 _ | .rsvar64 _
  | .rubitvar _ | .rcoord _ | .rcoordmp _ _ _ | .rangle _ _ | .rfloat _ | .rnormal _ | .rvec3coord _
  | .rvec3normal _ | .rstring _ _ | .cmpbits _ _ => true
  | _ => false

/-- A command that writes RES1 (30_encoding.md R91). -/
def Instr.writesRes1 : Instr → Bool
  | .getcap _ | .rvec3coord _ | .rvec3normal _ | .rstring _ _ => true
  | _ => false

end Sys2Proof

namespace Sys2Proof.Machine

/-! ### The invariant -/

/-- A context is as reset left it, or bound with `0 ≤ CURSOR ≤ BITCAP ≤ 8 · BYTECAP` and the widths of its fields
(10_state.md R31, R34, R37): BASE has `addrW` bits, BYTECAP 28, and so BITCAP and CURSOR 31. -/
def Ctx.Ok (x : Ctx) (addrW : Nat) : Prop :=
  if x.mode = .unbound then x = Ctx.reset
  else x.cursor ≤ x.bitCap ∧ x.bitCap ≤ 8 * x.byteCap ∧ x.byteCap < 2 ^ 28 ∧ x.base < 2 ^ addrW

/-- The invariant of the machine: it holds after reset, and every step keeps it. -/
structure State.Inv (s : State) : Prop where
  /-- The parameters are legal (00_scope.md R7). -/
  cfgValid : s.cfg.valid = true
  /-- Memory is in canonical form (notes/assumptions/5.md). -/
  memWf : s.mem.wf = true
  /-- No byte is stored where no memory exists (20_memory.md R83). -/
  memPresent : ∀ x ∈ s.mem, memOK s.cfg x.1 = true
  /-- Every context is legal (10_state.md R37). -/
  ctxOk : ∀ c, (s.ctx c).Ok s.cfg.addrW
  /-- The slots beyond N_CTX are never bound (30_encoding.md R94). -/
  slotsFree : ∀ c : CtxId, s.cfg.nCtx ≤ c.val → s.ctx c = Ctx.reset
  /-- Two bound regions overlap only when both contexts are readers (20_memory.md R79). -/
  regionsApart : ∀ c d : CtxId, c ≠ d → (s.ctx c).mode = .writer → (s.ctx d).mode ≠ .unbound →
    regionsOverlap (s.ctx c).base (s.ctx c).byteCap (s.ctx d).base (s.ctx d).byteCap = false
  /-- Without the hook, DIAG stays empty (10_state.md R41). -/
  diagEmpty : s.cfg.hookEnabled = false → s.diag = []

end Sys2Proof.Machine
end

