-- ==== Sys2Proof/Certificates/Slice0/Obligations.lean ====
section
/-! DEFINITION. The statements about the model, one `Prop` each. The terms they use (`Ready`, `Wrote`, `WrOutcome`,
`RdOutcome`, `WritesAll`, `IsRNE`, …) are those of Sys2Proof/Safety.lean. A statement that gives the whole next state says
with it that everything it does not name is unchanged. -/

open Sys2Proof Sys2Proof.Machine

/-! ### Command words and steps -/

/-- The command words 30_encoding.md R99 and 95_test_vectors.md write out, and one word of each group of the opcode map, bit
by bit from R90 and R92. -/
def Obligations.SpecExampleWordsDecode : Prop :=
  decode 0x00030012#32 = .ok (.wuns 0 3) ∧ decode 0x00C0011A#32 = .ok (.wcoordmp 1 true true) ∧
  decode 0x00001056#32 = .ok (.cmpbits 0 1) ∧ decode 0x00000001#32 = .ok .zzenc32 ∧
  decode 0b0000000_0_0_0_000000_0000_1111_00010000#32 = .ok (.wbind 15) ∧
  decode 0b0000000_0_0_0_100000_0000_0010_00011011#32 = .ok (.wangle 2 32) ∧
  decode 0b0000000_0_0_0_000000_0000_0011_00110100#32 = .ok (.getcap 3) ∧
  decode 0b0000000_0_0_0_000000_0000_0000_01000000#32 = .ok (.rbind 0) ∧
  decode 0b0000000_0_0_1_000000_0000_0001_01001011#32 = .ok (.rcoordmp 1 true false) ∧
  decode 0b0000000_1_0_0_000000_0000_0001_01010001#32 = .ok (.rstring 1 true)

/-- A word decodes to a command exactly when it is that command's encoding: decoding an encoded command gives it back with
every field, and no command has a second word (30_encoding.md R90 to R93, R98). -/
def Obligations.DecodeAgreesWithEncode : Prop :=
  ∀ (w : Word32) (i : Instr), decode w = .ok i ↔ w = encode i

/-- 30_encoding.md R95: a word with an unassigned opcode is refused in every state, and every other opcode has a command. -/
def Obligations.UnassignedOpcodesAreRefused : Prop :=
  let unassigned (op : Nat) : Prop :=
    op = 0x00 ∨ (0x07 ≤ op ∧ op ≤ 0x0F) ∨ (0x22 ≤ op ∧ op ≤ 0x2F) ∨ (0x36 ≤ op ∧ op ≤ 0x3F) ∨ (0x57 ≤ op ∧ op ≤ 0xFF)
  (∀ (w : Word32) (s : State), unassigned (opField w) → ∃ r, runWord w s = .refused r) ∧
  ∀ op < 256, ¬unassigned op → ∃ (w : Word32) (i : Instr), opField w = op ∧ decode w = .ok i

/-- 30_encoding.md R93 steps 1 to 3: reserved bits, then an unassigned opcode, then a nonzero bit outside the fields of the
row; each refuses the word, and the three are the only words that are no command. The inbox is the model's own
(notes/assumptions/6.md). -/
def Obligations.BadWordsAreRefusedInOrder : Prop :=
  ∀ (w : Word32) (s : State) (rest : List HostAction), s.inbox = .command w :: rest →
    (rsvField w ≠ 0 → step s = .refused (.notACommand .reservedBits)) ∧
    (rsvField w = 0 → opcodeRow (opField w) (fieldsOf w) = none → step s = .refused (.notACommand .unassignedOpcode)) ∧
    (∀ u i, rsvField w = 0 → opcodeRow (opField w) (fieldsOf w) = some (u, i) →
      fieldsOf w ≠ i.fields → step s = .refused (.notACommand .unusedField)) ∧
    (∀ u i, rsvField w = 0 → opcodeRow (opField w) (fieldsOf w) = some (u, i) →
      fieldsOf w = i.fields → step s = exec i (s.setInbox rest))

/-- A step with a command word at the head of the inbox runs the decoded command on the state without that word; the word
is the one `withFetchWord` places. The inbox is the model's own (notes/assumptions/6.md). -/
def Obligations.StepRunsTheDecodedCommand : Prop :=
  (∀ (s : State) (w : Word32) (rest : List HostAction) (i : Instr),
    s.inbox = .command w :: rest → decode w = .ok i → step s = exec i (s.setInbox rest)) ∧
  ∀ (s : State) (i : Instr), step (s.withFetchWord 32 (encode i).toNat) = exec i s

/-- What the host does between commands: it writes an operand register (10_state.md R39, 30_encoding.md R99) or a byte of
memory (20_memory.md R76), and nothing else changes; with nothing to do the CORE is idle (60_exceptions.md R318). The inbox
is the model's own (notes/assumptions/6.md). -/
def Obligations.HostActionsTakeEffect : Prop :=
  ∀ (s : State) (rest : List HostAction),
    (∀ r v, s.inbox = .writeOperand r v :: rest → ∃ t, step s = .next t ∧
      t.operandReg r = { value := v, written := true } ∧ (∀ r', r' ≠ r → t.operandReg r' = s.operandReg r') ∧
      (∀ c, t.ctx c = s.ctx c) ∧ t.cfg = s.cfg ∧ t.mem = s.mem ∧ t.res0 = s.res0 ∧ t.res1 = s.res1 ∧ t.diag = s.diag ∧
      t.draws = s.draws ∧ t.inbox = rest) ∧
    (∀ a b, s.inbox = .writeByte a b :: rest → memOK s.cfg a = true → ∃ t, step s = .next t ∧
      t = (s.setInbox rest).setMem t.mem ∧ ∀ x, t.mem.read x = if x = a then b else s.mem.read x) ∧
    (s.inbox = [] → step s = .next s)

/-- 70_reset_and_hazards.md R330 and 10_state.md R44: reset puts every piece of CORE state at its reset value and leaves
memory; a model starts there. The host action comes through the model's inbox (notes/assumptions/6.md), and what a reset
keeps besides memory is the model's reading (notes/assumptions/7.md). -/
def Obligations.ResetRestoresEveryValue : Prop :=
  let atReset (t : State) : Prop :=
    (∀ c, (t.ctx c).mode = .unbound ∧ (t.ctx c).base = 0 ∧ (t.ctx c).byteCap = 0 ∧ (t.ctx c).bitCap = 0 ∧
      (t.ctx c).cursor = 0 ∧ (t.ctx c).ovf = false) ∧
    (∀ r, (t.operandReg r).written = false) ∧ t.res0.written = false ∧ t.res1.written = false ∧ t.diag = []
  atReset State.reset ∧
  ∀ (s : State) (rest : List HostAction), s.inbox = .reset :: rest →
    ∃ t, step s = .next t ∧ atReset t ∧ t.mem = s.mem ∧ t.cfg = s.cfg ∧ t.inbox = rest

/-- 70_reset_and_hazards.md R331: after reset every command but a bind and the codec commands is refused, whatever the host
has written since; the codec commands run once OPA is written, the binds once OPA to OPD are, with legal operands. That an OPA which
does not fit ADDR_W bits is not legal is the model's reading (notes/assumptions/12.md). -/
def Obligations.AfterResetOnlyBindsAndCodecRun : Prop :=
  ∀ s : State, (∀ c, s.ctx c = Ctx.reset) →
    (∀ i : Instr, i.isBind = false → i.contexts ≠ [] → ∃ r, exec i s = .refused r) ∧
    (s.opa.written = true → ∀ i ∈ [Instr.zzenc32, .zzdec32, .zzenc64, .zzdec64, .vsize32, .vsize64], ∃ t, exec i s = .next t) ∧
    (∀ c : CtxId, c.val < s.cfg.nCtx → BindWritten s → (∃ cap, BindCap s cap) → BindBase s →
      (∃ t, exec (.wbind c) s = .next t) ∧ ∃ t, exec (.rbind c) s = .next t)

/-! ### Refusals -/

/-- 30_encoding.md R94: a command with an illegal field, or an illegal value in an operand register, is refused. -/
def Obligations.IllegalFieldsAndOperandsAreRefused : Prop :=
  ∀ (i : Instr) (s : State), i.wellFormed s.cfg.nCtx = false ∨ ¬i.OperandsLegal s → ∃ r, exec i s = .refused r

/-- 30_encoding.md R96: a command on a context of the wrong MODE is refused; a command whose contexts all have a right MODE
(a bind accepts any, a codec command reads no context) is never refused for its mode. -/
def Obligations.WrongModeIsRefused : Prop :=
  ∀ (i : Instr) (s : State),
    ((∃ c ∈ i.contexts, i.modeOK (s.ctx c).mode = false) → ∃ r, exec i s = .refused r) ∧
    ((∀ c ∈ i.contexts, i.modeOK (s.ctx c).mode = true) → exec i s ≠ .refused .wrongMode)

/-- 10_state.md R39: the operand registers hold no value at reset; a command that reads one the host has not written is
refused; a command never writes one. -/
def Obligations.OperandRegistersAreTheHosts : Prop :=
  (∀ r, (State.reset.operandReg r).written = false) ∧
  (∀ (i : Instr) (s : State), ∀ r ∈ i.reads, (s.operandReg r).written = false → ∃ e, exec i s = .refused e) ∧
  ∀ (i : Instr) (s t : State), exec i s = .next t → ∀ r, t.operandReg r = s.operandReg r

/-- 20_memory.md R79: the binds and the bulk and string commands whose buffers overlap as the rule says are refused; an empty
region overlaps nothing. A source byte of WSTRING is one the scan reaches (41_writer.md R151); that a byte which overlaps and
is also missing refuses the command is the model's reading (notes/assumptions/14.md). -/
def Obligations.OverlappingBuffersAreRefused : Prop :=
  (∀ (s : State) (c : CtxId),
    (BindOverlaps s c .writer s.opa.value.toNat s.opb.value.toNat → ∃ r, exec (.wbind c) s = .refused r) ∧
    (BindOverlaps s c .reader s.opa.value.toNat s.opb.value.toNat → ∃ r, exec (.rbind c) s = .refused r) ∧
    (SourceOverlaps s s.opa.value.toNat ((s.opb.value.toNat + 7) / 8) → ∃ r, exec (.wbits c) s = .refused r) ∧
    (∀ n, (∀ j < n, memOK s.cfg (s.opa.value.toNat + j) = true ∧ s.mem.read (s.opa.value.toNat + j) ≠ 0) →
      SourceOverlaps s (s.opa.value.toNat + n) 1 → ∃ r, exec (.wstring c) s = .refused r) ∧
    (DestOverlaps s s.opa.value.toNat ((s.opb.value.toNat + 7) / 8) → ∃ r, exec (.rbits c) s = .refused r) ∧
    (DestOverlaps s s.opa.value.toNat s.opb.value.toNat → ∃ r, exec (.rbytes c) s = .refused r) ∧
    (∀ nl, DestOverlaps s s.opa.value.toNat s.opb.value.toNat → ∃ r, exec (.rstring c nl) s = .refused r)) ∧
  ∀ a n b m : Nat, n = 0 ∨ m = 0 → ¬SharesByte a n b m

/-- 60_exceptions.md R307, 20_memory.md R83, R84: a fixed-width access that fits but must touch a missing byte has no step: the
command is stuck at the first such address. -/
def Obligations.MissingByteIsStuck : Prop :=
  ∀ (s : State) (c : CtxId) (n j : Nat), c.val < s.cfg.nCtx → Fits s c n → j < n →
    let address (k : Nat) : Nat := (s.ctx c).base + ((s.ctx c).cursor + k) / 8
    let stuck (i : Instr) : Prop := exec i s = .fault (.missingAddress (address j))
    memOK s.cfg (address j) = false → (∀ k < j, memOK s.cfg (address k) = true) →
    ((s.ctx c).mode = .writer → s.opa.written = true →
      (n = 1 → stuck (.wbit c)) ∧ (n = 32 → stuck (.wfloat c)) ∧
      ∀ nb : Fin 64, nb.val = n → n ≤ 32 → stuck (.wuns c nb) ∧ stuck (.wsigned c nb) ∧ stuck (.wangle c nb)) ∧
    ((s.ctx c).mode = .reader →
      (n = 1 → stuck (.rbit c)) ∧ (n = 32 → stuck (.rfloat c)) ∧
      ∀ nb : Fin 64, nb.val = n → n ≤ 32 →
        stuck (.runs c nb) ∧ stuck (.rsigned c nb) ∧ stuck (.peekuns c nb) ∧ stuck (.rangle c nb))

/-! ### The codec commands -/

/-- 40_codec.md R120, R122: zigzag encoding, `2n` for n ≥ 0 and `-2n - 1` for n < 0; RES0 is the only change. -/
def Obligations.ZigZagEncode : Prop :=
  ∀ s : State, s.opa.written = true →
    (CommandWord .zzenc32 0x01 (.ofCtx 0) ∧
      let n := (s.opa.value.setWidth 32).toInt
      exec .zzenc32 s = .next (s.setRes0 (BitVec.ofInt 64 (if 0 ≤ n then 2 * n else -2 * n - 1)))) ∧
    (CommandWord .zzenc64 0x03 (.ofCtx 0) ∧
      let n := s.opa.value.toInt
      exec .zzenc64 s = .next (s.setRes0 (BitVec.ofInt 64 (if 0 ≤ n then 2 * n else -2 * n - 1))))

/-- 40_codec.md R121, R123: zigzag decoding, `u / 2` for even u and `-(u + 1) / 2` for odd u, sign-extended; RES0 is the only
change. -/
def Obligations.ZigZagDecode : Prop :=
  ∀ s : State, s.opa.written = true →
    (CommandWord .zzdec32 0x02 (.ofCtx 0) ∧
      let u : Int := (s.opa.value.setWidth 32).toNat
      exec .zzdec32 s = .next (s.setRes0 (BitVec.ofInt 64 (if u % 2 = 0 then u / 2 else -((u + 1) / 2))))) ∧
    (CommandWord .zzdec64 0x04 (.ofCtx 0) ∧
      let u : Int := s.opa.value.toNat
      exec .zzdec64 s = .next (s.setRes0 (BitVec.ofInt 64 (if u % 2 = 0 then u / 2 else -((u + 1) / 2)))))

/-- Decoding what the encoder returned gives back the operand, sign-extended for the 32-bit commands (40_codec.md R121,
R123: "`ZigZagDecode(ZigZagEncode(v)) == v`"). -/
def Obligations.ZigZagDecodeInvertsEncode : Prop :=
  ∀ s t u : State, s.opa.written = true → u.opa = t.res0 →
    (exec .zzenc32 s = .next t → exec .zzdec32 u = .next (u.setRes0 ((s.opa.value.setWidth 32).signExtend 64))) ∧
    (exec .zzenc64 s = .next t → exec .zzdec64 u = .next (u.setRes0 s.opa.value))

/-- 40_codec.md R124, R125: the least number k ≥ 1 of 7-bit groups that hold v, at most 5 and at most 10. -/
def Obligations.VarintSizeIsLeast : Prop :=
  ∀ s : State, s.opa.written = true →
    (CommandWord .vsize32 0x05 (.ofCtx 0) ∧ ∃ k, IsVarintSize (s.opa.value.setWidth 32).toNat k ∧ k ≤ 5 ∧
      exec .vsize32 s = .next (s.setRes0 (BitVec.ofNat 64 k))) ∧
    (CommandWord .vsize64 0x06 (.ofCtx 0) ∧ ∃ k, IsVarintSize s.opa.value.toNat k ∧ k ≤ 10 ∧
      exec .vsize64 s = .next (s.setRes0 (BitVec.ofNat 64 k)))

/-! ### Binds and status -/

/-- 41_writer.md R140, 43_reader.md R210: with operands that have been written, a bind of a context of the machine runs
exactly when its operands are legal and its region overlaps no other as R79 says; it then sets the six fields, in any earlier
MODE, and changes nothing else. BASE has ADDR_W bits (10_state.md R31); that an OPA which does not fit is refused is the
model's reading of 92_eei_decisions.md D29 (notes/assumptions/12.md). -/
def Obligations.BindSetsTheContext : Prop :=
  ∀ (s : State) (c : CtxId), c.val < s.cfg.nCtx → BindWritten s →
    CommandWord (.wbind c) 0x10 (.ofCtx c) ∧ CommandWord (.rbind c) 0x40 (.ofCtx c) ∧
    (∀ cap, BindCap s cap → BindBase s → ¬BindOverlaps s c .writer s.opa.value.toNat s.opb.value.toNat →
      exec (.wbind c) s = .next (s.setCtx c
        { mode := .writer, base := s.opa.value.toNat, byteCap := s.opb.value.toNat
          bitCap := cap, cursor := s.opc.value.toNat, ovf := false })) ∧
    (∀ cap, BindCap s cap → BindBase s → ¬BindOverlaps s c .reader s.opa.value.toNat s.opb.value.toNat →
      exec (.rbind c) s = .next (s.setCtx c
        { mode := .reader, base := s.opa.value.toNat, byteCap := s.opb.value.toNat
          bitCap := cap, cursor := s.opc.value.toNat, ovf := false })) ∧
    (¬((∃ cap, BindCap s cap) ∧ BindBase s) →
      exec (.wbind c) s = .refused .badOperand ∧ exec (.rbind c) s = .refused .badOperand) ∧
    ((∃ cap, BindCap s cap) → BindBase s → BindOverlaps s c .writer s.opa.value.toNat s.opb.value.toNat →
      exec (.wbind c) s = .refused .overlap) ∧
    ((∃ cap, BindCap s cap) → BindBase s → BindOverlaps s c .reader s.opa.value.toNat s.opb.value.toNat →
      exec (.rbind c) s = .refused .overlap)

/-- 45_status.md R290 to R295: what each status command returns of a bound context, in either mode; the result registers
named are the only change. The difference of R292 and R293 is that of natural numbers, and the invariant says that CURSOR is
at most BITCAP. -/
def Obligations.StatusCommandsReport : Prop :=
  ∀ (s : State) (c : CtxId), c.val < s.cfg.nCtx → (s.ctx c).mode ≠ .unbound →
    CommandWord (.getbits c) 0x30 (.ofCtx c) ∧ CommandWord (.getbytes c) 0x31 (.ofCtx c) ∧
    CommandWord (.getbitsleft c) 0x32 (.ofCtx c) ∧ CommandWord (.getbytesleft c) 0x33 (.ofCtx c) ∧
    CommandWord (.getcap c) 0x34 (.ofCtx c) ∧ CommandWord (.getovf c) 0x35 (.ofCtx c) ∧
    exec (.getbits c) s = .next (s.setRes0 (BitVec.ofNat 64 (s.ctx c).cursor)) ∧
    exec (.getbytes c) s = .next (s.setRes0 (BitVec.ofNat 64 (((s.ctx c).cursor + 7) / 8))) ∧
    exec (.getbitsleft c) s = .next (s.setRes0 (BitVec.ofNat 64 ((s.ctx c).bitCap - (s.ctx c).cursor))) ∧
    exec (.getbytesleft c) s = .next (s.setRes0 (BitVec.ofNat 64 (((s.ctx c).bitCap - (s.ctx c).cursor) / 8))) ∧
    exec (.getcap c) s = .next ((s.setRes0 (BitVec.ofNat 64 (s.ctx c).bitCap)).setRes1 (BitVec.ofNat 64 (s.ctx c).byteCap)) ∧
    exec (.getovf c) s = .next (s.setRes0 (if (s.ctx c).ovf then 1 else 0))

/-! ### Writers -/

/-- 60_exceptions.md R300, R301: the error procedure sets OVF of its context, appends one event when the hook is there, and
changes nothing else; the codes of the two kinds. -/
def Obligations.ErrorProcedure : Prop :=
  (∀ (s : State) (op : BitVec 8) (c : CtxId) (k : ErrorKind),
    (s.overflow op c k).ctx c = { s.ctx c with ovf := true } ∧ (∀ d, d ≠ c → (s.overflow op c k).ctx d = s.ctx d) ∧
    (s.overflow op c k).diag = (if s.cfg.hookEnabled = true then s.diag ++ [{ kind := k, c := c, opcode := op }] else s.diag) ∧
    s.overflow op c k = { s with ctxs := (s.overflow op c k).ctxs, diag := (s.overflow op c k).diag }) ∧
  ErrorKind.valueOutOfRange.code = 1 ∧ ErrorKind.bufferOverrun.code = 2

/-- 41_writer.md R141, R143, 42_writer_quant.md R184: one field of 1, NB or 32 bits goes out at the cursor, or the command is
one BufferOverrun and nothing else. -/
def Obligations.BitSignedAndFloatWriters : Prop :=
  ∀ (s : State) (c : CtxId), Ready s .writer c → s.opa.written = true →
    (CommandWord (.wbit c) 0x11 (.ofCtx c) ∧
      ∃ t, exec (.wbit c) s = .next t ∧ WrOutcome 0x11 c 1 (if s.opa.value ≠ 0 then 1 else 0) s t) ∧
    (∀ nb : Fin 64, nb.val ≤ 32 → CommandWord (.wsigned c nb) 0x13 (.ofCount c nb) ∧
      ∃ t, exec (.wsigned c nb) s = .next t ∧
        WrOutcome 0x13 c nb.val ((s.opa.value.setWidth 32).toInt % 2 ^ nb.val).toNat s t) ∧
    (CommandWord (.wfloat c) 0x1C (.ofCtx c) ∧
      ∃ t, exec (.wfloat c) s = .next t ∧ WrOutcome 0x1C c 32 (s.opa.value.setWidth 32).toNat s t)

/-- 41_writer.md R142, 60_exceptions.md R303: WUNS writes the low NB bits of OPA[31:0]; with the debug check, a value that
does not fit is a ValueOutOfRange first, and the write goes on. -/
def Obligations.WriteUnsigned : Prop :=
  ∀ (s : State) (c : CtxId) (nb : Fin 64), Ready s .writer c → s.opa.written = true → nb.val ≤ 32 →
    CommandWord (.wuns c nb) 0x12 (.ofCount c nb) ∧
    let v := (s.opa.value.setWidth 32).toNat
    ∃ t, exec (.wuns c nb) s = .next t ∧
      (s.cfg.debugRangeCheck = true ∧ nb.val < 32 ∧ 2 ^ nb.val ≤ v →
        WrOutcome 0x12 c nb.val v (s.overflow 0x12 c .valueOutOfRange) t) ∧
      (¬(s.cfg.debugRangeCheck = true ∧ nb.val < 32 ∧ 2 ^ nb.val ≤ v) → WrOutcome 0x12 c nb.val v s t)

/-- What WUNS NB wrote of a value that fits in NB bits, RUNS NB returns; what WSIGNED NB wrote of a signed value of NB bits,
RSIGNED NB returns; at any bit position (41_writer.md R143, 43_reader.md R212, R213). -/
def Obligations.FixedWidthRoundTrip : Prop :=
  ∀ (s t u : State) (c d : CtxId) (nb : Fin 64), Ready s .writer c → Fits s c nb.val → Rereads s c t u d →
    let v : Word32 := s.opa.value.setWidth 32
    let consumed := u.setCursor d ((u.ctx d).cursor + nb.val)
    (v.toNat < 2 ^ nb.val → exec (.wuns c nb) s = .next t →
      exec (.runs d nb) u = .next (consumed.setRes0 (BitVec.ofNat 64 v.toNat))) ∧
    (1 ≤ nb.val → -2 ^ (nb.val - 1) ≤ v.toInt → v.toInt < 2 ^ (nb.val - 1) → exec (.wsigned c nb) s = .next t →
      exec (.rsigned d nb) u = .next (consumed.setRes0 (BitVec.ofInt 64 v.toInt)))

/-- 41_writer.md R144 to R148, 20_memory.md R69: the varint writers send the bytes of the encoding in order, each a field of
8 bits with its own check, and then the fast path may leave any bits past the cursor. -/
def Obligations.VarintWriters : Prop :=
  ∀ (s : State) (c : CtxId), Ready s .writer c → s.opa.written = true →
    (CommandWord (.wvar32 c) 0x14 (.ofCtx c) ∧ ∃ size u t, exec (.wvar32 c) s = .next t ∧
      IsVarintSize (s.opa.value.setWidth 32).toNat size ∧ size ≤ 5 ∧
      WritesAll 0x14 c (varintFields (s.opa.value.setWidth 32).toNat size) s u ∧ FastPath c (s.ctx c).cursor 40 u t) ∧
    (CommandWord (.wvar64 c) 0x15 (.ofCtx c) ∧ ∃ size u t, exec (.wvar64 c) s = .next t ∧
      IsVarintSize s.opa.value.toNat size ∧ size ≤ 10 ∧
      WritesAll 0x15 c (varintFields s.opa.value.toNat size) s u ∧ FastPath c (s.ctx c).cursor 80 u t) ∧
    (CommandWord (.wsvar32 c) 0x16 (.ofCtx c) ∧ ∃ size u t, exec (.wsvar32 c) s = .next t ∧
      let n := (s.opa.value.setWidth 32).toInt
      let z := (if 0 ≤ n then 2 * n else -2 * n - 1).toNat
      IsVarintSize z size ∧ size ≤ 5 ∧ WritesAll 0x16 c (varintFields z size) s u ∧ FastPath c (s.ctx c).cursor 40 u t) ∧
    (CommandWord (.wsvar64 c) 0x17 (.ofCtx c) ∧ ∃ size u t, exec (.wsvar64 c) s = .next t ∧
      let n := s.opa.value.toInt
      let z := (if 0 ≤ n then 2 * n else -2 * n - 1).toNat
      IsVarintSize z size ∧ size ≤ 10 ∧ WritesAll 0x17 c (varintFields z size) s u ∧ FastPath c (s.ctx c).cursor 80 u t)

/-- A WVAR32 or WVAR64 that runs out of room after j bytes (41_writer.md R145): those bytes are written, every later byte is
one more BufferOverrun, and no fast path has touched the bits past the cursor. -/
def Obligations.VarintWriterThatRunsOut : Prop :=
  ∀ (s : State) (c : CtxId) (size j : Nat), Ready s .writer c → s.opa.written = true → (s.ctx c).cursor ≤ (s.ctx c).bitCap →
    j = ((s.ctx c).bitCap - (s.ctx c).cursor) / 8 → j < size →
    let event (op : BitVec 8) : DiagEvent := { kind := .bufferOverrun, c := c, opcode := op }
    let ranOut (op : BitVec 8) (v : Nat) (t : State) : Prop :=
      t.ctx c = { s.ctx c with cursor := (s.ctx c).cursor + 8 * j, ovf := true } ∧
      t.diag = s.diag ++ (if s.cfg.hookEnabled = true then List.replicate (size - j) (event op) else []) ∧
      (∀ i < j, streamBits t c ((s.ctx c).cursor + 8 * i) 8 = varintByte v size i) ∧
      ∀ k, k < 8 * (s.ctx c).base + (s.ctx c).cursor ∨ 8 * (s.ctx c).base + (s.ctx c).cursor + 8 * j ≤ k →
        memBit t.mem k = memBit s.mem k
    (IsVarintSize (s.opa.value.setWidth 32).toNat size →
      ∃ t, exec (.wvar32 c) s = .next t ∧ ranOut 0x14 (s.opa.value.setWidth 32).toNat t) ∧
    (IsVarintSize s.opa.value.toNat size → ∃ t, exec (.wvar64 c) s = .next t ∧ ranOut 0x15 s.opa.value.toNat t)

/-- What a varint writer sent, the mirrored reader returns, and it consumes exactly the bytes of the encoding, at any bit
position and with the fast path or without (43_reader.md R216, 40_codec.md R126). -/
def Obligations.VarintRoundTrip : Prop :=
  ∀ (s t u : State) (c d : CtxId) (size : Nat), Ready s .writer c → Fits s c (8 * size) → Rereads s c t u d →
    let consumed := u.setCursor d ((u.ctx d).cursor + 8 * size)
    (IsVarintSize (s.opa.value.setWidth 32).toNat size → exec (.wvar32 c) s = .next t →
      exec (.rvar32 d) u = .next (consumed.setRes0 ((s.opa.value.setWidth 32).setWidth 64))) ∧
    (IsVarintSize s.opa.value.toNat size → exec (.wvar64 c) s = .next t →
      exec (.rvar64 d) u = .next (consumed.setRes0 s.opa.value)) ∧
    (IsVarintSize (zigzagEnc32 (s.opa.value.setWidth 32)).toNat size → exec (.wsvar32 c) s = .next t →
      exec (.rsvar32 d) u = .next (consumed.setRes0 ((s.opa.value.setWidth 32).signExtend 64))) ∧
    (IsVarintSize (zigzagEnc64 s.opa.value).toNat size → exec (.wsvar64 c) s = .next t →
      exec (.rsvar64 d) u = .next (consumed.setRes0 s.opa.value))

/-- 41_writer.md R149: the selector and the value of WUBITVAR, by the range of the value. -/
def Obligations.UBitVarWriter : Prop :=
  ∀ (s : State) (c : CtxId), Ready s .writer c → s.opa.written = true →
    CommandWord (.wubitvar c) 0x18 (.ofCtx c) ∧
    let v := (s.opa.value.setWidth 32).toNat
    ∃ t, exec (.wubitvar c) s = .next t ∧
      (v < 16 → WritesAll 0x18 c [⟨6, 4 * v⟩] s t) ∧
      (16 ≤ v → v < 256 → WritesAll 0x18 c [⟨10, 4 * v + 1⟩] s t) ∧
      (256 ≤ v → v < 4096 → WritesAll 0x18 c [⟨14, 4 * v + 2⟩] s t) ∧
      (4096 ≤ v → WritesAll 0x18 c [⟨18, 4 * (v % 2 ^ 16) + 3⟩, ⟨16, v / 2 ^ 16⟩] s t)

/-- What WUBITVAR sent, RUBITVAR returns, and it consumes 6, 10, 14 or 34 bits (41_writer.md R149, 43_reader.md R221). -/
def Obligations.UBitVarRoundTrip : Prop :=
  ∀ (s t u : State) (c d : CtxId), Ready s .writer c →
    let v := (s.opa.value.setWidth 32).toNat
    let n := if v < 16 then 6 else if v < 256 then 10 else if v < 4096 then 14 else 34
    Fits s c n → exec (.wubitvar c) s = .next t → Rereads s c t u d →
    exec (.rubitvar d) u = .next ((u.setCursor d ((u.ctx d).cursor + n)).setRes0 (BitVec.ofNat 64 v))

/-- 42_writer_quant.md R181: WCOORD. For a finite value the fields are those of the integer part and the fraction of |f|; for
the others the two are free values, taken with the model's own counter of draws (notes/assumptions/8.md). -/
def Obligations.CoordWriter : Prop :=
  ∀ (s : State) (c : CtxId), Ready s .writer c → s.opa.written = true →
    CommandWord (.wcoord c) 0x19 (.ofCtx c) ∧
    ∃ fs k t, exec (.wcoord c) s = .next t ∧ CoordFieldsOf s.cfg (s.opa.value.setWidth 32) s.draws fs k ∧
      WritesAll 0x19 c fs (s.setDraws k) t

/-- 42_writer_quant.md R182: WCOORDMP, in its four variants; the draws as in `CoordWriter` (notes/assumptions/8.md). -/
def Obligations.CoordMpWriter : Prop :=
  ∀ (s : State) (c : CtxId) (integral lowPrec : Bool), Ready s .writer c → s.opa.written = true →
    CommandWord (.wcoordmp c integral lowPrec) 0x1A { Fields.ofCtx c with i := integral, l := lowPrec } ∧
    ∃ fs k t, exec (.wcoordmp c integral lowPrec) s = .next t ∧
      CoordMpFieldsOf s.cfg integral lowPrec (s.opa.value.setWidth 32) s.draws fs k ∧ WritesAll 0x1A c fs (s.setDraws k) t

/-- 42_writer_quant.md R183, R185: WANGLE, which divides in binary64, truncates toward zero and wraps; WNORMAL, which clamps at
NCLAMP. The draws of values that are not finite use the model's counter (notes/assumptions/8.md), and a product that
overflows is one of them (notes/assumptions/10.md). -/
def Obligations.AngleAndNormalWriters : Prop :=
  ∀ (s : State) (c : CtxId), s.cfg.valid = true → Ready s .writer c → s.opa.written = true →
    (∀ nb : Fin 64, nb.val ≤ 32 → CommandWord (.wangle c nb) 0x1B (.ofCount c nb) ∧
      ∃ d k t, exec (.wangle c nb) s = .next t ∧ AngleFieldOf (s.opa.value.setWidth 32) nb.val s.draws d k ∧
        WrOutcome 0x1B c nb.val d (s.setDraws k) t) ∧
    (CommandWord (.wnormal c) 0x1D (.ofCtx c) ∧
      ∃ fs k t, exec (.wnormal c) s = .next t ∧ NormalFieldsOf s.cfg (s.opa.value.setWidth 32) s.draws fs k ∧
        WritesAll 0x1D c fs (s.setDraws k) t)

/-- 42_writer_quant.md R186, R187: WVEC3COORD sends three presence flags, then the fields of the present axes; the
draws as in `CoordWriter` (notes/assumptions/8.md). -/
def Obligations.Vec3CoordWriter : Prop :=
  ∀ (s : State) (c : CtxId), Ready s .writer c → s.opa.written = true → s.opb.written = true →
    CommandWord (.wvec3coord c) 0x1E (.ofCtx c) ∧
    let x : Word32 := s.opa.value.extractLsb' 0 32
    let y : Word32 := s.opa.value.extractLsb' 32 32
    let z : Word32 := s.opb.value.extractLsb' 0 32
    let r : ℚ := 1 / 2 ^ s.cfg.fb
    let flag (b : Word32) : StreamField := ⟨1, if AbsGe32 b r then 1 else 0⟩
    ∃ fx k₁ fy k₂ fz k₃ t, exec (.wvec3coord c) s = .next t ∧
      AxisFieldsOf (AbsGe32 x r) (CoordFieldsOf s.cfg x) s.draws fx k₁ ∧
      AxisFieldsOf (AbsGe32 y r) (CoordFieldsOf s.cfg y) k₁ fy k₂ ∧
      AxisFieldsOf (AbsGe32 z r) (CoordFieldsOf s.cfg z) k₂ fz k₃ ∧
      WritesAll 0x1E c ([flag x, flag y, flag z] ++ fx ++ fy ++ fz) (s.setDraws k₃) t

/-- 42_writer_quant.md R186, R188: WVEC3NORMAL sends two presence flags, the fields of the present axes, and the sign of
z; the draws as in `AngleAndNormalWriters` (notes/assumptions/8.md, 10.md). -/
def Obligations.Vec3NormalWriter : Prop :=
  ∀ (s : State) (c : CtxId), s.cfg.valid = true → Ready s .writer c → s.opa.written = true → s.opb.written = true →
    CommandWord (.wvec3normal c) 0x1F (.ofCtx c) ∧
    let x : Word32 := s.opa.value.extractLsb' 0 32
    let y : Word32 := s.opa.value.extractLsb' 32 32
    let z : Word32 := s.opb.value.extractLsb' 0 32
    let r : ℚ := 1 / s.cfg.nd
    let flag (b : Word32) : StreamField := ⟨1, if AbsGe32 b r then 1 else 0⟩
    ∃ fx k₁ fy k₂ t, exec (.wvec3normal c) s = .next t ∧
      AxisFieldsOf (AbsGe32 x r) (NormalFieldsOf s.cfg x) s.draws fx k₁ ∧
      AxisFieldsOf (AbsGe32 y r) (NormalFieldsOf s.cfg y) k₁ fy k₂ ∧
      WritesAll 0x1F c ([flag x, flag y] ++ fx ++ fy ++ [⟨1, if Sign32 z r then 1 else 0⟩]) (s.setDraws k₂) t

/-- 41_writer.md R150: WBITS copies n bits of a host buffer to the cursor when the whole length fits, and is one BufferOverrun
and nothing else when it does not. When it fits and a source byte is missing, it is stuck at the first such byte (20_memory.md
R83). -/
def Obligations.BulkWrite : Prop :=
  ∀ (s : State) (c : CtxId), Ready s .writer c → (s.ctx c).Ok s.cfg.addrW → s.opa.written = true → s.opb.written = true →
    CommandWord (.wbits c) 0x20 (.ofCtx c) ∧
    let src := s.opa.value.toNat
    let n := s.opb.value.toNat
    (n < 2 ^ 31 → SourceOverlaps s src ((n + 7) / 8) → exec (.wbits c) s = .refused .overlap) ∧
    (n < 2 ^ 31 → ¬SourceOverlaps s src ((n + 7) / 8) → Fits s c n → BytesOK s.cfg src ((n + 7) / 8) →
      ∃ t, exec (.wbits c) s = .next t ∧ Wrote s c n (memBits s.mem (8 * src) n) t) ∧
    (n < 2 ^ 31 → ¬SourceOverlaps s src ((n + 7) / 8) → ¬Fits s c n →
      exec (.wbits c) s = .next (s.overflow 0x20 c .bufferOverrun)) ∧
    (n < 2 ^ 31 → ¬SourceOverlaps s src ((n + 7) / 8) → Fits s c n → ∀ j < (n + 7) / 8,
      BytesOK s.cfg src j → memOK s.cfg (src + j) = false → exec (.wbits c) s = .fault (.missingAddress (src + j)))

/-- 41_writer.md R151: WSTRING sends the n bytes before the NUL and the NUL, each a field of 8 bits with its own check; the
string is read to its NUL even when it does not fit. Where the string meets a missing byte first, the command is stuck. That
the scan meets an overlapping or a missing byte in the order of the addresses is the model's reading
(notes/assumptions/14.md). -/
def Obligations.StringWrite : Prop :=
  ∀ (s : State) (c : CtxId) (n : Nat), Ready s .writer c → s.opa.written = true →
    CommandWord (.wstring c) 0x21 (.ofCtx c) ∧
    let a := s.opa.value.toNat
    (∀ j < n, memOK s.cfg (a + j) = true ∧ s.mem.read (a + j) ≠ 0 ∧ ¬SourceOverlaps s (a + j) 1) →
    (SourceOverlaps s (a + n) 1 → exec (.wstring c) s = .refused .overlap) ∧
    (¬SourceOverlaps s (a + n) 1 → memOK s.cfg (a + n) = false → exec (.wstring c) s = .fault (.missingAddress (a + n))) ∧
    (¬SourceOverlaps s (a + n) 1 → memOK s.cfg (a + n) = true → s.mem.read (a + n) = 0 →
      ∃ t, exec (.wstring c) s = .next t ∧
        WritesAll 0x21 c ((List.range (n + 1)).map fun j => ⟨8, (s.mem.read (a + j)).toNat⟩) s t)

/-! ### Readers -/

/-- 43_reader.md R211 to R213, 44_reader_quant.md R264: one field of 1, NB or 32 bits is read at the cursor and returned, the
signed one sign-extended from bit NB - 1; a read that does not fit returns 0 and is one BufferOverrun. -/
def Obligations.PrimitiveReaders : Prop :=
  ∀ (s : State) (c : CtxId), Ready s .reader c →
    (CommandWord (.rbit c) 0x41 (.ofCtx c) ∧ ∃ v t, RdOutcome 0x41 c 1 s v t ∧
      exec (.rbit c) s = .next (t.setRes0 (BitVec.ofNat 64 v))) ∧
    (∀ nb : Fin 64, nb.val ≤ 32 → CommandWord (.runs c nb) 0x42 (.ofCount c nb) ∧ ∃ v t, RdOutcome 0x42 c nb.val s v t ∧
      exec (.runs c nb) s = .next (t.setRes0 (BitVec.ofNat 64 v))) ∧
    (∀ nb : Fin 64, nb.val ≤ 32 → CommandWord (.rsigned c nb) 0x43 (.ofCount c nb) ∧ ∃ u t, RdOutcome 0x43 c nb.val s u t ∧
      exec (.rsigned c nb) s = .next (t.setRes0
        (BitVec.ofInt 64 (if nb.val ≠ 0 ∧ 2 ^ (nb.val - 1) ≤ u then (u : Int) - 2 ^ nb.val else u)))) ∧
    (CommandWord (.rfloat c) 0x4D (.ofCtx c) ∧ ∃ v t, RdOutcome 0x4D c 32 s v t ∧
      exec (.rfloat c) s = .next (t.setRes0 (BitVec.ofNat 64 v)))

/-- 43_reader.md R215: PEEKUNS returns what a read would, with CURSOR and OVF as before; a failing peek leaves its event. -/
def Obligations.PeekRestores : Prop :=
  ∀ (s : State) (c : CtxId) (nb : Fin 64), Ready s .reader c → nb.val ≤ 32 →
    CommandWord (.peekuns c nb) 0x44 (.ofCount c nb) ∧
    (Fits s c nb.val →
      exec (.peekuns c nb) s = .next (s.setRes0 (BitVec.ofNat 64 (streamBits s c (s.ctx c).cursor nb.val)))) ∧
    (¬Fits s c nb.val → exec (.peekuns c nb) s = .next ((s.setDiag
      (if s.cfg.hookEnabled = true then s.diag ++ [{ kind := .bufferOverrun, c := c, opcode := 0x44 }] else s.diag)).setRes0 0))

/-- 43_reader.md R216 to R220: the varint readers run the loop of VarGet, capped at 5 and 10 bytes, and decode zigzag where
the command is signed. -/
def Obligations.VarintReaders : Prop :=
  ∀ (s : State) (c : CtxId), Ready s .reader c →
    (CommandWord (.rvar32 c) 0x45 (.ofCtx c) ∧ ∃ v t, VarReads 0x45 c 5 0 0 s v t ∧
      exec (.rvar32 c) s = .next (t.setRes0 (BitVec.ofNat 64 (v % 2 ^ 32)))) ∧
    (CommandWord (.rvar64 c) 0x46 (.ofCtx c) ∧ ∃ v t, VarReads 0x46 c 10 0 0 s v t ∧
      exec (.rvar64 c) s = .next (t.setRes0 (BitVec.ofNat 64 v))) ∧
    (CommandWord (.rsvar32 c) 0x47 (.ofCtx c) ∧ ∃ v t, VarReads 0x47 c 5 0 0 s v t ∧
      let u : Int := (v % 2 ^ 32 : Nat)
      exec (.rsvar32 c) s = .next (t.setRes0 (BitVec.ofInt 64 (if u % 2 = 0 then u / 2 else -((u + 1) / 2))))) ∧
    (CommandWord (.rsvar64 c) 0x48 (.ofCtx c) ∧ ∃ v t, VarReads 0x48 c 10 0 0 s v t ∧
      let u : Int := (v % 2 ^ 64 : Nat)
      exec (.rsvar64 c) s = .next (t.setRes0 (BitVec.ofInt 64 (if u % 2 = 0 then u / 2 else -((u + 1) / 2)))))

/-- 43_reader.md R221: RUBITVAR reads 6 bits, and for a nonzero selector goes back 4 bits and reads 8, 12 or 32. -/
def Obligations.UBitVarReader : Prop :=
  ∀ (s : State) (c : CtxId), Ready s .reader c →
    CommandWord (.rubitvar c) 0x49 (.ofCtx c) ∧
    ∃ six u, RdOutcome 0x49 c 6 s six u ∧
      (six % 4 = 0 → exec (.rubitvar c) s = .next (u.setRes0 (BitVec.ofNat 64 (six / 4)))) ∧
      (six % 4 ≠ 0 → ∃ v t,
        RdOutcome 0x49 c (if six % 4 = 1 then 8 else if six % 4 = 2 then 12 else 32)
          (u.setCursor c ((u.ctx c).cursor - 4)) v t ∧
        exec (.rubitvar c) s = .next (t.setRes0 (BitVec.ofNat 64 v)))

/-- 44_reader_quant.md R261: RCOORD. -/
def Obligations.CoordReader : Prop :=
  ∀ (s : State) (c : CtxId), s.cfg.valid = true → Ready s .reader c →
    CommandWord (.rcoord c) 0x4A (.ofCtx c) ∧
    ∃ b t, CoordReads 0x4A c s b t ∧ exec (.rcoord c) s = .next (t.setRes0 (b.setWidth 64))

/-- 44_reader_quant.md R262: RCOORDMP, in its four variants. -/
def Obligations.CoordMpReader : Prop :=
  ∀ (s : State) (c : CtxId) (integral lowPrec : Bool), s.cfg.valid = true → Ready s .reader c →
    CommandWord (.rcoordmp c integral lowPrec) 0x4B { Fields.ofCtx c with i := integral, l := lowPrec } ∧
    ∃ b t, CoordMpReads 0x4B c integral lowPrec s b t ∧
      exec (.rcoordmp c integral lowPrec) s = .next (t.setRes0 (b.setWidth 64))

/-- 44_reader_quant.md R263, R265: RANGLE, which rounds the exact quotient `i * 360 / 2^n` once, and RNORMAL. -/
def Obligations.AngleAndNormalReaders : Prop :=
  ∀ (s : State) (c : CtxId), s.cfg.valid = true → Ready s .reader c →
    (∀ nb : Fin 64, nb.val ≤ 32 → CommandWord (.rangle c nb) 0x4C (.ofCount c nb) ∧
      ∃ i b t, RdOutcome 0x4C c nb.val s i t ∧ IsPattern32 (K := ℚ) b false (i * 360 / 2 ^ nb.val) ∧
        exec (.rangle c nb) s = .next (t.setRes0 (b.setWidth 64))) ∧
    (CommandWord (.rnormal c) 0x4E (.ofCtx c) ∧
      ∃ b t, NormalReads 0x4E c s b t ∧ exec (.rnormal c) s = .next (t.setRes0 (b.setWidth 64)))

/-- 44_reader_quant.md R266, R267: RVEC3COORD reads three presence flags, then the present axes; y is the high word of RES0,
x the low one, z is RES1. -/
def Obligations.Vec3CoordReader : Prop :=
  ∀ (s : State) (c : CtxId), s.cfg.valid = true → Ready s .reader c →
    CommandWord (.rvec3coord c) 0x4F (.ofCtx c) ∧
    ∃ px u₁ py u₂ pz u₃ x u₄ y u₅ z t,
      RdOutcome 0x4F c 1 s px u₁ ∧ RdOutcome 0x4F c 1 u₁ py u₂ ∧ RdOutcome 0x4F c 1 u₂ pz u₃ ∧
      AxisReads px (CoordReads 0x4F c) u₃ x u₄ ∧ AxisReads py (CoordReads 0x4F c) u₄ y u₅ ∧
      AxisReads pz (CoordReads 0x4F c) u₅ z t ∧
      exec (.rvec3coord c) s = .next ((t.setRes0 (BitVec.ofNat 64 (y.toNat * 2 ^ 32 + x.toNat))).setRes1 (z.setWidth 64))

/-- 44_reader_quant.md R266, R268: RVEC3NORMAL reads x and y and rebuilds z from them. -/
def Obligations.Vec3NormalReader : Prop :=
  ∀ (s : State) (c : CtxId), s.cfg.valid = true → Ready s .reader c →
    CommandWord (.rvec3normal c) 0x50 (.ofCtx c) ∧
    ∃ px u₁ py u₂ x u₃ y u₄ zs t z,
      RdOutcome 0x50 c 1 s px u₁ ∧ RdOutcome 0x50 c 1 u₁ py u₂ ∧
      AxisReads px (NormalReads 0x50 c) u₂ x u₃ ∧ AxisReads py (NormalReads 0x50 c) u₃ y u₄ ∧
      RdOutcome 0x50 c 1 u₄ zs t ∧ NormalZ x y (zs == 1) z ∧
      exec (.rvec3normal c) s = .next ((t.setRes0 (BitVec.ofNat 64 (y.toNat * 2 ^ 32 + x.toNat))).setRes1 (z.setWidth 64))

/-- The model's RNE32, RNE64 and SQRT32 are rounding to nearest, ties to even, of the exact value (00_scope.md R12); RNE32 goes
to +infinity from `2^128 - 2^103` on, where rounding to 24 bits gives `2^128`. That RNE64 is the exact rounded number for
every x, with no overflow to infinity, is the model's reading (notes/assumptions/16.md). -/
def Obligations.RoundingIsToNearestEven : Prop :=
  ∀ x : Frac, 0 < x.den →
    (x.toRat < 2 ^ 128 - 2 ^ 103 → IsPattern32 (K := ℚ) (BitVec.ofNat 32 (rne32Bits x)) false x.toRat) ∧
    (2 ^ 128 - 2 ^ 103 ≤ x.toRat → rne32Bits x = 0x7F800000) ∧
    IsRNE 53 (-1074) x.toRat (rne64 x).toRat ∧
    (x.toRat < 2 ^ 128 → IsPattern32 (K := ℝ) (BitVec.ofNat 32 (sqrt32Bits x)) false √(x.toRat : ℝ))

/-- For every finite f with |f| < 2^IB + 1, RCOORD of what WCOORD sent differs from f by less than the resolution, and has
its sign when it is not zero; the read raises nothing, OVF and DIAG being as before (44_reader_quant.md R261). -/
def Obligations.CoordRoundTripWithinResolution : Prop :=
  ∀ (s t u : State) (c d : CtxId), s.cfg.valid = true → Ready s .writer c → Fits s c (3 + s.cfg.ib + s.cfg.fb) →
    let f : Word32 := s.opa.value.setWidth 32
    Finite32 f → mag32 f < 2 ^ s.cfg.ib + 1 → exec (.wcoord c) s = .next t → Rereads s c t u d →
    ∃ (b : Word32) (w : State), exec (.rcoord d) u = .next w ∧ w.res0.value = b.setWidth 64 ∧ (w.ctx d).ovf = (u.ctx d).ovf ∧
      w.diag = u.diag ∧ (w.ctx d).cursor = (t.ctx c).cursor ∧ Finite32 b ∧ mag32 b ≤ mag32 f ∧ mag32 f - mag32 b < 1 / 2 ^ s.cfg.fb ∧
      (mag32 b ≠ 0 → neg32 b = neg32 f) ∧ (mag32 b = 0 → b = 0)

/-- 43_reader.md R222: with n bytes before the terminator (a NUL, a newline when asked, or the end of the stream), RSTRING
stores the first `min n (maxLen - 1)` of them and a NUL, consumes the string, reports how many it stored and whether it
dropped any; a string cut off by the end of the stream is one BufferOverrun. A destination that overlaps a bound region is
refused. Only the bytes stored need exist: at the first of them that is missing the command is stuck (20_memory.md R83). -/
def Obligations.StringReader : Prop :=
  ∀ (s : State) (c : CtxId) (nl : Bool) (n : Nat), Ready s .reader c → (s.ctx c).Ok s.cfg.addrW → s.opa.written = true →
    s.opb.written = true →
    CommandWord (.rstring c nl) 0x51 { Fields.ofCtx c with n := nl } ∧
    let dst := s.opa.value.toNat
    let maxLen := s.opb.value.toNat
    let byte (j : Nat) : Nat := streamBits s c ((s.ctx c).cursor + 8 * j) 8
    let ends (b : Nat) : Prop := b = 0 ∨ nl = true ∧ b = 0x0A
    let stored := min n (maxLen - 1)
    let results (u : State) : State := (u.setRes0 (BitVec.ofNat 64 stored)).setRes1 (if maxLen - 1 < n then 1 else 0)
    let copied (j : Nat) : Byte := if j < stored then BitVec.ofNat 8 (byte j) else 0
    1 ≤ maxLen → maxLen < 2 ^ 31 →
    (DestOverlaps s dst maxLen → exec (.rstring c nl) s = .refused .overlap) ∧
    (¬DestOverlaps s dst maxLen → (∀ j < n, Fits s c (8 * (j + 1)) ∧ ¬ends (byte j)) →
      (BytesOK s.cfg dst (stored + 1) → Fits s c (8 * (n + 1)) → ends (byte n) → ∃ t, exec (.rstring c nl) s = .next t ∧
        SetsBytes (results (s.setCursor c ((s.ctx c).cursor + 8 * (n + 1)))) dst (stored + 1) copied t) ∧
      (BytesOK s.cfg dst (stored + 1) → ¬Fits s c (8 * (n + 1)) → ∃ t, exec (.rstring c nl) s = .next t ∧
        SetsBytes (results ((s.setCursor c ((s.ctx c).cursor + 8 * n)).overflow 0x51 c .bufferOverrun)) dst (stored + 1)
          copied t) ∧
      ((Fits s c (8 * (n + 1)) → ends (byte n)) → ∀ j < stored + 1, BytesOK s.cfg dst j → memOK s.cfg (dst + j) = false →
        exec (.rstring c nl) s = .fault (.missingAddress (dst + j))))

/-- 43_reader.md R223, R224: RBITS, and RBYTES with 8 bits a byte, copy the stream bits to the destination when the whole length
fits, the last byte filled up with zeros, and otherwise clear the destination and leave the cursor. In both cases a missing
destination byte makes the command stuck (20_memory.md R83). -/
def Obligations.BulkReaders : Prop :=
  ∀ (s : State) (c : CtxId), Ready s .reader c → (s.ctx c).Ok s.cfg.addrW → s.opa.written = true → s.opb.written = true →
    CommandWord (.rbits c) 0x53 (.ofCtx c) ∧ CommandWord (.rbytes c) 0x52 (.ofCtx c) ∧
    let dst := s.opa.value.toNat
    let bulk (op : BitVec 8) (i : Instr) (n : Nat) : Prop :=
      (DestOverlaps s dst ((n + 7) / 8) → exec i s = .refused .overlap) ∧
      (¬DestOverlaps s dst ((n + 7) / 8) → BytesOK s.cfg dst ((n + 7) / 8) → Fits s c n →
        ∃ t, exec i s = .next t ∧ SetsBytes (s.setCursor c ((s.ctx c).cursor + n)) dst ((n + 7) / 8)
          (fun j => BitVec.ofNat 8 (streamBits s c ((s.ctx c).cursor + 8 * j) (min 8 (n - 8 * j)))) t) ∧
      (¬DestOverlaps s dst ((n + 7) / 8) → BytesOK s.cfg dst ((n + 7) / 8) → ¬Fits s c n →
        ∃ t, exec i s = .next t ∧ SetsBytes (s.overflow op c .bufferOverrun) dst ((n + 7) / 8) (fun _ => 0) t) ∧
      (¬DestOverlaps s dst ((n + 7) / 8) → ∀ j < (n + 7) / 8, BytesOK s.cfg dst j → memOK s.cfg (dst + j) = false →
        exec i s = .fault (.missingAddress (dst + j)))
    (s.opb.value.toNat < 2 ^ 31 → bulk 0x53 (.rbits c) s.opb.value.toNat) ∧
    (s.opb.value.toNat < 2 ^ 28 → bulk 0x52 (.rbytes c) (8 * s.opb.value.toNat))

/-- 43_reader.md R225, R226: a target in [0, BITCAP] is the new cursor; any other is one BufferOverrun and moves the cursor to
the end. -/
def Obligations.SeekMovesTheCursor : Prop :=
  ∀ (s : State) (c : CtxId), c.val < s.cfg.nCtx → (s.ctx c).mode = .reader → s.opa.written = true →
    CommandWord (.seek c) 0x54 (.ofCtx c) ∧ CommandWord (.seekrel c) 0x55 (.ofCtx c) ∧
    let seeks (op : BitVec 8) (i : Instr) (pos : Int) : Prop :=
      (∀ p : Nat, (p : Int) = pos → p ≤ (s.ctx c).bitCap → exec i s = .next (s.setCursor c p)) ∧
      (pos < 0 ∨ (s.ctx c).bitCap < pos →
        exec i s = .next ((s.overflow op c .bufferOverrun).setCursor c (s.ctx c).bitCap))
    seeks 0x54 (.seek c) s.opa.value.toInt ∧ seeks 0x55 (.seekrel c) ((s.ctx c).cursor + s.opa.value.toInt)

/-- 43_reader.md R227: CMPBITS reads n bits from both readers in chunks of 32, each read with its own check, and returns 1 when
some chunk differs. -/
def Obligations.CompareReadsBoth : Prop :=
  ∀ (s : State) (c c2 : CtxId), Ready s .reader c → Ready s .reader c2 → c2 ≠ c → s.opb.written = true →
    s.opb.value.toNat < 2 ^ 31 →
    CommandWord (.cmpbits c c2) 0x56 { Fields.ofCtx c with c2 := c2 } ∧
    ∃ (d : Prop) (t : State), CompareReads 0x56 c c2 (compareChunks s.opb.value.toNat) s d t ∧
      (d → exec (.cmpbits c c2) s = .next (t.setRes0 1)) ∧ (¬d → exec (.cmpbits c c2) s = .next (t.setRes0 0))

/-- Where both readers have n bits left, CMPBITS is an equality test of those bits, and consumes them from both (43_reader.md
R227: "bit-exact equality test"). -/
def Obligations.CompareIsBitExact : Prop :=
  ∀ (s : State) (c c2 : CtxId), Ready s .reader c → Ready s .reader c2 → c2 ≠ c → s.opb.written = true →
    s.opb.value.toNat < 2 ^ 31 → Fits s c s.opb.value.toNat → Fits s c2 s.opb.value.toNat →
    let n := s.opb.value.toNat
    let t := (s.setCursor c ((s.ctx c).cursor + n)).setCursor c2 ((s.ctx c2).cursor + n)
    (streamBits s c (s.ctx c).cursor n = streamBits s c2 (s.ctx c2).cursor n → exec (.cmpbits c c2) s = .next (t.setRes0 0)) ∧
    (streamBits s c (s.ctx c).cursor n ≠ streamBits s c2 (s.ctx c2).cursor n → exec (.cmpbits c c2) s = .next (t.setRes0 1))

/-! ### The whole machine -/

/-- Every step keeps the invariant: the parameters stay legal, memory stays in canonical form (notes/assumptions/5.md) and lists
no missing byte, every bound context has `0 ≤ CURSOR ≤ BITCAP ≤ 8 · BYTECAP` with the widths of 10_state.md R31, the slots
beyond N_CTX stay unbound (the 16 slots and the widths kept as bounds are the model's, notes/assumptions/13.md; that BASE keeps
to ADDR_W bits because a bind refuses a larger OPA is notes/assumptions/12.md), no two regions overlap with a writer among
them, and DIAG stays empty without the hook. -/
def Obligations.StepKeepsTheInvariant : Prop :=
  ∀ s t : State, s.Inv → step s = .next t → t.Inv

/-- The invariant holds after reset. -/
def Obligations.ResetMeetsTheInvariant : Prop := State.reset.Inv

/-- 10_state.md R36: a command that is no bind of context c never clears its OVF; a bind and a reset do; PEEKUNS leaves it as it
found it. The reset comes through the model's inbox (notes/assumptions/6.md). -/
def Obligations.OverflowFlagIsSticky : Prop :=
  (∀ (i : Instr) (s t : State) (c : CtxId), exec i s = .next t → i ≠ .wbind c → i ≠ .rbind c →
    (s.ctx c).ovf = true → (t.ctx c).ovf = true) ∧
  (∀ (s t : State) (c : CtxId), exec (.wbind c) s = .next t ∨ exec (.rbind c) s = .next t → (t.ctx c).ovf = false) ∧
  (∀ (s t : State) (rest : List HostAction) (c : CtxId), s.inbox = .reset :: rest → step s = .next t → (t.ctx c).ovf = false) ∧
  ∀ (s t : State) (c d : CtxId) (nb : Fin 64), exec (.peekuns c nb) s = .next t → (t.ctx d).ovf = (s.ctx d).ovf

/-- 60_exceptions.md R304: OVF gates nothing. A command that is neither a bind of c nor GETOVF of c does, with the flag of c set,
exactly what it does without, but that the flag ends set; and it stops for the same reason when it stops. The two runs
take the same draws (notes/assumptions/8.md). -/
def Obligations.OverflowFlagGatesNothing : Prop :=
  ∀ (i : Instr) (s : State) (c : CtxId), i ≠ .wbind c → i ≠ .rbind c → i ≠ .getovf c →
    (∀ t, exec i s = .next t → exec i (s.setOvf c true) = .next (t.setOvf c true)) ∧
    (∀ r, exec i s = .refused r ↔ exec i (s.setOvf c true) = .refused r) ∧
    (∀ f, exec i s = .fault f ↔ exec i (s.setOvf c true) = .fault f)

/-- 60_exceptions.md R312: what DIAG holds changes nothing a command does: with other events in it, the command does the same and
appends the same events. The two runs take the same draws (notes/assumptions/8.md). -/
def Obligations.DiagnosticTraceGatesNothing : Prop :=
  ∀ (i : Instr) (s : State) (es : List DiagEvent),
    (∀ t, exec i s = .next t → exec i (s.setDiag (es ++ s.diag)) = .next (t.setDiag (es ++ t.diag))) ∧
    (∀ r, exec i s = .refused r ↔ exec i (s.setDiag (es ++ s.diag)) = .refused r) ∧
    (∀ f, exec i s = .fault f ↔ exec i (s.setDiag (es ++ s.diag)) = .fault f)

/-- A command changes no context it does not name, and of a context it names, only a bind changes MODE, BASE, BYTECAP and BITCAP
(10_state.md R30, R32, R33); it changes no parameter (R42). That it leaves the inbox as it was, and so takes no host action, is
about the model's own list of pending actions (notes/assumptions/6.md). -/
def Obligations.CommandsTouchOnlyTheirContexts : Prop :=
  ∀ (i : Instr) (s t : State), exec i s = .next t →
    (∀ d ∉ i.contexts, t.ctx d = s.ctx d) ∧
    (i.isBind = false → ∀ d, t.ctx d = { s.ctx d with cursor := (t.ctx d).cursor, ovf := (t.ctx d).ovf }) ∧
    t.cfg = s.cfg ∧ t.inbox = s.inbox

/-- 20_memory.md R65, R72, R82: a command that is no writer and no RBITS, RBYTES or RSTRING changes no byte of memory; a writer
changes no bit outside the stream bits from its cursor to its capacity; RBITS, RBYTES and RSTRING change no byte outside the
destination their operands name. -/
def Obligations.MemoryChangesOnlyWhereNamed : Prop :=
  ∀ (i : Instr) (s t : State), exec i s = .next t →
    ((∀ c nl, i ≠ .rbits c ∧ i ≠ .rbytes c ∧ i ≠ .rstring c nl) → ¬(0x11 ≤ i.opcode.toNat ∧ i.opcode.toNat ≤ 0x21) →
      t.mem = s.mem) ∧
    (0x11 ≤ i.opcode.toNat → i.opcode.toNat ≤ 0x21 → ∀ c ∈ i.contexts, ∀ k,
      k < 8 * (s.ctx c).base + (s.ctx c).cursor ∨ 8 * (s.ctx c).base + (s.ctx c).bitCap ≤ k → memBit t.mem k = memBit s.mem k) ∧
    (∀ c, i = .rbits c → ∀ a, a < s.opa.value.toNat ∨ s.opa.value.toNat + (s.opb.value.toNat + 7) / 8 ≤ a →
      t.mem.read a = s.mem.read a) ∧
    (∀ c nl, i = .rbytes c ∨ i = .rstring c nl → ∀ a, a < s.opa.value.toNat ∨ s.opa.value.toNat + s.opb.value.toNat ≤ a →
      t.mem.read a = s.mem.read a)

/-- 10_state.md R40, R41, 43_reader.md R214: which commands write RES0 and RES1, and that DIAG only grows, by events of the command
being run on a context it names, and not at all without the hook. -/
def Obligations.ResultRegistersAndTrace : Prop :=
  ∀ (i : Instr) (s t : State), exec i s = .next t →
    (i.writesRes0 = true → t.res0.written = true) ∧ (i.writesRes0 = false → t.res0 = s.res0) ∧
    (i.writesRes1 = true → t.res1.written = true) ∧ (i.writesRes1 = false → t.res1 = s.res1) ∧
    ∃ es : List DiagEvent, t.diag = s.diag ++ es ∧ (∀ e ∈ es, e.c ∈ i.contexts ∧ e.opcode = i.opcode) ∧
      (s.cfg.hookEnabled = false → es = [])
end

