-- ==== Sys2Proof/Laws/Exec.lean ====
section
/-! SUPPORT. How a command's checks and steps compose: when each answers, and what it answers. -/

namespace Sys2Proof.Machine

@[simp] theorem exec_ok_bind {α β : Type} (a : α) (f : α → Exec β) : (Except.ok a >>= f : Exec β) = f a := rfl

@[simp] theorem exec_error_bind {α β : Type} (e : Stop) (f : α → Exec β) :
    (Except.error e >>= f : Exec β) = Except.error e := rfl

theorem exec_bind_eq_ok {α β : Type} {x : Exec α} {f : α → Exec β} {b : β} :
    (x >>= f) = Except.ok b ↔ ∃ a, x = Except.ok a ∧ f a = Except.ok b := by
  cases x with
  | error e => simp
  | ok a => simp

theorem exec_bind_eq_error {α β : Type} {x : Exec α} {f : α → Exec β} {e : Stop} :
    (x >>= f) = Except.error e ↔ x = Except.error e ∨ ∃ a, x = Except.ok a ∧ f a = Except.error e := by
  cases x with
  | error e => simp
  | ok a => simp

/-! ### Outcomes -/

@[simp] theorem finish_ok (s : State) : finish (.ok s) = .next s := rfl
@[simp] theorem finish_fault (f : Fault) : finish (.error (.fault f)) = .fault f := rfl
@[simp] theorem finish_refused (r : Refusal) : finish (.error (.refused r)) = .refused r := rfl

theorem finish_eq_next {x : Exec State} {t : State} : finish x = .next t ↔ x = .ok t := by
  rcases x with (_ | _) | _ <;> simp

theorem finish_eq_refused {x : Exec State} {r : Refusal} : finish x = .refused r ↔ x = .error (.refused r) := by
  rcases x with (_ | _) | _ <;> simp

theorem finish_eq_fault {x : Exec State} {f : Fault} : finish x = .fault f ↔ x = .error (.fault f) := by
  rcases x with (_ | _) | _ <;> simp

/-! ### Checks -/

theorem require_pos {p : Prop} [Decidable p] (r : Refusal) (h : p) : require p r = .ok () := if_pos h

theorem require_neg {p : Prop} [Decidable p] (r : Refusal) (h : ¬p) : require p r = .error (.refused r) := if_neg h

@[simp] theorem require_eq_ok {p : Prop} [Decidable p] {r : Refusal} {u : Unit} : require p r = .ok u ↔ p := by
  unfold require; split <;> simp_all

theorem needCtx_pos {c : CtxId} {s : State} (h : c.val < s.cfg.nCtx) : needCtx c s = .ok () :=
  require_pos _ (by simpa [legalCtx] using h)

theorem needCtx_neg {c : CtxId} {s : State} (h : ¬c.val < s.cfg.nCtx) : needCtx c s = .error (.refused .badContext) :=
  require_neg _ (by simpa [legalCtx] using h)

@[simp] theorem needCtx_eq_ok {c : CtxId} {s : State} {u : Unit} : needCtx c s = .ok u ↔ c.val < s.cfg.nCtx := by
  simp [needCtx, legalCtx]

theorem needCount_pos {nb : Fin 64} (h : nb.val ≤ 32) : needCount nb = .ok () :=
  require_pos _ (by simpa [legalCount] using h)

theorem needCount_neg {nb : Fin 64} (h : ¬nb.val ≤ 32) : needCount nb = .error (.refused .badCount) :=
  require_neg _ (by simpa [legalCount] using h)

@[simp] theorem needCount_eq_ok {nb : Fin 64} {u : Unit} : needCount nb = .ok u ↔ nb.val ≤ 32 := by
  simp [needCount, legalCount]

theorem needMode_pos {m : Mode} {c : CtxId} {s : State} (h : (s.ctx c).mode = m) : needMode m c s = .ok () :=
  require_pos _ h

theorem needMode_neg {m : Mode} {c : CtxId} {s : State} (h : (s.ctx c).mode ≠ m) :
    needMode m c s = .error (.refused .wrongMode) :=
  require_neg _ h

@[simp] theorem needMode_eq_ok {m : Mode} {c : CtxId} {s : State} {u : Unit} :
    needMode m c s = .ok u ↔ (s.ctx c).mode = m := by
  simp [needMode]

theorem needBound_pos {c : CtxId} {s : State} (h : (s.ctx c).mode ≠ .unbound) : needBound c s = .ok () :=
  require_pos _ h

theorem needBound_neg {c : CtxId} {s : State} (h : (s.ctx c).mode = .unbound) :
    needBound c s = .error (.refused .wrongMode) :=
  require_neg _ (by simpa using h)

@[simp] theorem needBound_eq_ok {c : CtxId} {s : State} {u : Unit} :
    needBound c s = .ok u ↔ (s.ctx c).mode ≠ .unbound := by
  simp [needBound]

theorem operand_pos {r : OperandName} {s : State} (h : (s.operandReg r).written = true) :
    operand r s = .ok (s.operandReg r).value := if_pos h

theorem operand_neg {r : OperandName} {s : State} (h : (s.operandReg r).written = false) :
    operand r s = .error (.refused (.operandUnwritten r)) := if_neg (by simp [h])

theorem operand_eq_ok {r : OperandName} {s : State} {v : Word64} :
    operand r s = .ok v ↔ (s.operandReg r).written = true ∧ (s.operandReg r).value = v := by
  unfold operand; split <;> simp_all

@[simp] theorem operandReg_opa (s : State) : s.operandReg .opa = s.opa := rfl
@[simp] theorem operandReg_opb (s : State) : s.operandReg .opb = s.opb := rfl
@[simp] theorem operandReg_opc (s : State) : s.operandReg .opc = s.opc := rfl
@[simp] theorem operandReg_opd (s : State) : s.operandReg .opd = s.opd := rfl

/-! ### Commands that are refused -/

/-- The command is refused, for some reason. -/
def Refused {α : Type} (x : Exec α) : Prop := ∃ r, x = .error (.refused r)

/-- A check answers or refuses, and never makes a command stuck. -/
def IsCheck {α : Type} (x : Exec α) : Prop := (∃ a, x = .ok a) ∨ Refused x

theorem finish_of_refused {x : Exec State} (h : Refused x) : ∃ r, finish x = .refused r :=
  h.imp fun _ e => finish_eq_refused.2 e

/-- A command is refused when a check of it refuses, or when it is refused after that check. -/
theorem refused_bind {α β : Type} {x : Exec α} {f : α → Exec β} (hx : IsCheck x) (h : ∀ a, x = .ok a → Refused (f a)) :
    Refused (x >>= f) := by
  rcases hx with ⟨a, e⟩ | ⟨r, e⟩
  · rw [e]; exact h a e
  · rw [e]; exact ⟨r, rfl⟩

theorem isCheck_require (p : Prop) [Decidable p] (r : Refusal) : IsCheck (require p r) := by
  unfold require; split
  · exact .inl ⟨_, rfl⟩
  · exact .inr ⟨_, rfl⟩

theorem isCheck_needCtx (c : CtxId) (s : State) : IsCheck (needCtx c s) := isCheck_require _ _
theorem isCheck_needCount (nb : Fin 64) : IsCheck (needCount nb) := isCheck_require _ _
theorem isCheck_needMode (m : Mode) (c : CtxId) (s : State) : IsCheck (needMode m c s) := isCheck_require _ _
theorem isCheck_needBound (c : CtxId) (s : State) : IsCheck (needBound c s) := isCheck_require _ _

theorem isCheck_operand (r : OperandName) (s : State) : IsCheck (operand r s) := by
  unfold operand; split
  · exact .inl ⟨_, rfl⟩
  · exact .inr ⟨_, rfl⟩

/-! ### Accesses are never refused -/

/-- The rest of a command that, once its checks have passed, is no longer refused. -/
def NeverRefused {α : Type} (x : Exec α) : Prop := ∀ r, x ≠ .error (.refused r)

theorem neverRefused_ok {α : Type} (a : α) : NeverRefused (.ok a : Exec α) := fun _ => by simp

theorem neverRefused_bind {α β : Type} {x : Exec α} {f : α → Exec β} (hx : NeverRefused x)
    (h : ∀ a, x = .ok a → NeverRefused (f a)) : NeverRefused (x >>= f) := by
  intro r e
  rcases exec_bind_eq_error.1 e with e | ⟨a, ea, e⟩
  · exact hx r e
  · exact h a ea r e

theorem neverRefused_memRead (k : Config) (m : Memory) (a : Nat) : NeverRefused (memRead k m a) := by
  intro r; unfold memRead; split <;> simp

theorem neverRefused_memWrite (k : Config) (m : Memory) (a : Nat) (b : Byte) : NeverRefused (memWrite k m a b) := by
  intro r; unfold memWrite; split <;> simp

theorem neverRefused_getBit (k : Config) (m : Memory) (base p : Nat) : NeverRefused (getBit k m base p) :=
  neverRefused_bind (neverRefused_memRead _ _ _) fun _ _ => neverRefused_ok _

theorem neverRefused_putBit (k : Config) (m : Memory) (base p : Nat) (v : Bool) : NeverRefused (putBit k m base p v) :=
  neverRefused_bind (neverRefused_memRead _ _ _) fun _ _ => neverRefused_memWrite _ _ _ _

theorem neverRefused_getBits (k : Config) (m : Memory) (base : Nat) (n p : Nat) :
    NeverRefused (getBits k m base p n) := by
  induction n generalizing p with
  | zero => exact neverRefused_ok _
  | succ n ih =>
    exact neverRefused_bind (neverRefused_getBit _ _ _ _) fun _ _ => neverRefused_bind (ih _) fun _ _ => neverRefused_ok _

theorem neverRefused_putBits (k : Config) (base : Nat) (n : Nat) (m : Memory) (p v : Nat) :
    NeverRefused (putBits k m base p n v) := by
  induction n generalizing m p v with
  | zero => exact neverRefused_ok _
  | succ n ih => exact neverRefused_bind (neverRefused_putBit _ _ _ _ _) fun _ _ => ih _ _ _

theorem neverRefused_wr (op : BitVec 8) (c : CtxId) (n v : Nat) (s : State) : NeverRefused (wr op c n v s) := by
  unfold wr; dsimp only; split
  · exact neverRefused_ok _
  · exact neverRefused_bind (neverRefused_putBits _ _ _ _ _ _) fun _ _ => neverRefused_ok _

theorem neverRefused_rd (op : BitVec 8) (c : CtxId) (n : Nat) (s : State) : NeverRefused (rd op c n s) := by
  unfold rd; dsimp only; split
  · exact neverRefused_ok _
  · exact neverRefused_bind (neverRefused_getBits _ _ _ _ _) fun _ _ => neverRefused_ok _

theorem neverRefused_rdIf (p : Bool) (op : BitVec 8) (c : CtxId) (n : Nat) (s : State) :
    NeverRefused (rdIf p op c n s) := by
  unfold rdIf; split
  · exact neverRefused_rd _ _ _ _
  · exact neverRefused_ok _

theorem neverRefused_wrAll (op : BitVec 8) (c : CtxId) (fs : List StreamField) (s : State) :
    NeverRefused (wrAll op c fs s) := by
  induction fs generalizing s with
  | nil => exact neverRefused_ok _
  | cons f fs ih => exact neverRefused_bind (neverRefused_wr _ _ _ _ _) fun _ _ => ih _

theorem neverRefused_varPut (op : BitVec 8) (c : CtxId) (v w : Nat) (s : State) : NeverRefused (varPut op c v w s) := by
  refine neverRefused_bind (neverRefused_wrAll _ _ _ _) fun t _ => ?_
  unfold varintTail; dsimp only; split
  · exact neverRefused_bind (neverRefused_putBits _ _ _ _ _ _) fun _ _ => neverRefused_ok _
  · exact neverRefused_ok _

theorem neverRefused_copyBits (k : Config) (base src : Nat) (n i p : Nat) (m : Memory) :
    NeverRefused (copyBits k base src n i p m) := by
  induction n generalizing i p m with
  | zero => exact neverRefused_ok _
  | succ n ih =>
    exact neverRefused_bind (neverRefused_getBit _ _ _ _) fun _ _ =>
      neverRefused_bind (neverRefused_putBit _ _ _ _ _) fun _ _ => ih _ _ _

theorem neverRefused_varGetFrom (op : BitVec 8) (c : CtxId) (left k r : Nat) (s : State) :
    NeverRefused (varGetFrom op c left k r s) := by
  induction left generalizing k r s with
  | zero => exact neverRefused_ok _
  | succ left ih =>
    refine neverRefused_bind (neverRefused_rd _ _ _ _) fun _ _ => ?_
    dsimp only; split
    · exact neverRefused_ok _
    · exact ih _ _ _

theorem neverRefused_zeroBytes (k : Config) (n a : Nat) (m : Memory) : NeverRefused (zeroBytes k n a m) := by
  induction n generalizing a m with
  | zero => exact neverRefused_ok _
  | succ n ih => exact neverRefused_bind (neverRefused_memWrite _ _ _ _) fun _ _ => ih _ _

theorem neverRefused_copyOut (k : Config) (base left a p n : Nat) (m : Memory) :
    NeverRefused (copyOut k base left a p n m) := by
  induction left generalizing a p n m with
  | zero => exact neverRefused_ok _
  | succ left ih =>
    exact neverRefused_bind (neverRefused_getBits _ _ _ _ _) fun _ _ =>
      neverRefused_bind (neverRefused_memWrite _ _ _ _) fun _ _ => ih _ _ _ _

theorem neverRefused_readString (op : BitVec 8) (c : CtxId) (dst maxLen : Nat) (nl : Bool) (fuel i : Nat) (t : Bool)
    (s : State) : NeverRefused (readString op c dst maxLen nl fuel i t s) := by
  induction fuel generalizing i t s with
  | zero => exact neverRefused_ok _
  | succ fuel ih =>
    refine neverRefused_bind (neverRefused_rd _ _ _ _) fun _ _ => ?_
    dsimp only; split
    · exact neverRefused_ok _
    · split
      · exact neverRefused_bind (neverRefused_memWrite _ _ _ _) fun _ _ => ih _ _ _
      · exact ih _ _ _

theorem neverRefused_compareFrom (op : BitVec 8) (c c2 : CtxId) (n k : Nat) (d : Bool) (s : State) :
    NeverRefused (compareFrom op c c2 n k d s) := by
  induction n generalizing k d s with
  | zero => exact neverRefused_ok _
  | succ n ih =>
    exact neverRefused_bind (neverRefused_rd _ _ _ _) fun _ _ =>
      neverRefused_bind (neverRefused_rd _ _ _ _) fun _ _ => ih _ _ _

theorem neverRefused_coordGet (op : BitVec 8) (c : CtxId) (s : State) : NeverRefused (coordGet op c s) := by
  refine neverRefused_bind (neverRefused_rd _ _ _ _) fun _ _ => neverRefused_bind (neverRefused_rd _ _ _ _) fun _ _ => ?_
  dsimp only; split
  · exact neverRefused_ok _
  · exact neverRefused_bind (neverRefused_rd _ _ _ _) fun _ _ => neverRefused_bind (neverRefused_rdIf _ _ _ _ _) fun _ _ =>
      neverRefused_bind (neverRefused_rdIf _ _ _ _ _) fun _ _ => neverRefused_ok _

theorem neverRefused_coordMpGet (op : BitVec 8) (c : CtxId) (i l : Bool) (s : State) :
    NeverRefused (coordMpGet op c i l s) := by
  refine neverRefused_bind (neverRefused_rd _ _ _ _) fun _ _ => neverRefused_bind (neverRefused_rd _ _ _ _) fun _ _ => ?_
  dsimp only; split
  · split
    · exact neverRefused_ok _
    · exact neverRefused_bind (neverRefused_rd _ _ _ _) fun _ _ => neverRefused_bind (neverRefused_rd _ _ _ _) fun _ _ =>
        neverRefused_ok _
  · exact neverRefused_bind (neverRefused_rd _ _ _ _) fun _ _ => neverRefused_bind (neverRefused_rdIf _ _ _ _ _) fun _ _ =>
      neverRefused_bind (neverRefused_rd _ _ _ _) fun _ _ => neverRefused_ok _

theorem neverRefused_normalGet (op : BitVec 8) (c : CtxId) (s : State) : NeverRefused (normalGet op c s) :=
  neverRefused_bind (neverRefused_rd _ _ _ _) fun _ _ => neverRefused_bind (neverRefused_rd _ _ _ _) fun _ _ =>
    neverRefused_ok _

theorem neverRefused_axisGet (p : Nat) (get : State → Exec (Word32 × State)) (h : ∀ s, NeverRefused (get s)) (s : State) :
    NeverRefused (axisGet p get s) := by
  unfold axisGet; split
  · exact h s
  · exact neverRefused_ok _

end Sys2Proof.Machine
end

