-- ==== Sys2Proof/Laws/State.lean ====
section
/-! SUPPORT. One lemma per field per update of the state: what each update sets and what it leaves. -/

namespace Sys2Proof.Machine

variable (s : State) (c d : CtxId)

/-! ### Contexts -/

@[simp] theorem ctx_setCtx_same (x : Ctx) : (s.setCtx c x).ctx c = x := by
  simp [State.ctx, State.setCtx]

theorem ctx_setCtx_other (x : Ctx) (h : d ≠ c) : (s.setCtx c x).ctx d = s.ctx d := by
  have : c.val ≠ d.val := fun e => h (Fin.ext e.symm)
  simp [State.ctx, State.setCtx, this]

theorem ctx_setCtx (x : Ctx) : (s.setCtx c x).ctx d = if d = c then x else s.ctx d := by
  split
  · subst d; simp
  · exact ctx_setCtx_other s c d x ‹_›

@[simp] theorem setCtx_setCtx (x y : Ctx) : (s.setCtx c x).setCtx c y = s.setCtx c y := by
  simp [State.setCtx]

@[simp] theorem setCtx_self : s.setCtx c (s.ctx c) = s := by
  simp [State.setCtx, State.ctx]

@[simp] theorem setCtx_cfg (x : Ctx) : (s.setCtx c x).cfg = s.cfg := rfl
@[simp] theorem setCtx_opa (x : Ctx) : (s.setCtx c x).opa = s.opa := rfl
@[simp] theorem setCtx_opb (x : Ctx) : (s.setCtx c x).opb = s.opb := rfl
@[simp] theorem setCtx_opc (x : Ctx) : (s.setCtx c x).opc = s.opc := rfl
@[simp] theorem setCtx_opd (x : Ctx) : (s.setCtx c x).opd = s.opd := rfl
@[simp] theorem setCtx_res0 (x : Ctx) : (s.setCtx c x).res0 = s.res0 := rfl
@[simp] theorem setCtx_res1 (x : Ctx) : (s.setCtx c x).res1 = s.res1 := rfl
@[simp] theorem setCtx_diag (x : Ctx) : (s.setCtx c x).diag = s.diag := rfl
@[simp] theorem setCtx_mem (x : Ctx) : (s.setCtx c x).mem = s.mem := rfl
@[simp] theorem setCtx_draws (x : Ctx) : (s.setCtx c x).draws = s.draws := rfl
@[simp] theorem setCtx_inbox (x : Ctx) : (s.setCtx c x).inbox = s.inbox := rfl

@[simp] theorem setCursor_cfg (p : Nat) : (s.setCursor c p).cfg = s.cfg := rfl
@[simp] theorem setCursor_opa (p : Nat) : (s.setCursor c p).opa = s.opa := rfl
@[simp] theorem setCursor_opb (p : Nat) : (s.setCursor c p).opb = s.opb := rfl
@[simp] theorem setCursor_opc (p : Nat) : (s.setCursor c p).opc = s.opc := rfl
@[simp] theorem setCursor_opd (p : Nat) : (s.setCursor c p).opd = s.opd := rfl
@[simp] theorem setCursor_res0 (p : Nat) : (s.setCursor c p).res0 = s.res0 := rfl
@[simp] theorem setCursor_res1 (p : Nat) : (s.setCursor c p).res1 = s.res1 := rfl
@[simp] theorem setCursor_diag (p : Nat) : (s.setCursor c p).diag = s.diag := rfl
@[simp] theorem setCursor_mem (p : Nat) : (s.setCursor c p).mem = s.mem := rfl
@[simp] theorem setCursor_draws (p : Nat) : (s.setCursor c p).draws = s.draws := rfl
@[simp] theorem setCursor_inbox (p : Nat) : (s.setCursor c p).inbox = s.inbox := rfl

@[simp] theorem setOvf_cfg (b : Bool) : (s.setOvf c b).cfg = s.cfg := rfl
@[simp] theorem setOvf_opa (b : Bool) : (s.setOvf c b).opa = s.opa := rfl
@[simp] theorem setOvf_opb (b : Bool) : (s.setOvf c b).opb = s.opb := rfl
@[simp] theorem setOvf_opc (b : Bool) : (s.setOvf c b).opc = s.opc := rfl
@[simp] theorem setOvf_opd (b : Bool) : (s.setOvf c b).opd = s.opd := rfl
@[simp] theorem setOvf_res0 (b : Bool) : (s.setOvf c b).res0 = s.res0 := rfl
@[simp] theorem setOvf_res1 (b : Bool) : (s.setOvf c b).res1 = s.res1 := rfl
@[simp] theorem setOvf_diag (b : Bool) : (s.setOvf c b).diag = s.diag := rfl
@[simp] theorem setOvf_mem (b : Bool) : (s.setOvf c b).mem = s.mem := rfl
@[simp] theorem setOvf_draws (b : Bool) : (s.setOvf c b).draws = s.draws := rfl
@[simp] theorem setOvf_inbox (b : Bool) : (s.setOvf c b).inbox = s.inbox := rfl

@[simp] theorem ctx_setCursor_same (p : Nat) : (s.setCursor c p).ctx c = { s.ctx c with cursor := p } := by
  simp [State.setCursor]

theorem ctx_setCursor_other (p : Nat) (h : d ≠ c) : (s.setCursor c p).ctx d = s.ctx d := by
  simp [State.setCursor, ctx_setCtx_other _ _ _ _ h]

@[simp] theorem ctx_setOvf_same (b : Bool) : (s.setOvf c b).ctx c = { s.ctx c with ovf := b } := by
  simp [State.setOvf]

theorem ctx_setOvf_other (b : Bool) (h : d ≠ c) : (s.setOvf c b).ctx d = s.ctx d := by
  simp [State.setOvf, ctx_setCtx_other _ _ _ _ h]

/-! ### The error procedure -/

@[simp] theorem overflow_cfg (op : BitVec 8) (k : ErrorKind) : (s.overflow op c k).cfg = s.cfg := rfl
@[simp] theorem overflow_opa (op : BitVec 8) (k : ErrorKind) : (s.overflow op c k).opa = s.opa := rfl
@[simp] theorem overflow_opb (op : BitVec 8) (k : ErrorKind) : (s.overflow op c k).opb = s.opb := rfl
@[simp] theorem overflow_opc (op : BitVec 8) (k : ErrorKind) : (s.overflow op c k).opc = s.opc := rfl
@[simp] theorem overflow_opd (op : BitVec 8) (k : ErrorKind) : (s.overflow op c k).opd = s.opd := rfl
@[simp] theorem overflow_res0 (op : BitVec 8) (k : ErrorKind) : (s.overflow op c k).res0 = s.res0 := rfl
@[simp] theorem overflow_res1 (op : BitVec 8) (k : ErrorKind) : (s.overflow op c k).res1 = s.res1 := rfl
@[simp] theorem overflow_mem (op : BitVec 8) (k : ErrorKind) : (s.overflow op c k).mem = s.mem := rfl
@[simp] theorem overflow_draws (op : BitVec 8) (k : ErrorKind) : (s.overflow op c k).draws = s.draws := rfl
@[simp] theorem overflow_inbox (op : BitVec 8) (k : ErrorKind) : (s.overflow op c k).inbox = s.inbox := rfl

theorem overflow_diag (op : BitVec 8) (k : ErrorKind) : (s.overflow op c k).diag =
    if s.cfg.hookEnabled then s.diag ++ [{ kind := k, c := c, opcode := op }] else s.diag := rfl

theorem ctx_overflow (op : BitVec 8) (k : ErrorKind) : (s.overflow op c k).ctx d = (s.setOvf c true).ctx d := rfl

@[simp] theorem ctx_overflow_same (op : BitVec 8) (k : ErrorKind) :
    (s.overflow op c k).ctx c = { s.ctx c with ovf := true } := by
  simp [ctx_overflow]

theorem ctx_overflow_other (op : BitVec 8) (k : ErrorKind) (h : d ≠ c) : (s.overflow op c k).ctx d = s.ctx d := by
  simp [ctx_overflow, ctx_setOvf_other _ _ _ _ h]

/-! ### Result registers -/

@[simp] theorem setRes0_cfg (v : Word64) : (s.setRes0 v).cfg = s.cfg := rfl
@[simp] theorem setRes0_opa (v : Word64) : (s.setRes0 v).opa = s.opa := rfl
@[simp] theorem setRes0_opb (v : Word64) : (s.setRes0 v).opb = s.opb := rfl
@[simp] theorem setRes0_opc (v : Word64) : (s.setRes0 v).opc = s.opc := rfl
@[simp] theorem setRes0_opd (v : Word64) : (s.setRes0 v).opd = s.opd := rfl
@[simp] theorem setRes0_res1 (v : Word64) : (s.setRes0 v).res1 = s.res1 := rfl
@[simp] theorem setRes0_diag (v : Word64) : (s.setRes0 v).diag = s.diag := rfl
@[simp] theorem setRes0_mem (v : Word64) : (s.setRes0 v).mem = s.mem := rfl
@[simp] theorem setRes0_draws (v : Word64) : (s.setRes0 v).draws = s.draws := rfl
@[simp] theorem setRes0_inbox (v : Word64) : (s.setRes0 v).inbox = s.inbox := rfl

@[simp] theorem setRes1_cfg (v : Word64) : (s.setRes1 v).cfg = s.cfg := rfl
@[simp] theorem setRes1_opa (v : Word64) : (s.setRes1 v).opa = s.opa := rfl
@[simp] theorem setRes1_opb (v : Word64) : (s.setRes1 v).opb = s.opb := rfl
@[simp] theorem setRes1_opc (v : Word64) : (s.setRes1 v).opc = s.opc := rfl
@[simp] theorem setRes1_opd (v : Word64) : (s.setRes1 v).opd = s.opd := rfl
@[simp] theorem setRes1_res0 (v : Word64) : (s.setRes1 v).res0 = s.res0 := rfl
@[simp] theorem setRes1_diag (v : Word64) : (s.setRes1 v).diag = s.diag := rfl
@[simp] theorem setRes1_mem (v : Word64) : (s.setRes1 v).mem = s.mem := rfl
@[simp] theorem setRes1_draws (v : Word64) : (s.setRes1 v).draws = s.draws := rfl
@[simp] theorem setRes1_inbox (v : Word64) : (s.setRes1 v).inbox = s.inbox := rfl

@[simp] theorem setRes0_res0 (v : Word64) : (s.setRes0 v).res0 = { value := v, written := true } := rfl
@[simp] theorem setRes1_res1 (v : Word64) : (s.setRes1 v).res1 = { value := v, written := true } := rfl
@[simp] theorem ctx_setRes0 (v : Word64) : (s.setRes0 v).ctx c = s.ctx c := rfl
@[simp] theorem ctx_setRes1 (v : Word64) : (s.setRes1 v).ctx c = s.ctx c := rfl

@[simp] theorem setVector_cfg (x y z : Word32) : (s.setVector x y z).cfg = s.cfg := rfl
@[simp] theorem setVector_opa (x y z : Word32) : (s.setVector x y z).opa = s.opa := rfl
@[simp] theorem setVector_opb (x y z : Word32) : (s.setVector x y z).opb = s.opb := rfl
@[simp] theorem setVector_opc (x y z : Word32) : (s.setVector x y z).opc = s.opc := rfl
@[simp] theorem setVector_opd (x y z : Word32) : (s.setVector x y z).opd = s.opd := rfl
@[simp] theorem setVector_diag (x y z : Word32) : (s.setVector x y z).diag = s.diag := rfl
@[simp] theorem setVector_mem (x y z : Word32) : (s.setVector x y z).mem = s.mem := rfl
@[simp] theorem setVector_draws (x y z : Word32) : (s.setVector x y z).draws = s.draws := rfl
@[simp] theorem setVector_inbox (x y z : Word32) : (s.setVector x y z).inbox = s.inbox := rfl

@[simp] theorem setVector_res0 (x y z : Word32) : (s.setVector x y z).res0 = { value := y ++ x, written := true } := rfl
@[simp] theorem setVector_res1 (x y z : Word32) : (s.setVector x y z).res1 = { value := zext64 z, written := true } := rfl
@[simp] theorem ctx_setVector (x y z : Word32) : (s.setVector x y z).ctx c = s.ctx c := rfl

/-! ### Memory, draws, inbox, and the contexts they leave -/

@[simp] theorem setMem_cfg (m : Memory) : (s.setMem m).cfg = s.cfg := rfl
@[simp] theorem setMem_opa (m : Memory) : (s.setMem m).opa = s.opa := rfl
@[simp] theorem setMem_opb (m : Memory) : (s.setMem m).opb = s.opb := rfl
@[simp] theorem setMem_opc (m : Memory) : (s.setMem m).opc = s.opc := rfl
@[simp] theorem setMem_opd (m : Memory) : (s.setMem m).opd = s.opd := rfl
@[simp] theorem setMem_res0 (m : Memory) : (s.setMem m).res0 = s.res0 := rfl
@[simp] theorem setMem_res1 (m : Memory) : (s.setMem m).res1 = s.res1 := rfl
@[simp] theorem setMem_diag (m : Memory) : (s.setMem m).diag = s.diag := rfl
@[simp] theorem setMem_draws (m : Memory) : (s.setMem m).draws = s.draws := rfl
@[simp] theorem setMem_inbox (m : Memory) : (s.setMem m).inbox = s.inbox := rfl

@[simp] theorem setDraws_cfg (k : Nat) : (s.setDraws k).cfg = s.cfg := rfl
@[simp] theorem setDraws_opa (k : Nat) : (s.setDraws k).opa = s.opa := rfl
@[simp] theorem setDraws_opb (k : Nat) : (s.setDraws k).opb = s.opb := rfl
@[simp] theorem setDraws_opc (k : Nat) : (s.setDraws k).opc = s.opc := rfl
@[simp] theorem setDraws_opd (k : Nat) : (s.setDraws k).opd = s.opd := rfl
@[simp] theorem setDraws_res0 (k : Nat) : (s.setDraws k).res0 = s.res0 := rfl
@[simp] theorem setDraws_res1 (k : Nat) : (s.setDraws k).res1 = s.res1 := rfl
@[simp] theorem setDraws_diag (k : Nat) : (s.setDraws k).diag = s.diag := rfl
@[simp] theorem setDraws_mem (k : Nat) : (s.setDraws k).mem = s.mem := rfl
@[simp] theorem setDraws_inbox (k : Nat) : (s.setDraws k).inbox = s.inbox := rfl

@[simp] theorem setInbox_cfg (l : List HostAction) : (s.setInbox l).cfg = s.cfg := rfl
@[simp] theorem setInbox_opa (l : List HostAction) : (s.setInbox l).opa = s.opa := rfl
@[simp] theorem setInbox_opb (l : List HostAction) : (s.setInbox l).opb = s.opb := rfl
@[simp] theorem setInbox_opc (l : List HostAction) : (s.setInbox l).opc = s.opc := rfl
@[simp] theorem setInbox_opd (l : List HostAction) : (s.setInbox l).opd = s.opd := rfl
@[simp] theorem setInbox_res0 (l : List HostAction) : (s.setInbox l).res0 = s.res0 := rfl
@[simp] theorem setInbox_res1 (l : List HostAction) : (s.setInbox l).res1 = s.res1 := rfl
@[simp] theorem setInbox_diag (l : List HostAction) : (s.setInbox l).diag = s.diag := rfl
@[simp] theorem setInbox_mem (l : List HostAction) : (s.setInbox l).mem = s.mem := rfl
@[simp] theorem setInbox_draws (l : List HostAction) : (s.setInbox l).draws = s.draws := rfl

@[simp] theorem setDiag_cfg (es : List DiagEvent) : (s.setDiag es).cfg = s.cfg := rfl
@[simp] theorem setDiag_opa (es : List DiagEvent) : (s.setDiag es).opa = s.opa := rfl
@[simp] theorem setDiag_opb (es : List DiagEvent) : (s.setDiag es).opb = s.opb := rfl
@[simp] theorem setDiag_opc (es : List DiagEvent) : (s.setDiag es).opc = s.opc := rfl
@[simp] theorem setDiag_opd (es : List DiagEvent) : (s.setDiag es).opd = s.opd := rfl
@[simp] theorem setDiag_res0 (es : List DiagEvent) : (s.setDiag es).res0 = s.res0 := rfl
@[simp] theorem setDiag_res1 (es : List DiagEvent) : (s.setDiag es).res1 = s.res1 := rfl
@[simp] theorem setDiag_mem (es : List DiagEvent) : (s.setDiag es).mem = s.mem := rfl
@[simp] theorem setDiag_draws (es : List DiagEvent) : (s.setDiag es).draws = s.draws := rfl
@[simp] theorem setDiag_inbox (es : List DiagEvent) : (s.setDiag es).inbox = s.inbox := rfl

@[simp] theorem setMem_mem (m : Memory) : (s.setMem m).mem = m := rfl
@[simp] theorem setDraws_draws (k : Nat) : (s.setDraws k).draws = k := rfl
@[simp] theorem setInbox_inbox (l : List HostAction) : (s.setInbox l).inbox = l := rfl
@[simp] theorem setDiag_diag (es : List DiagEvent) : (s.setDiag es).diag = es := rfl
@[simp] theorem ctx_setMem (m : Memory) : (s.setMem m).ctx c = s.ctx c := rfl
@[simp] theorem ctx_setDraws (k : Nat) : (s.setDraws k).ctx c = s.ctx c := rfl
@[simp] theorem ctx_setInbox (l : List HostAction) : (s.setInbox l).ctx c = s.ctx c := rfl
@[simp] theorem ctx_setDiag (es : List DiagEvent) : (s.setDiag es).ctx c = s.ctx c := rfl

theorem setCursor_setMem (p : Nat) (m : Memory) : (s.setMem m).setCursor c p = (s.setCursor c p).setMem m := rfl

theorem setOvf_setMem (b : Bool) (m : Memory) : (s.setMem m).setOvf c b = (s.setOvf c b).setMem m := rfl

theorem overflow_setMem (op : BitVec 8) (k : ErrorKind) (m : Memory) :
    (s.setMem m).overflow op c k = (s.overflow op c k).setMem m := rfl

@[simp] theorem setMem_setMem (m m' : Memory) : (s.setMem m).setMem m' = s.setMem m' := rfl
@[simp] theorem setMem_self : s.setMem s.mem = s := rfl
@[simp] theorem setDraws_self : s.setDraws s.draws = s := rfl
@[simp] theorem setCursor_setCursor (p q : Nat) : (s.setCursor c p).setCursor c q = s.setCursor c q := by
  simp [State.setCursor]
@[simp] theorem setCursor_self : s.setCursor c (s.ctx c).cursor = s :=
  setCtx_self s c

/-! ### Host actions -/

@[simp] theorem operandReg_writeOperand_same (r : OperandName) (v : Word64) :
    (s.writeOperand r v).operandReg r = { value := v, written := true } := by
  cases r <;> rfl

theorem operandReg_writeOperand_other (r r' : OperandName) (v : Word64) (h : r' ≠ r) :
    (s.writeOperand r v).operandReg r' = s.operandReg r' := by
  cases r <;> cases r' <;> first | rfl | exact absurd rfl h

@[simp] theorem ctx_writeOperand (r : OperandName) (v : Word64) : (s.writeOperand r v).ctx c = s.ctx c := by
  cases r <;> rfl

@[simp] theorem writeOperand_cfg (r : OperandName) (v : Word64) : (s.writeOperand r v).cfg = s.cfg := by
  cases r <;> rfl
@[simp] theorem writeOperand_res0 (r : OperandName) (v : Word64) : (s.writeOperand r v).res0 = s.res0 := by
  cases r <;> rfl
@[simp] theorem writeOperand_res1 (r : OperandName) (v : Word64) : (s.writeOperand r v).res1 = s.res1 := by
  cases r <;> rfl
@[simp] theorem writeOperand_diag (r : OperandName) (v : Word64) : (s.writeOperand r v).diag = s.diag := by
  cases r <;> rfl
@[simp] theorem writeOperand_mem (r : OperandName) (v : Word64) : (s.writeOperand r v).mem = s.mem := by
  cases r <;> rfl
@[simp] theorem writeOperand_draws (r : OperandName) (v : Word64) : (s.writeOperand r v).draws = s.draws := by
  cases r <;> rfl
@[simp] theorem writeOperand_inbox (r : OperandName) (v : Word64) : (s.writeOperand r v).inbox = s.inbox := by
  cases r <;> rfl

@[simp] theorem ctx_hostReset : s.hostReset.ctx c = Ctx.reset := by
  simp [State.hostReset, State.reset, State.ctx]

@[simp] theorem ctx_reset : State.reset.ctx c = Ctx.reset := by
  simp [State.reset, State.ctx]

end Sys2Proof.Machine
end

