-- ==== Sys2Proof/Laws/Blind.lean ====
section
/-! SUPPORT. A change of the state that the shared operations do not notice, and that each of them commutes with. -/

namespace Sys2Proof.Machine

theorem setCtx_comm (s : State) (c d : CtxId) (x y : Ctx) (h : d ≠ c) :
    (s.setCtx c x).setCtx d y = (s.setCtx d y).setCtx c x := by
  unfold State.setCtx
  congr 1
  exact Vector.set_comm _ _ (fun e => h (Fin.ext e.symm))

theorem setCtx_setOvf_ne (s : State) (c d : CtxId) (b : Bool) (x : Ctx) (h : d ≠ c) :
    (s.setOvf c b).setCtx d x = (s.setCtx d x).setOvf c b := by
  rw [State.setOvf, State.setOvf, ctx_setCtx_other _ _ _ _ (Ne.symm h), setCtx_comm _ _ _ _ _ h]

theorem setOvf_setOvf_ne (s : State) (c d : CtxId) (b b' : Bool) (h : d ≠ c) :
    (s.setOvf c b).setOvf d b' = (s.setOvf d b').setOvf c b := by
  rw [State.setOvf, ctx_setOvf_other _ _ _ _ h, setCtx_setOvf_ne _ _ _ _ _ h]; rfl

theorem setOvf_setOvf_comm (s : State) (c d : CtxId) : (s.setOvf c true).setOvf d true =
    (s.setOvf d true).setOvf c true := by
  by_cases h : d = c
  · subst h; rfl
  · exact setOvf_setOvf_ne _ _ _ _ _ h

theorem setOvf_setCursor_comm (s : State) (c d : CtxId) (b : Bool) (p : Nat) :
    (s.setOvf c b).setCursor d p = (s.setCursor d p).setOvf c b := by
  by_cases h : d = c
  · subst h; simp [State.setCursor, State.setOvf]
  · rw [State.setCursor, ctx_setOvf_other _ _ _ _ h, setCtx_setOvf_ne _ _ _ _ _ h]; rfl

/-- A change of the state that commands do not notice. -/
structure Blind (φ : State → State) : Prop where
  cfg : ∀ s, (φ s).cfg = s.cfg
  opa : ∀ s, (φ s).opa = s.opa
  opb : ∀ s, (φ s).opb = s.opb
  opc : ∀ s, (φ s).opc = s.opc
  opd : ∀ s, (φ s).opd = s.opd
  mem : ∀ s, (φ s).mem = s.mem
  draws : ∀ s, (φ s).draws = s.draws
  mode : ∀ s d, ((φ s).ctx d).mode = (s.ctx d).mode
  base : ∀ s d, ((φ s).ctx d).base = (s.ctx d).base
  byteCap : ∀ s d, ((φ s).ctx d).byteCap = (s.ctx d).byteCap
  bitCap : ∀ s d, ((φ s).ctx d).bitCap = (s.ctx d).bitCap
  cursor : ∀ s d, ((φ s).ctx d).cursor = (s.ctx d).cursor
  overflow : ∀ s op d k, (φ s).overflow op d k = φ (s.overflow op d k)
  setCursor : ∀ s d p, (φ s).setCursor d p = φ (s.setCursor d p)
  setMem : ∀ s m, (φ s).setMem m = φ (s.setMem m)
  setDraws : ∀ s k, (φ s).setDraws k = φ (s.setDraws k)
  setRes0 : ∀ s v, (φ s).setRes0 v = φ (s.setRes0 v)
  setRes1 : ∀ s v, (φ s).setRes1 v = φ (s.setRes1 v)

theorem map_bind {α β γ δ : Type} {x : Exec α} {g : α → β} {f : α → Exec γ} {f' : β → Exec δ} {h : γ → δ}
    (e : ∀ a, f' (g a) = (f a).map h) : (x.map g >>= f') = (x >>= f).map h := by
  cases x with
  | error _ => rfl
  | ok a => exact e a

theorem id_bind {α γ δ : Type} {x x' : Exec α} {f : α → Exec γ} {f' : α → Exec δ} {h : γ → δ} (ex : x' = x)
    (e : ∀ a, f' a = (f a).map h) : (x' >>= f') = (x >>= f).map h := by
  subst ex
  cases x' with
  | error _ => rfl
  | ok a => exact e a

theorem map_finish {φ : State → State} {x y : Exec State} (h : y = x.map φ) :
    (∀ t, finish x = .next t → finish y = .next (φ t)) ∧ (∀ r, finish x = .refused r ↔ finish y = .refused r) ∧
    ∀ f, finish x = .fault f ↔ finish y = .fault f := by
  subst h
  rcases x with (_ | _) | _ <;> simp [Except.map]

end Sys2Proof.Machine
end

