-- ==== Sys2Proof/Laws/BlindOps.lean ====
section
/-! SUPPORT. Each shared operation commutes with a change of the state that it does not notice; setting OVF of a context
and putting events in front of DIAG are two such changes (60_exceptions.md R304, R312). -/

namespace Sys2Proof.Machine

section

variable {φ : State → State} (H : Blind φ)
include H

theorem Blind.wr (op : BitVec 8) (c : CtxId) (n v : Nat) (s : State) : wr op c n v (φ s) = (wr op c n v s).map φ := by
  unfold Machine.wr
  dsimp only
  rw [H.bitCap, H.cursor, H.base, H.cfg, H.mem, H.overflow]
  split
  · rfl
  · exact id_bind rfl fun m => by rw [H.setCursor, H.setMem]; rfl

theorem Blind.rd (op : BitVec 8) (c : CtxId) (n : Nat) (s : State) : rd op c n (φ s) = (rd op c n s).map
    (Prod.map id φ) := by
  unfold Machine.rd
  dsimp only
  rw [H.bitCap, H.cursor, H.base, H.cfg, H.mem, H.overflow]
  split
  · rfl
  · exact id_bind rfl fun m => by rw [H.setCursor]; rfl

theorem Blind.rdIf (p : Bool) (op : BitVec 8) (c : CtxId) (n : Nat) (s : State) :
    rdIf p op c n (φ s) = (rdIf p op c n s).map (Prod.map id φ) := by
  unfold Machine.rdIf
  split
  · exact H.rd _ _ _ _
  · rfl

theorem Blind.wrAll (op : BitVec 8) (c : CtxId) (fs : List StreamField) (s : State) :
    wrAll op c fs (φ s) = (wrAll op c fs s).map φ := by
  induction fs generalizing s with
  | nil => rfl
  | cons f fs ih => rw [Machine.wrAll, H.wr]; exact map_bind fun a => ih a

theorem Blind.varPut (op : BitVec 8) (c : CtxId) (v w : Nat) (s : State) :
    varPut op c v w (φ s) = (varPut op c v w s).map φ := by
  unfold Machine.varPut
  rw [H.wrAll]
  refine map_bind fun u => ?_
  unfold varintTail
  dsimp only
  rw [H.bitCap, H.cursor, H.cursor, H.base, H.cfg, H.mem, H.draws]
  split
  · exact id_bind rfl fun m => by rw [H.setMem, H.setDraws]; rfl
  · rfl

theorem Blind.varGetFrom (op : BitVec 8) (c : CtxId) (left k r : Nat) (s : State) :
    varGetFrom op c left k r (φ s) = (varGetFrom op c left k r s).map (Prod.map id φ) := by
  induction left generalizing k r s with
  | zero => rfl
  | succ left ih =>
    rw [Machine.varGetFrom, H.rd]
    refine map_bind fun ⟨b, u⟩ => ?_
    dsimp only [Prod.map, id]
    split
    · rfl
    · exact ih _ _ _

theorem Blind.readString (op : BitVec 8) (c : CtxId) (dst maxLen : Nat) (nl : Bool) (fuel i : Nat) (t : Bool) (s :
    State) :
    readString op c dst maxLen nl fuel i t (φ s) = (readString op c dst maxLen nl fuel i t s).map
        (Prod.map id (Prod.map id φ)) := by
  induction fuel generalizing i t s with
  | zero => rfl
  | succ fuel ih =>
    rw [Machine.readString, H.rd]
    refine map_bind fun ⟨b, u⟩ => ?_
    dsimp only [Prod.map, id]
    split
    · rfl
    · split
      · exact id_bind (by rw [H.cfg, H.mem]) fun m => by rw [H.setMem]; exact ih _ _ _
      · exact ih _ _ _

theorem Blind.destOverlap (a n : Nat) (s : State) : destOverlap (φ s) a n = destOverlap s a n := by
  simp only [Machine.destOverlap, boundOverlap, H.cfg, H.mode, H.base, H.byteCap]

theorem Blind.sourceOverlap (a n : Nat) (s : State) : sourceOverlap (φ s) a n = sourceOverlap s a n := by
  simp only [Machine.sourceOverlap, boundOverlap, H.cfg, H.mode, H.base, H.byteCap]

theorem Blind.bindOverlap (c m) (a n : Nat) (s : State) : bindOverlap (φ s) c m a n = bindOverlap s c m a n := by
  simp only [Machine.bindOverlap, boundOverlap, H.cfg, H.mode, H.base, H.byteCap]

theorem Blind.readBulk (op : BitVec 8) (c : CtxId) (dst n : Nat) (s : State) :
    readBulk op c dst n (φ s) = (readBulk op c dst n s).map φ := by
  unfold Machine.readBulk
  refine id_bind (by simp only [H.destOverlap]) fun _ => ?_
  dsimp only
  rw [H.bitCap, H.cursor, H.base, H.cfg, H.mem, H.overflow]
  split
  · exact id_bind rfl fun m => by rw [H.setMem]; rfl
  · exact id_bind rfl fun m => by rw [H.setCursor, H.setMem]; rfl

theorem Blind.seekTo (op : BitVec 8) (c : CtxId) (pos : Int) (s : State) :
    seekTo op c pos (φ s) = φ (seekTo op c pos s) := by
  unfold Machine.seekTo
  dsimp only
  rw [H.bitCap, H.overflow]
  split
  · rw [H.setCursor]
  · rw [H.setCursor]

theorem Blind.compareFrom (op : BitVec 8) (c c2 : CtxId) (n k : Nat) (d : Bool) (s : State) :
    compareFrom op c c2 n k d (φ s) = (compareFrom op c c2 n k d s).map (Prod.map id φ) := by
  induction n generalizing k d s with
  | zero => rfl
  | succ n ih =>
    rw [Machine.compareFrom, H.rd]
    refine map_bind fun ⟨a, u⟩ => ?_
    dsimp only [Prod.map, id]
    rw [H.rd]
    exact map_bind fun ⟨b, w⟩ => ih _ _ _

theorem Blind.coordGet (op : BitVec 8) (c : CtxId) (s : State) : coordGet op c (φ s) = (coordGet op c s).map
    (Prod.map id φ) := by
  unfold Machine.coordGet
  rw [H.rd]
  refine map_bind fun ⟨hi, u⟩ => ?_
  dsimp only [Prod.map, id]
  rw [H.rd]
  refine map_bind fun ⟨hf, u⟩ => ?_
  dsimp only [Prod.map, id]
  split
  · rfl
  · rw [H.rd]
    refine map_bind fun ⟨sg, u⟩ => ?_
    dsimp only [Prod.map, id]
    rw [H.cfg, H.rdIf]
    refine map_bind fun ⟨ip, u⟩ => ?_
    dsimp only [Prod.map, id]
    rw [H.cfg, H.rdIf]
    exact map_bind fun ⟨fr, u⟩ => by dsimp only [Prod.map, id]; rw [H.cfg]; rfl

theorem Blind.coordMpGet (op : BitVec 8) (c : CtxId) (i l : Bool) (s : State) :
    coordMpGet op c i l (φ s) = (coordMpGet op c i l s).map (Prod.map id φ) := by
  unfold Machine.coordMpGet
  dsimp only
  rw [H.rd, H.cfg]
  refine map_bind fun ⟨inb, u⟩ => ?_
  dsimp only [Prod.map, id]
  rw [H.rd, H.cfg]
  refine map_bind fun ⟨hf, u⟩ => ?_
  dsimp only [Prod.map, id]
  split
  · split
    · rfl
    · rw [H.rd]
      refine map_bind fun ⟨sg, u⟩ => ?_
      dsimp only [Prod.map, id]
      rw [H.rd]
      exact map_bind fun ⟨ip, u⟩ => rfl
  · rw [H.rd]
    refine map_bind fun ⟨sg, u⟩ => ?_
    dsimp only [Prod.map, id]
    rw [H.rdIf]
    refine map_bind fun ⟨ip, u⟩ => ?_
    dsimp only [Prod.map, id]
    rw [H.rd]
    exact map_bind fun ⟨fr, u⟩ => rfl

theorem Blind.normalGet (op : BitVec 8) (c : CtxId) (s : State) : normalGet op c (φ s) = (normalGet op c s).map
    (Prod.map id φ) := by
  unfold Machine.normalGet
  rw [H.rd]
  refine map_bind fun ⟨sg, u⟩ => ?_
  dsimp only [Prod.map, id]
  rw [H.cfg, H.rd]
  exact map_bind fun ⟨ip, u⟩ => by dsimp only [Prod.map, id]; rw [H.cfg]; rfl

omit H in
theorem Blind.axisGet (p : Nat) (get : State → Exec (Word32 × State))
    (hg : ∀ s, get (φ s) = (get s).map (Prod.map id φ)) (s : State) :
    axisGet p get (φ s) = (axisGet p get s).map (Prod.map id φ) := by
  unfold Machine.axisGet
  split
  · exact hg s
  · rfl

theorem Blind.scanString (fuel a : Nat) (s : State) : scanString (φ s) fuel a = scanString s fuel a := by
  induction fuel generalizing a with
  | zero => rfl
  | succ fuel ih =>
    rw [Machine.scanString, Machine.scanString]
    simp only [H.sourceOverlap, H.cfg, H.mem, ih]

theorem Blind.setVector (x y z : Word32) (s : State) : (φ s).setVector x y z = φ (s.setVector x y z) := by
  rw [State.setVector, H.setRes0, H.setRes1]; rfl

theorem Blind.needCtx (c : CtxId) (s : State) : needCtx c (φ s) = needCtx c s := by simp only [Machine.needCtx, H.cfg]
theorem Blind.needMode (m) (c : CtxId) (s : State) : needMode m c (φ s) = needMode m c
    s := by simp only [Machine.needMode, H.mode]
theorem Blind.needBound (c : CtxId) (s : State) : needBound c (φ s) = needBound c
    s := by simp only [Machine.needBound, H.mode]
theorem Blind.operand (r) (s : State) : operand r (φ s) = operand r s := by
  have : (φ s).operandReg r = s.operandReg
      r := by cases r <;> [exact H.opa s; exact H.opb s; exact H.opc s; exact H.opd s]
  simp only [Machine.operand, this]

theorem Blind.rangeCheck (op : BitVec 8) (c : CtxId) (n v : Nat) (s : State) :
    rangeCheck op c n v (φ s) = φ (rangeCheck op c n v s) := by
  unfold Machine.rangeCheck
  rw [H.cfg, H.overflow]
  split <;> rfl

end

theorem blind_ovf (c : CtxId) : Blind (fun s => s.setOvf c true) where
  cfg _ := rfl
  opa _ := rfl
  opb _ := rfl
  opc _ := rfl
  opd _ := rfl
  mem _ := rfl
  draws _ := rfl
  mode s d := by by_cases h : d = c <;> simp [State.setOvf, ctx_setCtx, h]
  base s d := by by_cases h : d = c <;> simp [State.setOvf, ctx_setCtx, h]
  byteCap s d := by by_cases h : d = c <;> simp [State.setOvf, ctx_setCtx, h]
  bitCap s d := by by_cases h : d = c <;> simp [State.setOvf, ctx_setCtx, h]
  cursor s d := by by_cases h : d = c <;> simp [State.setOvf, ctx_setCtx, h]
  overflow s op d k := by
    show ((s.setOvf c true).setOvf d true).setDiag _ = ((s.setOvf d true).setDiag _).setOvf c true
    rw [setOvf_setOvf_comm]; rfl
  setCursor s d p := setOvf_setCursor_comm _ _ _ _ _
  setMem _ _ := rfl
  setDraws _ _ := rfl
  setRes0 _ _ := rfl
  setRes1 _ _ := rfl

theorem blind_diag (es : List DiagEvent) : Blind (fun s => s.setDiag (es ++ s.diag)) where
  cfg _ := rfl
  opa _ := rfl
  opb _ := rfl
  opc _ := rfl
  opd _ := rfl
  mem _ := rfl
  draws _ := rfl
  mode _ _ := rfl
  base _ _ := rfl
  byteCap _ _ := rfl
  bitCap _ _ := rfl
  cursor _ _ := rfl
  overflow s op d k := by
    cases h : s.cfg.hookEnabled
    · simp only [State.overflow, setDiag_diag, setDiag_cfg, h]; rfl
    · simp only [State.overflow, setDiag_diag, setDiag_cfg, h, if_true, List.append_assoc]; rfl
  setCursor _ _ _ := rfl
  setMem _ _ := rfl
  setDraws _ _ := rfl
  setRes0 _ _ := rfl
  setRes1 _ _ := rfl

theorem Blind.bindAs {φ : State → State} (H : Blind φ) {m c} {s : State}
    (hs : ∀ x : Ctx, (φ s).setCtx c x = φ (s.setCtx c x)) :
    bindAs m c (φ s) = (bindAs m c s).map φ := by
  unfold Machine.bindAs
  refine id_bind (H.needCtx _ _) fun _ => ?_
  refine id_bind (H.operand _ _) fun _ => ?_
  refine id_bind (H.operand _ _) fun _ => ?_
  refine id_bind (H.operand _ _) fun _ => ?_
  refine id_bind (H.operand _ _) fun _ => ?_
  refine id_bind (by rw [H.cfg]) fun _ => ?_
  refine id_bind rfl fun _ => ?_
  split
  · rfl
  · refine id_bind rfl fun _ => ?_
    refine id_bind (by simp only [H.bindOverlap]) fun _ => ?_
    rw [hs]; rfl

end Sys2Proof.Machine
end

