-- ==== Sys2Proof/Laws/Codec.lean ====
section
/-! SUPPORT. The laws of the zigzag and varint functions: their values as numbers (40_codec.md R120 to R125). -/

namespace Sys2Proof.Machine

theorem slt0_32 (n : Word32) : (n.slt 0 = true ↔ 2 ^ 31 ≤ n.toNat) := by
  rw [BitVec.slt_iff_toInt_lt, BitVec.toInt_eq_toNat_cond]
  have := n.isLt
  simp; omega

theorem slt0_64 (n : Word64) : (n.slt 0 = true ↔ 2 ^ 63 ≤ n.toNat) := by
  rw [BitVec.slt_iff_toInt_lt, BitVec.toInt_eq_toNat_cond]
  have := n.isLt
  simp; omega

theorem toNat_zigzagEnc32 (n : Word32) : (zigzagEnc32 n).toNat = if 2 ^ 31 ≤ n.toNat then 2 ^ 33 - 1 - 2 * n.toNat else 2 * n.toNat := by
  have := n.isLt
  unfold zigzagEnc32
  by_cases h : 2 ^ 31 ≤ n.toNat
  · rw [if_pos ((slt0_32 n).2 h), if_pos h, show (0xFFFFFFFF#32 : Word32) = BitVec.allOnes 32 from rfl, BitVec.xor_allOnes, BitVec.toNat_not, BitVec.toNat_shiftLeft, Nat.shiftLeft_eq]
    omega
  · rw [if_neg (fun e => h ((slt0_32 n).1 e)), if_neg h, show (n <<< 1 ^^^ 0 : Word32) = n <<< 1 from BitVec.xor_zero, BitVec.toNat_shiftLeft, Nat.shiftLeft_eq]
    omega

theorem toNat_zigzagEnc64 (n : Word64) : (zigzagEnc64 n).toNat = if 2 ^ 63 ≤ n.toNat then 2 ^ 65 - 1 - 2 * n.toNat else 2 * n.toNat := by
  have := n.isLt
  unfold zigzagEnc64
  by_cases h : 2 ^ 63 ≤ n.toNat
  · rw [if_pos ((slt0_64 n).2 h), if_pos h, show (0xFFFFFFFFFFFFFFFF#64 : Word64) = BitVec.allOnes 64 from rfl, BitVec.xor_allOnes, BitVec.toNat_not, BitVec.toNat_shiftLeft, Nat.shiftLeft_eq]
    omega
  · rw [if_neg (fun e => h ((slt0_64 n).1 e)), if_neg h, show (n <<< 1 ^^^ 0 : Word64) = n <<< 1 from BitVec.xor_zero, BitVec.toNat_shiftLeft, Nat.shiftLeft_eq]
    omega

theorem and1_32 (u : Word32) : (u &&& 1 = 1 ↔ u.toNat % 2 = 1) := by
  rw [← BitVec.toNat_inj, BitVec.toNat_and]
  show u.toNat &&& 1 = 1 ↔ _
  rw [Nat.and_one_is_mod]

theorem and1_64 (u : Word64) : (u &&& 1 = 1 ↔ u.toNat % 2 = 1) := by
  rw [← BitVec.toNat_inj, BitVec.toNat_and]
  show u.toNat &&& 1 = 1 ↔ _
  rw [Nat.and_one_is_mod]

theorem toNat_zigzagDec32 (u : Word32) : (zigzagDec32 u).toNat = if u.toNat % 2 = 1 then 2 ^ 32 - 1 - u.toNat / 2 else u.toNat / 2 := by
  unfold zigzagDec32
  by_cases h : u.toNat % 2 = 1
  · rw [if_pos ((and1_32 u).2 h), if_pos h, show (0xFFFFFFFF#32 : Word32) = BitVec.allOnes 32 from rfl, BitVec.xor_allOnes, BitVec.toNat_not, BitVec.toNat_ushiftRight, Nat.shiftRight_eq_div_pow]
  · rw [if_neg (fun e => h ((and1_32 u).1 e)), if_neg h, show (u >>> 1 ^^^ 0 : Word32) = u >>> 1 from BitVec.xor_zero, BitVec.toNat_ushiftRight, Nat.shiftRight_eq_div_pow]

theorem toNat_zigzagDec64 (u : Word64) : (zigzagDec64 u).toNat = if u.toNat % 2 = 1 then 2 ^ 64 - 1 - u.toNat / 2 else u.toNat / 2 := by
  unfold zigzagDec64
  by_cases h : u.toNat % 2 = 1
  · rw [if_pos ((and1_64 u).2 h), if_pos h, show (0xFFFFFFFFFFFFFFFF#64 : Word64) = BitVec.allOnes 64 from rfl, BitVec.xor_allOnes, BitVec.toNat_not, BitVec.toNat_ushiftRight, Nat.shiftRight_eq_div_pow]
  · rw [if_neg (fun e => h ((and1_64 u).1 e)), if_neg h, show (u >>> 1 ^^^ 0 : Word64) = u >>> 1 from BitVec.xor_zero, BitVec.toNat_ushiftRight, Nat.shiftRight_eq_div_pow]

theorem sext64_eq (v : Word32) : sext64 v = BitVec.ofInt 64 v.toInt := rfl

theorem zext64_zigzagEnc32 (n : Word32) : zext64 (zigzagEnc32 n) = BitVec.ofInt 64 (if 0 ≤ n.toInt then 2 * n.toInt else -2 * n.toInt - 1) := by
  refine BitVec.eq_of_toNat_eq ?_
  have := n.isLt
  rw [zext64, BitVec.toNat_setWidth, toNat_zigzagEnc32, BitVec.toNat_ofInt, BitVec.toInt_eq_toNat_cond]
  split_ifs <;> omega

theorem zigzagEnc64_eq (n : Word64) : zigzagEnc64 n = BitVec.ofInt 64 (if 0 ≤ n.toInt then 2 * n.toInt else -2 * n.toInt - 1) := by
  refine BitVec.eq_of_toNat_eq ?_
  have := n.isLt
  rw [toNat_zigzagEnc64, BitVec.toNat_ofInt, BitVec.toInt_eq_toNat_cond]
  split_ifs <;> omega

theorem sext64_zigzagDec32 (u : Word32) : sext64 (zigzagDec32 u) = BitVec.ofInt 64 (if (u.toNat : Int) % 2 = 0 then (u.toNat : Int) / 2 else -(((u.toNat : Int) + 1) / 2)) := by
  rw [sext64_eq]
  congr 1
  have := u.isLt
  rw [BitVec.toInt_eq_toNat_cond, toNat_zigzagDec32]
  split_ifs <;> omega

theorem zigzagDec64_eq (u : Word64) : zigzagDec64 u = BitVec.ofInt 64 (if (u.toNat : Int) % 2 = 0 then (u.toNat : Int) / 2 else -(((u.toNat : Int) + 1) / 2)) := by
  refine BitVec.eq_of_toNat_eq ?_
  have := u.isLt
  rw [BitVec.toNat_ofInt, toNat_zigzagDec64]
  split_ifs <;> omega

theorem zigzagDec32_enc32 (n : Word32) : zigzagDec32 (zigzagEnc32 n) = n := by
  refine BitVec.eq_of_toNat_eq ?_
  have := n.isLt
  rw [toNat_zigzagDec32, toNat_zigzagEnc32]
  split_ifs <;> omega

theorem zigzagDec64_enc64 (n : Word64) : zigzagDec64 (zigzagEnc64 n) = n := by
  refine BitVec.eq_of_toNat_eq ?_
  have := n.isLt
  rw [toNat_zigzagDec64, toNat_zigzagEnc64]
  split_ifs <;> omega

theorem varSizeFrom_least (v fuel k : Nat) (hk : 1 ≤ k) (hv : v < 2 ^ (7 * (k + fuel))) (hmin : ∀ j, 1 ≤ j → v < 2 ^ (7 * j) → k ≤ j) :
    IsVarintSize v (varSizeFrom v fuel k) ∧ varSizeFrom v fuel k ≤ k + fuel := by
  induction fuel generalizing k with
  | zero => exact ⟨⟨hk, hv, hmin⟩, le_rfl⟩
  | succ fuel ih =>
    unfold varSizeFrom
    split
    · rename_i h
      have := ih (k + 1) (by omega) (by rwa [show k + 1 + fuel = k + (fuel + 1) by omega]) (fun j hj hvj => by
        have := hmin j hj hvj
        rcases Nat.lt_or_ge k j with h2 | h2
        · exact h2
        · have : k = j := by omega
          subst this; omega)
      exact ⟨this.1, by omega⟩
    · rename_i h
      exact ⟨⟨hk, by omega, hmin⟩, by omega⟩

theorem varintSize_unique {v a b : Nat} (h : IsVarintSize v a) (h' : IsVarintSize v b) : a = b :=
  le_antisymm (h.2.2 b h'.1 h'.2.1) (h'.2.2 a h.1 h.2.1)

theorem varSize_least (v : Nat) (hv : v < 2 ^ 64) : IsVarintSize v (varSize v) :=
  (varSizeFrom_least v 9 1 le_rfl (hv.trans (by norm_num)) (fun j hj _ => hj)).1

theorem varintSize_le {v k n : Nat} (h : IsVarintSize v k) (hn : 1 ≤ n) (hv : v < 2 ^ (7 * n)) : k ≤ n := h.2.2 n hn hv

end Sys2Proof.Machine
end

