-- ==== Sys2Proof/Laws/Memory.lean ====
section
/-! SUPPORT. The laws of memory: read after write, the canonical form, and what reading and writing stream bits does. -/

namespace Sys2Proof.Machine

/-! ### Bytes -/

theorem read_write (m : Memory) (a d : Nat) (b : Byte) : (m.write a b).read d = if d = a then b else m.read d := by
  induction m with
  | nil => simp [Memory.write, Memory.read, eq_comm]
  | cons x t ih =>
    obtain ⟨k, v⟩ := x
    unfold Memory.write
    split
    · simp [Memory.read, eq_comm]
    · split
      · subst k; by_cases hd : a = d <;> simp [Memory.read, hd, eq_comm]
      · by_cases hd : k = d
        · subst hd; simp [Memory.read, Ne.symm ‹¬a = k›]
        · simp [Memory.read, hd, ih]

/-- A read after a write to the same address gives the byte written. -/
@[simp] theorem read_write_same (m : Memory) (a : Nat) (b : Byte) : (m.write a b).read a = b := by
  rw [read_write, if_pos rfl]

/-- A write leaves every other address alone. -/
theorem read_write_other (m : Memory) (a d : Nat) (b : Byte) (h : d ≠ a) : (m.write a b).read d = m.read d := by
  rw [read_write, if_neg h]

/-! ### The canonical form -/

theorem wf_iff (m : Memory) : m.wf = true ↔ m.Pairwise fun x y => x.1 < y.1 := by simp [Memory.wf]

/-- A listed entry after a write is the one written or was listed before. -/
theorem mem_write (m : Memory) (a : Nat) (b : Byte) (x : Host.Cell) (h : x ∈ m.write a b) : x = (a, b) ∨ x ∈ m := by
  induction m with
  | nil => simpa [Memory.write] using h
  | cons y t ih =>
    obtain ⟨k, v⟩ := y
    unfold Memory.write at h
    split at h
    · simpa using h
    · split at h
      · rcases List.mem_cons.1 h with h | h
        · exact .inl h
        · exact .inr (List.mem_cons_of_mem _ h)
      · rcases List.mem_cons.1 h with h | h
        · exact .inr (h ▸ List.mem_cons_self)
        · exact (ih h).imp id (List.mem_cons_of_mem _)

/-- Writing a byte keeps the canonical form. -/
theorem write_wf (m : Memory) (a : Nat) (b : Byte) (h : m.wf = true) : (m.write a b).wf = true := by
  rw [wf_iff] at h ⊢
  induction m with
  | nil => simp [Memory.write]
  | cons y t ih =>
    obtain ⟨k, v⟩ := y
    have hp := List.pairwise_cons.1 h
    unfold Memory.write
    split
    · rename_i hak
      refine List.pairwise_cons.2 ⟨fun z hz => ?_, h⟩
      rcases List.mem_cons.1 hz with rfl | hz
      · exact hak
      · exact lt_trans hak (hp.1 z hz)
    · split
      · subst k; exact List.pairwise_cons.2 ⟨hp.1, hp.2⟩
      · refine List.pairwise_cons.2 ⟨fun z hz => ?_, ih hp.2⟩
        rcases mem_write t a b z hz with rfl | hz
        · simp only; omega
        · exact hp.1 z hz

theorem read_of_mem (m : Memory) (h : m.wf = true) (x : Host.Cell) (hx : x ∈ m) : m.read x.1 = x.2 := by
  rw [wf_iff] at h
  induction m with
  | nil => simp at hx
  | cons y t ih =>
    obtain ⟨k, v⟩ := y
    have hp := List.pairwise_cons.1 h
    rcases List.mem_cons.1 hx with rfl | hx
    · simp [Memory.read]
    · have : k ≠ x.1 := (hp.1 x hx).ne
      simp [Memory.read, this, ih hp.2 hx]

/-- A byte that is not listed reads as its free value. -/
theorem read_not_listed (m : Memory) (a : Nat) (h : ∀ x ∈ m, x.1 ≠ a) : m.read a = unlistedByte a := by
  induction m with
  | nil => rfl
  | cons y t ih =>
    obtain ⟨k, v⟩ := y
    have : k ≠ a := h (k, v) (by simp)
    simp [Memory.read, this, ih fun z hz => h z (by simp [hz])]

/-- Two memories in canonical form that list the same addresses and read alike are the same list. -/
theorem memory_ext (m n : Memory) (hm : m.wf = true) (hn : n.wf = true)
    (hl : ∀ a, a ∈ m.map Prod.fst ↔ a ∈ n.map Prod.fst) (hr : ∀ a, m.read a = n.read a) : m = n := by
  have mem_of : ∀ m n : Memory, m.wf = true → n.wf = true → (∀ a, a ∈ m.map Prod.fst ↔ a ∈ n.map Prod.fst) →
      (∀ a, m.read a = n.read a) → ∀ x ∈ m, x ∈ n := by
    intro m n hm hn hl hr x hx
    obtain ⟨y, hy, e⟩ := List.mem_map.1 ((hl x.1).1 (List.mem_map_of_mem hx))
    have : y = x := Prod.ext e (by rw [← read_of_mem n hn y hy, e, ← hr, read_of_mem m hm x hx])
    exact this ▸ hy
  have sm := (wf_iff m).1 hm
  have sn := (wf_iff n).1 hn
  refine List.Perm.eq_of_pairwise (le := fun x y => x.1 < y.1) (fun a b _ _ h1 h2 => absurd h1 (by omega)) sm sn ?_
  refine (List.perm_ext_iff_of_nodup (sm.imp fun h e => by subst e; exact absurd h (lt_irrefl _))
    (sn.imp fun h e => by subst e; exact absurd h (lt_irrefl _))).2 fun x =>
      ⟨mem_of m n hm hn hl hr x, mem_of n m hn hm (fun a => (hl a).symm) (fun a => (hr a).symm) x⟩

/-- A byte that exists lies below `memEnd`. -/
theorem lt_memEnd {k : Config} {a : Nat} (h : memOK k a = true) : a < memEnd k := by
  have mono : ∀ (l : List (Nat × Nat)) (e : Nat), e ≤ l.foldl (fun e r => max e (r.1 + r.2)) e := by
    intro l
    induction l with
    | nil => intro e; exact le_rfl
    | cons r l ih => intro e; exact (le_max_left _ _).trans (ih _)
  have bound : ∀ (l : List (Nat × Nat)) (e : Nat), ∀ r ∈ l, r.1 + r.2 ≤ l.foldl (fun e r => max e (r.1 + r.2)) e := by
    intro l
    induction l with
    | nil => simp
    | cons q l ih =>
      intro e r hr
      rcases List.mem_cons.1 hr with rfl | hr
      · exact (le_max_right e _).trans (mono l _)
      · exact ih _ r hr
  simp only [memOK, Bool.and_eq_true, List.any_eq_true, decide_eq_true_eq] at h
  obtain ⟨-, r, hr, h1, h2⟩ := h
  exact h2.trans_le (bound k.memRegions 0 r hr)

/-! ### Single bits -/

theorem setBit_getLsbD (b : Byte) (v : Bool) (p j : Nat) (hp : p < 8) (hj : j < 8) :
    ((b &&& ~~~(1#8 <<< p)) ||| (if v then 1#8 <<< p else 0)).getLsbD j = if j = p then v else b.getLsbD j := by
  have key : (1#8 <<< p).getLsbD j = decide (j = p) := by
    interval_cases p <;> interval_cases j <;> rfl
  have key' : (if v then 1#8 <<< p else (0 : Byte)).getLsbD j = (v && decide (j = p)) := by
    cases v
    · simp
    · simpa using key
  rw [BitVec.getLsbD_or, BitVec.getLsbD_and, BitVec.getLsbD_not, key, key']
  by_cases h : j = p
  · cases v <;> simp [h]
  · simp [h, hj]

/-- One stream bit is read where its byte exists. -/
theorem getBit_ok (k : Config) (m : Memory) (base p : Nat) (h : memOK k (base + p / 8) = true) :
    getBit k m base p = .ok (memBit m (8 * base + p)) := by
  have e1 : (8 * base + p) / 8 = base + p / 8 := by omega
  have e2 : (8 * base + p) % 8 = p % 8 := by omega
  simp [getBit, memRead, h, memBit, e1, e2, bind, Except.bind]

theorem getBit_stuck (k : Config) (m : Memory) (base p : Nat) (h : memOK k (base + p / 8) = false) :
    getBit k m base p = .error (.fault (.missingAddress (base + p / 8))) := by
  simp [getBit, memRead, h, bind, Except.bind]

theorem putBit_stuck (k : Config) (m : Memory) (base p : Nat) (v : Bool) (h : memOK k (base + p / 8) = false) :
    putBit k m base p v = .error (.fault (.missingAddress (base + p / 8))) := by
  simp [putBit, memRead, h, bind, Except.bind]

/-- What a memory keeps when bits of existing bytes are written: the canonical form, and that no byte is listed where no
memory exists. -/
def Keeps (k : Config) (m m' : Memory) : Prop :=
  (m.wf = true → m'.wf = true) ∧
  ((∀ x ∈ m, memOK k x.1 = true) → ∀ x ∈ m', memOK k x.1 = true)

theorem Keeps.refl (k : Config) (m : Memory) : Keeps k m m := ⟨id, id⟩

theorem Keeps.trans {k : Config} {m₁ m₂ m₃ : Memory} (h : Keeps k m₁ m₂) (h' : Keeps k m₂ m₃) : Keeps k m₁ m₃ :=
  ⟨h'.1 ∘ h.1, h'.2 ∘ h.2⟩

theorem keeps_write (k : Config) (m : Memory) (a : Nat) (b : Byte) (h : memOK k a = true) :
    Keeps k m (m.write a b) :=
  ⟨write_wf m a b, fun hm x hx => (mem_write m a b x hx).elim (fun e => e ▸ h) (hm x)⟩

/-- One stream bit is written where its byte exists: that bit of memory changes, no other. -/
theorem putBit_ok (k : Config) (m : Memory) (base p : Nat) (v : Bool) (h : memOK k (base + p / 8) = true) :
    ∃ m', putBit k m base p v = .ok m' ∧ Keeps k m m' ∧
      ∀ j, memBit m' j = if j = 8 * base + p then v else memBit m j := by
  refine ⟨m.write (base + p / 8) ((m.read (base + p / 8) &&& ~~~(1#8 <<< (p % 8))) ||| (if v then 1#8 <<< (p % 8) else 0)),
    ?_, keeps_write _ _ _ _ h, ?_⟩
  · simp [putBit, memRead, memWrite, h, bind, Except.bind]
  · intro j
    have h8 : p % 8 < 8 := Nat.mod_lt _ (by omega)
    have hj8 : j % 8 < 8 := Nat.mod_lt _ (by omega)
    unfold memBit
    rw [read_write]
    by_cases hj : j / 8 = base + p / 8
    · rw [if_pos hj, setBit_getLsbD _ _ _ _ h8 hj8, hj]
      have : j % 8 = p % 8 ↔ j = 8 * base + p := by omega
      simp only [this]
    · rw [if_neg hj, if_neg (by omega)]

/-! ### Runs of bits -/

theorem memBits_lt (m : Memory) (k n : Nat) : memBits m k n < 2 ^ n := by
  induction n generalizing k with
  | zero => simp [memBits]
  | succ n ih =>
    have := ih (k + 1)
    have hb := Bool.toNat_le (memBit m k)
    simp only [memBits, pow_succ]
    omega

/-- Bit i of the number read is bit `k + i` of memory. -/
theorem memBits_testBit (m : Memory) (k n i : Nat) : (memBits m k n).testBit i = (decide (i < n) && memBit m (k + i)) := by
  induction n generalizing k i with
  | zero => simp [memBits]
  | succ n ih =>
    cases i with
    | zero => cases h : memBit m k <;> simp [memBits, h, Nat.testBit_zero]
    | succ i =>
      have e : ((memBit m k).toNat + 2 * memBits m (k + 1) n) / 2 = memBits m (k + 1) n := by
        have := Bool.toNat_le (memBit m k)
        omega
      rw [memBits, Nat.testBit_succ, e, ih, show k + 1 + i = k + (i + 1) by omega]
      simp

theorem memBits_congr (m m' : Memory) (k n : Nat) (h : ∀ i < n, memBit m (k + i) = memBit m' (k + i)) :
    memBits m k n = memBits m' k n := by
  refine Nat.eq_of_testBit_eq fun i => ?_
  rw [memBits_testBit, memBits_testBit]
  by_cases hi : i < n
  · rw [h i hi]
  · simp [hi]

theorem getBits_ok (k : Config) (m : Memory) (base : Nat) (n p : Nat) (h : ∀ j < n, memOK k (base + (p + j) / 8) = true) :
    getBits k m base p n = .ok (memBits m (8 * base + p) n) := by
  induction n generalizing p with
  | zero => rfl
  | succ n ih =>
    have h0 := h 0 (by omega)
    rw [getBits, getBit_ok k m base p (by simpa using h0),
      ih (p + 1) fun j hj => by have := h (j + 1) (by omega); rwa [show p + 1 + j = p + (j + 1) by omega]]
    rfl

/-- A read of stream bits that completes touches only bytes that exist, and gives the bits of memory. -/
theorem getBits_inv (k : Config) (m : Memory) (base : Nat) (n p v : Nat) (h : getBits k m base p n = .ok v) :
    (∀ j < n, memOK k (base + (p + j) / 8) = true) ∧ v = memBits m (8 * base + p) n := by
  have hall : ∀ j < n, memOK k (base + (p + j) / 8) = true := by
    induction n generalizing p v with
    | zero => intro j hj; omega
    | succ n ih =>
      intro j hj
      cases h0 : memOK k (base + p / 8) with
      | false => rw [getBits, getBit_stuck k m base p h0] at h; simp [bind, Except.bind] at h
      | true =>
        rw [getBits, getBit_ok k m base p h0] at h
        cases hr : getBits k m base (p + 1) n with
        | error e => rw [hr] at h; simp [bind, Except.bind] at h
        | ok r =>
          cases j with
          | zero => simpa using h0
          | succ j => rw [show p + (j + 1) = p + 1 + j by omega]; exact ih _ _ hr j (by omega)
  refine ⟨hall, ?_⟩
  rw [getBits_ok k m base n p hall] at h
  exact (Except.ok.inj h).symm

/-- A read of stream bits stops at the first missing byte. -/
theorem getBits_stuck (k : Config) (base : Nat) (n : Nat) (m : Memory) (p i : Nat) (hi : i < n)
    (hm : memOK k (base + (p + i) / 8) = false) (h : ∀ j < i, memOK k (base + (p + j) / 8) = true) :
    getBits k m base p n = .error (.fault (.missingAddress (base + (p + i) / 8))) := by
  induction i generalizing p n with
  | zero =>
    obtain ⟨n, rfl⟩ : ∃ n', n = n' + 1 := ⟨n - 1, by omega⟩
    rw [getBits, getBit_stuck k m base p (by simpa using hm)]
    rfl
  | succ i ih =>
    obtain ⟨n, rfl⟩ : ∃ n', n = n' + 1 := ⟨n - 1, by omega⟩
    have := ih n (p + 1) (by omega) (by rwa [show p + 1 + i = p + (i + 1) by omega]) fun j hj => by
      have := h (j + 1) (by omega); rwa [show p + 1 + j = p + (j + 1) by omega]
    rw [getBits, getBit_ok k m base p (by simpa using h 0 (by omega)), show p + (i + 1) = p + 1 + i by omega]
    simp [bind, Except.bind, this]

/-- The bits `[lo, lo + n)` of memory hold the low bits of v, every other bit is as before (20_memory.md R65). -/
def PutAt (m : Memory) (lo n v : Nat) (m' : Memory) : Prop :=
  ∀ j, memBit m' j = if lo ≤ j ∧ j < lo + n then v.testBit (j - lo) else memBit m j

theorem putBits_ok (k : Config) (base : Nat) (n : Nat) (m : Memory) (p v : Nat)
    (h : ∀ j < n, memOK k (base + (p + j) / 8) = true) :
    ∃ m', putBits k m base p n v = .ok m' ∧ Keeps k m m' ∧ PutAt m (8 * base + p) n v m' := by
  induction n generalizing m p v with
  | zero => exact ⟨m, rfl, Keeps.refl _ _, fun j => by rw [if_neg (by omega)]⟩
  | succ n ih =>
    obtain ⟨m₁, e₁, k₁, b₁⟩ := putBit_ok k m base p (v.testBit 0) (by simpa using h 0 (by omega))
    obtain ⟨m₂, e₂, k₂, b₂⟩ := ih m₁ (p + 1) (v / 2) fun j hj => by
      have := h (j + 1) (by omega); rwa [show p + 1 + j = p + (j + 1) by omega]
    refine ⟨m₂, ?_, k₁.trans k₂, fun j => ?_⟩
    · rw [putBits, e₁]; exact e₂
    · rw [b₂ j, b₁ j]
      by_cases h0 : j = 8 * base + p
      · subst h0
        rw [if_neg (by omega), if_pos rfl, if_pos (by omega)]; simp
      · rw [if_neg h0]
        by_cases h1 : 8 * base + (p + 1) ≤ j ∧ j < 8 * base + (p + 1) + n
        · rw [if_pos h1, if_pos (by omega), ← Nat.testBit_succ]; congr 1; omega
        · rw [if_neg h1, if_neg (by omega)]

/-- A write of stream bits stops at the first missing byte. -/
theorem putBits_stuck (k : Config) (base : Nat) (n : Nat) (m : Memory) (p v i : Nat) (hi : i < n)
    (hm : memOK k (base + (p + i) / 8) = false) (h : ∀ j < i, memOK k (base + (p + j) / 8) = true) :
    putBits k m base p n v = .error (.fault (.missingAddress (base + (p + i) / 8))) := by
  induction i generalizing m p v n with
  | zero =>
    obtain ⟨n, rfl⟩ : ∃ n', n = n' + 1 := ⟨n - 1, by omega⟩
    rw [putBits, putBit_stuck k m base p _ (by simpa using hm)]
    rfl
  | succ i ih =>
    obtain ⟨n, rfl⟩ : ∃ n', n = n' + 1 := ⟨n - 1, by omega⟩
    obtain ⟨m₁, e₁, -, -⟩ := putBit_ok k m base p (v.testBit 0) (by simpa using h 0 (by omega))
    have := ih n m₁ (p + 1) (v / 2) (by omega) (by rwa [show p + 1 + i = p + (i + 1) by omega]) fun j hj => by
      have := h (j + 1) (by omega); rwa [show p + 1 + j = p + (j + 1) by omega]
    rw [putBits, e₁, show p + (i + 1) = p + 1 + i by omega]
    exact this

/-- A write of stream bits that completes touches only bytes that exist, and puts the bits there. -/
theorem putBits_inv (k : Config) (base : Nat) (n : Nat) (m m' : Memory) (p v : Nat)
    (h : putBits k m base p n v = .ok m') :
    (∀ j < n, memOK k (base + (p + j) / 8) = true) ∧ Keeps k m m' ∧ PutAt m (8 * base + p) n v m' := by
  have hall : ∀ j < n, memOK k (base + (p + j) / 8) = true := by
    intro j
    induction j using Nat.strong_induction_on with
    | _ j ih =>
      intro hj
      by_contra hne
      rw [putBits_stuck k base n m p v j hj (by simpa using hne) fun i hi => ih i hi (by omega)] at h
      simp at h
  obtain ⟨m₁, e, hk, hp⟩ := putBits_ok k base n m p v hall
  rw [e] at h
  obtain rfl := Except.ok.inj h
  exact ⟨hall, hk, hp⟩

end Sys2Proof.Machine
end

