-- ==== Sys2Proof/Laws/Regions.lean ====
section
/-! SUPPORT. What the overlap tests say about bytes (20_memory.md R79), and what the scan of a source string can do. -/

namespace Sys2Proof.Machine

theorem regionsOverlap_iff (a n b m : Nat) : regionsOverlap a n b m = true ↔ SharesByte a n b m := by
  simp only [regionsOverlap, decide_eq_true_eq, SharesByte]
  constructor
  · rintro ⟨h1, h2, h3, h4⟩
    exact ⟨max a b, by omega, by omega, by omega, by omega⟩
  · rintro ⟨x, h1, h2, h3, h4⟩
    omega

theorem regionsOverlap_comm (a n b m : Nat) : regionsOverlap a n b m = regionsOverlap b m a n := by
  rw [Bool.eq_iff_iff, regionsOverlap_iff, regionsOverlap_iff]
  exact exists_congr fun x => by tauto

theorem boundOverlap_iff (s : State) (p : CtxId → Ctx → Bool) (a n : Nat) :
    boundOverlap s p a n = true ↔ SharesRegion s (fun d => p d (s.ctx d) = true) a n := by
  simp only [boundOverlap, List.any_eq_true, List.mem_finRange, true_and, Bool.and_eq_true, decide_eq_true_eq,
    regionsOverlap_iff, SharesRegion]
  exact exists_congr fun d => by tauto

theorem bindOverlap_iff (s : State) (c : CtxId) (mode : Mode) (a n : Nat) :
    bindOverlap s c mode a n = true ↔ BindOverlaps s c mode a n := by
  simp [bindOverlap, boundOverlap_iff, BindOverlaps]

theorem sourceOverlap_iff (s : State) (a n : Nat) : sourceOverlap s a n = true ↔ SourceOverlaps s a n := by
  simp [sourceOverlap, boundOverlap_iff, SourceOverlaps]

theorem destOverlap_iff (s : State) (a n : Nat) : destOverlap s a n = true ↔ DestOverlaps s a n := by
  simp [destOverlap, boundOverlap_iff, DestOverlaps]

theorem bindOverlap_false (s : State) (c : CtxId) (mode : Mode) (a n : Nat) :
    bindOverlap s c mode a n = false ↔ ¬BindOverlaps s c mode a n := by
  rw [← bindOverlap_iff, Bool.not_eq_true]

theorem sourceOverlap_false (s : State) (a n : Nat) : sourceOverlap s a n = false ↔ ¬SourceOverlaps s a n := by
  rw [← sourceOverlap_iff, Bool.not_eq_true]

theorem destOverlap_false (s : State) (a n : Nat) : destOverlap s a n = false ↔ ¬DestOverlaps s a n := by
  rw [← destOverlap_iff, Bool.not_eq_true]

/-! ### The scan of a source string -/

variable {s : State} {a n : Nat}

/-- One turn of the scan over a byte that is not the NUL. -/
theorem scanString_next (fuel : Nat) (hm : memOK s.cfg a = true) (hz : s.mem.read a ≠ 0) (ho : ¬SourceOverlaps s a 1) :
    scanString s (fuel + 1) a = (scanString s fuel (a + 1) >>= fun rest => .ok (s.mem.read a :: rest)) := by
  rw [scanString, require_pos _ ((sourceOverlap_false s a 1).2 ho), exec_ok_bind, memRead, if_pos hm, exec_ok_bind,
    if_neg hz]

/-- The scan passes over n bytes that exist, are not the NUL and lie in no writer's region. -/
theorem scanString_skip (fuel : Nat)
    (h : ∀ j < n, memOK s.cfg (a + j) = true ∧ s.mem.read (a + j) ≠ 0 ∧ ¬SourceOverlaps s (a + j) 1) :
    scanString s (n + fuel) a =
      (scanString s fuel (a + n) >>= fun rest => .ok ((List.range n).map (fun j => s.mem.read (a + j)) ++ rest)) := by
  induction n generalizing a with
  | zero =>
    rw [Nat.zero_add, Nat.add_zero]
    cases scanString s fuel a <;> rfl
  | succ n ih =>
    have h0 := h 0 (by omega)
    rw [Nat.add_zero] at h0
    obtain ⟨hm, hz, ho⟩ := h0
    rw [show n + 1 + fuel = (n + fuel) + 1 by omega, scanString_next _ hm hz ho,
      ih fun j hj => by have := h (j + 1) (by omega); rwa [show a + 1 + j = a + (j + 1) by omega],
      show a + 1 + n = a + (n + 1) by omega]
    cases scanString s fuel (a + (n + 1)) with
    | error e => rfl
    | ok rest =>
      simp only [exec_ok_bind, List.range_succ_eq_map, List.map_cons, List.map_map, List.cons_append, Nat.add_zero]
      congr 4
      funext j
      rw [Function.comp, show a + 1 + j = a + Nat.succ j by omega]

/-- The fuel that WSTRING gives the scan goes past every run of bytes that exist. -/
theorem scanString_fuel (h : ∀ j < n, memOK s.cfg (a + j) = true) : ∃ k, memEnd s.cfg - a + 1 = n + (k + 1) := by
  refine ⟨memEnd s.cfg - a - n, ?_⟩
  rcases Nat.eq_zero_or_pos n with rfl | hn
  · omega
  · have := lt_memEnd (h (n - 1) (by omega))
    omega

theorem scanString_refused (h : ∀ j < n, memOK s.cfg (a + j) = true ∧ s.mem.read (a + j) ≠ 0 ∧ ¬SourceOverlaps s (a + j) 1)
    (ho : SourceOverlaps s (a + n) 1) : scanString s (memEnd s.cfg - a + 1) a = .error (.refused .overlap) := by
  obtain ⟨k, e⟩ := scanString_fuel (s := s) (a := a) (n := n) fun j hj => (h j hj).1
  rw [e, scanString_skip _ h, scanString, require_neg _ (by rw [(sourceOverlap_iff s (a + n) 1).2 ho]; simp)]
  rfl

theorem scanString_stuck (h : ∀ j < n, memOK s.cfg (a + j) = true ∧ s.mem.read (a + j) ≠ 0 ∧ ¬SourceOverlaps s (a + j) 1)
    (ho : ¬SourceOverlaps s (a + n) 1) (hm : memOK s.cfg (a + n) = false) :
    scanString s (memEnd s.cfg - a + 1) a = .error (.fault (.missingAddress (a + n))) := by
  obtain ⟨k, e⟩ := scanString_fuel (s := s) (a := a) (n := n) fun j hj => (h j hj).1
  rw [e, scanString_skip _ h, scanString, require_pos _ ((sourceOverlap_false s _ 1).2 ho), exec_ok_bind, memRead,
    if_neg (by simp [hm])]
  rfl

theorem scanString_ok (h : ∀ j < n, memOK s.cfg (a + j) = true ∧ s.mem.read (a + j) ≠ 0 ∧ ¬SourceOverlaps s (a + j) 1)
    (ho : ¬SourceOverlaps s (a + n) 1) (hm : memOK s.cfg (a + n) = true) (hz : s.mem.read (a + n) = 0) :
    scanString s (memEnd s.cfg - a + 1) a = .ok ((List.range (n + 1)).map fun j => s.mem.read (a + j)) := by
  obtain ⟨k, e⟩ := scanString_fuel (s := s) (a := a) (n := n) fun j hj => (h j hj).1
  rw [e, scanString_skip _ h, scanString, require_pos _ ((sourceOverlap_false s _ 1).2 ho), exec_ok_bind, memRead,
    if_pos hm, exec_ok_bind, if_pos hz, exec_ok_bind, List.range_succ, List.map_append]
  rfl

end Sys2Proof.Machine
end

