-- ==== Sys2Proof/Laws/Stream.lean ====
section
/-! SUPPORT. What the primitives `Wr` and `Rd` and a sequence of writes can do: one inversion lemma each, the frame that
every stream access keeps, and when they complete. -/

namespace Sys2Proof.Machine

/-! ### The primitives -/

/-- A `Wr` that does not fit is an error and nothing else (20_memory.md R66). -/
theorem wr_full (op : BitVec 8) (c : CtxId) (n v : Nat) (s : State) (h : ¬Fits s c n) :
    wr op c n v s = .ok (s.overflow op c .bufferOverrun) := by
  simp only [Fits, not_le] at h
  simp [wr, h]

/-- A `Wr` that fits, over bytes that exist, writes its field. -/
theorem wr_fits (op : BitVec 8) (c : CtxId) (n v : Nat) (s : State) (h : Fits s c n)
    (hm : ∀ j < n, memOK s.cfg ((s.ctx c).base + ((s.ctx c).cursor + j) / 8) = true) :
    ∃ t, wr op c n v s = .ok t ∧ Wrote s c n v t ∧ Keeps s.cfg s.mem t.mem := by
  obtain ⟨m, e, hk, hp⟩ := putBits_ok s.cfg (s.ctx c).base n s.mem (s.ctx c).cursor (v % 2 ^ n) hm
  refine ⟨(s.setCursor c ((s.ctx c).cursor + n)).setMem m, ?_, ⟨rfl, fun k => ?_⟩, hk⟩
  · simp only [Fits] at h
    simp [wr, h, e]
  · rw [setMem_mem, hp k]
    split
    · rw [Nat.testBit_mod_two_pow, decide_eq_true (by omega), Bool.true_and]
    · rfl

/-- All that a `Wr` can do: it fits and writes its field over bytes that exist, or it is an error and nothing else. -/
theorem wr_inv {op : BitVec 8} {c : CtxId} {n v : Nat} {s t : State} (h : wr op c n v s = .ok t) :
    (Fits s c n ∧ (∀ j < n, memOK s.cfg ((s.ctx c).base + ((s.ctx c).cursor + j) / 8) = true) ∧
      Wrote s c n v t ∧ Keeps s.cfg s.mem t.mem) ∨
    (¬Fits s c n ∧ t = s.overflow op c .bufferOverrun) := by
  by_cases hf : Fits s c n
  · left
    have hall : ∀ j < n, memOK s.cfg ((s.ctx c).base + ((s.ctx c).cursor + j) / 8) = true := by
      have hf' := hf
      simp only [Fits] at hf'
      simp only [wr, gt_iff_lt, not_lt.2 hf', if_false, exec_bind_eq_ok] at h
      obtain ⟨m, e, -⟩ := h
      exact (putBits_inv _ _ _ _ _ _ _ e).1
    obtain ⟨t', e, hw, hk⟩ := wr_fits op c n v s hf hall
    rw [e] at h
    obtain rfl := Except.ok.inj h
    exact ⟨hf, hall, hw, hk⟩
  · right
    rw [wr_full op c n v s hf] at h
    exact ⟨hf, (Except.ok.inj h).symm⟩

/-- A `Rd` that does not fit is an error, and yields 0 (20_memory.md R67). -/
theorem rd_full (op : BitVec 8) (c : CtxId) (n : Nat) (s : State) (h : ¬Fits s c n) :
    rd op c n s = .ok (0, s.overflow op c .bufferOverrun) := by
  simp only [Fits, not_le] at h
  simp [rd, h]

/-- A `Rd` that fits, over bytes that exist, yields the stream bits at the cursor. -/
theorem rd_fits (op : BitVec 8) (c : CtxId) (n : Nat) (s : State) (h : Fits s c n)
    (hm : ∀ j < n, memOK s.cfg ((s.ctx c).base + ((s.ctx c).cursor + j) / 8) = true) :
    rd op c n s = .ok (streamBits s c (s.ctx c).cursor n, s.setCursor c ((s.ctx c).cursor + n)) := by
  simp only [Fits] at h
  simp [rd, h, getBits_ok _ _ _ _ _ hm, streamBits]

/-- All that a `Rd` can do. -/
theorem rd_inv {op : BitVec 8} {c : CtxId} {n : Nat} {s : State} {r : Nat × State} (h : rd op c n s = .ok r) :
    (Fits s c n ∧ r = (streamBits s c (s.ctx c).cursor n, s.setCursor c ((s.ctx c).cursor + n))) ∨
    (¬Fits s c n ∧ r = (0, s.overflow op c .bufferOverrun)) := by
  by_cases hf : Fits s c n
  · left
    have hall : ∀ j < n, memOK s.cfg ((s.ctx c).base + ((s.ctx c).cursor + j) / 8) = true := by
      have hf' := hf
      simp only [Fits] at hf'
      simp only [rd, gt_iff_lt, not_lt.2 hf', if_false, exec_bind_eq_ok] at h
      obtain ⟨v, e, -⟩ := h
      exact (getBits_inv _ _ _ _ _ _ e).1
    rw [rd_fits op c n s hf hall] at h
    exact ⟨hf, (Except.ok.inj h).symm⟩
  · right
    rw [rd_full op c n s hf] at h
    exact ⟨hf, (Except.ok.inj h).symm⟩

/-! ### Ready contexts -/

/-- Where the buffer exists, the bytes of a field that fits exist. -/
theorem Buffered.bytes {s : State} {c : CtxId} (h : Buffered s c) {n : Nat} (hf : Fits s c n) :
    ∀ j < n, memOK s.cfg ((s.ctx c).base + ((s.ctx c).cursor + j) / 8) = true := by
  intro j hj
  simp only [Fits] at hf
  exact h _ (by omega)

/-- In a context whose buffer exists, a `Rd` always completes. -/
theorem rd_total (op : BitVec 8) (c : CtxId) (n : Nat) (s : State) (h : Buffered s c) :
    ∃ v t, rd op c n s = .ok (v, t) ∧ Buffered t c := by
  by_cases hf : Fits s c n
  · exact ⟨_, _, rd_fits _ _ _ _ hf (h.bytes hf), fun p hp => by simp at hp ⊢; exact h p hp⟩
  · exact ⟨_, _, rd_full _ _ _ _ hf, fun p hp => by simp at hp ⊢; exact h p hp⟩

/-- In a context whose buffer exists, a `Wr` always completes. -/
theorem wr_total (op : BitVec 8) (c : CtxId) (n v : Nat) (s : State) (h : Buffered s c) :
    ∃ t, wr op c n v s = .ok t ∧ Buffered t c := by
  by_cases hf : Fits s c n
  · obtain ⟨t, e, hw, -⟩ := wr_fits op c n v s hf (h.bytes hf)
    refine ⟨t, e, fun p hp => ?_⟩
    rw [hw.1] at hp ⊢
    simp at hp ⊢
    exact h p hp
  · exact ⟨_, wr_full op c n v s hf, fun p hp => by simp only [ctx_overflow_same, overflow_cfg] at hp ⊢; exact h p hp⟩

@[simp] theorem Fits_zero (s : State) (c : CtxId) (h : (s.ctx c).cursor ≤ (s.ctx c).bitCap) : Fits s c 0 := h

/-! ### The frame of a stream access -/

/-- What a stream access on context c leaves, whatever happened: the parameters, the operand and result registers, the
inbox, every other context, and of context c all but CURSOR and OVF; OVF stays set once set; DIAG grows by events of
context c and opcode `op`, and only with the hook. -/
structure StreamFrame (op : BitVec 8) (c : CtxId) (s t : State) : Prop where
  cfg : t.cfg = s.cfg
  opa : t.opa = s.opa
  opb : t.opb = s.opb
  opc : t.opc = s.opc
  opd : t.opd = s.opd
  res0 : t.res0 = s.res0
  res1 : t.res1 = s.res1
  inbox : t.inbox = s.inbox
  other : ∀ d, d ≠ c → t.ctx d = s.ctx d
  self : t.ctx c = { s.ctx c with cursor := (t.ctx c).cursor, ovf := (t.ctx c).ovf }
  ovf : (s.ctx c).ovf = true → (t.ctx c).ovf = true
  bound : (s.ctx c).cursor ≤ (s.ctx c).bitCap → (t.ctx c).cursor ≤ (t.ctx c).bitCap
  diag : ∃ es : List DiagEvent, t.diag = s.diag ++ es ∧ (∀ e ∈ es, e.c = c ∧ e.opcode = op) ∧
    (s.cfg.hookEnabled = false → es = [])

theorem StreamFrame.refl (op : BitVec 8) (c : CtxId) (s : State) : StreamFrame op c s s :=
  ⟨rfl, rfl, rfl, rfl, rfl, rfl, rfl, rfl, fun _ _ => rfl, rfl, id, id, [], by simp, by simp, fun _ => rfl⟩

theorem StreamFrame.trans {op : BitVec 8} {c : CtxId} {s t u : State} (h : StreamFrame op c s t)
    (h' : StreamFrame op c t u) : StreamFrame op c s u where
  cfg := h'.cfg.trans h.cfg
  opa := h'.opa.trans h.opa
  opb := h'.opb.trans h.opb
  opc := h'.opc.trans h.opc
  opd := h'.opd.trans h.opd
  res0 := h'.res0.trans h.res0
  res1 := h'.res1.trans h.res1
  inbox := h'.inbox.trans h.inbox
  other d hd := (h'.other d hd).trans (h.other d hd)
  self := by rw [h'.self, h.self]
  ovf := h'.ovf ∘ h.ovf
  bound := h'.bound ∘ h.bound
  diag := by
    obtain ⟨es, e, p, q⟩ := h.diag
    obtain ⟨es', e', p', q'⟩ := h'.diag
    refine ⟨es ++ es', by rw [e', e, List.append_assoc], fun x hx => ?_, fun hh => ?_⟩
    · exact (List.mem_append.1 hx).elim (p x) (p' x)
    · rw [q hh, q' (h.cfg ▸ hh)]; rfl

theorem StreamFrame.mode {op : BitVec 8} {c : CtxId} {s t : State} (h : StreamFrame op c s t) :
    (t.ctx c).mode = (s.ctx c).mode := by rw [h.self]

theorem StreamFrame.base {op : BitVec 8} {c : CtxId} {s t : State} (h : StreamFrame op c s t) :
    (t.ctx c).base = (s.ctx c).base := by rw [h.self]

theorem StreamFrame.byteCap {op : BitVec 8} {c : CtxId} {s t : State} (h : StreamFrame op c s t) :
    (t.ctx c).byteCap = (s.ctx c).byteCap := by rw [h.self]

theorem StreamFrame.bitCap {op : BitVec 8} {c : CtxId} {s t : State} (h : StreamFrame op c s t) :
    (t.ctx c).bitCap = (s.ctx c).bitCap := by rw [h.self]

theorem StreamFrame.buffered {op : BitVec 8} {c : CtxId} {s t : State} (h : StreamFrame op c s t) (hb : Buffered s c) :
    Buffered t c := by
  intro p hp
  rw [h.bitCap] at hp
  rw [h.base, h.cfg]
  exact hb p hp

/-- The error procedure keeps the frame. -/
theorem overflow_frame (op : BitVec 8) (c : CtxId) (k : ErrorKind) (s : State) :
    StreamFrame op c s (s.overflow op c k) where
  cfg := rfl
  opa := rfl
  opb := rfl
  opc := rfl
  opd := rfl
  res0 := rfl
  res1 := rfl
  inbox := rfl
  other d hd := ctx_overflow_other _ _ _ _ _ hd
  self := by simp
  ovf := by simp
  bound := by simp
  diag := by
    rw [overflow_diag]
    split
    · exact ⟨_, rfl, by simp, by simp_all⟩
    · exact ⟨[], by simp, by simp, by simp⟩

/-- Moving the cursor to a position within the capacity keeps the frame. -/
theorem setCursor_frame (op : BitVec 8) (c : CtxId) (p : Nat) (s : State)
    (h : (s.ctx c).cursor ≤ (s.ctx c).bitCap → p ≤ (s.ctx c).bitCap) : StreamFrame op c s (s.setCursor c p) where
  cfg := rfl
  opa := rfl
  opb := rfl
  opc := rfl
  opd := rfl
  res0 := rfl
  res1 := rfl
  inbox := rfl
  other d hd := ctx_setCursor_other _ _ _ _ hd
  self := by simp
  ovf := by simp
  bound := by simpa using h
  diag := ⟨[], by simp, by simp, by simp⟩

/-- Changing memory and the number of draws keeps the frame. -/
theorem mem_frame (op : BitVec 8) (c : CtxId) (s : State) (m : Memory) (k : Nat) :
    StreamFrame op c s ((s.setMem m).setDraws k) :=
  ⟨rfl, rfl, rfl, rfl, rfl, rfl, rfl, rfl, fun _ _ => rfl, rfl, id, id, [], by simp, by simp, fun _ => rfl⟩

theorem rd_frame {op : BitVec 8} {c : CtxId} {n v : Nat} {s t : State} (h : rd op c n s = .ok (v, t)) :
    StreamFrame op c s t ∧ t.mem = s.mem ∧ t.draws = s.draws := by
  rcases rd_inv h with ⟨hf, e⟩ | ⟨-, e⟩ <;> obtain ⟨rfl, rfl⟩ := Prod.ext_iff.1 e
  · exact ⟨setCursor_frame _ _ _ _ fun _ => hf, rfl, rfl⟩
  · exact ⟨overflow_frame _ _ _ _, rfl, rfl⟩

/-- The value a `Rd` yields has at most n bits. -/
theorem rd_lt {op : BitVec 8} {c : CtxId} {n v : Nat} {s t : State} (h : rd op c n s = .ok (v, t)) : v < 2 ^ n := by
  rcases rd_inv h with ⟨-, e⟩ | ⟨-, e⟩ <;> obtain ⟨rfl, rfl⟩ := Prod.ext_iff.1 e
  · exact memBits_lt _ _ _
  · exact Nat.two_pow_pos _

/-- What writes to the stream of c leave of memory: every bit outside [CURSOR, BITCAP) of the stream, the canonical form, and
that no byte is listed where no memory exists. The cursor only moves forward. -/
structure WriteFrame (op : BitVec 8) (c : CtxId) (s t : State) : Prop extends StreamFrame op c s t where
  forward : (s.ctx c).cursor ≤ (t.ctx c).cursor
  keeps : Keeps s.cfg s.mem t.mem
  bits : ∀ j, j < 8 * (s.ctx c).base + (s.ctx c).cursor ∨ 8 * (s.ctx c).base + (s.ctx c).bitCap ≤ j →
    memBit t.mem j = memBit s.mem j

theorem WriteFrame.refl (op : BitVec 8) (c : CtxId) (s : State) : WriteFrame op c s s :=
  ⟨StreamFrame.refl op c s, le_rfl, Keeps.refl _ _, fun _ _ => rfl⟩

theorem WriteFrame.trans {op : BitVec 8} {c : CtxId} {s t u : State} (h : WriteFrame op c s t)
    (h' : WriteFrame op c t u) : WriteFrame op c s u := by
  refine ⟨h.toStreamFrame.trans h'.toStreamFrame, h.forward.trans h'.forward, h.keeps.trans (h.cfg ▸ h'.keeps),
    fun j hj => ?_⟩
  have := h.forward
  rw [h'.bits j (by rw [h.base, h.bitCap]; omega), h.bits j hj]

/-- A `Wr` keeps the write frame and takes no draw. -/
theorem wr_frame {op : BitVec 8} {c : CtxId} {n v : Nat} {s t : State} (h : wr op c n v s = .ok t) :
    WriteFrame op c s t ∧ t.draws = s.draws := by
  rcases wr_inv h with ⟨hf, -, hw, hk⟩ | ⟨-, rfl⟩
  · have hs := setCursor_frame op c ((s.ctx c).cursor + n) s fun _ => hf
    have hm := mem_frame op c (s.setCursor c ((s.ctx c).cursor + n)) t.mem s.draws
    refine ⟨⟨by rw [hw.1]; exact hs.trans hm, ?_, hk, fun j hj => ?_⟩, by rw [hw.1]; rfl⟩
    · rw [hw.1]; simp
    · simp only [Fits] at hf
      rw [hw.2 j, if_neg (by omega)]
  · exact ⟨⟨overflow_frame _ _ _ _, by simp, Keeps.refl _ _, fun _ _ => rfl⟩, rfl⟩

/-- A sequence of fields keeps the write frame and takes no draw. -/
theorem wrAll_frame {op : BitVec 8} {c : CtxId} (fs : List StreamField) {s t : State} (h : wrAll op c fs s = .ok t) :
    WriteFrame op c s t ∧ t.draws = s.draws := by
  induction fs generalizing s with
  | nil => obtain rfl := Except.ok.inj h; exact ⟨WriteFrame.refl _ _ _, rfl⟩
  | cons f fs ih =>
    obtain ⟨u, e, h⟩ := exec_bind_eq_ok.1 h
    obtain ⟨hw, hd⟩ := wr_frame e
    obtain ⟨hw', hd'⟩ := ih h
    exact ⟨hw.trans hw', hd'.trans hd⟩

/-- Where the buffer exists, a sequence of fields always completes. -/
theorem wrAll_total (op : BitVec 8) (c : CtxId) (fs : List StreamField) (s : State) (h : Buffered s c) :
    ∃ t, wrAll op c fs s = .ok t := by
  induction fs generalizing s with
  | nil => exact ⟨s, rfl⟩
  | cons f fs ih =>
    obtain ⟨u, e, hu⟩ := wr_total op c f.width f.value s h
    obtain ⟨t, e'⟩ := ih u hu
    exact ⟨t, by rw [wrAll, e]; exact e'⟩

/-! ### A sequence of fields that fits -/

theorem Wrote.ctx {s t : State} {c : CtxId} {n v : Nat} (h : Wrote s c n v t) :
    t.ctx c = { s.ctx c with cursor := (s.ctx c).cursor + n } := by
  rw [h.1]; simp

theorem side_testBit_low (v v' n i : Nat) (h : i < n) : (v % 2 ^ n + 2 ^ n * v').testBit i = v.testBit i := by
  rw [Nat.add_comm, Nat.testBit_two_pow_mul_add _ (Nat.mod_lt _ (Nat.two_pow_pos n)), if_pos h, Nat.testBit_mod_two_pow,
    decide_eq_true h, Bool.true_and]

theorem side_testBit_high (v v' n i : Nat) (h : n ≤ i) : (v % 2 ^ n + 2 ^ n * v').testBit i = v'.testBit (i - n) := by
  rw [Nat.add_comm, Nat.testBit_two_pow_mul_add _ (Nat.mod_lt _ (Nat.two_pow_pos n)), if_neg (by omega)]

/-- Two writes one after the other are one write of the two values side by side. -/
theorem Wrote.append {s t u : State} {c : CtxId} {n n' v v' : Nat} (h : Wrote s c n v t) (h' : Wrote t c n' v' u) :
    Wrote s c (n + n') (v % 2 ^ n + 2 ^ n * v') u := by
  have hc := h.ctx
  refine ⟨?_, fun k => ?_⟩
  · rw [h'.1, hc]
    conv_lhs => rw [h.1]
    simp [setCursor_setMem, Nat.add_assoc]
  · rw [h'.2 k, h.2 k, hc]
    dsimp only
    generalize hlo : 8 * (s.ctx c).base + (s.ctx c).cursor = lo
    rw [show 8 * (s.ctx c).base + ((s.ctx c).cursor + n) = lo + n by omega]
    by_cases h1 : lo + n ≤ k ∧ k < lo + n + n'
    · rw [if_pos h1, if_pos (by omega), side_testBit_high _ _ _ _ (by omega)]; congr 1; omega
    · rw [if_neg h1]
      by_cases h2 : lo ≤ k ∧ k < lo + n
      · rw [if_pos h2, if_pos (by omega), side_testBit_low _ _ _ _ (by omega)]
      · rw [if_neg h2, if_neg (by omega)]

/-- The total width of the fields of a composite write. -/
def fieldsWidth (fs : List StreamField) : Nat := (fs.map StreamField.width).sum

/-- The fields of a composite write as one number, the first field lowest. -/
def fieldsValue : List StreamField → Nat
  | [] => 0
  | f :: fs => f.value % 2 ^ f.width + 2 ^ f.width * fieldsValue fs

theorem wrote_nothing (s : State) (c : CtxId) : Wrote s c 0 0 s :=
  ⟨by simp, fun k => by rw [if_neg (by omega)]⟩

/-- A sequence of fields that fits as a whole writes them side by side. -/
theorem writesAll_fits {op : BitVec 8} {c : CtxId} {fs : List StreamField} {s t : State} (h : WritesAll op c fs s t)
    (hf : Fits s c (fieldsWidth fs)) : Wrote s c (fieldsWidth fs) (fieldsValue fs) t := by
  induction fs generalizing s with
  | nil =>
    obtain rfl : t = s := h
    exact wrote_nothing t c
  | cons f fs ih =>
    obtain ⟨u, hu, ht⟩ := h
    have e : fieldsWidth (f :: fs) = f.width + fieldsWidth fs := by simp [fieldsWidth]
    rw [e] at hf ⊢
    simp only [Fits] at hf
    have hw := hu.1 (by simp only [Fits]; omega)
    refine hw.append (ih ht ?_)
    simp only [Fits, hw.ctx]
    omega

/-! ### The primitives as outcomes -/

theorem wr_outcome {op : BitVec 8} {c : CtxId} {n v : Nat} {s t : State} (h : wr op c n v s = .ok t) :
    WrOutcome op c n v s t := by
  rcases wr_inv h with ⟨hf, -, hw, -⟩ | ⟨hf, e⟩
  · exact ⟨fun _ => hw, fun hn => absurd hf hn⟩
  · exact ⟨fun hn => absurd hn hf, fun _ => e⟩

/-- In a context whose buffer exists, a `Wr` completes with its outcome. -/
theorem wr_completes (op : BitVec 8) (c : CtxId) (n v : Nat) (s : State) (h : Buffered s c) :
    ∃ t, wr op c n v s = .ok t ∧ WrOutcome op c n v s t := by
  obtain ⟨t, e, -⟩ := wr_total op c n v s h
  exact ⟨t, e, wr_outcome e⟩

theorem wrAll_outcome {op : BitVec 8} {c : CtxId} {fs : List StreamField} {s t : State} (h : wrAll op c fs s = .ok t) :
    WritesAll op c fs s t := by
  induction fs generalizing s with
  | nil => exact (Except.ok.inj h).symm
  | cons f fs ih =>
    obtain ⟨u, e, h⟩ := exec_bind_eq_ok.1 h
    exact ⟨u, wr_outcome e, ih h⟩

/-- In a context whose buffer exists, a sequence of fields completes, each field with its outcome. -/
theorem wrAll_completes (op : BitVec 8) (c : CtxId) (fs : List StreamField) (s : State) (h : Buffered s c) :
    ∃ t, wrAll op c fs s = .ok t ∧ WritesAll op c fs s t := by
  obtain ⟨t, e⟩ := wrAll_total op c fs s h
  exact ⟨t, e, wrAll_outcome e⟩

theorem rd_outcome {op : BitVec 8} {c : CtxId} {n v : Nat} {s t : State} (h : rd op c n s = .ok (v, t)) :
    RdOutcome op c n s v t := by
  rcases rd_inv h with ⟨hf, e⟩ | ⟨hf, e⟩ <;> obtain ⟨rfl, rfl⟩ := Prod.ext_iff.1 e
  · exact ⟨fun _ => ⟨rfl, rfl⟩, fun hn => absurd hf hn⟩
  · exact ⟨fun hn => absurd hn hf, fun _ => ⟨rfl, rfl⟩⟩

/-- In a context whose buffer exists, a `Rd` completes with its outcome, a value of at most n bits, and leaves the buffer
there. -/
theorem rd_completes (op : BitVec 8) (c : CtxId) (n : Nat) (s : State) (h : Buffered s c) :
    ∃ v t, rd op c n s = .ok (v, t) ∧ RdOutcome op c n s v t ∧ v < 2 ^ n ∧ StreamFrame op c s t := by
  obtain ⟨v, t, e, -⟩ := rd_total op c n s h
  exact ⟨v, t, e, rd_outcome e, rd_lt e, (rd_frame e).1⟩

/-- A read that is there only under a condition completes with its outcome. -/
theorem rdIf_completes (p : Bool) (op : BitVec 8) (c : CtxId) (n : Nat) (s : State) (h : Buffered s c) :
    ∃ v t, rdIf p op c n s = .ok (v, t) ∧ RdOutcomeIf (p = true) op c n s v t ∧ v < 2 ^ n ∧ StreamFrame op c s t := by
  cases p
  · exact ⟨0, s, rfl, ⟨fun e => by simp at e, fun _ => ⟨rfl, rfl⟩⟩, Nat.two_pow_pos n, StreamFrame.refl _ _ _⟩
  · obtain ⟨v, t, e, ho, hv, hf⟩ := rd_completes op c n s h
    exact ⟨v, t, e, ⟨fun _ => ho, fun hn => absurd rfl hn⟩, hv, hf⟩

/-- What was written between s and t, a reader that rereads it in u gets back. -/
theorem Rereads.streamBits {s t u : State} {c d : CtxId} {n v : Nat} (h : Rereads s c t u d) (hw : Wrote s c n v t)
    (i m : Nat) (hi : i + m ≤ n) : streamBits u d ((u.ctx d).cursor + i) m = v / 2 ^ i % 2 ^ m := by
  obtain ⟨-, hm, -, -, hb, -, hc⟩ := h
  refine Nat.eq_of_testBit_eq fun j => ?_
  rw [Machine.streamBits, memBits_testBit, Nat.testBit_mod_two_pow, Nat.testBit_div_two_pow, hm, hb, hc, hw.2]
  by_cases hj : j < m
  · rw [if_pos (by omega)]
    congr 2; omega
  · simp [hj]

end Sys2Proof.Machine
end

