-- ==== Sys2Proof/Laws/Copy.lean ====
section
/-! SUPPORT. What the loops over buffers do where their bytes exist: the copies of WBITS, RBITS and RBYTES, the loop
of RSTRING, the loop of CMPBITS. Where a byte of a buffer is missing, each stops at the first such byte. -/

namespace Sys2Proof.Machine

theorem Ctx.Ok.bound {x : Ctx} {addrW : Nat} (h : x.Ok addrW) (hm : x.mode ≠ .unbound) :
    x.cursor ≤ x.bitCap ∧ x.bitCap ≤ 8 * x.byteCap ∧ x.byteCap < 2 ^ 28 ∧ x.base < 2 ^ addrW := by
  unfold Ctx.Ok at h; rwa [if_neg hm] at h

/-- `copyBits` where the bytes exist and source and destination are apart (41_writer.md R150). -/
theorem copyBits_ok (cfg : Config) (base src : Nat) (m0 : Memory) (n k p : Nat) (m : Memory)
    (hs : ∀ j < n, memOK cfg (src + (k + j) / 8) = true) (hd : ∀ j < n, memOK cfg (base + (p + j) / 8) = true)
    (hsame : ∀ i < n, memBit m (8 * src + (k + i)) = memBit m0 (8 * src + (k + i)))
    (hne : ∀ i < n, ∀ j < n, src + (k + i) / 8 ≠ base + (p + j) / 8) :
    ∃ m', copyBits cfg base src n k p m = .ok m' ∧ Keeps cfg m m' ∧ ∀ j, memBit m' j = if 8 * base + p ≤ j ∧
        j < 8 * base + p + n then memBit m0 (8 * src + k + (j - (8 * base + p))) else memBit m j := by
  induction n generalizing k p m with
  | zero => exact ⟨m, rfl, Keeps.refl _ _, fun j => by rw [if_neg (by omega)]⟩
  | succ n ih =>
    have hs0 : memOK cfg (src + k / 8) = true := by simpa using hs 0 (by omega)
    obtain ⟨m₁, e₁, k₁, b₁⟩ := putBit_ok cfg m base p (memBit m (8 * src + k)) (by simpa using hd 0 (by omega))
    obtain ⟨m₂, e₂, k₂, b₂⟩ :=
        ih (k + 1) (p + 1) m₁
        (fun j hj => by have := hs (j + 1) (by omega); rwa [show k + 1 + j = k + (j + 1) by omega])
      (fun j hj => by have := hd (j + 1) (by omega); rwa [show p + 1 + j = p + (j + 1) by omega])
      (fun i hi => by
        have h1 := hne (i + 1) (by omega) 0 (by omega)
        have h2 := hsame (i + 1) (by omega)
        rw [b₁, if_neg (by omega), show k + 1 + i = k + (i + 1) by omega, h2])
      (fun i hi j hj => by have := hne (i + 1) (by omega) (j + 1) (by omega); rwa [show k + 1 + i = k + (i + 1) by omega, show p + 1 + j = p + (j + 1) by omega])
    refine ⟨m₂, ?_, k₁.trans k₂, fun j => ?_⟩
    · rw [copyBits, getBit_ok _ _ _ _ hs0, exec_ok_bind, e₁, exec_ok_bind, e₂]
    · have h0 := hsame 0 (by omega)
      rw [b₂ j, b₁ j]
      by_cases hj0 : j = 8 * base + p
      · subst hj0
        rw [if_neg (by omega), if_pos rfl, if_pos (by omega)]
        simpa using h0
      · rw [if_neg hj0]
        by_cases h1 : 8 * base + (p + 1) ≤ j ∧ j < 8 * base + (p + 1) + n
        · rw [if_pos h1, if_pos (by omega)]; congr 1; omega
        · rw [if_neg h1, if_neg (by omega)]

/-- `copyBits` stops at the first missing byte of the source. -/
theorem copyBits_stuck (cfg : Config) (base src n k p : Nat) (m : Memory)
    (hd : ∀ j < n, memOK cfg (base + (p + j) / 8) = true) (i : Nat) (hi : i < n)
    (hs : ∀ j < i, memOK cfg (src + (k + j) / 8) = true) (hm : memOK cfg (src + (k + i) / 8) = false) :
    copyBits cfg base src n k p m = .error (.fault (.missingAddress (src + (k + i) / 8))) := by
  induction i generalizing n k p m with
  | zero =>
    obtain ⟨n, rfl⟩ : ∃ n', n = n' + 1 := ⟨n - 1, by omega⟩
    rw [copyBits, getBit_stuck cfg m src k (by simpa using hm)]
    rfl
  | succ i ih =>
    obtain ⟨n, rfl⟩ : ∃ n', n = n' + 1 := ⟨n - 1, by omega⟩
    obtain ⟨m₁, e₁, -, -⟩ := putBit_ok cfg m base p (memBit m (8 * src + k)) (by simpa using hd 0 (by omega))
    have := ih n (k + 1) (p + 1) m₁
      (fun j hj => by have := hd (j + 1) (by omega); rwa [show p + 1 + j = p + (j + 1) by omega]) (by omega)
      (fun j hj => by have := hs (j + 1) (by omega); rwa [show k + 1 + j = k + (j + 1) by omega])
      (by rwa [show k + 1 + i = k + (i + 1) by omega])
    rw [copyBits, getBit_ok _ _ _ _ (by simpa using hs 0 (by omega)), exec_ok_bind, e₁, exec_ok_bind, this,
      show k + 1 + i = k + (i + 1) by omega]

theorem memBit_write (m : Memory) (a : Nat) (b : Byte) (k : Nat) (h : k / 8 ≠ a) :
    memBit (m.write a b) k = memBit m k := by
  rw [memBit, memBit, read_write_other _ _ _ _ h]

/-- `zeroBytes` where the bytes exist. -/
theorem zeroBytes_ok (cfg : Config) (n a : Nat) (m : Memory) (h : ∀ j < n, memOK cfg (a + j) = true) :
    ∃ m', zeroBytes cfg n a m = .ok m' ∧ Keeps cfg m m' ∧ ∀ x, m'.read x = if a ≤ x ∧
        x < a + n then 0 else m.read x := by
  induction n generalizing a m with
  | zero => exact ⟨m, rfl, Keeps.refl _ _, fun x => by rw [if_neg (by omega)]⟩
  | succ n ih =>
    have h0 : memOK cfg a = true := by simpa using h 0 (by omega)
    obtain ⟨m', e, hk, hr⟩ :=
        ih (a + 1) (m.write a 0)
        (fun j hj => by have := h (j + 1) (by omega); rwa [show a + 1 + j = a + (j + 1) by omega])
    refine ⟨m', by rw [zeroBytes, memWrite, if_pos h0, exec_ok_bind, e], (keeps_write _ _ _ _ h0).trans hk, fun x => ?_⟩
    rw [hr x, read_write]
    by_cases h1 : a + 1 ≤ x ∧ x < a + 1 + n
    · rw [if_pos h1, if_pos (by omega)]
    · rw [if_neg h1]
      by_cases h2 : x = a
      · rw [if_pos h2, if_pos (by omega)]
      · rw [if_neg h2, if_neg (by omega)]

/-- `zeroBytes` stops at the first missing byte. -/
theorem zeroBytes_stuck (cfg : Config) (n a : Nat) (m : Memory) (i : Nat) (hi : i < n) (h : BytesOK cfg a i)
    (hm : memOK cfg (a + i) = false) : zeroBytes cfg n a m = .error (.fault (.missingAddress (a + i))) := by
  induction i generalizing n a m with
  | zero =>
    obtain ⟨n, rfl⟩ : ∃ n', n = n' + 1 := ⟨n - 1, by omega⟩
    rw [zeroBytes, memWrite, if_neg (by simpa using hm)]
    rfl
  | succ i ih =>
    obtain ⟨n, rfl⟩ : ∃ n', n = n' + 1 := ⟨n - 1, by omega⟩
    have h0 : memOK cfg a = true := by simpa using h 0 (by omega)
    rw [zeroBytes, memWrite, if_pos h0, exec_ok_bind, ih n (a + 1) _ (by omega)
      (fun j hj => by have := h (j + 1) (by omega); rwa [show a + 1 + j = a + (j + 1) by omega])
      (by rwa [show a + 1 + i = a + (i + 1) by omega]), show a + 1 + i = a + (i + 1) by omega]

/-- `copyOut` where the bytes exist and the destination is apart from the stream (43_reader.md R223). -/
theorem copyOut_ok (cfg : Config) (base : Nat) (m0 : Memory) (left a p n : Nat) (m : Memory) (hl : left = (n + 7) / 8)
    (hd : ∀ j < left, memOK cfg (a + j) = true) (hs : ∀ j < n, memOK cfg (base + (p + j) / 8) = true)
    (hsame : ∀ i < n, memBit m (8 * base + (p + i)) = memBit m0 (8 * base + (p + i)))
    (hne : ∀ i < n, ∀ j < left, base + (p + i) / 8 ≠ a + j) :
    ∃ m', copyOut cfg base left a p n m = .ok m' ∧ Keeps cfg m m' ∧ ∀ x, m'.read x =
      if a ≤ x ∧ x < a + left then BitVec.ofNat 8 (memBits m0 (8 * base + (p + 8 * (x - a)))
          (min 8 (n - 8 * (x - a)))) else m.read x := by
  induction left generalizing a p n m with
  | zero => exact ⟨m, rfl, Keeps.refl _ _, fun x => by rw [if_neg (by omega)]⟩
  | succ left ih =>
    have h0 : memOK cfg a = true := by simpa using hd 0 (by omega)
    have hg : getBits cfg m base p (min 8 n) = .ok (memBits m (8 * base + p) (min 8 n)) :=
        getBits_ok _ _ _ _ _ (fun j hj => hs j (by omega))
    have hg' : memBits m (8 * base + p) (min 8 n) = memBits m0 (8 * base + p) (min 8 n) :=
        memBits_congr _ _ _ _ (fun i hi => by
      have := hsame i (by omega); rwa [← Nat.add_assoc] at this)
    obtain ⟨m', e, hk, hr⟩ := ih (a + 1) (p + 8) (n - 8) (m.write a (BitVec.ofNat 8
        (memBits m0 (8 * base + p) (min 8 n)))) (by omega)
      (fun j hj => by have := hd (j + 1) (by omega); rwa [show a + 1 + j = a + (j + 1) by omega])
      (fun j hj => by have := hs (8 + j) (by omega); rwa [show p + 8 + j = p + (8 + j) by omega])
      (fun i hi => by
        have h1 := hsame (8 + i) (by omega)
        have h2 := hne (8 + i) (by omega) 0 (by omega)
        rw [memBit_write _ _ _ _ (by omega), show p + 8 + i = p + (8 + i) by omega, h1])
      (fun i hi j hj => by have := hne (8 + i) (by omega) (j + 1) (by omega); rwa [show p + 8 + i = p + (8 + i) by omega, show a + 1 + j = a + (j + 1) by omega])
    refine ⟨m', by rw [copyOut, hg, exec_ok_bind, hg', memWrite, if_pos h0, exec_ok_bind, e], (keeps_write _ _ _ _ h0).trans hk, fun x => ?_⟩
    rw [hr x, read_write]
    by_cases h1 : a + 1 ≤ x ∧ x < a + 1 + left
    · rw [if_pos h1, if_pos (by omega)]
      congr 2 <;> omega
    · rw [if_neg h1]
      by_cases h2 : x = a
      · subst h2
        rw [if_pos rfl, if_pos (by omega), Nat.sub_self, Nat.mul_zero, Nat.add_zero, Nat.sub_zero]
      · rw [if_neg h2, if_neg (by omega)]

/-- `copyOut` stops at the first missing byte of the destination. -/
theorem copyOut_stuck (cfg : Config) (base left a p n : Nat) (m : Memory)
    (hs : ∀ j < n, memOK cfg (base + (p + j) / 8) = true) (i : Nat) (hi : i < left) (h : BytesOK cfg a i)
    (hm : memOK cfg (a + i) = false) : copyOut cfg base left a p n m = .error (.fault (.missingAddress (a + i))) := by
  induction i generalizing left a p n m with
  | zero =>
    obtain ⟨left, rfl⟩ : ∃ l, left = l + 1 := ⟨left - 1, by omega⟩
    rw [copyOut, getBits_ok _ _ _ _ _ (fun j hj => hs j (by omega)), exec_ok_bind, memWrite,
      if_neg (by simpa using hm)]
    rfl
  | succ i ih =>
    obtain ⟨left, rfl⟩ : ∃ l, left = l + 1 := ⟨left - 1, by omega⟩
    have h0 : memOK cfg a = true := by simpa using h 0 (by omega)
    rw [copyOut, getBits_ok _ _ _ _ _ (fun j hj => hs j (by omega)), exec_ok_bind, memWrite, if_pos h0, exec_ok_bind,
      ih left (a + 1) (p + 8) (n - 8) _
        (fun j hj => by have := hs (8 + j) (by omega); rwa [show p + 8 + j = p + (8 + j) by omega]) (by omega)
        (fun j hj => by have := h (j + 1) (by omega); rwa [show a + 1 + j = a + (j + 1) by omega])
        (by rwa [show a + 1 + i = a + (i + 1) by omega]), show a + 1 + i = a + (i + 1) by omega]

/-- All that `readBulk` does in a ready context (43_reader.md R223). -/
theorem readBulk_cases {s : State} {c : CtxId} (op : BitVec 8) (dst n : Nat) (hr : Ready s .reader c) (hok :
    (s.ctx c).Ok s.cfg.addrW) :
    (DestOverlaps s dst ((n + 7) / 8) → readBulk op c dst n s = .error (.refused .overlap)) ∧
    (¬DestOverlaps s dst ((n + 7) / 8) → BytesOK s.cfg dst ((n + 7) / 8) → Fits s c n →
        ∃ t, readBulk op c dst n s = .ok t ∧ SetsBytes (s.setCursor c ((s.ctx c).cursor + n)) dst ((n + 7) / 8)
          (fun j => BitVec.ofNat 8 (streamBits s c ((s.ctx c).cursor + 8 * j) (min 8 (n - 8 * j)))) t) ∧
      (¬DestOverlaps s dst ((n + 7) / 8) → BytesOK s.cfg dst ((n + 7) / 8) → ¬Fits s c n →
        ∃ t, readBulk op c dst n s = .ok t ∧ SetsBytes (s.overflow op c .bufferOverrun) dst ((n + 7) / 8)
            (fun _ => 0) t) ∧
      (¬DestOverlaps s dst ((n + 7) / 8) → ∀ j < (n + 7) / 8, BytesOK s.cfg dst j → memOK s.cfg (dst + j) = false →
        readBulk op c dst n s = .error (.fault (.missingAddress (dst + j)))) := by
  refine ⟨fun ho => ?_, fun ho hd hf => ?_, fun ho hd hf => ?_, fun ho j hj hd hm => ?_⟩
  · rw [readBulk, require_neg _ (fun e => (destOverlap_false _ _ _).1 e ho)]; rfl
  · rw [readBulk, require_pos _ ((destOverlap_false _ _ _).2 ho), exec_ok_bind]
    simp only [Fits] at hf
    rw [if_neg (by omega)]
    have hcap := (Ctx.Ok.bound hok (by rw [hr.2.1]; simp)).2.1
    obtain ⟨m', e, -, hrd⟩ := copyOut_ok s.cfg (s.ctx c).base s.mem ((n + 7) / 8) dst (s.ctx c).cursor n s.mem rfl hd
        (fun j hj => hr.2.2 _ (by omega)) (fun _ _ => rfl)
      (fun i hi j hj e => ho ⟨c,
          hr.1, by rw [hr.2.1]; simp, trivial, dst + j, by omega, by omega, by omega, by omega⟩)
    rw [e, exec_ok_bind]
    exact ⟨_, rfl, rfl, hrd⟩
  · rw [readBulk, require_pos _ ((destOverlap_false _ _ _).2 ho), exec_ok_bind]
    simp only [Fits] at hf
    rw [if_pos (by omega)]
    obtain ⟨m', e, -, hrd⟩ := zeroBytes_ok s.cfg ((n + 7) / 8) dst s.mem hd
    rw [e, exec_ok_bind]
    exact ⟨_, rfl, rfl, hrd⟩
  · rw [readBulk, require_pos _ ((destOverlap_false _ _ _).2 ho), exec_ok_bind]
    dsimp only
    split
    · rw [zeroBytes_stuck _ _ _ _ j hj hd hm]; rfl
    · rw [copyOut_stuck _ _ _ _ _ _ _ (fun i hi => hr.2.2 _ (by omega)) j hj hd hm]; rfl

/-! ### The loop of RSTRING -/

/-- `m` is the memory of s with the first `min q (maxLen - 1)` bytes of the string in the stream of c put at dst. -/
def StringCopied (s : State) (c : CtxId) (dst maxLen q : Nat) (m : Memory) : Prop :=
  ∀ x, m.read x = if dst ≤ x ∧ x < dst + min q (maxLen - 1) then
    BitVec.ofNat 8 (streamBits s c ((s.ctx c).cursor + 8 * (x - dst)) 8) else s.mem.read x

/-- The state of the loop of RSTRING after q bytes of the string, with memory m. -/
abbrev stringAt (s : State) (c : CtxId) (q : Nat) (m : Memory) : State :=
  (s.setCursor c ((s.ctx c).cursor + 8 * q)).setMem m

section

variable {s : State} {c : CtxId} {dst maxLen n : Nat}

/-- One read of the loop of RSTRING gives the next byte of the string: what was stored lies outside the stream. -/
theorem readString_rd (op : BitVec 8) (hr : Ready s .reader c) (hok : (s.ctx c).Ok s.cfg.addrW)
    (ho : ¬DestOverlaps s dst maxLen) (q : Nat) (m : Memory) (hf : Fits s c (8 * (q + 1)))
    (hread : StringCopied s c dst maxLen q m) :
    rd op c 8 (stringAt s c q m) =
      .ok (streamBits s c ((s.ctx c).cursor + 8 * q) 8, stringAt s c (q + 1) m) := by
  obtain ⟨hc, hm, hbuf⟩ := hr
  have hcap := (Ctx.Ok.bound hok (by rw [hm]; simp)).2.1
  simp only [Fits] at hf
  have hfx : Fits (stringAt s c q m) c 8 := by simp only [Fits, ctx_setMem, ctx_setCursor_same]; omega
  have hbx : Buffered (stringAt s c q m) c := by intro p hp; simp at hp ⊢; exact hbuf p hp
  rw [rd_fits _ _ _ _ hfx (hbx.bytes hfx)]
  simp only [ctx_setMem, ctx_setCursor_same, setCursor_setMem, setCursor_setCursor, Except.ok.injEq, Prod.mk.injEq,
    streamBits, setMem_mem]
  refine ⟨memBits_congr _ _ _ _ fun i hi => ?_, by congr 2⟩
  rw [memBit, memBit, hread, if_neg]
  intro hx
  exact ho ⟨c, hc, by rw [hm]; simp, trivial, _, hx.1, by omega, by omega, by omega⟩

/-- One turn of the loop of RSTRING over a byte that does not end the string. -/
theorem readString_turn (op : BitVec 8) (nl : Bool) (hr : Ready s .reader c) (hok : (s.ctx c).Ok s.cfg.addrW)
    (ho : ¬DestOverlaps s dst maxLen) (q : Nat) (m : Memory) (hf : Fits s c (8 * (q + 1)))
    (hend : ¬(streamBits s c ((s.ctx c).cursor + 8 * q) 8 = 0 ∨ nl = true ∧
      streamBits s c ((s.ctx c).cursor + 8 * q) 8 = 0x0A))
    (hread : StringCopied s c dst maxLen q m) (fuel i : Nat) (t : Bool) :
    readString op c dst maxLen nl (fuel + 1) i t (stringAt s c q m) =
      (if i + 1 < maxLen then do
        let m' ← memWrite s.cfg m (dst + i) (BitVec.ofNat 8 (streamBits s c ((s.ctx c).cursor + 8 * q) 8))
        readString op c dst maxLen nl fuel (i + 1) t (stringAt s c (q + 1) m')
      else readString op c dst maxLen nl fuel i true (stringAt s c (q + 1) m)) := by
  rw [readString, readString_rd op hr hok ho q m hf hread, exec_ok_bind]
  dsimp only
  rw [if_neg hend]
  rfl

/-- The byte that a turn stores extends what has been copied. -/
theorem StringCopied.write {q : Nat} {m : Memory} (h : StringCopied s c dst maxLen q m) (hroom : q + 1 < maxLen) :
    StringCopied s c dst maxLen (q + 1)
      (m.write (dst + q) (BitVec.ofNat 8 (streamBits s c ((s.ctx c).cursor + 8 * q) 8))) := by
  intro x
  rw [read_write, h x, show min q (maxLen - 1) = q by omega, show min (q + 1) (maxLen - 1) = q + 1 by omega]
  by_cases hx : x = dst + q
  · rw [if_pos hx, if_pos (by omega), hx, Nat.add_sub_cancel_left]
  · rw [if_neg hx]
    by_cases h2 : dst ≤ x ∧ x < dst + q
    · rw [if_pos h2, if_pos (by omega)]
    · rw [if_neg h2, if_neg (by omega)]

/-- A turn that finds no room stores nothing. -/
theorem StringCopied.skip {q : Nat} {m : Memory} (h : StringCopied s c dst maxLen q m) (hroom : ¬q + 1 < maxLen) :
    StringCopied s c dst maxLen (q + 1) m := by
  intro x
  rw [h x, show min (q + 1) (maxLen - 1) = min q (maxLen - 1) by omega]

/-- The loop of RSTRING after q of the n bytes before the terminator, the bytes it still stores existing: what it stores, and
how it ends (43_reader.md R222). -/
theorem readString_run (op : BitVec 8) (nl : Bool) (h1 : 1 ≤ maxLen) (hr : Ready s .reader c)
    (hok : (s.ctx c).Ok s.cfg.addrW) (ho : ¬DestOverlaps s dst maxLen) (hd : BytesOK s.cfg dst (min n (maxLen - 1)))
    (hn : ∀ j < n, Fits s c (8 * (j + 1)) ∧ ¬(streamBits s c ((s.ctx c).cursor + 8 * j) 8 = 0 ∨ nl = true ∧
      streamBits s c ((s.ctx c).cursor + 8 * j) 8 = 0x0A))
    (fuel q : Nat) (hq : q ≤ n) (hfuel : n - q + 1 ≤ fuel) (m : Memory) (hread : StringCopied s c dst maxLen q m) :
    ∃ m', StringCopied s c dst maxLen n m' ∧
     (Fits s c (8 * (n + 1)) → (streamBits s c ((s.ctx c).cursor + 8 * n) 8 = 0 ∨ nl = true ∧
         streamBits s c ((s.ctx c).cursor + 8 * n) 8 = 0x0A) →
        readString op c dst maxLen nl fuel (min q (maxLen - 1)) (decide (maxLen - 1 < q)) (stringAt s c q m) =
          .ok (min n (maxLen - 1), decide (maxLen - 1 < n), stringAt s c (n + 1) m')) ∧
     (¬Fits s c (8 * (n + 1)) →
        readString op c dst maxLen nl fuel (min q (maxLen - 1)) (decide (maxLen - 1 < q)) (stringAt s c q m) =
          .ok (min n (maxLen - 1), decide (maxLen - 1 < n),
            ((s.setCursor c ((s.ctx c).cursor + 8 * n)).overflow op c .bufferOverrun).setMem m')) := by
  induction fuel generalizing q m with
  | zero => omega
  | succ fuel ih =>
    by_cases hqn : q = n
    · subst hqn
      refine ⟨m, hread, fun hf he => ?_, fun hf => ?_⟩
      · rw [readString, readString_rd op hr hok ho q m hf hread, exec_ok_bind]
        dsimp only
        rw [if_pos he]
      · simp only [Fits] at hf
        have hfx : ¬Fits (stringAt s c q m) c 8 := by simp only [Fits, ctx_setMem, ctx_setCursor_same]; omega
        rw [readString, rd_full _ _ _ _ hfx, exec_ok_bind]
        dsimp only
        rw [if_pos (Or.inl rfl)]
        rfl
    · obtain ⟨hfq, hend⟩ := hn q (by omega)
      have hstep := readString_turn op nl hr hok ho q m hfq hend hread fuel
      by_cases hroom : q + 1 < maxLen
      · obtain ⟨m', hm', hA, hB⟩ := ih (q + 1) (by omega) (by omega) _ (hread.write hroom)
        rw [show min (q + 1) (maxLen - 1) = q + 1 by omega, decide_eq_false (by omega)] at hA hB
        rw [show min q (maxLen - 1) = q by omega, decide_eq_false (by omega)]
        refine ⟨m', hm', fun hf he => ?_, fun hf => ?_⟩ <;>
          rw [hstep, if_pos hroom, memWrite, if_pos (hd q (by omega)), exec_ok_bind]
        · exact hA hf he
        · exact hB hf
      · obtain ⟨m', hm', hA, hB⟩ := ih (q + 1) (by omega) (by omega) _ (hread.skip hroom)
        rw [show min (q + 1) (maxLen - 1) = maxLen - 1 by omega, decide_eq_true (by omega)] at hA hB
        rw [show min q (maxLen - 1) = maxLen - 1 by omega]
        refine ⟨m', hm', fun hf he => ?_, fun hf => ?_⟩ <;> rw [hstep, if_neg (by omega)]
        · exact hA hf he
        · exact hB hf

/-- The loop of RSTRING stops at the first missing byte that it stores to. -/
theorem readString_stuck (op : BitVec 8) (nl : Bool) (hr : Ready s .reader c) (hok : (s.ctx c).Ok s.cfg.addrW)
    (ho : ¬DestOverlaps s dst maxLen)
    (hn : ∀ j < n, Fits s c (8 * (j + 1)) ∧ ¬(streamBits s c ((s.ctx c).cursor + 8 * j) 8 = 0 ∨ nl = true ∧
      streamBits s c ((s.ctx c).cursor + 8 * j) 8 = 0x0A))
    (j : Nat) (hj : j < min n (maxLen - 1)) (hd : BytesOK s.cfg dst j) (hmiss : memOK s.cfg (dst + j) = false)
    (fuel q : Nat) (hq : q ≤ j) (hfuel : j - q + 1 ≤ fuel) (m : Memory) (hread : StringCopied s c dst maxLen q m) :
    readString op c dst maxLen nl fuel q false (stringAt s c q m) = .error (.fault (.missingAddress (dst + j))) := by
  induction fuel generalizing q m with
  | zero => omega
  | succ fuel ih =>
    obtain ⟨hfq, hend⟩ := hn q (by omega)
    rw [readString_turn op nl hr hok ho q m hfq hend hread fuel, if_pos (by omega)]
    by_cases hqj : q = j
    · subst hqj
      rw [memWrite, if_neg (by simp [hmiss])]
      rfl
    · rw [memWrite, if_pos (hd q (by omega)), exec_ok_bind]
      exact ih (q + 1) (by omega) (by omega) _ (hread.write (by omega))

end

/-! ### The loop of CMPBITS -/

/-- The first chunk and the rest. -/
theorem compareChunks_step (k : Nat) (hk : 0 < k) : compareChunks k = min 32 k :: compareChunks (k - min 32 k) := by
  unfold compareChunks
  by_cases h : 32 ≤ k
  · rw [min_eq_left h, show (k - 32) / 32 = k / 32 - 1 by omega, show (k - 32) % 32 = k % 32 by omega]
    obtain ⟨m, hm⟩ : ∃ m, k / 32 = m + 1 := ⟨k / 32 - 1, by omega⟩
    rw [hm, List.replicate_succ]; rfl
  · rw [min_eq_right (by omega), show k / 32 = 0 by omega, show k % 32 = k by omega, if_neg (by omega), Nat.sub_self];
      rfl

/-- The loop of CMPBITS, where both buffers exist (43_reader.md R227). -/
theorem compareFrom_outcome (op : BitVec 8) (c c2 : CtxId) (hne : c2 ≠ c) (n k : Nat) (hn : n = (k + 31) / 32) (d :
    Bool) (s : State) (hb : Buffered s c) (hb2 : Buffered s c2) :
    ∃ (e : Bool) (t : State), compareFrom op c c2 n k d s = .ok (d || e, t) ∧
        CompareReads op c c2 (compareChunks k) s (e = true) t := by
  induction n generalizing k d s with
  | zero =>
    have : k = 0 := by omega
    subst this
    exact ⟨false, s, by simp [compareFrom], by simp [compareChunks, CompareReads]⟩
  | succ n ih =>
    obtain ⟨a, u, e1, o1, -, f1⟩ := rd_completes op c (min 32 k) s hb
    have hb2u : Buffered u c2 := by intro p hp; rw [f1.other c2 hne] at hp ⊢; rw [f1.cfg]; exact hb2 p hp
    obtain ⟨b, v, e2, o2, -, f2⟩ := rd_completes op c2 (min 32 k) u hb2u
    have hbv : Buffered v c := by intro p hp; rw [f2.other c hne.symm] at hp ⊢; rw [f2.cfg]; exact f1.buffered hb p hp
    obtain ⟨e, t, e3, o3⟩ := ih (k - min 32 k) (by omega) (d || a != b) v hbv (f2.buffered hb2u)
    refine ⟨(a != b) || e, t, ?_, ?_⟩
    · rw [compareFrom]
      simp only [e1, e2, exec_ok_bind, e3, Bool.or_assoc]
    · rw [compareChunks_step k (by omega)]
      exact ⟨a, u, b, v, e = true, o1, o2, o3, by simp⟩

end Sys2Proof.Machine
end

