-- ==== Sys2Proof/Laws/Decode.lean ====
section
/-! SUPPORT. The laws of command words: what each field of an encoded command is, and that decoding and encoding agree. -/

namespace Sys2Proof

/-- The number of a command word from its fields, RSV zero (30_encoding.md R90). -/
def wordNumber (op : Nat) (f : Fields) : Nat :=
  op + f.c.val * 2 ^ 8 + f.c2.val * 2 ^ 12 + f.nb.val * 2 ^ 16 + f.i.toNat * 2 ^ 22 + f.l.toNat * 2 ^ 23 + f.n.toNat * 2 ^ 24

theorem encode_toNat (i : Instr) : (encode i).toNat = wordNumber i.opcode.toNat i.fields := by
  have ho := i.opcode.isLt
  have h1 := i.fields.c.isLt
  have h2 := i.fields.c2.isLt
  have h3 := i.fields.nb.isLt
  have h4 := Bool.toNat_le i.fields.i
  have h5 := Bool.toNat_le i.fields.l
  have h6 := Bool.toNat_le i.fields.n
  simp only [encode, wordNumber, BitVec.toNat_ofNat]
  exact Nat.mod_eq_of_lt (by omega)

theorem beq_one_toNat (b : Bool) : (b.toNat == 1) = b := by cases b <;> rfl

theorem opField_encode (i : Instr) : opField (encode i) = i.opcode.toNat := by
  have ho := i.opcode.isLt
  simp only [opField, bitField, encode_toNat, wordNumber]
  omega

theorem rsvField_encode (i : Instr) : rsvField (encode i) = 0 := by
  have ho := i.opcode.isLt
  have h1 := i.fields.c.isLt
  have h2 := i.fields.c2.isLt
  have h3 := i.fields.nb.isLt
  have h4 := Bool.toNat_le i.fields.i
  have h5 := Bool.toNat_le i.fields.l
  have h6 := Bool.toNat_le i.fields.n
  simp only [rsvField, bitField, encode_toNat, wordNumber]
  omega

theorem fieldsOf_encode (i : Instr) : fieldsOf (encode i) = i.fields := by
  have ho := i.opcode.isLt
  have h1 := i.fields.c.isLt
  have h2 := i.fields.c2.isLt
  have h3 := i.fields.nb.isLt
  have h4 := Bool.toNat_le i.fields.i
  have h5 := Bool.toNat_le i.fields.l
  have h6 := Bool.toNat_le i.fields.n
  have e1 : bitField (encode i) 8 4 = i.fields.c.val := by
    simp only [bitField, encode_toNat, wordNumber]; omega
  have e2 : bitField (encode i) 12 4 = i.fields.c2.val := by
    simp only [bitField, encode_toNat, wordNumber]; omega
  have e3 : bitField (encode i) 16 6 = i.fields.nb.val := by
    simp only [bitField, encode_toNat, wordNumber]; omega
  have e4 : bitField (encode i) 22 1 = i.fields.i.toNat := by
    simp only [bitField, encode_toNat, wordNumber]; omega
  have e5 : bitField (encode i) 23 1 = i.fields.l.toNat := by
    simp only [bitField, encode_toNat, wordNumber]; omega
  have e6 : bitField (encode i) 24 1 = i.fields.n.toNat := by
    simp only [bitField, encode_toNat, wordNumber]; omega
  simp only [fieldsOf, e1, e2, e3, e4, e5, e6, beq_one_toNat]
  simp [Fin.ofNat, Nat.mod_eq_of_lt h1, Nat.mod_eq_of_lt h2, Nat.mod_eq_of_lt h3]

/-- The fields that a row does not use are zero in the command's own fields, and the row gives the command back. -/
theorem opcodeRow_own (i : Instr) : ∃ u, opcodeRow i.opcode.toNat i.fields = some (u, i) ∧ u.othersZero i.fields = true := by
  cases i <;> exact ⟨_, rfl, rfl⟩

theorem decode_encode (i : Instr) : decode (encode i) = .ok i := by
  obtain ⟨u, e, h⟩ := opcodeRow_own i
  simp [decode, rsvField_encode, opField_encode, fieldsOf_encode, e, h]

/-- A row of the opcode map whose unused fields are zero is the row of its command: the word's opcode and fields are the
command's. -/
theorem opcodeRow_inv {op : Nat} {f : Fields} {u : Used} {i : Instr} (h : opcodeRow op f = some (u, i)) :
    op = i.opcode.toNat ∧ (u.othersZero f = true ↔ f = i.fields) := by
  obtain ⟨c, c2, nb, x, y, z⟩ := f
  unfold opcodeRow at h
  split at h <;>
    first
    | (simp only [Option.some.injEq, Prod.mk.injEq] at h
       obtain ⟨rfl, rfl⟩ := h
       refine ⟨rfl, ?_⟩
       cases x <;> cases y <;> cases z <;> simp [Used.othersZero, Instr.fields, and_assoc])
    | simp at h

theorem word_eq_number (w : Word32) (h : rsvField w = 0) : w.toNat = wordNumber (opField w) (fieldsOf w) := by
  have hw := w.isLt
  have bit : ∀ n : Nat, (n % 2 == 1).toNat = n % 2 := by
    intro n
    rcases Nat.mod_two_eq_zero_or_one n with h | h <;> rw [h] <;> rfl
  simp only [rsvField, bitField] at h
  simp only [wordNumber, opField, fieldsOf, bitField, Fin.ofNat, pow_one, bit]
  omega

theorem commandWord (i : Instr) : CommandWord i i.opcode.toNat i.fields :=
  ⟨opField_encode i, fieldsOf_encode i, rsvField_encode i, decode_encode i⟩

end Sys2Proof
end

