-- ==== Sys2Proof/Laws/Float.lean ====
section
/-! SUPPORT. What the floating-point operations of Sys2Proof/Machine/Float.lean compute, over exact numbers: RNE32,
RNE64, SQRT32, the value of a pattern, SignBit and TruncNat. -/

namespace Sys2Proof.Machine

theorem Frac.toRat_nonneg (x : Frac) : 0 ≤ x.toRat := by unfold Frac.toRat; positivity

/-- `scale` multiplies by a power of two, exactly. -/
theorem Frac.toRat_scale (x : Frac) (e : Int) (h : 0 < x.den) : (x.scale e).toRat = x.toRat * 2 ^ e ∧
    0 < (x.scale e).den := by
  cases e with
  | ofNat k =>
    refine ⟨?_, h⟩
    simp only [Frac.scale, Frac.toRat]
    push_cast
    rw [show Int.ofNat k = (k : Int) from rfl, zpow_natCast]; ring
  | negSucc k =>
    refine ⟨?_, by simp only [Frac.scale]; positivity⟩
    simp only [Frac.scale, Frac.toRat]
    rw [show Int.negSucc k = -((k + 1 : Nat) : Int) from rfl, zpow_neg, zpow_natCast]
    push_cast
    rw [div_mul_eq_div_div]; ring

theorem Frac.le_iff (x y : Frac) (hx : 0 < x.den) (hy : 0 < y.den) : x.le y = true ↔ x.toRat ≤ y.toRat := by
  unfold Frac.le Frac.toRat
  rw [decide_eq_true_eq, div_le_div_iff₀ (by positivity) (by positivity)]
  exact_mod_cast Iff.rfl

theorem Frac.lt_iff (x y : Frac) (hx : 0 < x.den) (hy : 0 < y.den) : x.lt y = true ↔ x.toRat < y.toRat := by
  unfold Frac.lt Frac.toRat
  rw [decide_eq_true_eq, div_lt_div_iff₀ (by positivity) (by positivity)]
  exact_mod_cast Iff.rfl

theorem Frac.toRat_mul (x y : Frac) : (x.mul y).toRat = x.toRat * y.toRat := by
  simp only [Frac.mul, Frac.toRat]; push_cast; rw [mul_div_mul_comm]

theorem Frac.toRat_add (x y : Frac) (hx : 0 < x.den) (hy : 0 < y.den) : (x.add y).toRat = x.toRat + y.toRat := by
  have h1 : (x.den : ℚ) ≠ 0 := by positivity
  have h2 : (y.den : ℚ) ≠ 0 := by positivity
  simp only [Frac.add, Frac.toRat]; push_cast
  field_simp

theorem Frac.toRat_sub (x y : Frac) (hx : 0 < x.den) (hy : 0 < y.den) (h : y.toRat ≤ x.toRat) :
    (x.sub y).toRat = x.toRat - y.toRat := by
  have h1 : (x.den : ℚ) ≠ 0 := by positivity
  have h2 : (y.den : ℚ) ≠ 0 := by positivity
  have hle : y.num * x.den ≤ x.num * y.den := by
    rw [← Frac.le_iff _ _ hy hx] at h
    simpa [Frac.le] using h
  simp only [Frac.sub, Frac.toRat]; push_cast [hle]
  field_simp

theorem Frac.toRat_ofNat (n : Nat) : (Frac.ofNat n).toRat = n := by simp [Frac.ofNat, Frac.toRat]

theorem Frac.toRat_divNat (x : Frac) (d : Nat) : (x.divNat d).toRat = x.toRat / d := by
  simp only [Frac.divNat, Frac.toRat]; push_cast; rw [div_div]

theorem Frac.floor_eq (x : Frac) : x.floor = ⌊x.toRat⌋₊ := by
  unfold Frac.floor Frac.toRat
  rw [Nat.floor_div_natCast]; simp

theorem Frac.toRat_pos (x : Frac) (h : 0 < x.den) : 0 < x.toRat ↔ x.num ≠ 0 := by
  unfold Frac.toRat
  constructor
  · rintro h1 h2; simp [h2] at h1
  · intro h1; have := Nat.pos_of_ne_zero h1; positivity

/-- `log2` is the exponent of the leading bit. -/
theorem Frac.log2_spec (x : Frac) (hd : 0 < x.den) (hn : x.num ≠ 0) : (2 : ℚ) ^ x.log2 ≤ x.toRat ∧
    x.toRat < 2 ^ (x.log2 + 1) := by
  have hdn : x.den ≠ 0 := by omega
  have a1 : 2 ^ x.num.log2 ≤ x.num := Nat.log2_self_le hn
  have a2 : x.num < 2 ^ (x.num.log2 + 1) := Nat.lt_log2_self
  have b1 : 2 ^ x.den.log2 ≤ x.den := Nat.log2_self_le hdn
  have b2 : x.den < 2 ^ (x.den.log2 + 1) := Nat.lt_log2_self
  have hdq : (0 : ℚ) < x.den := by exact_mod_cast hd
  have a1' : (2 : ℚ) ^ (x.num.log2 : ℤ) ≤ x.num := by rw [zpow_natCast]; exact_mod_cast a1
  have a2' : (x.num : ℚ) < 2 ^ ((x.num.log2 : ℤ) + 1) := by
    rw [show ((x.num.log2 : ℤ) + 1) = ((x.num.log2 + 1 : Nat) : ℤ) by push_cast; ring, zpow_natCast]; exact_mod_cast
        a2
  have b1' : (2 : ℚ) ^ (x.den.log2 : ℤ) ≤ x.den := by rw [zpow_natCast]; exact_mod_cast b1
  have b2' : (x.den : ℚ) < 2 ^ ((x.den.log2 : ℤ) + 1) := by
    rw [show ((x.den.log2 : ℤ) + 1) = ((x.den.log2 + 1 : Nat) : ℤ) by push_cast; ring, zpow_natCast]; exact_mod_cast
        b2
  have hup : x.toRat < 2 ^ ((x.num.log2 : ℤ) - x.den.log2 + 1) := by
    unfold Frac.toRat
    rw [div_lt_iff₀ hdq]
    calc (x.num : ℚ) < 2 ^ ((x.num.log2 : ℤ) + 1) := a2'
      _ = 2 ^ ((x.num.log2 : ℤ) - x.den.log2 + 1) * 2 ^ (x.den.log2 :
          ℤ) := by rw [← zpow_add₀ (by norm_num)]; congr 1; ring
      _ ≤ _ := by gcongr
  have hlow : (2 : ℚ) ^ ((x.num.log2 : ℤ) - x.den.log2 - 1) ≤ x.toRat := by
    unfold Frac.toRat
    rw [le_div_iff₀ hdq]
    calc (2 : ℚ) ^ ((x.num.log2 : ℤ) - x.den.log2 - 1) * x.den ≤ 2 ^ ((x.num.log2 : ℤ) - x.den.log2 - 1) * 2 ^
        ((x.den.log2 : ℤ) + 1) := by gcongr
      _ = 2 ^ (x.num.log2 : ℤ) := by rw [← zpow_add₀ (by norm_num)]; congr 1; ring
      _ ≤ _ := a1'
  have h1 : ((⟨1, 1⟩ : Frac).scale ((x.num.log2 : ℤ) - x.den.log2)).toRat = 2 ^ ((x.num.log2 : ℤ) - x.den.log2) ∧
      0 < ((⟨1, 1⟩ : Frac).scale ((x.num.log2 : ℤ) - x.den.log2)).den := by
    have := Frac.toRat_scale ⟨1, 1⟩ ((x.num.log2 : ℤ) - x.den.log2) (by norm_num)
    refine ⟨?_, this.2⟩
    rw [this.1]; simp [Frac.toRat]
  unfold Frac.log2
  dsimp only
  split
  · rename_i h
    rw [Frac.le_iff _ _ h1.2 hd, h1.1] at h
    exact ⟨h, hup⟩
  · rename_i h
    rw [Frac.le_iff _ _ h1.2 hd, h1.1, not_le] at h
    refine ⟨hlow, ?_⟩
    rw [sub_add_cancel]; exact h

/-- `q` is the integer nearest z, a tie going to the even one. -/
def NearestEven {K : Type} [Field K] [LinearOrder K] (q : Nat) (z : K) : Prop :=
  |z - q| ≤ 1 / 2 ∧ (|z - q| = 1 / 2 → Even q)

/-- `roundEven` rounds to the nearest integer, a tie to the even one. -/
theorem Frac.roundEven_spec (x : Frac) (hd : 0 < x.den) : NearestEven x.roundEven x.toRat := by
  have hdq : (0 : ℚ) < x.den := by exact_mod_cast hd
  have hr : x.num % x.den < x.den := Nat.mod_lt _ hd
  have hq : x.den * (x.num / x.den) + x.num % x.den = x.num := Nat.div_add_mod _ _
  have hx : x.toRat = (x.num / x.den : Nat) + ((x.num % x.den : Nat) : ℚ) / x.den := by
    unfold Frac.toRat
    rw [eq_comm, eq_div_iff hdq.ne', add_mul, div_mul_cancel₀ _ hdq.ne']
    have : (((x.den * (x.num / x.den) + x.num % x.den : Nat)) : ℚ) = x.num := by rw [hq]
    push_cast at this
    linarith
  unfold Frac.roundEven
  dsimp only
  rw [hx]
  generalize x.num / x.den = q at *
  generalize x.num % x.den = r at *
  have hr0 : (0 : ℚ) ≤ (r : ℚ) / x.den := by positivity
  split
  · rename_i h
    have h' : (r : ℚ) / x.den < 1 / 2 := by
      rw [div_lt_div_iff₀ hdq (by norm_num)]
      have : ((2 * r : Nat) : ℚ) < x.den := by exact_mod_cast h
      push_cast at this; linarith
    have e : ((q : ℚ) + r / x.den - q) = r / x.den := by ring
    refine ⟨?_, ?_⟩ <;> rw [e, abs_of_nonneg hr0]
    · exact h'.le
    · intro h2; rw [h2] at h'; exact absurd h' (lt_irrefl _)
  · split
    · rename_i _ h
      have h' : 1 / 2 < (r : ℚ) / x.den := by
        rw [div_lt_div_iff₀ (by norm_num) hdq]
        have : (x.den : ℚ) < ((2 * r : Nat) : ℚ) := by exact_mod_cast h
        push_cast at this; linarith
      have h1 : (r : ℚ) / x.den < 1 := by rw [div_lt_one hdq]; exact_mod_cast hr
      have e : ((q : ℚ) + r / x.den - (q + 1 : Nat)) = -(1 - r / x.den) := by push_cast; ring
      refine ⟨?_, ?_⟩ <;> rw [e, abs_neg, abs_of_nonneg (by linarith)]
      · linarith
      · intro h2; linarith
    · rename_i h1 h2
      have h3 : 2 * r = x.den := by omega
      have h' : (r : ℚ) / x.den = 1 / 2 := by
        rw [div_eq_div_iff hdq.ne' (by norm_num), ← h3]; push_cast; ring
      rw [h']
      rcases Nat.mod_two_eq_zero_or_one q with hm | hm
      · rw [hm, Nat.add_zero]
        refine ⟨?_, fun _ => Nat.even_iff.2 hm⟩
        rw [show ((q : ℚ) + 1 / 2 - q) = 1 / 2 by ring, abs_of_pos (by norm_num)]
      · rw [hm]
        refine ⟨?_, fun _ => Nat.even_iff.2 (by omega)⟩
        rw [show ((q : ℚ) + 1 / 2 - (q + 1 : Nat)) = -(1 / 2) by push_cast; ring, abs_neg, abs_of_pos (by norm_num)]

/-- The nearest integer is at most as far as any other. -/
theorem NearestEven.le {K : Type} [Field K] [LinearOrder K] [IsStrictOrderedRing K] {q : Nat} {z : K} (h :
    NearestEven q z) (n : ℤ) :
    |z - q| ≤ |z - n| ∧ (n ≠ q → |z - q| < |z - n| ∨ (|z - q| = |z - n| ∧ Even q)) := by
  by_cases hn : n = q
  · subst hn; simp
  · have h1 : (1 : K) ≤ |(n : K) - q| := by
      have : (1 : ℤ) ≤ |n - q| := Int.one_le_abs (sub_ne_zero.2 hn)
      have : ((1 : ℤ) : K) ≤ ((|n - q| : ℤ) : K) := by exact_mod_cast this
      simpa using this
    have h2 : |(n : K) - q| ≤ |z - q| + |z - n| := by
      have := abs_sub_le (n : K) z q
      rw [abs_sub_comm (n : K) z] at this
      linarith
    have h3 := h.1
    refine ⟨by linarith, fun _ => ?_⟩
    rcases lt_or_eq_of_le h3 with h4 | h4
    · left; linarith
    · rcases lt_or_ge (|z - q|) (|z - n|) with h5 | h5
      · exact .inl h5
      · right; exact ⟨by linarith, h.2 h4⟩

/-- Rounding the significand at the exponent of the leading bit, or at the smallest one, rounds to nearest even. -/
theorem isRNE_of {K : Type} [Field K] [LinearOrder K] [IsStrictOrderedRing K] {p : Nat} {emin e : ℤ} {q : Nat} {x :
    K} (hp : 2 ≤ p) (he : emin ≤ e)
    (hq : NearestEven q (x / 2 ^ e)) (hlow : e = emin ∨ (2 : K) ^ (p - 1) * 2 ^ e ≤ x) (hhigh :
        x < (2 : K) ^ p * 2 ^ e) :
    IsRNE p emin x ((q : K) * 2 ^ e) ∧ q ≤ 2 ^ p ∧ (2 ^ (p - 1) ≤ q ∨ e = emin) := by
  have hu : (0 : K) < 2 ^ e := by positivity
  have hz : x = x / 2 ^ e * 2 ^ e := by field_simp
  generalize hzz : x / 2 ^ e = z at *
  have habs : ∀ v : K, |x - v * 2 ^ e| = |z - v| * 2 ^ e := by
    intro v; rw [hz, ← sub_mul, abs_mul, abs_of_pos hu]
  have hzlt : z < 2 ^ p := by rw [hz] at hhigh; exact lt_of_mul_lt_mul_right hhigh hu.le
  have hqle : q ≤ 2 ^ p := by
    by_contra hn
    have h1 : ((2 ^ p + 1 : Nat) : K) ≤ q := by exact_mod_cast Nat.lt_of_not_le hn
    push_cast at h1
    have := hq.1
    rw [abs_sub_comm, abs_le] at this
    linarith
  have hqlow : e = emin ∨ 2 ^ (p - 1) ≤ q := by
    refine hlow.imp id fun h => ?_
    rw [hz] at h
    have h := le_of_mul_le_mul_right h hu
    by_contra hn
    have h1 : (q : K) + 1 ≤ 2 ^ (p - 1) := by exact_mod_cast Nat.lt_of_not_le hn
    have := hq.1
    rw [abs_le] at this
    linarith
  -- comparisons
  have key : ∀ (m' : Nat) (e' : ℤ), m' < 2 ^ p → emin ≤ e' → (m' : K) * 2 ^ e' ≠ q * 2 ^ e →
      |x - q * 2 ^ e| < |x - (m' : K) * 2 ^ e'| ∨ (|x - q * 2 ^ e| = |x - (m' : K) * 2 ^ e'| ∧ Even q) := by
    intro m' e' hm he' hne
    by_cases hee : e ≤ e'
    · obtain ⟨d, hd⟩ := Int.eq_ofNat_of_zero_le (sub_nonneg.2 hee)
      have hv : (m' : K) * 2 ^ e' = ((m' * 2 ^ d : Nat) : ℤ) * 2 ^ e := by
        rw [show e' = (d : ℤ) + e by omega, zpow_add₀ (by norm_num), zpow_natCast]; push_cast; ring
      rw [hv] at hne ⊢
      rw [habs, habs]
      have hnq : ((m' * 2 ^ d : Nat) : ℤ) ≠ (q : ℤ) := by
        intro h; apply hne; rw [h]; push_cast; rfl
      rcases (hq.le ((m' * 2 ^ d : Nat) : ℤ)).2 hnq with h | ⟨h, h'⟩
      · left; exact mul_lt_mul_of_pos_right h hu
      · right; exact ⟨by rw [h], h'⟩
    · have hel : e ≠ emin := by omega
      have hx := hlow.resolve_left hel
      left
      have hvlt : (m' : K) * 2 ^ e' < 2 ^ (p - 1) * 2 ^ e := by
        have h1 : (m' : K) < 2 ^ p := by exact_mod_cast hm
        have h2 : (2 : K) ^ e' ≤ 2 ^ (e - 1) := zpow_le_zpow_right₀ (by norm_num) (by omega)
        calc (m' : K) * 2 ^ e' ≤ m' * 2 ^ (e - 1) := by gcongr
          _ < 2 ^ p * 2 ^ (e - 1) := by gcongr
          _ = 2 ^ (p - 1) * 2 ^ e := by
            obtain ⟨p', rfl⟩ : ∃ p', p = p' + 1 := ⟨p - 1, by omega⟩
            rw [Nat.add_sub_cancel, pow_succ, zpow_sub_one₀ (by norm_num)]; field_simp
      have hn := (hq.le (2 ^ (p - 1))).1
      push_cast at hn
      have hn2 := mul_le_mul_of_nonneg_right hn hu.le
      rw [← habs, ← habs] at hn2
      rw [abs_of_nonneg (a := x - 2 ^ (p - 1) * 2 ^ e) (by linarith)] at hn2
      rw [abs_of_nonneg (a := x - (m' : K) * 2 ^ e') (by linarith)]
      linarith
  refine ⟨?_, hqle, hqlow.symm⟩
  by_cases hq2 : q = 2 ^ p
  · obtain ⟨p', rfl⟩ : ∃ p', p = p' + 1 := ⟨p - 1, by omega⟩
    refine ⟨2 ^ p', e + 1,
        ?_, by rw [pow_succ]; have := Nat.two_pow_pos p'; omega, by omega, .inl (by simp), fun m' e' a b c => ?_⟩
    · rw [hq2, zpow_add_one₀ (by norm_num)]; push_cast; ring
    · rcases key m' e' a b c with h | ⟨h, h'⟩
      · exact .inl h
      · exact .inr ⟨h, (Nat.even_pow.2 ⟨by norm_num, by omega⟩)⟩
  · exact ⟨q, e, rfl, by omega, he, hqlow.symm, key⟩

/-- All that `roundBinary` does. -/
theorem roundBinary_spec (p : Nat) (emin : Int) (x : Frac) (hp : 2 ≤ p) (hd : 0 < x.den) :
    emin ≤ (roundBinary p emin x).2 ∧
    IsRNE p emin x.toRat (((roundBinary p emin x).1 : ℚ) * 2 ^ (roundBinary p emin x).2) ∧
        (roundBinary p emin x).1 ≤ 2 ^ p ∧
    (2 ^ (p - 1) ≤ (roundBinary p emin x).1 ∨ (roundBinary p emin x).2 = emin) ∧
    NearestEven (roundBinary p emin x).1 (x.toRat / 2 ^ (roundBinary p emin x).2) ∧
    (∀ k : ℤ, (2 : ℚ) ^ k ≤ x.toRat → x.toRat < 2 ^ (k + 1) → (roundBinary p emin x).2 = max emin (k - (p - 1))) := by
  unfold roundBinary
  split
  · rename_i h0
    have hz : x.toRat = 0 := by unfold Frac.toRat; rw [h0]; simp
    have hn : NearestEven (K := ℚ) 0 (x.toRat / 2 ^ emin) := by rw [hz]; simp [NearestEven]
    obtain ⟨h1, h2, h3⟩ := isRNE_of hp le_rfl hn (.inl rfl) (by rw [hz]; positivity)
    refine ⟨le_rfl, h1, h2, h3, hn, fun k hk => ?_⟩
    rw [hz] at hk
    have : (0 : ℚ) < 2 ^ k := by positivity
    linarith
  · rename_i h0
    dsimp only
    obtain ⟨hl1, hl2⟩ := x.log2_spec hd h0
    generalize hk : x.log2 = k at *
    generalize he : max emin (k - ((p : Int) - 1)) = e
    obtain ⟨hs1, hs2⟩ := x.toRat_scale (-e) hd
    have hn := (x.scale (-e)).roundEven_spec hs2
    rw [hs1, zpow_neg, ← div_eq_mul_inv] at hn
    have hee : emin ≤ e := by omega
    obtain ⟨h1, h2, h3⟩ := isRNE_of hp hee hn (by
        rcases (by omega : e = emin ∨ e = k - ((p : Int) - 1)) with h | h
        · exact .inl h
        · right
          rw [h, ← zpow_natCast, ← zpow_add₀ (by norm_num)]
          rwa [show ((p - 1 : Nat) : ℤ) + (k - ((p : ℤ) - 1)) = k by omega]) (by
        rw [← zpow_natCast, ← zpow_add₀ (by norm_num)]
        exact hl2.trans_le (zpow_le_zpow_right₀ (by norm_num) (by omega)))
    refine ⟨hee, h1, h2, h3, hn, fun k' h1 h2 => ?_⟩
    have : k' = k := by
      have a := (zpow_lt_zpow_iff_right₀ (by norm_num : (1 : ℚ) < 2)).1 (h1.trans_lt hl2)
      have b := (zpow_lt_zpow_iff_right₀ (by norm_num : (1 : ℚ) < 2)).1 (hl1.trans_lt h2)
      omega
    omega

theorem getLsbD31 (b : Word32) : b.getLsbD 31 = decide (2 ^ 31 ≤ b.toNat) := by
  rw [BitVec.getLsbD, Nat.testBit_eq_decide_div_mod_eq]
  have := b.isLt
  congr 1
  rw [eq_iff_iff]; omega

/-- The fields of a pattern put together from them. -/
theorem fields_of_parts (s ex mt : Nat) (hs : s < 2) (he : ex < 2 ^ 8) (hm : mt < 2 ^ 23) :
    exp32 (BitVec.ofNat 32 (s * 2 ^ 31 + ex * 2 ^ 23 + mt)) = ex ∧ frac32
        (BitVec.ofNat 32 (s * 2 ^ 31 + ex * 2 ^ 23 + mt)) = mt ∧
    neg32 (BitVec.ofNat 32 (s * 2 ^ 31 + ex * 2 ^ 23 + mt)) = (s == 1) := by
  simp only [exp32, frac32, neg32, getLsbD31, BitVec.toNat_ofNat]
  refine ⟨by omega, by omega, ?_⟩
  rw [Bool.eq_iff_iff, decide_eq_true_eq, beq_iff_eq]; omega

/-- The fields of a pattern with its sign. -/
theorem withSign_parts (neg : Bool) (bits : Nat) (h : bits < 2 ^ 31) :
    exp32 (withSign neg bits) = bits / 2 ^ 23 ∧ frac32 (withSign neg bits) = bits % 2 ^ 23 ∧
        neg32 (withSign neg bits) = neg := by
  have := fields_of_parts (if neg then 1 else 0) (bits / 2 ^ 23) (bits % 2 ^ 23) (by cases neg <;> simp) (by omega)
      (by omega)
  have e : withSign neg bits = BitVec.ofNat 32 ((if neg then 1 else 0) * 2 ^ 31 + bits / 2 ^ 23 * 2 ^ 23 + bits % 2 ^
      23) := by
    unfold withSign; congr 1; cases neg <;> simp <;> omega
  rw [e]
  refine ⟨this.1, this.2.1, ?_⟩
  rw [this.2.2]; cases neg <;> rfl

/-- The pattern of a finite value m·2^e. -/
theorem pack_finite (neg : Bool) (m : Nat) (e : Int) (hm : m ≤ 2 ^ 24) (he : -149 ≤ e) (hlow : 2 ^ 23 ≤ m ∨ e = -149)
    (hfin : (e + 149).toNat * 2 ^ 23 + m < 0x7F800000) :
    Finite32 (withSign neg (packBinary32 m e)) ∧ mag32 (withSign neg (packBinary32 m e)) = (m : ℚ) * 2 ^ e ∧
    neg32 (withSign neg (packBinary32 m e)) = neg := by
  have hb : packBinary32 m e = (e + 149).toNat * 2 ^ 23 + m := by unfold packBinary32; omega
  rw [hb]
  obtain ⟨h1, h2, h3⟩ := withSign_parts neg ((e + 149).toNat * 2 ^ 23 + m) (by omega)
  refine ⟨by rw [Finite32, h1]; omega, ?_, h3⟩
  unfold mag32
  rw [h1, h2]
  obtain ⟨E, rfl⟩ : ∃ E : Nat, e = (E : ℤ) - 149 := ⟨(e + 149).toNat, by omega⟩
  have hE : ((E : ℤ) - 149 + 149).toNat = E := by omega
  rw [hE] at hfin ⊢
  rcases (by omega : m < 2 ^ 23 ∨ (2 ^ 23 ≤ m ∧ m < 2 ^ 24) ∨ m = 2 ^ 24) with h | ⟨h, h'⟩ | h
  · have hE0 : E = 0 := by omega
    subst hE0
    rw [if_pos (by omega)]
    simp only [Nat.zero_mul, Nat.zero_add, Nat.mod_eq_of_lt h]
    norm_num
  · rw [if_neg (by omega),
      show (E * 2 ^ 23 + m) / 2 ^ 23 = E + 1 by omega, show (E * 2 ^ 23 + m) % 2 ^ 23 = m - 2 ^ 23 by omega,
      Nat.cast_sub h]
    rw [show ((E + 1 : Nat) : ℤ) - 150 = (E : ℤ) - 149 by push_cast; ring]
    push_cast; ring
  · rw [if_neg (by omega),
      show (E * 2 ^ 23 + m) / 2 ^ 23 = E + 2 by omega, show (E * 2 ^ 23 + m) % 2 ^ 23 = 0 by omega, h]
    rw [show ((E + 2 : Nat) : ℤ) - 150 = ((E : ℤ) - 149) + 1 by push_cast; ring, zpow_add_one₀ (by norm_num)]
    push_cast; ring

theorem withSign_false (bits : Nat) : withSign false bits = BitVec.ofNat 32 bits := by simp [withSign]

/-- `RNE32` of a value whose rounding is finite (00_scope.md R12). -/
theorem rne32_spec (neg : Bool) (x : Frac) (hd : 0 < x.den) (h : x.toRat < 2 ^ 128 - 2 ^ 103) :
    IsPattern32 (K := ℚ) (withSign neg (rne32Bits x)) neg x.toRat := by
  obtain ⟨h1, h2, h3, h4, h5, h6⟩ := roundBinary_spec 24 (-149) x (by norm_num) hd
  unfold rne32Bits
  dsimp only
  generalize roundBinary 24 (-149) x = r at *
  have hfin : (r.2 + 149).toNat * 2 ^ 23 + r.1 < 0x7F800000 := by
    by_cases h0 : x.num = 0
    · have hz : x.toRat = 0 := by unfold Frac.toRat; rw [h0]; simp
      have hq : r.1 = 0 := by
        have := h5.1
        rw [hz, zero_div, zero_sub, abs_neg, abs_of_nonneg (by positivity)] at this
        have h' : ((r.1 : ℚ)) < 1 := by linarith
        exact_mod_cast Nat.lt_one_iff.1 (by exact_mod_cast h')
      have := h4.resolve_left (by omega)
      rw [hq, this]; norm_num
    · obtain ⟨hl1, hl2⟩ := x.log2_spec hd h0
      have he := h6 _ hl1 hl2
      generalize x.log2 = k at *
      have hk : k ≤ 127 := by
        by_contra hn
        have : (2 : ℚ) ^ (128 : ℤ) ≤ 2 ^ k := zpow_le_zpow_right₀ (by norm_num) (by omega)
        norm_num at this h
        linarith
      rcases (by omega : r.2 ≤ 103 ∨ r.2 = 104) with he' | he'
      · have : (r.2 + 149).toNat ≤ 252 := by omega
        omega
      · have hq : r.1 < 2 ^ 24 := by
          have := (abs_le.1 h5.1).1
          rw [he'] at this
          have hx : x.toRat / 2 ^ (104 : ℤ) < 2 ^ 24 - 1 / 2 := by
            rw [div_lt_iff₀ (by positivity)]
            norm_num at h ⊢
            linarith
          have h' : (r.1 : ℚ) < 2 ^ 24 := by linarith
          exact_mod_cast h'
        rw [he']; norm_num; omega
  obtain ⟨p1, p2, p3⟩ := pack_finite neg r.1 r.2 h3 h1 (by simpa using h4) hfin
  exact ⟨p3, p1, by rw [p2]; exact_mod_cast h2⟩

/-- `RNE32` of a value that rounds to 2^128 or more (00_scope.md R12). -/
theorem rne32_overflow (x : Frac) (hd : 0 < x.den) (h : 2 ^ 128 - 2 ^ 103 ≤ x.toRat) : rne32Bits x = 0x7F800000 ∧
    2 ^ 128 ≤ ((roundBinary 24 (-149) x).1 : ℚ) * 2 ^ (roundBinary 24 (-149) x).2 := by
  obtain ⟨h1, h2, h3, h4, h5, h6⟩ := roundBinary_spec 24 (-149) x (by norm_num) hd
  have h0 : x.num ≠ 0 := by
    rw [← x.toRat_pos hd]; norm_num at h; linarith
  unfold rne32Bits
  dsimp only
  generalize roundBinary 24 (-149) x = r at *
  obtain ⟨hl1, hl2⟩ := x.log2_spec hd h0
  have he := h6 _ hl1 hl2
  generalize x.log2 = k at *
  have hk : 127 ≤ k := by
    by_contra hn
    have : (2 : ℚ) ^ (k + 1) ≤ 2 ^ (127 : ℤ) := zpow_le_zpow_right₀ (by norm_num) (by omega)
    norm_num at this h
    linarith
  unfold packBinary32
  rcases (by omega : 105 ≤ r.2 ∨ r.2 = 104) with he' | he'
  · have : 254 ≤ (r.2 + 149).toNat := by omega
    have := h4.resolve_right (by omega)
    refine ⟨by omega, ?_⟩
    calc (2 : ℚ) ^ 128 = (2 : ℚ) ^ 23 * 2 ^ (105 : ℤ) := by norm_num
      _ ≤ (r.1 : ℚ) * 2 ^ r.2 := mul_le_mul (by exact_mod_cast this) (zpow_le_zpow_right₀ (by norm_num) he')
          (by positivity) (by positivity)
  · have hq : 2 ^ 24 ≤ r.1 := by
      have hx : 2 ^ 24 - 1 / 2 ≤ x.toRat / 2 ^ (104 : ℤ) := by
        rw [le_div_iff₀ (by positivity)]
        norm_num at h ⊢
        linarith
      rw [he'] at h5
      by_contra hn
      have h' : (r.1 : ℚ) ≤ 2 ^ 24 - 1 := by
        have : r.1 + 1 ≤ 2 ^ 24 := by omega
        have : ((r.1 + 1 : Nat) : ℚ) ≤ 2 ^ 24 := by exact_mod_cast this
        push_cast at this; linarith
      have h7 := (abs_le.1 h5.1).2
      have h8 : (r.1 : ℚ) = 2 ^ 24 - 1 := by linarith
      have h9 : x.toRat / 2 ^ (104 : ℤ) - r.1 = 1 / 2 := by linarith
      have h10 := h5.2 (by rw [h9, abs_of_pos (by norm_num)])
      have h11 : r.1 = 2 ^ 24 - 1 := by
        have : (r.1 : ℚ) = ((2 ^ 24 - 1 : Nat) : ℚ) := by rw [h8]; norm_num
        exact_mod_cast this
      rw [h11, Nat.even_iff] at h10
      omega
    refine ⟨by rw [he']; norm_num; omega, ?_⟩
    rw [he']
    calc (2 : ℚ) ^ 128 = (2 : ℚ) ^ 24 * 2 ^ (104 : ℤ) := by norm_num
      _ ≤ (r.1 : ℚ) * 2 ^ (104 : ℤ) := mul_le_mul_of_nonneg_right (by exact_mod_cast hq) (by positivity)

/-- `RNE64` (00_scope.md R12). -/
theorem rne64_spec (x : Frac) (hd : 0 < x.den) : IsRNE 53 (-1074) x.toRat (rne64 x).toRat ∧ 0 < (rne64 x).den := by
  obtain ⟨h1, h2, h3, h4, h5, h6⟩ := roundBinary_spec 53 (-1074) x (by norm_num) hd
  unfold rne64
  dsimp only
  obtain ⟨a, b⟩ := (Frac.ofNat (roundBinary 53 (-1074) x).1).toRat_scale (roundBinary 53 (-1074) x).2
      (by simp [Frac.ofNat])
  refine ⟨?_, b⟩
  rw [a, Frac.toRat_ofNat]; exact h2

theorem isqrtFrom_spec (n k r : Nat) (h1 : r ^ 2 ≤ n) (h2 : n < (r + 2 ^ k) ^ 2) :
    (isqrtFrom n k r) ^ 2 ≤ n ∧ n < (isqrtFrom n k r + 1) ^ 2 := by
  induction k generalizing r with
  | zero => exact ⟨h1, by simpa [isqrtFrom] using h2⟩
  | succ k ih =>
    unfold isqrtFrom
    split
    · rename_i h
      exact ih _ h (by rwa [show r + 2 ^ k + 2 ^ k = r + 2 ^ (k + 1) by rw [pow_succ]; ring])
    · rename_i h
      exact ih _ h1 (by omega)

/-- The integer square root. -/
theorem isqrt_spec (n : Nat) : (isqrt n) ^ 2 ≤ n ∧ n < (isqrt n + 1) ^ 2 := by
  refine isqrtFrom_spec _ _ _ (by simp) ?_
  rw [Nat.zero_add, ← pow_mul]
  exact (Nat.lt_log2_self (n := n)).trans_le (Nat.pow_le_pow_right (by norm_num) (by omega))

/-- `SQRT32` (00_scope.md R12). -/
theorem sqrt32_spec (neg : Bool) (x : Frac) (hd : 0 < x.den) (h : x.toRat < 2 ^ 128) :
    IsPattern32 (K := ℝ) (withSign neg (sqrt32Bits x)) neg √(x.toRat : ℝ) := by
  unfold sqrt32Bits
  split
  · rename_i h0
    have hz : x.toRat = 0 := by unfold Frac.toRat; rw [h0]; simp
    rw [hz]
    have hn : NearestEven (K := ℝ) 0 (0 / 2 ^ (-149 : ℤ)) := by simp [NearestEven]
    obtain ⟨h1, -, -⟩ := isRNE_of (p := 24) (by norm_num) (le_refl (-149)) hn (.inl rfl) (by positivity)
    obtain ⟨p1, p2, p3⟩ := pack_finite neg 0 (-149) (by norm_num) le_rfl (.inr rfl) (by norm_num)
    have e : packBinary32 0 (-149) = 0 := by decide
    rw [e] at p1 p2 p3
    refine ⟨p3, p1, ?_⟩
    rw [p2]; simpa using h1
  · rename_i h0
    dsimp only
    obtain ⟨hl1, hl2⟩ := x.log2_spec hd h0
    generalize x.log2 = k at *
    generalize he : max (-149) (k / 2 - 23) = e
    obtain ⟨hs1, hs2⟩ := x.toRat_scale (-(2 * e)) hd
    generalize hy : x.scale (-(2 * e)) = y at *
    obtain ⟨hm1, hm2⟩ := isqrt_spec y.floor
    generalize isqrt y.floor = m at *
    have hu : (0 : ℝ) < 2 ^ e := by positivity
    have hyx : (√(x.toRat : ℝ)) = √(y.toRat : ℝ) * 2 ^ e := by
      have hX : (x.toRat : ℝ) = (y.toRat : ℝ) * (2 ^ e) ^ 2 := by
        rw [hs1]
        push_cast
        rw [mul_assoc, ← zpow_natCast, ← zpow_mul, ← zpow_add₀ (by norm_num)]
        simp [mul_comm]
      rw [hX]
      rw [Real.sqrt_mul (by exact_mod_cast y.toRat_nonneg), Real.sqrt_sq hu.le]
    have hy0 : (0 : ℝ) ≤ (y.toRat : ℝ) := by exact_mod_cast y.toRat_nonneg
    have hml : (m : ℝ) ≤ √(y.toRat : ℝ) := by
      apply Real.le_sqrt_of_sq_le
      rw [Frac.floor_eq, Nat.le_floor_iff y.toRat_nonneg] at hm1
      exact_mod_cast hm1
    have hmu : √(y.toRat : ℝ) < m + 1 := by
      rw [Real.sqrt_lt' (by positivity)]
      rw [Frac.floor_eq, Nat.floor_lt y.toRat_nonneg] at hm2
      exact_mod_cast hm2
    have hhalf : ∀ (r : Frac), r = ⟨(2 * m + 1) ^ 2, 4⟩ → 0 < r.den ∧ (r.toRat : ℝ) = (m + 1 / 2) ^ 2 := by
      rintro r rfl
      refine ⟨by norm_num, ?_⟩
      simp only [Frac.toRat]; push_cast; ring
    obtain ⟨hhd, hht⟩ := hhalf _ rfl
    generalize hr : (⟨(2 * m + 1) ^ 2, 4⟩ : Frac) = half at *
    have hnear : NearestEven (K := ℝ) (if y.lt half then m else if half.lt y then m + 1 else m + m % 2) (√(x.toRat :
        ℝ) / 2 ^ e) := by
      rw [hyx, mul_div_assoc, div_self hu.ne', mul_one]
      split
      · rename_i h1
        rw [Frac.lt_iff _ _ hs2 hhd] at h1
        have h1' : (y.toRat : ℝ) < (m + 1 / 2) ^ 2 := by rw [← hht]; exact_mod_cast h1
        have h2 : √(y.toRat : ℝ) < m + 1 / 2 := by rwa [Real.sqrt_lt' (by positivity)]
        unfold NearestEven
        rw [abs_of_nonneg (by linarith)]
        exact ⟨by linarith, fun h => by linarith⟩
      · rename_i h1
        rw [Frac.lt_iff _ _ hs2 hhd, not_lt] at h1
        split
        · rename_i h2
          rw [Frac.lt_iff _ _ hhd hs2] at h2
          have h1' : ((m : ℝ) + 1 / 2) ^ 2 < y.toRat := by rw [← hht]; exact_mod_cast h2
          have h2 : (m : ℝ) + 1 / 2 < √(y.toRat : ℝ) := Real.lt_sqrt_of_sq_lt h1'
          unfold NearestEven
          push_cast
          rw [abs_sub_comm, abs_of_nonneg (by linarith)]
          exact ⟨by linarith, fun h => by linarith⟩
        · rename_i h2
          rw [Frac.lt_iff _ _ hhd hs2, not_lt] at h2
          have h3 : (y.toRat : ℝ) = (m + 1 / 2) ^ 2 := by rw [← hht]; exact_mod_cast le_antisymm h2 h1
          have h4 : √(y.toRat : ℝ) = m + 1 / 2 := by rw [h3, Real.sqrt_sq (by positivity)]
          rw [h4]
          rcases Nat.mod_two_eq_zero_or_one m with hm | hm
          · rw [hm, Nat.add_zero]
            refine ⟨?_, fun _ => Nat.even_iff.2 hm⟩
            rw [add_sub_cancel_left, abs_of_pos (by norm_num)]
          · rw [hm]
            refine ⟨?_, fun _ => Nat.even_iff.2 (by omega)⟩
            rw [show ((m : ℝ) + 1 / 2 - (m + 1 :
                Nat)) = -(1 / 2) by push_cast; ring, abs_neg, abs_of_pos (by norm_num)]
    generalize (if y.lt half then m else if half.lt y then m + 1 else m + m % 2) = q at *
    have hhigh : √(x.toRat : ℝ) < (2 : ℝ) ^ 24 * 2 ^ e := by
      rw [Real.sqrt_lt' (by positivity), mul_pow]
      have h1 : (x.toRat : ℝ) < 2 ^ (k + 1) := by
        have : (x.toRat : ℝ) < ((2 ^ (k + 1) : ℚ) : ℝ) := Rat.cast_lt.2 hl2
        push_cast at this; exact this
      refine h1.trans_le ?_
      rw [← zpow_natCast, ← zpow_natCast, ← zpow_natCast, ← zpow_mul, ← zpow_mul, ← zpow_add₀ (by norm_num)]
      exact zpow_le_zpow_right₀ (by norm_num) (by push_cast; omega)
    obtain ⟨r1, r2, r3⟩ := isRNE_of (p := 24) (by norm_num) (by omega : (-149 : ℤ) ≤ e) hnear (by
      rcases (by omega : e = -149 ∨ e = k / 2 - 23) with h' | h'
      · exact .inl h'
      · right
        apply Real.le_sqrt_of_sq_le
        have h1 : (2 : ℝ) ^ k ≤ x.toRat := by
          have : ((2 ^ k : ℚ) : ℝ) ≤ x.toRat := Rat.cast_le.2 hl1
          push_cast at this; exact this
        refine le_trans ?_ h1
        rw [mul_pow, ← zpow_natCast, ← zpow_natCast, ← zpow_natCast, ← zpow_mul, ← zpow_mul,
            ← zpow_add₀ (by norm_num)]
        exact zpow_le_zpow_right₀ (by norm_num) (by push_cast; omega)) hhigh
    have hk : k ≤ 127 := by
      by_contra hn
      have : (2 : ℚ) ^ (128 : ℤ) ≤ 2 ^ k := zpow_le_zpow_right₀ (by norm_num) (by omega)
      norm_num at this h
      linarith
    obtain ⟨p1, p2, p3⟩ := pack_finite neg q e r2 (by omega) r3 (by omega)
    refine ⟨p3, p1, ?_⟩
    rw [p2]
    push_cast
    exact r1

/-- What the value of a pattern is. -/
theorem ofBits_spec (b : Word32) :
    (NaN32 b ∧ F32.ofBits b = .nan) ∨ (¬Finite32 b ∧ ¬NaN32 b ∧ F32.ofBits b = .inf (neg32 b)) ∨
    (Finite32 b ∧ ¬NaN32 b ∧ ∃ m : Frac, F32.ofBits b = .fin (neg32 b) m ∧ m.toRat = mag32 b ∧ 0 < m.den) := by
  unfold F32.ofBits NaN32 Finite32 mag32
  dsimp only
  rw [show b.toNat / 2 ^ 23 % 2 ^ 8 = exp32 b from rfl, show b.toNat % 2 ^ 23 = frac32 b from rfl,
      show b.getLsbD 31 = neg32 b from rfl]
  split
  · rename_i h
    split
    · rename_i h'
      right; left; simp [h, h']
    · rename_i h'
      left; simp [h, h']
  · rename_i h
    right; right
    refine ⟨h, fun hh => h hh.1, ?_⟩
    split
    · rename_i h'
      refine ⟨_, rfl, ?_, by norm_num⟩
      rw [show (-149 : ℤ) = -((149 : Nat) : ℤ) by norm_num, zpow_neg, zpow_natCast, ← div_eq_mul_inv]
      simp only [Frac.toRat]; push_cast; rfl
    · refine ⟨_, rfl, ?_, ?_⟩
      · rw [(Frac.toRat_scale _ _ (by norm_num [Frac.ofNat])).1, Frac.toRat_ofNat]
        push_cast; rfl
      · exact (Frac.toRat_scale _ _ (by norm_num [Frac.ofNat])).2

/-- A finite binary32 value is less than 2^128. -/
theorem mag32_lt {b : Word32} (h : Finite32 b) : mag32 b < 2 ^ 128 := by
  have hf : frac32 b < 2 ^ 23 := Nat.mod_lt _ (by norm_num)
  have he : exp32 b < 2 ^ 8 := Nat.mod_lt _ (by norm_num)
  have hf' : (frac32 b : ℚ) < 2 ^ 23 := by exact_mod_cast hf
  have he' : exp32 b ≠ 255 := h
  unfold mag32
  split
  · calc (frac32 b : ℚ) * 2 ^ (-149 : ℤ) ≤ 2 ^ 23 * 1 := by
          apply mul_le_mul hf'.le _ (by positivity) (by positivity)
          norm_num
      _ < 2 ^ 128 := by norm_num
  · calc (2 ^ 23 + (frac32 b : ℚ)) * 2 ^ ((exp32 b : ℤ) - 150) < 2 ^ 24 * 2 ^ ((exp32 b : ℤ) - 150) := by
          apply mul_lt_mul_of_pos_right _ (by positivity)
          linarith
      _ ≤ 2 ^ 24 * 2 ^ (104 : ℤ) := by
          apply mul_le_mul_of_nonneg_left _ (by positivity)
          exact zpow_le_zpow_right₀ (by norm_num) (by omega)
      _ = 2 ^ 128 := by norm_num

/-- `|f| ≥ r` on patterns. -/
theorem absGe_spec (b : Word32) (r : Frac) (hr : 0 < r.den) : (F32.ofBits b).absGe r = decide (AbsGe32 b r.toRat) :=
    by
  rcases ofBits_spec b with ⟨h1, h2⟩ | ⟨h1, h2, h3⟩ | ⟨h1, h2, m, h3, h4, h5⟩
  · rw [h2]; simp [F32.absGe, AbsGe32, h1]
  · rw [h3]; simp [F32.absGe, AbsGe32, h1, h2]
  · rw [h3, Bool.eq_iff_iff, decide_eq_true_eq]
    simp only [F32.absGe, AbsGe32, h2, not_false_eq_true, true_and]
    rw [Frac.le_iff _ _ hr h5, h4]
    exact ⟨fun h _ => h, fun h => h h1⟩

/-- `SignBit` on patterns. -/
theorem signBit_spec (b : Word32) (r : Frac) (hr : 0 < r.den) : (F32.ofBits b).signBit r = decide
    (Sign32 b r.toRat) := by
  rcases ofBits_spec b with ⟨h1, h2⟩ | ⟨h1, h2, h3⟩ | ⟨h1, h2, m, h3, h4, h5⟩
  · rw [h2]; simp [F32.signBit, AbsGe32, Sign32, h1]
  · rw [h3]; simp [F32.signBit, AbsGe32, Sign32, h1, h2]
  · rw [h3, Bool.eq_iff_iff, decide_eq_true_eq]
    simp only [F32.signBit, AbsGe32, Sign32, h2, not_false_eq_true, true_and, Bool.and_eq_true]
    rw [Frac.le_iff _ _ hr h5, h4]
    exact ⟨fun h => ⟨h.1, fun _ => h.2⟩, fun h => ⟨h.1, h.2 h1⟩⟩

theorem resolution_spec (k : Nat) : (resolution k).toRat = 1 / 2 ^ k ∧ 0 < (resolution k).den := by
  refine ⟨?_, by simp [resolution]⟩
  simp [resolution, Frac.toRat]

/-- TruncNat of |f|·n. -/
theorem truncNat_spec (b : Word32) (n k : Nat) :
    (Finite32 b → truncNat ((F32.ofBits b).absMul (Frac.ofNat n)) k = (⌊mag32 b * n⌋₊, k)) ∧
    (¬Finite32 b → (truncNat ((F32.ofBits b).absMul (Frac.ofNat n)) k).2 = k + 1) := by
  rcases ofBits_spec b with ⟨h1, h2⟩ | ⟨h1, h2, h3⟩ | ⟨h1, h2, m, h3, h4, h5⟩
  · rw [h2]; refine ⟨fun h => absurd h1.1 h, fun _ => rfl⟩
  · rw [h3]; refine ⟨fun h => absurd h h1, fun _ => rfl⟩
  · rw [h3]
    refine ⟨fun _ => ?_, fun h => absurd h1 h⟩
    simp only [F32.absMul, truncNat, Frac.floor_eq, Frac.toRat_mul, Frac.toRat_ofNat, h4]

theorem ofBits_inf : F32.ofBits (BitVec.ofNat 32 0x7F800000) = .inf false := by decide

/-- Rounding does not pass a value of the format. -/
theorem IsRNE.le {p : Nat} {emin : ℤ} {x y B : ℚ} (h : IsRNE p emin x y) (hx : x ≤ B) (hB : ∃ (m : Nat) (e : ℤ),
    B = m * 2 ^ e ∧ m < 2 ^ p ∧ emin ≤ e) : y ≤ B := by
  obtain ⟨m, e, rfl, hm, he, hl, hall⟩ := h
  obtain ⟨mB, eB, hBe, h1, h2⟩ := hB
  by_contra hn
  rw [not_le] at hn
  rcases hall mB eB h1 h2 (by rw [← hBe]; exact hn.ne) with h3 | ⟨h3, h4⟩
  · rw [← hBe, abs_sub_comm, abs_of_nonneg (by linarith), abs_of_nonpos (by linarith)] at h3; linarith
  · rw [← hBe, abs_sub_comm, abs_of_nonneg (by linarith), abs_of_nonpos (by linarith)] at h3; linarith

/-- Rounding keeps a value of the format. -/
theorem IsRNE.eq_self {p : Nat} {emin : ℤ} {x y : ℚ} (h : IsRNE p emin x y) (hB : ∃ (m : Nat) (e : ℤ), x = m * 2 ^ e ∧
    m < 2 ^ p ∧ emin ≤ e) : y = x := by
  obtain ⟨m, e, rfl, hm, he, hl, hall⟩ := h
  obtain ⟨mB, eB, hBe, h1, h2⟩ := hB
  by_contra hn
  rcases hall mB eB h1 h2 (by rw [← hBe]; exact Ne.symm hn) with h3 | ⟨h3, h4⟩
  · rw [← hBe, sub_self, abs_zero] at h3; exact absurd (abs_nonneg _) (not_le.2 h3)
  · rw [← hBe, sub_self, abs_zero, abs_eq_zero, sub_eq_zero] at h3; exact hn h3.symm

/-- A finite binary32 value as a significand and an exponent. -/
theorem mag32_form {b : Word32} (_ : Finite32 b) : ∃ (M : Nat) (E : ℤ), mag32 b = M * 2 ^ E ∧ M < 2 ^ 24 ∧
    -149 ≤ E := by
  have hf : frac32 b < 2 ^ 23 := Nat.mod_lt _ (by norm_num)
  unfold mag32
  split
  · exact ⟨frac32 b, -149, rfl, by omega, le_rfl⟩
  · refine ⟨2 ^ 23 + frac32 b, (exp32 b : ℤ) - 150, by push_cast; rfl, by omega, by omega⟩

/-- A rounded pattern does not pass a value of the format. -/
theorem IsPattern32.mag_le {b : Word32} {neg : Bool} {x B : ℚ} (h : IsPattern32 (K :=
    ℚ) b neg x) (hx : x ≤ B) (hB : ∃ (m : Nat) (e : ℤ), B = m * 2 ^ e ∧ m < 2 ^ 24 ∧ -149 ≤ e) : mag32 b ≤ B := by
  have h3 := h.2.2
  rw [Rat.cast_id] at h3
  exact IsRNE.le h3 hx hB

theorem mag_of_finite32 {b : Word32} (h : Finite32 b) : (F32.ofBits b).mag.toRat = mag32 b ∧
    0 < (F32.ofBits b).mag.den := by
  rcases ofBits_spec b with ⟨h1, h2⟩ | ⟨h1, h2, h3⟩ | ⟨h1, h2, m, h3, h4, h5⟩
  · exact absurd h1.1 h
  · exact absurd h h1
  · rw [h3]; exact ⟨h4, h5⟩

/-- `RNE32` as a pattern, as a value and as an exact magnitude. -/
theorem rne32_val {x : Frac} (hd : 0 < x.den) (h : x.toRat < 2 ^ 128 - 2 ^ 103) :
    ∃ b : Word32, b = BitVec.ofNat 32 (rne32Bits x) ∧ rne32 x = F32.ofBits b ∧ IsPattern32 (K := ℚ) b false x.toRat ∧
        (rne32 x).mag.toRat = mag32 b ∧ 0 < (rne32 x).mag.den := by
  have := rne32_spec false x hd h
  rw [withSign_false] at this
  exact ⟨_, rfl, rfl, this, mag_of_finite32 this.2.1⟩

end Sys2Proof.Machine
end

