-- ==== Sys2Proof/Laws/Frame.lean ====
section
/-! SUPPORT. What the shared operations of the commands leave unchanged, whatever happened: the frame of each, to be
composed along a command. -/

namespace Sys2Proof.Machine

/-- What a command other than a bind may leave of the state, whatever happened. -/
structure Frame (op : BitVec 8) (cs : List CtxId) (s t : State) : Prop where
  cfg : t.cfg = s.cfg
  opa : t.opa = s.opa
  opb : t.opb = s.opb
  opc : t.opc = s.opc
  opd : t.opd = s.opd
  inbox : t.inbox = s.inbox
  other : ∀ d ∉ cs, t.ctx d = s.ctx d
  ctx : ∀ d, t.ctx d = { s.ctx d with cursor := (t.ctx d).cursor, ovf := (t.ctx d).ovf }
  ovf : ∀ d, (s.ctx d).ovf = true → (t.ctx d).ovf = true
  bound : ∀ d, (s.ctx d).cursor ≤ (s.ctx d).bitCap → (t.ctx d).cursor ≤ (t.ctx d).bitCap
  diag : ∃ es : List DiagEvent, t.diag = s.diag ++ es ∧ (∀ e ∈ es, e.c ∈ cs ∧ e.opcode = op) ∧
    (s.cfg.hookEnabled = false → es = [])
  keeps : Keeps s.cfg s.mem t.mem

theorem Frame.refl (op : BitVec 8) (cs : List CtxId) (s : State) : Frame op cs s s :=
  ⟨rfl, rfl, rfl, rfl, rfl, rfl, fun _ _ => rfl, fun _ => rfl, fun _ => id, fun _ => id,
      ⟨[], by simp, by simp, fun _ => rfl⟩, Keeps.refl _ _⟩

theorem Frame.trans {op : BitVec 8} {cs : List CtxId} {s t u : State} (h : Frame op cs s t) (h' : Frame op cs t u) :
    Frame op cs s u where
  cfg := h'.cfg.trans h.cfg
  opa := h'.opa.trans h.opa
  opb := h'.opb.trans h.opb
  opc := h'.opc.trans h.opc
  opd := h'.opd.trans h.opd
  inbox := h'.inbox.trans h.inbox
  other d hd := (h'.other d hd).trans (h.other d hd)
  ctx d := by rw [h'.ctx d, h.ctx d]
  ovf d := h'.ovf d ∘ h.ovf d
  bound d := h'.bound d ∘ h.bound d
  diag := by
    obtain ⟨es, e, p, q⟩ := h.diag
    obtain ⟨es', e', p', q'⟩ := h'.diag
    refine ⟨es ++ es', by rw [e', e, List.append_assoc], fun x hx => ?_, fun hh => ?_⟩
    · exact (List.mem_append.1 hx).elim (p x) (p' x)
    · rw [q hh, q' (h.cfg ▸ hh)]; rfl
  keeps := h.keeps.trans (h.cfg ▸ h'.keeps)

theorem StreamFrame.frame {op : BitVec 8} {c : CtxId} {cs : List CtxId} {s t : State} (h : StreamFrame op c s t) (hc :
    c ∈ cs)
    (hk : Keeps s.cfg s.mem t.mem) : Frame op cs s t where
  cfg := h.cfg
  opa := h.opa
  opb := h.opb
  opc := h.opc
  opd := h.opd
  inbox := h.inbox
  other d hd := h.other d fun e => hd (e ▸ hc)
  ctx d := by
    by_cases e : d = c
    · subst e; exact h.self
    · rw [h.other d e]
  ovf d := by
    by_cases e : d = c
    · subst e; exact h.ovf
    · rw [h.other d e]; exact id
  bound d := by
    by_cases e : d = c
    · subst e; exact h.bound
    · rw [h.other d e]; exact id
  diag := by
    obtain ⟨es, e, p, q⟩ := h.diag
    exact ⟨es, e, fun x hx => ⟨(p x hx).1 ▸ hc, (p x hx).2⟩, q⟩
  keeps := hk

theorem setMem_frame (op : BitVec 8) (c : CtxId) (s : State) (m : Memory) : StreamFrame op c s (s.setMem m) :=
  mem_frame op c s m s.draws

theorem rdIf_frame {p : Bool} {op : BitVec 8} {c : CtxId} {n v : Nat} {s t : State} (h :
    rdIf p op c n s = .ok (v, t)) :
    StreamFrame op c s t ∧ t.mem = s.mem ∧ t.draws = s.draws := by
  unfold rdIf at h
  split at h
  · exact rd_frame h
  · obtain ⟨-, rfl⟩ := Prod.ext_iff.1 (Except.ok.inj h); exact ⟨StreamFrame.refl _ _ _, rfl, rfl⟩

/-- Reads of context c, one after the other: the frame, the memory and the draws. -/
abbrev ReadFrame (op : BitVec 8) (c : CtxId) (s t : State) : Prop :=
  StreamFrame op c s t ∧ t.mem = s.mem ∧ t.draws = s.draws

theorem ReadFrame.trans {op : BitVec 8} {c : CtxId} {s t u : State} (h : ReadFrame op c s t) (h' :
    ReadFrame op c t u) :
    ReadFrame op c s u := ⟨h.1.trans h'.1, h'.2.1.trans h.2.1, h'.2.2.trans h.2.2⟩

theorem ReadFrame.refl (op : BitVec 8) (c : CtxId) (s : State) : ReadFrame op c s s :=
    ⟨StreamFrame.refl _ _ _, rfl, rfl⟩

theorem ReadFrame.frame {op : BitVec 8} {c : CtxId} {cs : List CtxId} {s t : State} (h : ReadFrame op c s t) (hc :
    c ∈ cs) : Frame op cs s t :=
  h.1.frame hc (h.2.1 ▸ Keeps.refl _ _)

/-- The frame of `VarGet`. -/
theorem varGetFrom_frame {op : BitVec 8} {c : CtxId} {left k r v : Nat} {s t : State}
    (h : varGetFrom op c left k r s = .ok (v, t)) : ReadFrame op c s t := by
  induction left generalizing k r s with
  | zero => obtain ⟨-, rfl⟩ := Prod.ext_iff.1 (Except.ok.inj h); exact ReadFrame.refl _ _ _
  | succ left ih =>
    obtain ⟨⟨b, u⟩, e, h⟩ := exec_bind_eq_ok.1 h
    dsimp only at h
    split at h
    · obtain ⟨-, rfl⟩ := Prod.ext_iff.1 (Except.ok.inj h); exact rd_frame e
    · exact ReadFrame.trans (rd_frame e) (ih h)

/-- The frame of `CoordGet`. -/
theorem coordGet_frame {op : BitVec 8} {c : CtxId} {s t : State} {v : Word32} (h : coordGet op c s = .ok (v, t)) :
    ReadFrame op c s t := by
  obtain ⟨⟨hi, u₁⟩, e₁, h⟩ := exec_bind_eq_ok.1 h
  obtain ⟨⟨hf, u₂⟩, e₂, h⟩ := exec_bind_eq_ok.1 h
  have h12 := ReadFrame.trans (rd_frame e₁) (rd_frame e₂)
  dsimp only at h
  split at h
  · obtain ⟨-, rfl⟩ := Prod.ext_iff.1 (Except.ok.inj h); exact h12
  · obtain ⟨⟨sg, u₃⟩, e₃, h⟩ := exec_bind_eq_ok.1 h
    obtain ⟨⟨ip, u₄⟩, e₄, h⟩ := exec_bind_eq_ok.1 h
    obtain ⟨⟨fr, u₅⟩, e₅, h⟩ := exec_bind_eq_ok.1 h
    obtain ⟨-, rfl⟩ := Prod.ext_iff.1 (Except.ok.inj h)
    exact h12.trans (ReadFrame.trans (rd_frame e₃) (ReadFrame.trans (rdIf_frame e₄) (rdIf_frame e₅)))

/-- The frame of RCOORDMP's reads. -/
theorem coordMpGet_frame {op : BitVec 8} {c : CtxId} {i l : Bool} {s t : State} {v : Word32} (h :
    coordMpGet op c i l s = .ok (v, t)) :
    ReadFrame op c s t := by
  obtain ⟨⟨inb, u₁⟩, e₁, h⟩ := exec_bind_eq_ok.1 h
  obtain ⟨⟨hi, u₂⟩, e₂, h⟩ := exec_bind_eq_ok.1 h
  have h12 := ReadFrame.trans (rd_frame e₁) (rd_frame e₂)
  dsimp only at h
  split at h
  · split at h
    · obtain ⟨-, rfl⟩ := Prod.ext_iff.1 (Except.ok.inj h); exact h12
    · obtain ⟨⟨sg, u₃⟩, e₃, h⟩ := exec_bind_eq_ok.1 h
      obtain ⟨⟨ip, u₄⟩, e₄, h⟩ := exec_bind_eq_ok.1 h
      obtain ⟨-, rfl⟩ := Prod.ext_iff.1 (Except.ok.inj h)
      exact h12.trans (ReadFrame.trans (rd_frame e₃) (rd_frame e₄))
  · obtain ⟨⟨sg, u₃⟩, e₃, h⟩ := exec_bind_eq_ok.1 h
    obtain ⟨⟨ip, u₄⟩, e₄, h⟩ := exec_bind_eq_ok.1 h
    obtain ⟨⟨fr, u₅⟩, e₅, h⟩ := exec_bind_eq_ok.1 h
    obtain ⟨-, rfl⟩ := Prod.ext_iff.1 (Except.ok.inj h)
    exact h12.trans (ReadFrame.trans (rd_frame e₃) (ReadFrame.trans (rdIf_frame e₄) (rd_frame e₅)))

/-- The frame of `NormalGet`. -/
theorem normalGet_frame {op : BitVec 8} {c : CtxId} {s t : State} {v : Word32} (h : normalGet op c s = .ok (v, t)) :
    ReadFrame op c s t := by
  obtain ⟨⟨sg, u₁⟩, e₁, h⟩ := exec_bind_eq_ok.1 h
  obtain ⟨⟨m, u₂⟩, e₂, h⟩ := exec_bind_eq_ok.1 h
  obtain ⟨-, rfl⟩ := Prod.ext_iff.1 (Except.ok.inj h)
  exact ReadFrame.trans (rd_frame e₁) (rd_frame e₂)

theorem axisGet_frame {op : BitVec 8} {c : CtxId} {p : Nat} {get : State →
    Exec (Word32 × State)} {s t : State} {v : Word32}
    (hg : ∀ {v t}, get s = .ok (v, t) → ReadFrame op c s t) (h : axisGet p get s = .ok (v, t)) : ReadFrame op c s t :=
        by
  unfold axisGet at h
  split at h
  · exact hg h
  · obtain ⟨-, rfl⟩ := Prod.ext_iff.1 (Except.ok.inj h); exact ReadFrame.refl _ _ _

/-- The frame of a seek. -/
theorem seekTo_frame (op : BitVec 8) (c : CtxId) (pos : Int) (s : State) : ReadFrame op c s (seekTo op c pos s) := by
  unfold seekTo
  dsimp only
  split
  · exact ⟨(overflow_frame _ _ _ _).trans (setCursor_frame _ _ _ _ fun _ => by simp), rfl, rfl⟩
  · exact ⟨setCursor_frame _ _ _ _ fun _ => by omega, rfl, rfl⟩

/-- The frame of the loop of CMPBITS. -/
theorem compareFrom_frame {op : BitVec 8} {c c2 : CtxId} {chunks k : Nat} {d e : Bool} {s t : State}
    (h : compareFrom op c c2 chunks k d s = .ok (e, t)) : Frame op [c, c2] s t ∧ t.mem = s.mem ∧ t.res1 = s.res1 := by
  induction chunks generalizing k d s with
  | zero => obtain ⟨-, rfl⟩ := Prod.ext_iff.1 (Except.ok.inj h); exact ⟨Frame.refl _ _ _, rfl, rfl⟩
  | succ chunks ih =>
    obtain ⟨⟨a, u⟩, e₁, h⟩ := exec_bind_eq_ok.1 h
    obtain ⟨⟨b, w⟩, e₂, h⟩ := exec_bind_eq_ok.1 h
    obtain ⟨h1, h2, h3⟩ := ih h
    have f1 := rd_frame e₁
    have f2 := rd_frame e₂
    exact ⟨((ReadFrame.frame f1 (by simp)).trans (ReadFrame.frame f2 (by simp))).trans h1,
        h2.trans (f2.2.1.trans f1.2.1),
      h3.trans (f2.1.res1.trans f1.1.res1)⟩

/-- All that a byte write can do. -/
theorem memWrite_inv {k : Config} {m m' : Memory} {a : Nat} {b : Byte} (h : memWrite k m a b = .ok m') :
    memOK k a = true ∧ m' = m.write a b := by
  unfold memWrite at h
  split at h
  · exact ⟨by assumption, (Except.ok.inj h).symm⟩
  · simp at h

theorem getBit_inv {k : Config} {m : Memory} {base p : Nat} {b : Bool} (h : getBit k m base p = .ok b) :
    memOK k (base + p / 8) = true := by
  by_contra hn
  rw [getBit_stuck _ _ _ _ (by simpa using hn)] at h
  simp at h

/-- All that a bit write can do. -/
theorem putBit_inv {k : Config} {m m' : Memory} {base p : Nat} {b : Bool} (h : putBit k m base p b = .ok m') :
    Keeps k m m' ∧ ∀ j, memBit m' j = if j = 8 * base + p then b else memBit m j := by
  by_cases hn : memOK k (base + p / 8) = true
  · obtain ⟨m'', e, hk⟩ := putBit_ok k m base p b hn
    rw [e] at h; obtain rfl := Except.ok.inj h; exact hk
  · rw [putBit_stuck _ _ _ _ _ (by simpa using hn)] at h
    simp at h

/-- All that `copyBits` can do to memory. -/
theorem copyBits_inv {k : Config} {base src n i p : Nat} {m m' : Memory} (h : copyBits k base src n i p m = .ok m') :
    Keeps k m m' ∧ ∀ j, j < 8 * base + p ∨ 8 * base + p + n ≤ j → memBit m' j = memBit m j := by
  induction n generalizing i p m with
  | zero => obtain rfl := Except.ok.inj h; exact ⟨Keeps.refl _ _, fun _ _ => rfl⟩
  | succ n ih =>
    obtain ⟨b, -, h⟩ := exec_bind_eq_ok.1 h
    obtain ⟨m₁, e, h⟩ := exec_bind_eq_ok.1 h
    obtain ⟨hk, hp⟩ := putBit_inv e
    obtain ⟨hk', hp'⟩ := ih h
    exact ⟨hk.trans hk', fun j hj => by rw [hp' j (by omega), hp j, if_neg (by omega)]⟩

/-- All that `zeroBytes` can do to memory. -/
theorem zeroBytes_inv {k : Config} {n a : Nat} {m m' : Memory} (h : zeroBytes k n a m = .ok m') :
    Keeps k m m' ∧ ∀ x, x < a ∨ a + n ≤ x → m'.read x = m.read x := by
  induction n generalizing a m with
  | zero => obtain rfl := Except.ok.inj h; exact ⟨Keeps.refl _ _, fun _ _ => rfl⟩
  | succ n ih =>
    obtain ⟨m₁, e, h⟩ := exec_bind_eq_ok.1 h
    obtain ⟨hm, rfl⟩ := memWrite_inv e
    obtain ⟨hk', hp'⟩ := ih h
    exact ⟨(keeps_write _ _ _ _ hm).trans hk',
        fun x hx => by rw [hp' x (by omega), read_write_other _ _ _ _ (by omega)]⟩

/-- All that `copyOut` can do to memory. -/
theorem copyOut_inv {k : Config} {base left a p n : Nat} {m m' : Memory} (h : copyOut k base left a p n m = .ok m') :
    Keeps k m m' ∧ ∀ x, x < a ∨ a + left ≤ x → m'.read x = m.read x := by
  induction left generalizing a p n m with
  | zero => obtain rfl := Except.ok.inj h; exact ⟨Keeps.refl _ _, fun _ _ => rfl⟩
  | succ left ih =>
    obtain ⟨v, -, h⟩ := exec_bind_eq_ok.1 h
    obtain ⟨m₁, e, h⟩ := exec_bind_eq_ok.1 h
    obtain ⟨hm, rfl⟩ := memWrite_inv e
    obtain ⟨hk', hp'⟩ := ih h
    exact ⟨(keeps_write _ _ _ _ hm).trans hk',
        fun x hx => by rw [hp' x (by omega), read_write_other _ _ _ _ (by omega)]⟩

/-- The frame of `readBulk`. -/
theorem readBulk_frame {op : BitVec 8} {c : CtxId} {dst n : Nat} {s t : State} (h : readBulk op c dst n s = .ok t) :
    StreamFrame op c s t ∧ Keeps s.cfg s.mem t.mem ∧ ∀ x, x < dst ∨ dst + (n + 7) / 8 ≤ x →
        t.mem.read x = s.mem.read x := by
  obtain ⟨-, -, h⟩ := exec_bind_eq_ok.1 h
  dsimp only at h
  split at h
  · obtain ⟨m, e, h⟩ := exec_bind_eq_ok.1 h
    obtain rfl := Except.ok.inj h
    exact ⟨(overflow_frame _ _ _ _).trans (setMem_frame _ _ _ _), zeroBytes_inv e⟩
  · obtain ⟨m, e, h⟩ := exec_bind_eq_ok.1 h
    obtain rfl := Except.ok.inj h
    exact ⟨(setCursor_frame op c _ s fun _ => by omega).trans (setMem_frame _ _ _ _), copyOut_inv e⟩

/-- The frame of the loop of RSTRING. -/
theorem readString_frame {op : BitVec 8} {c : CtxId} {dst maxLen : Nat} {nl : Bool} {fuel i i' : Nat} {b b' :
    Bool} {s t : State}
    (hi : i + 1 ≤ maxLen) (h : readString op c dst maxLen nl fuel i b s = .ok (i', b', t)) :
    StreamFrame op c s t ∧ Keeps s.cfg s.mem t.mem ∧ (∀ x, x < dst ∨ dst + maxLen ≤ x → t.mem.read x = s.mem.read x) ∧
        i' + 1 ≤ maxLen := by
  induction fuel generalizing i b s with
  | zero =>
    simp only [readString, Except.ok.injEq, Prod.mk.injEq] at h
    obtain ⟨rfl, -, rfl⟩ := h
    exact ⟨StreamFrame.refl _ _ _, Keeps.refl _ _, fun _ _ => rfl, hi⟩
  | succ fuel ih =>
    obtain ⟨⟨v, u⟩, e, h⟩ := exec_bind_eq_ok.1 h
    obtain ⟨f1, f2, -⟩ := rd_frame e
    dsimp only at h
    split at h
    · simp only [Except.ok.injEq, Prod.mk.injEq] at h
      obtain ⟨rfl, -, rfl⟩ := h
      exact ⟨f1, f2 ▸ Keeps.refl _ _, fun _ _ => by rw [f2], hi⟩
    · split at h
      · obtain ⟨m, em, h⟩ := exec_bind_eq_ok.1 h
        obtain ⟨hm, rfl⟩ := memWrite_inv em
        obtain ⟨g1, g2, g3, g4⟩ := ih (by omega) h
        refine ⟨(f1.trans (setMem_frame _ _ _ _)).trans g1, ?_, fun x hx => ?_, g4⟩
        · have := keeps_write _ u.mem _ (BitVec.ofNat 8 v) hm
          rw [← f2, ← f1.cfg]
          exact this.trans g2
        · rw [g3 x hx, setMem_mem, read_write_other _ _ _ _ (by omega), f2]
      · obtain ⟨g1, g2, g3, g4⟩ := ih hi h
        refine ⟨f1.trans g1, by rw [← f2, ← f1.cfg]; exact g2, fun x hx => by rw [g3 x hx, f2], g4⟩

/-- The frame of the fast-path rule. -/
theorem varintTail_frame {op : BitVec 8} {c : CtxId} {p0 w : Nat} {s t : State} (h : varintTail c p0 w s = .ok t) :
    WriteFrame op c s t := by
  unfold varintTail at h
  dsimp only at h
  split at h
  · rename_i hc
    obtain ⟨m, e, h⟩ := exec_bind_eq_ok.1 h
    obtain rfl := Except.ok.inj h
    have hall := (putBits_inv _ _ _ _ _ _ _ e).1
    obtain ⟨m', e', hk, hp⟩ := putBits_ok s.cfg (s.ctx c).base (p0 + w - (s.ctx c).cursor) s.mem (s.ctx c).cursor
        (freeBits s.draws (p0 + w - (s.ctx c).cursor)) hall
    rw [e'] at e; obtain rfl := Except.ok.inj e
    exact ⟨mem_frame _ _ _ _ _, le_rfl, hk, fun j hj => by
      rw [show (((s.setMem m').setDraws (s.draws + (p0 + w - (s.ctx c).cursor))).mem) = m' from rfl, hp j,
          if_neg (by omega)]⟩
  · obtain rfl := Except.ok.inj h; exact WriteFrame.refl _ _ _

/-- The frame of `VarPut`. -/
theorem varPut_frame {op : BitVec 8} {c : CtxId} {v w : Nat} {s t : State} (h : varPut op c v w s = .ok t) :
    WriteFrame op c s t := by
  obtain ⟨u, e, h⟩ := exec_bind_eq_ok.1 h
  exact (wrAll_frame _ e).1.trans (varintTail_frame h)

theorem rangeCheck_frame (op : BitVec 8) (c : CtxId) (n v : Nat) (s : State) :
    WriteFrame op c s (rangeCheck op c n v s) := by
  unfold rangeCheck
  split
  · exact ⟨overflow_frame _ _ _ _, by simp, Keeps.refl _ _, fun _ _ => rfl⟩
  · exact WriteFrame.refl _ _ _

theorem setDraws_frame (op : BitVec 8) (c : CtxId) (k : Nat) (s : State) : WriteFrame op c s (s.setDraws k) :=
  ⟨mem_frame op c s s.mem k, le_rfl, Keeps.refl _ _, fun _ _ => rfl⟩

theorem WriteFrame.frame {op : BitVec 8} {c : CtxId} {cs : List CtxId} {s t : State} (h : WriteFrame op c s t) (hc :
    c ∈ cs) : Frame op cs s t :=
  h.toStreamFrame.frame hc h.keeps

theorem Frame.setRes0 {op : BitVec 8} {cs : List CtxId} {s t : State} (h : Frame op cs s t) (v : Word64) :
    Frame op cs s (t.setRes0 v) :=
  ⟨h.cfg, h.opa, h.opb, h.opc, h.opd, h.inbox, h.other, h.ctx, h.ovf, h.bound, h.diag, h.keeps⟩

theorem Frame.setRes1 {op : BitVec 8} {cs : List CtxId} {s t : State} (h : Frame op cs s t) (v : Word64) :
    Frame op cs s (t.setRes1 v) :=
  ⟨h.cfg, h.opa, h.opb, h.opc, h.opd, h.inbox, h.other, h.ctx, h.ovf, h.bound, h.diag, h.keeps⟩

end Sys2Proof.Machine
end

