-- ==== Sys2Proof/Laws/PerInstr.lean ====
section
/-! SUPPORT. The per-instruction family RoundTrip: decoding an encoded command gives it back, with every field. -/

namespace Sys2Proof.Laws.RoundTrip

/-- Decoding the command's word gives the command. -/
def Statement (i : Instr) : Prop := decode (encode i) = .ok i

theorem zzenc32 : Statement (.zzenc32) := decode_encode _
theorem zzdec32 : Statement (.zzdec32) := decode_encode _
theorem zzenc64 : Statement (.zzenc64) := decode_encode _
theorem zzdec64 : Statement (.zzdec64) := decode_encode _
theorem vsize32 : Statement (.vsize32) := decode_encode _
theorem vsize64 : Statement (.vsize64) := decode_encode _
theorem wbind (c : CtxId) : Statement (.wbind c) := decode_encode _
theorem wbit (c : CtxId) : Statement (.wbit c) := decode_encode _
theorem wuns (c : CtxId) (nb : Fin 64) : Statement (.wuns c nb) := decode_encode _
theorem wsigned (c : CtxId) (nb : Fin 64) : Statement (.wsigned c nb) := decode_encode _
theorem wvar32 (c : CtxId) : Statement (.wvar32 c) := decode_encode _
theorem wvar64 (c : CtxId) : Statement (.wvar64 c) := decode_encode _
theorem wsvar32 (c : CtxId) : Statement (.wsvar32 c) := decode_encode _
theorem wsvar64 (c : CtxId) : Statement (.wsvar64 c) := decode_encode _
theorem wubitvar (c : CtxId) : Statement (.wubitvar c) := decode_encode _
theorem wcoord (c : CtxId) : Statement (.wcoord c) := decode_encode _
theorem wcoordmp (c : CtxId) (integral : Bool) (lowPrec : Bool) : Statement (.wcoordmp c integral lowPrec) := decode_encode _
theorem wangle (c : CtxId) (nb : Fin 64) : Statement (.wangle c nb) := decode_encode _
theorem wfloat (c : CtxId) : Statement (.wfloat c) := decode_encode _
theorem wnormal (c : CtxId) : Statement (.wnormal c) := decode_encode _
theorem wvec3coord (c : CtxId) : Statement (.wvec3coord c) := decode_encode _
theorem wvec3normal (c : CtxId) : Statement (.wvec3normal c) := decode_encode _
theorem wbits (c : CtxId) : Statement (.wbits c) := decode_encode _
theorem wstring (c : CtxId) : Statement (.wstring c) := decode_encode _
theorem getbits (c : CtxId) : Statement (.getbits c) := decode_encode _
theorem getbytes (c : CtxId) : Statement (.getbytes c) := decode_encode _
theorem getbitsleft (c : CtxId) : Statement (.getbitsleft c) := decode_encode _
theorem getbytesleft (c : CtxId) : Statement (.getbytesleft c) := decode_encode _
theorem getcap (c : CtxId) : Statement (.getcap c) := decode_encode _
theorem getovf (c : CtxId) : Statement (.getovf c) := decode_encode _
theorem rbind (c : CtxId) : Statement (.rbind c) := decode_encode _
theorem rbit (c : CtxId) : Statement (.rbit c) := decode_encode _
theorem runs (c : CtxId) (nb : Fin 64) : Statement (.runs c nb) := decode_encode _
theorem rsigned (c : CtxId) (nb : Fin 64) : Statement (.rsigned c nb) := decode_encode _
theorem peekuns (c : CtxId) (nb : Fin 64) : Statement (.peekuns c nb) := decode_encode _
theorem rvar32 (c : CtxId) : Statement (.rvar32 c) := decode_encode _
theorem rvar64 (c : CtxId) : Statement (.rvar64 c) := decode_encode _
theorem rsvar32 (c : CtxId) : Statement (.rsvar32 c) := decode_encode _
theorem rsvar64 (c : CtxId) : Statement (.rsvar64 c) := decode_encode _
theorem rubitvar (c : CtxId) : Statement (.rubitvar c) := decode_encode _
theorem rcoord (c : CtxId) : Statement (.rcoord c) := decode_encode _
theorem rcoordmp (c : CtxId) (integral : Bool) (lowPrec : Bool) : Statement (.rcoordmp c integral lowPrec) := decode_encode _
theorem rangle (c : CtxId) (nb : Fin 64) : Statement (.rangle c nb) := decode_encode _
theorem rfloat (c : CtxId) : Statement (.rfloat c) := decode_encode _
theorem rnormal (c : CtxId) : Statement (.rnormal c) := decode_encode _
theorem rvec3coord (c : CtxId) : Statement (.rvec3coord c) := decode_encode _
theorem rvec3normal (c : CtxId) : Statement (.rvec3normal c) := decode_encode _
theorem rstring (c : CtxId) (nl : Bool) : Statement (.rstring c nl) := decode_encode _
theorem rbytes (c : CtxId) : Statement (.rbytes c) := decode_encode _
theorem rbits (c : CtxId) : Statement (.rbits c) := decode_encode _
theorem seek (c : CtxId) : Statement (.seek c) := decode_encode _
theorem seekrel (c : CtxId) : Statement (.seekrel c) := decode_encode _
theorem cmpbits (c : CtxId) (c2 : CtxId) : Statement (.cmpbits c c2) := decode_encode _

end Sys2Proof.Laws.RoundTrip
end

