-- ==== Sys2Proof/Laws/Quant.lean ====
section
/-! SUPPORT. What the quantizing writers send and the quantizing readers rebuild, one lemma per shared operation. -/

namespace Sys2Proof.Machine

theorem flagField_eq (b : Bool) : flagField b = { width := 1, value := if b = true then 1 else 0
    } := by cases b <;> rfl

/-- The fields of `CoordPut` (42_writer_quant.md R181). -/
theorem coordFields_spec (cfg : Config) (b : Word32) (k : Nat) :
    CoordFieldsOf cfg b k (coordFields cfg (F32.ofBits b) k).1 (coordFields cfg (F32.ofBits b) k).2 := by
  obtain ⟨r1, r2⟩ := resolution_spec cfg.fb
  obtain ⟨a1, a2⟩ := truncNat_spec b 1 k
  obtain ⟨b1, b2⟩ := truncNat_spec b (2 ^ cfg.fb) (truncNat ((F32.ofBits b).absMul (Frac.ofNat 1)) k).2
  unfold coordFields
  dsimp only
  generalize truncNat ((F32.ofBits b).absMul (Frac.ofNat 1)) k = ip at *
  generalize truncNat ((F32.ofBits b).absMul (Frac.ofNat (2 ^ cfg.fb))) ip.2 = fr at *
  refine ⟨ip.1, fr.1 % 2 ^ cfg.fb, ?_, Nat.mod_lt _ (Nat.two_pow_pos _), fun h => ?_, fun h => ?_⟩
  · rw [signBit_spec _ _ r2, r1]
    unfold coordLayout
    simp only [flagField_eq, decide_eq_true_eq, Bool.or_eq_true]
  · rw [b1 h, a1 h]; simp
  · rw [b2 h, a2 h]

/-- The fields of WriteBitCoordMP (42_writer_quant.md R182). -/
theorem coordMpFields_spec (cfg : Config) (i l : Bool) (b : Word32) (k : Nat) :
    CoordMpFieldsOf cfg i l b k (coordMpFields cfg i l (F32.ofBits b) k).1
        (coordMpFields cfg i l (F32.ofBits b) k).2 := by
  obtain ⟨r1, r2⟩ := resolution_spec (cfg.mpFrac l)
  obtain ⟨a1, a2⟩ := truncNat_spec b 1 k
  obtain ⟨b1, b2⟩ := truncNat_spec b (2 ^ cfg.mpFrac l) (truncNat ((F32.ofBits b).absMul (Frac.ofNat 1)) k).2
  unfold coordMpFields
  dsimp only
  generalize truncNat ((F32.ofBits b).absMul (Frac.ofNat 1)) k = ip at *
  generalize truncNat ((F32.ofBits b).absMul (Frac.ofNat (2 ^ cfg.mpFrac l))) ip.2 = fr at *
  refine ⟨ip.1, fr.1 % 2 ^ cfg.mpFrac l, ?_, Nat.mod_lt _ (Nat.two_pow_pos _), fun h => ?_, fun h => ?_⟩
  · rw [signBit_spec _ _ r2, r1]
    unfold coordMpLayout
    simp only [flagField_eq, decide_eq_true_eq]
  · rw [b1 h, a1 h]; simp
  · rw [b2 h, a2 h]

/-- The field of WriteBitAngle (42_writer_quant.md R183). -/
theorem angleValue_spec (b : Word32) (n k : Nat) : AngleFieldOf b n k (angleValue (F32.ofBits b) n k).1
    (angleValue (F32.ofBits b) n k).2 := by
  have hpos : (0 : ℤ) < 2 ^ n := by positivity
  have hlt : ∀ t : ℤ, (t % 2 ^ n).toNat < 2 ^ n := fun t => by
    have h1 := Int.emod_lt_of_pos t hpos
    have h2 := Int.emod_nonneg t hpos.ne'
    have : ((t % 2 ^ n).toNat : ℤ) < ((2 ^ n : Nat) : ℤ) := by push_cast; rw [Int.toNat_of_nonneg h2]; exact h1
    exact_mod_cast this
  unfold angleValue
  dsimp only
  refine ⟨hlt _, fun h => ?_, fun h => ?_⟩
  · rcases ofBits_spec b with ⟨h1, h2⟩ | ⟨h1, h2, h3⟩ | ⟨h1, h2, m, h3, h4, h5⟩
    · exact absurd h1.1 h
    · exact absurd h h1
    · rw [h3]
      dsimp only
      have hd : 0 < (m.divNat 360).den := by simp only [Frac.divNat]; omega
      obtain ⟨hr, hrd⟩ := rne64_spec _ hd
      rw [Frac.toRat_divNat, h4] at hr
      refine ⟨rfl, _, by exact_mod_cast hr, ?_⟩
      have hs := Frac.toRat_scale (rne64 (m.divNat 360)) n hrd
      rw [Int.toNat_of_nonneg (Int.emod_nonneg _ hpos.ne'), Frac.floor_eq, hs.1, zpow_natCast]
      have h0 := (rne64 (m.divNat 360)).toRat_nonneg
      rw [← Int.floor_toNat, Int.toNat_of_nonneg (Int.floor_nonneg.2 (by positivity))]
  · rcases ofBits_spec b with ⟨h1, h2⟩ | ⟨h1, h2, h3⟩ | ⟨h1, h2, m, h3, h4, h5⟩
    · rw [h2]
    · rw [h3]
    · exact absurd h1 h

/-- The fields of `NormalPut` (42_writer_quant.md R185). -/
theorem normalFields_spec (cfg : Config) (hv : cfg.valid = true) (b : Word32) (k : Nat) :
    NormalFieldsOf cfg b k (normalFields cfg (F32.ofBits b) k).1 (normalFields cfg (F32.ofBits b) k).2 := by
  have hnd : 0 < cfg.nd := by simp [Config.valid] at hv; omega
  have hr : (normalResolution cfg).toRat = 1 / cfg.nd := by simp [normalResolution, Frac.toRat]
  unfold normalFields
  dsimp only
  refine ⟨(truncNat (normalProduct cfg (F32.ofBits b)) k).1, ?_, fun h => ?_, fun h => ?_⟩
  · rw [signBit_spec _ _ (by exact hnd), hr, flagField_eq]
    simp only [decide_eq_true_eq]
  · rcases ofBits_spec b with ⟨h1, h2⟩ | ⟨h1, h2, h3⟩ | ⟨h1, h2, m, h3, h4, h5⟩
    · exact absurd h1.1 h
    · exact absurd h h1
    · have hp : normalProduct cfg (F32.ofBits b) = rne32 (m.mul (Frac.ofNat cfg.nd)) := by rw [h3]; rfl
      rw [hp]
      have hd : 0 < (m.mul (Frac.ofNat cfg.nd)).den := by simp [Frac.mul, Frac.ofNat, h5]
      have hv : (m.mul (Frac.ofNat cfg.nd)).toRat = mag32 b * cfg.nd := by rw [Frac.toRat_mul, Frac.toRat_ofNat, h4]
      generalize m.mul (Frac.ofNat cfg.nd) = x at *
      rw [← hv]
      by_cases hov : x.toRat < 2 ^ 128 - 2 ^ 103
      · obtain ⟨p1, p2, p3⟩ := rne32_spec false x hd hov
        rw [withSign_false] at p1 p2 p3
        rw [Rat.cast_id] at p3
        refine ⟨_, p3, fun hy => ?_, fun hy => ?_⟩
        · unfold rne32
          rcases ofBits_spec (BitVec.ofNat 32 (rne32Bits x)) with ⟨g1, g2⟩ | ⟨g1, g2, g3⟩ | ⟨g1, g2, m', g3, g4, g5⟩
          · exact absurd g1.1 p2
          · exact absurd p2 g1
          · rw [g3]; simp only [truncNat, Frac.floor_eq, g4, and_self]
        · exfalso
          have := mag32_lt p2
          exact absurd this (not_lt.2 hy)
      · rw [not_lt] at hov
        have hinf : rne32 x = .inf false := by unfold rne32; rw [(rne32_overflow x hd hov).1]; exact ofBits_inf
        obtain ⟨q1, q2, q3, q4, q5, q6⟩ := roundBinary_spec 24 (-149) x (by norm_num) hd
        refine ⟨_, q2, fun hy => ?_, fun _ => by rw [hinf]; rfl⟩
        exact absurd hy (not_lt.2 (rne32_overflow x hd hov).2)
  · rcases ofBits_spec b with ⟨h1, h2⟩ | ⟨h1, h2, h3⟩ | ⟨h1, h2, m, h3, h4, h5⟩
    · rw [h2]; rfl
    · rw [h3]; rfl
    · exact absurd h1 h

/-- The fields of an axis (42_writer_quant.md R186). -/
theorem axisFields_spec {p : Bool} {P : Prop} [Decidable P] (hp : p = decide P) (f : Nat →
    List StreamField × Nat) (g : Nat → List StreamField → Nat → Prop) (k)
   (h : ∀ k, g k (f k).1 (f k).2) : AxisFieldsOf P g k (axisFields p f k).1 (axisFields p f k).2 := by
  unfold axisFields AxisFieldsOf
  subst hp
  by_cases hP : P <;> simp [hP, h]

theorem highWord_eq (v : Word64) : highWord v = v.extractLsb' 32 32 := by
  unfold highWord
  refine BitVec.eq_of_toNat_eq ?_
  simp [BitVec.extractLsb'_toNat]

theorem lowWord_eq (v : Word64) : lowWord v = v.extractLsb' 0 32 := by
  unfold lowWord
  refine BitVec.eq_of_toNat_eq ?_
  simp [BitVec.extractLsb'_toNat]

theorem Config.valid_bounds {k : Config} (h : k.valid = true) : 1 ≤ k.ib ∧ k.ib ≤ 31 ∧ 1 ≤ k.fb ∧ k.fb ≤ 31 ∧ 1 ≤ k.ibmp ∧
    k.ibmp ≤ k.ib ∧ 1 ≤ k.lpfb ∧ k.lpfb < k.fb ∧ 1 ≤ k.nfb ∧ k.nfb ≤ 31 ∧ 1 ≤ k.nd := by
  simp [Config.valid] at h; omega

theorem mpFrac_le {k : Config} (h : k.valid = true) (l) : 1 ≤ k.mpFrac l ∧ k.mpFrac l ≤ 31 := by
  have := Config.valid_bounds h
  unfold Config.mpFrac; split <;> omega

/-- The pattern of a coordinate (44_reader_quant.md R261, R262). -/
theorem coordBits_spec (neg : Bool) (ip fr w : Nat) (h1 : ip ≤ 2 ^ 31) (h2 : fr < 2 ^ w) :
    IsPattern32 (K := ℚ) (coordBits neg ip fr w) neg ((ip : ℚ) + fr / 2 ^ w) := by
  unfold coordBits
  have hd : 0 < ((Frac.ofNat ip).add ⟨fr, 2 ^ w⟩).den := by simp [Frac.add, Frac.ofNat]
  have hv : ((Frac.ofNat ip).add ⟨fr, 2 ^ w⟩).toRat = (ip : ℚ) + fr / 2 ^ w := by
    rw [Frac.toRat_add _ _ (by simp [Frac.ofNat]) (by positivity), Frac.toRat_ofNat]
    simp [Frac.toRat]
  have := rne32_spec neg _ hd (by
    rw [hv]
    have a : (ip : ℚ) ≤ 2147483648 := by exact_mod_cast h1
    have b : (fr : ℚ) / 2 ^ w < 1 := by rw [div_lt_one (by positivity)]; exact_mod_cast h2
    norm_num; linarith)
  rwa [hv] at this

/-- Where the buffer exists, `CoordGet` completes with what R261 says (44_reader_quant.md R261). -/
theorem coordGet_spec {s : State} {c : CtxId} (op : BitVec 8) (hv : s.cfg.valid = true) (hb : Buffered s c) :
    ∃ b t, coordGet op c s = .ok (b, t) ∧ CoordReads op c s b t ∧ StreamFrame op c s t := by
  obtain ⟨hi, u₁, e₁, o₁, l₁, f₁⟩ := rd_completes op c 1 s hb
  obtain ⟨hf, u₂, e₂, o₂, l₂, f₂⟩ := rd_completes op c 1 u₁ (f₁.buffered hb)
  have f12 := f₁.trans f₂
  by_cases h0 : hi = 0 ∧ hf = 0
  · refine ⟨0, u₂, ?_, ⟨hi, u₁, hf, u₂, o₁, o₂, fun _ => ⟨rfl, rfl⟩, fun h => absurd h0 h⟩, f12⟩
    rw [coordGet, e₁, exec_ok_bind]; dsimp only
    rw [e₂, exec_ok_bind]; dsimp only
    rw [if_pos h0]
  · obtain ⟨sg, u₃, e₃, o₃, l₃, f₃⟩ := rd_completes op c 1 u₂ (f12.buffered hb)
    have f13 := f12.trans f₃
    obtain ⟨ip, u₄, e₄, o₄, l₄, f₄⟩ := rdIf_completes (hi == 1) op c s.cfg.ib u₃ (f13.buffered hb)
    have f14 := f13.trans f₄
    obtain ⟨fr, u₅, e₅, o₅, l₅, f₅⟩ := rdIf_completes (hf == 1) op c s.cfg.fb u₄ (f14.buffered hb)
    have cv := Config.valid_bounds hv
    refine ⟨coordBits (sg == 1) (if hi = 1 then ip + 1 else 0) fr s.cfg.fb, u₅, ?_,
        ⟨hi, u₁, hf, u₂, o₁, o₂, fun h => absurd h h0, fun _ => ⟨sg, u₃, ip, u₄, fr,
        o₃, by simpa using o₄, by simpa using o₅, ?_⟩⟩, f14.trans f₅⟩
    · rw [coordGet, e₁, exec_ok_bind]; dsimp only
      rw [e₂, exec_ok_bind]; dsimp only
      rw [if_neg h0, e₃, exec_ok_bind]; dsimp only
      rw [f13.cfg, e₄, exec_ok_bind]; dsimp only
      rw [f14.cfg, e₅, exec_ok_bind]; dsimp only
      rw [(f14.trans f₅).cfg]
    · have := coordBits_spec (sg == 1) (if hi = 1 then ip + 1 else 0) fr s.cfg.fb (by
        have : 2 ^ s.cfg.ib ≤ 2 ^ 31 := Nat.pow_le_pow_right (by norm_num) cv.2.1
        split <;> omega) l₅
      push_cast at this
      convert this using 1

/-- The pattern of a normal component, which is small (44_reader_quant.md R265). -/
theorem normalBits_spec (neg : Bool) (m : Nat) (cfg : Config) (hv : cfg.valid = true) (hm : m < 2 ^ 31) :
    ∃ r d : ℚ, IsRNE 53 (-1074) (1 / (cfg.nd : ℚ)) r ∧ IsRNE 53 (-1074) (m * r) d ∧
        IsPattern32 (K := ℚ) (normalBits neg m cfg.nd) neg d ∧ mag32 (normalBits neg m cfg.nd) ≤ 2 ^ 31 := by
  have cv := Config.valid_bounds hv
  have hd1 : 0 < (⟨1, cfg.nd⟩ : Frac).den := by dsimp only; omega
  obtain ⟨a1, a2⟩ := rne64_spec ⟨1, cfg.nd⟩ hd1
  have hd2 : 0 < ((Frac.ofNat m).mul (rne64 ⟨1, cfg.nd⟩)).den := by simp only [Frac.mul, Frac.ofNat]; omega
  obtain ⟨b1, b2⟩ := rne64_spec _ hd2
  rw [Frac.toRat_mul, Frac.toRat_ofNat] at b1
  have e1 : (⟨1, cfg.nd⟩ : Frac).toRat = 1 / (cfg.nd : ℚ) := by simp [Frac.toRat]
  rw [e1] at a1
  refine ⟨_, _, a1, b1, ?_⟩
  unfold normalBits
  have h1 := IsRNE.le (B := 1) a1 (by rw [div_le_one (by exact_mod_cast (by omega : 0 < cfg.nd))]; exact_mod_cast
      (by omega : 1 ≤ cfg.nd)) ⟨1, 0, by norm_num, by norm_num, by norm_num⟩
  have hr0 := (rne64 ⟨1, cfg.nd⟩).toRat_nonneg
  have h12 : (m : ℚ) * (rne64 ⟨1, cfg.nd⟩).toRat ≤ 2 ^ 31 * 1 :=
    mul_le_mul (by exact_mod_cast hm.le) h1 hr0 (by positivity)
  have h2 := IsRNE.le (B := 2 ^ 31) b1 (by simpa using h12) ⟨1, 31, by norm_num, by norm_num, by norm_num⟩
  have h3 := rne32_spec neg _ b2 (lt_of_le_of_lt h2 (by norm_num))
  exact ⟨h3, IsPattern32.mag_le h3 h2 ⟨1, 31, by norm_num, by norm_num, by norm_num⟩⟩

/-- Where the buffer exists, `NormalGet` completes with what R265 says (44_reader_quant.md R265). -/
theorem normalGet_spec {s : State} {c : CtxId} (op : BitVec 8) (hv : s.cfg.valid = true) (hb : Buffered s c) :
    ∃ b t, normalGet op c s = .ok (b, t) ∧ NormalReads op c s b t ∧ StreamFrame op c s t ∧ Finite32 b ∧
        mag32 b ≤ 2 ^ 31 := by
  obtain ⟨sg, u₁, e₁, o₁, l₁, f₁⟩ := rd_completes op c 1 s hb
  obtain ⟨m, u₂, e₂, o₂, l₂, f₂⟩ := rd_completes op c s.cfg.nfb u₁ (f₁.buffered hb)
  have cv := Config.valid_bounds hv
  obtain ⟨r, d, z1, z2, z3, z4⟩ := normalBits_spec (sg == 1) m s.cfg hv
      (l₂.trans_le (Nat.pow_le_pow_right (by norm_num) (by omega)))
  refine ⟨normalBits (sg == 1) m s.cfg.nd, u₂, ?_, ⟨sg, u₁, m, o₁, o₂, r, d, z1, z2, z3⟩, f₁.trans f₂, z3.2.1, z4⟩
  rw [normalGet, e₁]; simp only [exec_ok_bind]
  rw [f₁.cfg, e₂]; simp only [exec_ok_bind]
  rw [(f₁.trans f₂).cfg]

/-- The pattern of an angle (44_reader_quant.md R263). -/
theorem angleBits_spec (i n : Nat) (h : i < 2 ^ n) : IsPattern32 (K := ℚ) (angleBits i n) false (i * 360 / 2 ^ n) :=
    by
  have hv : (⟨i * 360, 2 ^ n⟩ : Frac).toRat = i * 360 / 2 ^ n := by simp [Frac.toRat]
  have := rne32_spec false ⟨i * 360, 2 ^ n⟩ (by positivity) (by
    rw [hv]
    have h1 : (i : ℚ) / 2 ^ n < 1 := by rw [div_lt_one (by positivity)]; exact_mod_cast h
    calc (i : ℚ) * 360 / 2 ^ n = i / 2 ^ n * 360 := by ring
      _ ≤ 1 * 360 := mul_le_mul_of_nonneg_right h1.le (by norm_num)
      _ < 2 ^ 128 - 2 ^ 103 := by norm_num)
  rw [hv, withSign_false] at this
  exact this

/-- Where the buffer exists, an axis is read or is +0.0 (44_reader_quant.md R267). -/
theorem axisGet_spec {op : BitVec 8} {c : CtxId} (p : Nat) (get : State → Exec (Word32 × State)) (reads : State →
    Word32 → State → Prop) (s : State)
    (h : ∃ b t, get s = .ok (b, t) ∧ reads s b t ∧ StreamFrame op c s t) :
    ∃ b t, axisGet p get s = .ok (b, t) ∧ AxisReads p reads s b t ∧ StreamFrame op c s t := by
  obtain ⟨b, t, e, hr, f⟩ := h
  unfold axisGet
  by_cases hp : p = 1
  · exact ⟨b, t, by rw [if_pos hp, e], ⟨fun _ => hr, fun h => absurd hp h⟩, f⟩
  · exact ⟨0, s, by rw [if_neg hp], ⟨fun h => absurd h hp, fun _ => ⟨rfl, rfl⟩⟩, StreamFrame.refl _ _ _⟩

/-- An axis of RVEC3NORMAL (44_reader_quant.md R268). -/
theorem axisGet_normal {s : State} {c : CtxId} (op : BitVec 8) (p : Nat) (hv : s.cfg.valid = true) (hb : Buffered s c) :
    ∃ b t, axisGet p (normalGet op c) s = .ok (b, t) ∧ AxisReads p (NormalReads op c) s b t ∧ StreamFrame op c s t ∧
        Finite32 b ∧ mag32 b ≤ 2 ^ 31 := by
  obtain ⟨b, t, e, hr, f, hf⟩ := normalGet_spec op hv hb
  unfold axisGet
  by_cases hp : p = 1
  · exact ⟨b, t, by rw [if_pos hp, e], ⟨fun _ => hr, fun h => absurd hp h⟩, f, hf⟩
  · refine ⟨0, s, by rw [if_neg hp], ⟨fun h => absurd h hp, fun _ => ⟨rfl, rfl⟩⟩, StreamFrame.refl _ _ _, by decide, ?_⟩
    have h1 : exp32 0 = 0 := by decide
    have h2 : frac32 0 = 0 := by decide
    unfold mag32; rw [h1, h2]; norm_num

theorem append_words (y x : Word32) : (y ++ x : BitVec 64) = BitVec.ofNat 64 (y.toNat * 2 ^ 32 + x.toNat) := by
  refine BitVec.eq_of_toNat_eq ?_
  rw [BitVec.toNat_append, ← Nat.shiftLeft_add_eq_or_of_lt x.isLt, Nat.shiftLeft_eq, BitVec.toNat_ofNat]
  have := x.isLt
  have := y.isLt
  omega

/-- The square of a component (44_reader_quant.md R268). -/
theorem normalSquare_spec {x : Word32} (hx : Finite32 x) (bx : mag32 x ≤ 2 ^ 31) : ∃ b : Word32, IsPattern32 (K :=
    ℚ) b false (mag32 x * mag32 x) ∧ (normalSquare x).toRat = mag32 b ∧ 0 < (normalSquare x).den ∧ mag32 b ≤ 2 ^ 62 :=
    by
  obtain ⟨x1, x2⟩ := mag_of_finite32 hx
  have hxm : ((F32.ofBits x).mag.mul (F32.ofBits x).mag).toRat = mag32 x * mag32 x := by rw [Frac.toRat_mul, x1]
  have nx : 0 ≤ mag32 x := by rw [← x1]; exact Frac.toRat_nonneg _
  have lx : mag32 x * mag32 x ≤ 2 ^ 62 := by
    calc mag32 x * mag32 x ≤ 2 ^ 31 * 2 ^ 31 := mul_le_mul bx bx nx (by positivity)
      _ = 2 ^ 62 := by norm_num
  obtain ⟨bxx, -, exx, pxx, vxx, dxx⟩ := rne32_val (x := (F32.ofBits x).mag.mul (F32.ofBits x).mag)
      (Nat.mul_pos x2 x2) (by rw [hxm]; exact lx.trans_lt (by norm_num))
  rw [hxm] at pxx
  exact ⟨bxx, pxx, vxx, dxx, IsPattern32.mag_le pxx lx ⟨1, 62, by norm_num, by norm_num, by norm_num⟩⟩

/-- z from t (44_reader_quant.md R268). -/
theorem normalZFrom_spec {b : Word32} (h : Finite32 b) (neg : Bool) :
    (mag32 b < 1 → ∃ r : Word32, IsPattern32 (K := ℚ) r false (1 - mag32 b) ∧
        IsPattern32 (K := ℝ) (withSign neg (normalZFrom (F32.ofBits b))) neg √(mag32 r : ℝ)) ∧
    (1 ≤ mag32 b → normalZFrom (F32.ofBits b) = 0) := by
  rcases ofBits_spec b with ⟨h1, h2⟩ | ⟨h1, h2, h3⟩ | ⟨h1, h2, m, h3, h4, h5⟩
  · exact absurd h1.1 h
  · exact absurd h h1
  · rw [h3]
    unfold normalZFrom
    dsimp only
    have h1d : 0 < (Frac.ofNat 1).den := Nat.one_pos
    have hlt : m.lt (Frac.ofNat 1) = true ↔ mag32 b <
        1 := by rw [Frac.lt_iff _ _ h5 h1d, h4, Frac.toRat_ofNat, Nat.cast_one]
    refine ⟨fun hb => ?_, fun hb => if_neg fun hh => absurd (hlt.1 hh) (not_lt.2 hb)⟩
    rw [if_pos (hlt.2 hb)]
    have nt : 0 ≤ mag32 b := by rw [← h4]; exact Frac.toRat_nonneg _
    have hsub := Frac.toRat_sub (Frac.ofNat 1) m h1d h5 (by rw [h4, Frac.toRat_ofNat, Nat.cast_one]; exact hb.le)
    rw [h4, Frac.toRat_ofNat, Nat.cast_one] at hsub
    obtain ⟨br, -, er, pr, vr, dr⟩ := rne32_val (x := (Frac.ofNat 1).sub m) (Nat.mul_pos h1d h5)
        (by rw [hsub]; norm_num; linarith)
    rw [hsub] at pr
    refine ⟨br, pr, ?_⟩
    have := sqrt32_spec neg _ dr (by rw [vr]; exact mag32_lt pr.2.1)
    rwa [vr] at this

/-- The z that RVEC3NORMAL rebuilds (44_reader_quant.md R268). -/
theorem normalZ_spec {x y : Word32} (hx : Finite32 x) (hy : Finite32 y) (bx : mag32 x ≤ 2 ^ 31) (by' :
    mag32 y ≤ 2 ^ 31) (neg : Bool) : NormalZ x y neg (withSign neg (normalZBits x y)) := by
  obtain ⟨bxx, pxx, vxx, dxx, mx⟩ := normalSquare_spec hx bx
  obtain ⟨byy, pyy, vyy, dyy, my⟩ := normalSquare_spec hy by'
  have hsum := Frac.toRat_add _ _ dxx dyy
  rw [vxx, vyy] at hsum
  obtain ⟨bt, -, et, pt, -, -⟩ := rne32_val (x := (normalSquare x).add (normalSquare y)) (Nat.mul_pos dxx dyy) (by
    rw [hsum]
    calc mag32 bxx + mag32 byy ≤ (2 : ℚ) ^ 62 + 2 ^ 62 := by linarith
      _ < (2 : ℚ) ^ 128 - 2 ^ 103 := by norm_num)
  rw [hsum] at pt
  obtain ⟨z1, z2⟩ := normalZFrom_spec pt.2.1 neg
  unfold normalZBits
  rw [et]
  refine ⟨bxx, byy, bt, pxx, pyy, pt, z1, fun h => ?_⟩
  rw [z2 h]
  obtain ⟨h1, h2, h3⟩ := withSign_parts neg 0 (by norm_num)
  exact ⟨h3, by rw [Finite32, h1]; norm_num, by unfold mag32; rw [h1, h2]; norm_num⟩

end Sys2Proof.Machine
end

