-- ==== Sys2Proof/Laws/Varint.lean ====
section
/-! SUPPORT. What the varint, UBitVar and signed fields are, and that the operations on them complete where the buffer
exists. -/

namespace Sys2Proof.Machine

/-- A reader over the writer's buffer has its bytes. -/
theorem Rereads.buffered {s t u : State} {c d : CtxId} (h : Rereads s c t u d) (hb : Buffered s c) : Buffered u d :=
    by
  obtain ⟨hc, -, -, -, hba, hcap, -⟩ := h
  intro p hp
  rw [hc, hba]
  exact hb p (by rwa [hcap] at hp)

/-- A field that was written is read back. -/
theorem Rereads.rd {s t u : State} {c d : CtxId} {n v : Nat} (op) (h : Rereads s c t u d) (hb : Buffered s c) (hf :
    Fits s c n)
    (hw : Wrote s c n v t) : rd op d n u = .ok (v % 2 ^ n, u.setCursor d ((u.ctx d).cursor + n)) := by
  have hfu : Fits u d n := by
    obtain ⟨-, -, -, -, -, hcap, hcur⟩ := h
    simp only [Fits] at hf ⊢; omega
  rw [rd_fits op d n u hfu ((Rereads.buffered h hb).bytes hfu)]
  have := h.streamBits hw 0 n (by omega)
  rw [Nat.add_zero, pow_zero, Nat.div_one] at this
  rw [this]

/-- Sign extension of a field of n bits (43_reader.md R213). -/
theorem sextField_eq (n u : Nat) (h : u < 2 ^ n) : sextField n u = BitVec.ofInt 64 (if n ≠ 0 ∧
    2 ^ (n - 1) ≤ u then (u : Int) - 2 ^ n else u) := by
  unfold sextField
  by_cases hn : n = 0
  · subst hn
    have : u = 0 := by omega
    subst this; rfl
  · rw [if_neg hn]
    have hb : u.testBit (n - 1) = decide (2 ^ (n - 1) ≤ u) := by
      obtain ⟨m, rfl⟩ : ∃ m, n = m + 1 := ⟨n - 1, by omega⟩
      rw [Nat.add_sub_cancel]
      by_cases hu : 2 ^ m ≤ u
      · rw [decide_eq_true hu, Nat.testBit_eq_decide_div_mod_eq, decide_eq_true_eq]
        have : u / 2 ^ m = 1 := by
          rw [Nat.div_eq_of_lt_le] <;> omega
        omega
      · rw [decide_eq_false hu, Nat.testBit_lt_two_pow (by omega)]
    rw [hb]
    by_cases hu : 2 ^ (n - 1) ≤ u
    · rw [decide_eq_true hu, if_pos rfl, if_pos ⟨hn, hu⟩]
    · rw [decide_eq_false hu, if_neg (by simp), if_neg (by tauto)]; exact (BitVec.ofInt_natCast _ _).symm

theorem varintSize_div {v k : Nat} (hk : 1 ≤ k) (h : IsVarintSize v (k + 1)) : 2 ^ 7 ≤ v ∧
    IsVarintSize (v / 2 ^ 7) k := by
  obtain ⟨-, h2, h3⟩ := h
  have hv : 2 ^ 7 ≤ v := by
    by_contra hn
    have := h3 1 le_rfl (by omega)
    omega
  refine ⟨hv, hk, ?_, fun j hj hvj => ?_⟩
  · rw [Nat.div_lt_iff_lt_mul (by norm_num), ← pow_add]
    rwa [show 7 * k + 7 = 7 * (k + 1) by ring]
  · rw [Nat.div_lt_iff_lt_mul (by norm_num), ← pow_add, show 7 * j + 7 = 7 * (j + 1) by ring] at hvj
    have := h3 (j + 1) (by omega) hvj
    omega

theorem varBytesFrom_eq (k fuel v : Nat) (h : IsVarintSize v k) (hf : k ≤ fuel) :
    varBytesFrom fuel v = (List.range k).map (varintByte v k) := by
  induction k generalizing fuel v with
  | zero => exact absurd h.1 (by omega)
  | succ k ih =>
    obtain ⟨fuel, rfl⟩ : ∃ f, fuel = f + 1 := ⟨fuel - 1, by omega⟩
    unfold varBytesFrom
    rcases Nat.eq_zero_or_pos k with hk | hk
    · subst hk
      have hv : v < 2 ^ 7 := by simpa using h.2.1
      rw [if_pos (show v < 0x80 from hv)]
      simp [varintByte, List.range_succ]; omega
    · obtain ⟨hv, hs⟩ := varintSize_div hk h
      rw [if_neg (by omega), show v / 0x80 = v / 2 ^ 7 from rfl, ih fuel _ hs (by omega), List.range_succ_eq_map,
          List.map_cons, List.map_map]
      have h0 : varintByte v (k + 1) 0 = v % 0x80 + 0x80 := by
        simp [varintByte, hk]
      rw [h0]
      congr 1
      refine List.map_congr_left fun i _ => ?_
      have e : v / 2 ^ (7 * (i + 1)) = v / 2 ^ 7 / 2 ^ (7 * i) := by
        rw [Nat.div_div_eq_div_mul, ← pow_add]; congr 2; ring
      simp only [Function.comp, varintByte, Nat.succ_eq_add_one, e, Nat.add_lt_add_iff_right]

/-- The bytes that `VarPut` sends (41_writer.md R144). -/
theorem varBytes_fields {v size : Nat} (h : IsVarintSize v size) (hs : size ≤ 10) :
    ((varBytes v).map fun b => ({ width := 8, value := b } : StreamField)) = varintFields v size := by
  rw [varBytes, varBytesFrom_eq size 10 v h hs, varintFields, List.map_map]
  rfl

theorem varintByte_lt (v size i : Nat) : varintByte v size i < 2 ^ 8 := by
  unfold varintByte; have := Nat.mod_lt (v / 2 ^ (7 * i)) (show 0 < 2 ^ 7 by norm_num); split <;> omega

theorem varintFields_width (v size : Nat) : ∀ f ∈ varintFields v size, f.width = 8 := by
  intro f hf
  obtain ⟨i, -, rfl⟩ := List.mem_map.1 hf
  rfl

theorem fieldsWidth_eight (l : List StreamField) (h : ∀ f ∈ l, f.width = 8) : fieldsWidth l = 8 * l.length := by
  induction l with
  | nil => rfl
  | cons f l ih =>
    have := ih (fun g hg => h g (by simp [hg]))
    simp only [fieldsWidth, List.map_cons, List.sum_cons, List.length_cons, h f (by simp)] at this ⊢; omega

/-- Byte i of a sequence of byte fields. -/
theorem fieldsValue_byte (l : List StreamField) (h : ∀ f ∈ l, f.width = 8) (i : Nat) (hi : i < l.length) :
    fieldsValue l / 2 ^ (8 * i) % 2 ^ 8 = l[i].value % 2 ^ 8 := by
  induction l generalizing i with
  | nil => simp at hi
  | cons f l ih =>
    have hf := h f (by simp)
    rw [fieldsValue, hf]
    cases i with
    | zero =>
      rw [Nat.mul_zero, pow_zero, Nat.div_one, Nat.add_mul_mod_self_left, Nat.mod_mod]; rfl
    | succ i =>
      have := ih (fun g hg => h g (by simp [hg])) i (by simpa using hi)
      rw [show 8 * (i + 1) = 8 + 8 *
          i by ring, pow_add, ← Nat.div_div_eq_div_mul, Nat.add_mul_div_left _ _ (by norm_num), Nat.div_eq_of_lt (Nat.mod_lt _ (by norm_num)), Nat.zero_add, this]
      rfl

/-- Fields in a row. -/
theorem writesAll_append {op c} {xs ys : List StreamField} {s t : State} : WritesAll op c (xs ++ ys) s t ↔ ∃ u,
    WritesAll op c xs s u ∧ WritesAll op c ys u t := by
  induction xs generalizing s with
  | nil => simp [WritesAll]
  | cons x xs ih =>
    simp only [List.cons_append, WritesAll, ih]
    constructor
    · rintro ⟨u, h1, v, h2, h3⟩; exact ⟨v, ⟨u, h1, h2⟩, h3⟩
    · rintro ⟨v, ⟨u, h1, h2⟩, h3⟩; exact ⟨u, h1, v, h2, h3⟩

/-- The fast-path rule, where the buffer exists (20_memory.md R69). -/
theorem varintTail_completes (c : CtxId) (p0 w : Nat) (u : State) (hb : Buffered u c) :
    ∃ t, varintTail c p0 w u = .ok t ∧ FastPath c p0 w u t := by
  unfold varintTail
  dsimp only
  by_cases h : p0 % 8 = 0 ∧ p0 + w ≤ (u.ctx c).bitCap
  · rw [if_pos h]
    obtain ⟨m, e, -, hp⟩ := putBits_ok u.cfg (u.ctx c).base (p0 + w - (u.ctx c).cursor) u.mem (u.ctx c).cursor
        (freeBits u.draws (p0 + w - (u.ctx c).cursor))
      (fun j hj => hb _ (by omega))
    refine ⟨_, by rw [e]; rfl, rfl, fun k hk => ?_⟩
    rw [setDraws_mem, setMem_mem, hp k, if_neg (by omega)]
  · rw [if_neg h]
    exact ⟨u, rfl, rfl, fun _ _ => rfl⟩

/-- `VarPut` with its fast-path rule, where the buffer exists (41_writer.md R144, 20_memory.md R69). -/
theorem varPut_completes (op : BitVec 8) (c : CtxId) (v w size : Nat) (s : State) (hb : Buffered s c) (h :
    IsVarintSize v size) (hs : size ≤ 10) :
    ∃ u t, varPut op c v w s = .ok t ∧ WritesAll op c (varintFields v size) s u ∧ FastPath c (s.ctx c).cursor w u t :=
        by
  obtain ⟨u, e, hu⟩ := wrAll_completes op c (varintFields v size) s hb
  obtain ⟨t, e', ht⟩ := varintTail_completes c (s.ctx c).cursor w u ((wrAll_frame _ e).1.buffered hb)
  refine ⟨u, t, ?_, hu, ht⟩
  rw [varPut]
  simp only [varBytes_fields h hs, e, exec_ok_bind, e']

theorem toNat_zigzag32 (n : Word32) : (if 0 ≤ n.toInt then 2 * n.toInt else -2 * n.toInt - 1).toNat = (zigzagEnc32 n).toNat :=
    by
  have := n.isLt
  rw [toNat_zigzagEnc32, BitVec.toInt_eq_toNat_cond]
  split_ifs <;> omega

theorem toNat_zigzag64 (n : Word64) :
    (if 0 ≤ n.toInt then 2 * n.toInt else -2 * n.toInt - 1).toNat = (zigzagEnc64 n).toNat := by
  have := n.isLt
  rw [toNat_zigzagEnc64, BitVec.toInt_eq_toNat_cond]
  split_ifs <;> omega

theorem varSize_32 (x : Word32) : IsVarintSize x.toNat (varSize x.toNat) ∧ varSize x.toNat ≤ 5 := by
  have h := x.isLt
  exact ⟨varSize_least _ (by omega), varintSize_le (varSize_least _ (by omega)) (by norm_num) (by omega)⟩

theorem varSize_64 (x : Word64) : IsVarintSize x.toNat (varSize x.toNat) ∧ varSize x.toNat ≤ 10 := by
  have h := x.isLt
  exact ⟨varSize_least _ (by omega), varintSize_le (varSize_least _ (by omega)) (by norm_num) (by omega)⟩

/-- Joining a number below 2^k with bits from k on adds them: the accumulation of `VarGet`. -/
theorem or_shift (r x k : Nat) (h : r < 2 ^ k) : r ||| (x <<< k) = r + x * 2 ^ k := by
  rw [Nat.or_comm, ← Nat.shiftLeft_add_eq_or_of_lt h, Nat.shiftLeft_eq, Nat.add_comm]

/-- `VarGet`, where the buffer exists (43_reader.md R216). -/
theorem varGetFrom_outcome (op : BitVec 8) (c : CtxId) (left k r : Nat) (s : State) (hb : Buffered s c) (hr :
    r < 2 ^ (7 * k)) :
    ∃ v t, varGetFrom op c left k r s = .ok (v, t) ∧ VarReads op c left k r s v t := by
  induction left generalizing k r s with
  | zero => exact ⟨r, s, rfl, rfl, rfl⟩
  | succ left ih =>
    obtain ⟨b, u, e, ho, hv, hfr⟩ := rd_completes op c 8 s hb
    rw [varGetFrom, e, exec_ok_bind]
    dsimp only
    by_cases hlt : b < 0x80
    · rw [if_pos hlt]
      refine ⟨_, u, rfl, b, u, ho, fun _ => ⟨?_, rfl⟩, fun h => absurd h (by omega)⟩
      rw [Nat.mod_eq_of_lt hlt, or_shift _ _ _ hr]
    · rw [if_neg hlt]
      have hr' : r + b % 2 ^ 7 * 2 ^ (7 * k) < 2 ^ (7 * (k + 1)) := by
        have h1 : b % 2 ^ 7 ≤ 2 ^ 7 - 1 := by omega
        have h2 : b % 2 ^ 7 * 2 ^ (7 * k) ≤ (2 ^ 7 - 1) * 2 ^ (7 * k) := Nat.mul_le_mul_right _ h1
        rw [show 7 * (k + 1) = 7 + 7 * k by ring, pow_add]
        omega
      obtain ⟨v, t, e', h'⟩ := ih (k + 1) (r + b % 2 ^ 7 * 2 ^ (7 * k)) u (hfr.buffered hb) hr'
      refine ⟨v, t, ?_, b, u, ho, fun h => absurd h (by omega), fun _ => h'⟩
      rw [show b % 0x80 = b % 2 ^ 7 from rfl, or_shift _ _ _ hr, e']

/-- The fields of WUBITVAR by the range of the value (41_writer.md R149). -/
theorem ubitFields_cases (v : Nat) (hv : v < 2 ^ 32) : (v < 16 → ubitFields v = [⟨6, 4 * v⟩]) ∧
    (16 ≤ v → v < 256 → ubitFields v = [⟨10, 4 * v + 1⟩]) ∧
   (256 ≤ v → v < 4096 → ubitFields v = [⟨14, 4 * v + 2⟩]) ∧ (4096 ≤ v →
       ubitFields v = [⟨18, 4 * (v % 2 ^ 16) + 3⟩, ⟨16, v / 2 ^ 16⟩]) := by
  refine ⟨fun h => ?_, fun h h' => ?_, fun h h' => ?_, fun h => ?_⟩
  · have : ubitGroup v = 0 := by simp [ubitGroup]; omega
    simp [ubitFields, this]; omega
  · have : ubitGroup v =
      1 := by simp [ubitGroup]; rw [decide_eq_true (by omega), decide_eq_false (by omega), decide_eq_false (by omega)]; rfl
    simp [ubitFields, this]; omega
  · have : ubitGroup v =
      2 := by simp [ubitGroup]; rw [decide_eq_true (by omega), decide_eq_true (by omega), decide_eq_false (by omega)]; rfl
    simp [ubitFields, this]; omega
  · have : ubitGroup v =
      3 := by simp [ubitGroup]; rw [decide_eq_true (by omega), decide_eq_true (by omega), decide_eq_true (by omega)]; rfl
    simp [ubitFields, this]; omega

end Sys2Proof.Machine
end

