-- ==== Sys2Proof/Tests/Slice0.lean ====
section
/-! SUPPORT. Tests: the words of the opcode map, the field checks, one step of each command with the results that
95_test_vectors.md and the rules' examples give, and for every statement with hypotheses a state that meets them. -/

open Sys2Proof Sys2Proof.Machine

namespace Sys2Proof.Tests

set_option Elab.async false

/-! ### Small states -/

/-- The outcome is a next state of which `f` is true. -/
def after (o : Host.Outcome State Fault Refusal) (f : State → Bool) : Bool :=
  match o with
  | .next t => f t
  | _ => false

/-- The outcome is the next state t. -/
def answers (o : Host.Outcome State Fault Refusal) (t : State) : Bool := after o fun u => decide (u = t)

/-- The outcome is a refusal for this reason. -/
def refuses (o : Host.Outcome State Fault Refusal) (r : Refusal) : Bool :=
  match o with
  | .refused r' => decide (r' = r)
  | _ => false

theorem answers_next {o : Host.Outcome State Fault Refusal} {t : State} (h : answers o t = true) : o = .next t := by
  unfold answers after at h
  split at h
  · rw [of_decide_eq_true h]
  · cases h

/-- After reset, with the four operand registers written. -/
def regs (a b c d : Word64) : State :=
  { State.reset with
    opa := { value := a, written := true }
    opb := { value := b, written := true }
    opc := { value := c, written := true }
    opd := { value := d, written := true } }

/-- A context over `bytes` bytes at 0x1000. -/
def bound (mode : Mode) (bytes cursor : Nat) : Ctx :=
  { mode := mode, base := 0x1000, byteCap := bytes, bitCap := 8 * bytes, cursor := cursor, ovf := false }

/-- The host has cleared `bytes` bytes at 0x1000 and then written the cells of m. -/
def cleared (bytes : Nat) (m : Memory) : Memory :=
  m.foldl (fun acc x => acc.write x.1 x.2) ((List.range bytes).map fun i => (0x1000 + i, 0))

/-- Context 0 is a writer, OPA and OPB hold a and b; its buffer holds zeros but for the cells of m. -/
def writer (a b : Word64) (bytes cursor : Nat) (m : Memory) : State :=
  ((regs a b 0 0).setCtx 0 (bound .writer bytes cursor)).setMem (cleared bytes m)

/-- Context 0 is a reader, OPA and OPB hold a and b; its buffer holds zeros but for the cells of m. -/
def reader (a b : Word64) (bytes cursor : Nat) (m : Memory) : State :=
  ((regs a b 0 0).setCtx 0 (bound .reader bytes cursor)).setMem (cleared bytes m)

/-- Contexts 0 and 1 are readers of 1 byte at 0x1000 and at 0x2000, which m must list. -/
def readers (n : Word64) (p q : Nat) (m : Memory) : State :=
  (reader 0 n 1 p m).setCtx 1 { bound .reader 1 q with base := 0x2000 }

/-- The one BufferOverrun event of a command on context 0. -/
def overrun (op : BitVec 8) : List DiagEvent := [{ kind := .bufferOverrun, c := 0, opcode := op }]

/-! ### Decoding (30_encoding.md R90, R92): one word of every command, from the opcode map -/

theorem test_decode_codec :
    decode 0x00000001#32 = .ok (.zzenc32) ∧
    decode 0x00000002#32 = .ok (.zzdec32) ∧
    decode 0x00000003#32 = .ok (.zzenc64) ∧
    decode 0x00000004#32 = .ok (.zzdec64) ∧
    decode 0x00000005#32 = .ok (.vsize32) ∧
    decode 0x00000006#32 = .ok (.vsize64) := by decide +kernel

theorem test_decode_writers :
    decode 0x00000310#32 = .ok (.wbind 3) ∧
    decode 0x00000111#32 = .ok (.wbit 1) ∧
    decode 0x00210112#32 = .ok (.wuns 1 33) ∧
    decode 0x00040013#32 = .ok (.wsigned 0 4) ∧
    decode 0x00000114#32 = .ok (.wvar32 1) ∧
    decode 0x00000F15#32 = .ok (.wvar64 15) ∧
    decode 0x00000116#32 = .ok (.wsvar32 1) ∧
    decode 0x00000817#32 = .ok (.wsvar64 8) ∧
    decode 0x00000118#32 = .ok (.wubitvar 1) ∧
    decode 0x00000220#32 = .ok (.wbits 2) ∧
    decode 0x00000121#32 = .ok (.wstring 1) := by decide +kernel

theorem test_decode_quant_writers :
    decode 0x00000119#32 = .ok (.wcoord 1) ∧
    decode 0x0040001A#32 = .ok (.wcoordmp 0 true false) ∧
    decode 0x0080001A#32 = .ok (.wcoordmp 0 false true) ∧
    decode 0x0020001B#32 = .ok (.wangle 0 32) ∧
    decode 0x0000011C#32 = .ok (.wfloat 1) ∧
    decode 0x0000021D#32 = .ok (.wnormal 2) ∧
    decode 0x0000041E#32 = .ok (.wvec3coord 4) ∧
    decode 0x0000081F#32 = .ok (.wvec3normal 8) := by decide +kernel

theorem test_decode_status :
    decode 0x00000130#32 = .ok (.getbits 1) ∧
    decode 0x00000131#32 = .ok (.getbytes 1) ∧
    decode 0x00000232#32 = .ok (.getbitsleft 2) ∧
    decode 0x00000433#32 = .ok (.getbytesleft 4) ∧
    decode 0x00000834#32 = .ok (.getcap 8) ∧
    decode 0x00000235#32 = .ok (.getovf 2) := by decide +kernel

theorem test_decode_readers :
    decode 0x00000240#32 = .ok (.rbind 2) ∧
    decode 0x00000141#32 = .ok (.rbit 1) ∧
    decode 0x000A0042#32 = .ok (.runs 0 10) ∧
    decode 0x003F0043#32 = .ok (.rsigned 0 63) ∧
    decode 0x00200144#32 = .ok (.peekuns 1 32) ∧
    decode 0x00000245#32 = .ok (.rvar32 2) ∧
    decode 0x00000146#32 = .ok (.rvar64 1) ∧
    decode 0x00000147#32 = .ok (.rsvar32 1) ∧
    decode 0x00000448#32 = .ok (.rsvar64 4) ∧
    decode 0x00000149#32 = .ok (.rubitvar 1) := by decide +kernel

theorem test_decode_quant_readers :
    decode 0x0000014A#32 = .ok (.rcoord 1) ∧
    decode 0x00C0014B#32 = .ok (.rcoordmp 1 true true) ∧
    decode 0x0008004C#32 = .ok (.rangle 0 8) ∧
    decode 0x0000014D#32 = .ok (.rfloat 1) ∧
    decode 0x0000024E#32 = .ok (.rnormal 2) ∧
    decode 0x0000044F#32 = .ok (.rvec3coord 4) ∧
    decode 0x00000850#32 = .ok (.rvec3normal 8) := by decide +kernel

theorem test_decode_bulk_readers :
    decode 0x01000051#32 = .ok (.rstring 0 true) ∧
    decode 0x00000151#32 = .ok (.rstring 1 false) ∧
    decode 0x00000252#32 = .ok (.rbytes 2) ∧
    decode 0x00000453#32 = .ok (.rbits 4) ∧
    decode 0x00000854#32 = .ok (.seek 8) ∧
    decode 0x00000155#32 = .ok (.seekrel 1) ∧
    decode 0x00001056#32 = .ok (.cmpbits 0 1) ∧
    decode 0x0000F156#32 = .ok (.cmpbits 1 15) := by decide +kernel

/-- 95_test_vectors.md 2.1, 2.9. -/
theorem test_decode_refuses :
    decode 0x80000012#32 = .error .reservedBits ∧ decode 0x00000007#32 = .error .unassignedOpcode ∧
    decode 0x00030011#32 = .error .unusedField ∧ decode 0x00000101#32 = .error .unusedField := by decide +kernel

theorem test_decode_table_word :
    decodeTableWord 32 0x00030012 = some (.wuns 0 3) ∧ decodeTableWord 32 0 = none := by decide +kernel

/-! ### The field checks refuse ill-formed commands (30_encoding.md R94) -/

theorem test_illformed_context : (Instr.wbind 4).wellFormed 4 = false ∧ (Instr.wbind 3).wellFormed 4 = true := by decide

theorem test_illformed_count : (Instr.wuns 0 33).wellFormed 4 = false ∧ (Instr.wuns 0 32).wellFormed 4 = true := by decide

theorem test_illformed_same_context : (Instr.cmpbits 1 1).wellFormed 4 = false ∧ (Instr.cmpbits 1 0).wellFormed 4 = true := by
  decide

theorem test_illformed_second_context : (Instr.cmpbits 1 4).wellFormed 4 = false := by decide

/-- 95_test_vectors.md 2.2, 2.7, 2.9: the same checks, by `exec`. -/
theorem test_illformed_refused :
    refuses (exec (.wuns 0 33) (writer 1 0 4 0 [])) .badCount = true ∧
    refuses (exec (.wbind 4) (regs 0x1000 4 0 (-1))) .badContext = true ∧
    refuses (exec (.cmpbits 0 0) (readers 0 0 0 [])) .sameContext = true ∧
    refuses (exec .zzenc32 State.reset) (.operandUnwritten .opa) = true := by decide +kernel

/-! ### The codec commands (95_test_vectors.md 2.1) -/

theorem test_zzenc32_minus_one :
    after (exec .zzenc32 (regs 0xFFFFFFFF 0 0 0)) (fun t => t.res0 == ⟨1, true⟩) = true := by decide +kernel

theorem test_zzenc32_least :
    after (exec .zzenc32 (regs 0x80000000 0 0 0)) (fun t => t.res0 == ⟨0xFFFFFFFF, true⟩) = true := by decide +kernel

theorem test_zzdec32_one :
    after (exec .zzdec32 (regs 1 0 0 0)) (fun t => t.res0 == ⟨0xFFFFFFFFFFFFFFFF, true⟩) = true := by decide +kernel

theorem test_zzdec32_129 :
    after (exec .zzdec32 (regs 129 0 0 0)) (fun t => t.res0 == ⟨0xFFFFFFFFFFFFFFBF, true⟩) = true := by decide +kernel

theorem test_zzenc64_least :
    after (exec .zzenc64 (regs 0x8000000000000000 0 0 0)) (fun t => t.res0 == ⟨0xFFFFFFFFFFFFFFFF, true⟩) = true := by decide +kernel

theorem test_zzdec64_greatest :
    after (exec .zzdec64 (regs 0xFFFFFFFFFFFFFFFF 0 0 0)) (fun t => t.res0 == ⟨0x8000000000000000, true⟩) = true := by decide +kernel

theorem test_vsize32_16384 :
    after (exec .vsize32 (regs 16384 0 0 0)) (fun t => t.res0 == ⟨3, true⟩) = true := by decide +kernel

theorem test_vsize32_greatest :
    after (exec .vsize32 (regs 0xFFFFFFFF 0 0 0)) (fun t => t.res0 == ⟨5, true⟩) = true := by decide +kernel

theorem test_vsize64_2_35 :
    after (exec .vsize64 (regs 0x800000000 0 0 0)) (fun t => t.res0 == ⟨6, true⟩) = true := by decide +kernel

theorem test_vsize64_2_63 :
    after (exec .vsize64 (regs 0x8000000000000000 0 0 0)) (fun t => t.res0 == ⟨10, true⟩) = true := by decide +kernel

/-! ### Binds (95_test_vectors.md 2.2, 2.9) -/

theorem test_wbind :
    answers (exec (.wbind 0) (regs 0x1000 4 0 (-1))) ((regs 0x1000 4 0 (-1)).setCtx 0 (bound .writer 4 0)) = true := by decide +kernel

theorem test_wbind_override :
    after (exec (.wbind 0) (regs 0x1000 4 0 20)) (fun t => (t.ctx 0).bitCap == 20) = true ∧
    refuses (exec (.wbind 0) (regs 0x1000 4 0 33)) .badOperand = true ∧
    refuses (exec (.wbind 0) (regs 0x1000 4 33 (-1))) .badOperand = true := by decide +kernel

theorem test_rbind_rebinds :
    after (exec (.rbind 0) (((regs 0x1000 4 5 (-1)).setCtx 0 { bound .writer 8 9 with ovf := true }))) (fun t =>
      t.ctx 0 == bound .reader 4 5) = true := by decide +kernel

/-- BASE has ADDR_W bits (10_state.md R31). -/
theorem test_wbind_base_width :
    let k : Config := { Config.reference with addrW := 32 }
    refuses (exec (.wbind 0) { regs 0x100000000 4 0 (-1) with cfg := k }) .badOperand = true ∧
    after (exec (.wbind 0) { regs 0xFFFFFFFF 4 0 (-1) with cfg := k }) (fun t => (t.ctx 0).base == 0xFFFFFFFF) = true := by decide +kernel

theorem test_rbind_overlap :
    refuses (exec (.rbind 1) ((regs 0x1002 4 0 (-1)).setCtx 0 (bound .writer 4 0))) .overlap = true ∧
    after (exec (.rbind 1) ((regs 0x1000 4 0 (-1)).setCtx 0 (bound .reader 4 0))) (fun t => t.ctx 1 == bound .reader 4 0) = true := by decide +kernel

/-! ### Writers (95_test_vectors.md 2.2 to 2.5) -/

theorem test_wbit :
    after (exec (.wbit 0) (writer 2 0 4 5 [])) (fun t =>
      t.mem == cleared 4 [(0x1000, 0x20)] && (t.ctx 0).cursor == 6) = true := by decide +kernel

theorem test_wuns :
    after (exec (.wuns 0 10) (writer 1000 0 4 3 [(0x1000, 0x05)])) (fun t =>
      t.mem == cleared 4 [(0x1000, 0x45), (0x1001, 0x1F)] && (t.ctx 0).cursor == 13) = true := by decide +kernel

theorem test_wuns_overrun :
    after (exec (.wuns 0 32) (writer 0xDEADBEEF 0 4 13 [(0x1000, 0x45), (0x1001, 0x1F)])) (fun t =>
      t.mem == cleared 4 [(0x1000, 0x45), (0x1001, 0x1F)] && (t.ctx 0).cursor == 13 && (t.ctx 0).ovf && t.diag == overrun 0x12) = true := by decide +kernel

theorem test_wsigned :
    after (exec (.wsigned 0 4) (writer 0xFFFFFFF8 0 4 0 [])) (fun t =>
      t.mem == cleared 4 [(0x1000, 0x08)] && (t.ctx 0).cursor == 4) = true := by decide +kernel

/-- 300 is AC 02, that is 0x02AC, at bit 3 (95_test_vectors.md 2.3). -/
theorem test_wvar32_unaligned :
    after (exec (.wvar32 0) (writer 300 0 4 3 [])) (fun t =>
      t.mem == cleared 4 [(0x1000, 0x60), (0x1001, 0x15)] && (t.ctx 0).cursor == 19) = true := by decide +kernel

theorem test_wvar64_runs_out :
    after (exec (.wvar64 0) (writer 300 0 1 0 [])) (fun t =>
      t.mem == cleared 1 [(0x1000, 0xAC)] && (t.ctx 0).cursor == 8 && (t.ctx 0).ovf && t.diag == overrun 0x15) = true := by decide +kernel

theorem test_wvar64 :
    after (exec (.wvar64 0) (writer 0xFFFFFFFFFFFFFFFF 0 10 0 [])) (fun t =>
      t.mem == cleared 10 [(0x1000, 0xFF), (0x1001, 0xFF), (0x1002, 0xFF), (0x1003, 0xFF), (0x1004, 0xFF), (0x1005, 0xFF), (0x1006, 0xFF), (0x1007, 0xFF), (0x1008, 0xFF), (0x1009, 0x01)] && (t.ctx 0).cursor == 80) = true := by decide +kernel

theorem test_wsvar32 :
    after (exec (.wsvar32 0) (writer 0xFFFFFFBF 0 2 0 [])) (fun t =>
      t.mem == cleared 2 [(0x1000, 0x81), (0x1001, 0x01)] && (t.ctx 0).cursor == 16) = true := by decide +kernel

theorem test_wsvar64 :
    after (exec (.wsvar64 0) (writer 1 0 2 0 [])) (fun t =>
      t.mem == cleared 2 [(0x1000, 0x02)] && (t.ctx 0).cursor == 8) = true := by decide +kernel

theorem test_wubitvar_200 :
    after (exec (.wubitvar 0) (writer 200 0 8 0 [])) (fun t =>
      t.mem == cleared 8 [(0x1000, 0x21), (0x1001, 0x03)] && (t.ctx 0).cursor == 10) = true := by decide +kernel

theorem test_wubitvar_long :
    after (exec (.wubitvar 0) (writer 0x12345 0 8 0 [])) (fun t =>
      t.mem == cleared 8 [(0x1000, 0x17), (0x1001, 0x8D), (0x1002, 0x04)] && (t.ctx 0).cursor == 34) = true := by decide +kernel

theorem test_wbits :
    after (exec (.wbits 0) (writer 0x4000 9 4 3 [(0x4000, 0xAB), (0x4001, 0x01)])) (fun t =>
      t.mem == cleared 4 [(0x1000, 0x58), (0x1001, 0x0D), (0x4000, 0xAB), (0x4001, 0x01)] && (t.ctx 0).cursor == 12) = true := by decide +kernel

theorem test_wbits_overrun :
    after (exec (.wbits 0) (writer 0x4000 9 1 0 [(0x4000, 0xAB)])) (fun t =>
      t.mem == cleared 1 [(0x4000, 0xAB)] && (t.ctx 0).cursor == 0 && t.diag == overrun 0x20) = true := by decide +kernel

theorem test_wstring_nul_fails :
    after (exec (.wstring 0) (writer 0x4000 0 2 0 [(0x4000, 0x68), (0x4001, 0x69), (0x4002, 0)])) (fun t =>
      t.mem == [(0x1000, 0x68), (0x1001, 0x69), (0x4000, 0x68), (0x4001, 0x69), (0x4002, 0)] && (t.ctx 0).cursor == 16 &&
      t.diag == overrun 0x21) = true := by decide +kernel

theorem test_wstring_overlap : refuses (exec (.wstring 0) (writer 0x1000 0 2 0 [])) .overlap = true := by decide +kernel

/-! ### Quantizing writers (95_test_vectors.md 2.6) -/

theorem test_wcoord :
    after (exec (.wcoord 0) (writer 0xC0100000 0 8 0 [])) (fun t =>
      t.mem == cleared 8 [(0x1000, 0x0F), (0x1002, 0x10)] && (t.ctx 0).cursor == 22) = true := by decide +kernel

theorem test_wcoord_wraps :
    after (exec (.wcoord 0) (writer 0x46800200 0 8 0 [])) (fun t =>
      t.mem == cleared 8 [(0x1000, 0x01)] && (t.ctx 0).cursor == 17) = true := by decide +kernel

theorem test_wcoordmp_lowprec :
    after (exec (.wcoordmp 0 false true) (writer 0x459C4200 0 8 0 [])) (fun t =>
      t.mem == cleared 8 [(0x1000, 0x3A), (0x1001, 0x9C), (0x1002, 0x04)] && (t.ctx 0).cursor == 20) = true := by decide +kernel

theorem test_wcoordmp_integral :
    after (exec (.wcoordmp 0 true false) (writer 0x45000000 0 8 0 [])) (fun t =>
      t.mem == cleared 8 [(0x1000, 0xFA), (0x1001, 0x3F)] && (t.ctx 0).cursor == 17) = true := by decide +kernel

theorem test_wangle_negative :
    after (exec (.wangle 0 8) (writer 0xC2B40000 0 8 0 [])) (fun t =>
      t.mem == cleared 8 [(0x1000, 0xC0)] && (t.ctx 0).cursor == 8) = true := by decide +kernel

theorem test_wangle_32 :
    after (exec (.wangle 0 32) (writer 0x3F800000 0 8 0 [])) (fun t =>
      t.mem == cleared 8 [(0x1000, 0x60), (0x1001, 0x0B), (0x1002, 0xB6)] && (t.ctx 0).cursor == 32) = true := by decide +kernel

theorem test_wfloat :
    after (exec (.wfloat 0) (writer 0x3F800000 0 8 0 [])) (fun t =>
      t.mem == cleared 8 [(0x1002, 0x80), (0x1003, 0x3F)] && (t.ctx 0).cursor == 32) = true := by decide +kernel

theorem test_wnormal_clamped :
    after (exec (.wnormal 0) (writer 0xBF800000 0 8 0 [])) (fun t =>
      t.mem == cleared 8 [(0x1000, 0xFF), (0x1001, 0x0F)] && (t.ctx 0).cursor == 12) = true := by decide +kernel

theorem test_wnormal_tiny :
    after (exec (.wnormal 0) (writer 0xB8D1B717 0 8 0 [])) (fun t =>
      t.mem == cleared 8 [] && (t.ctx 0).cursor == 12) = true := by decide +kernel

theorem test_wvec3coord :
    after (exec (.wvec3coord 0) (writer 0x000000003FC00000 0xC0100000 8 0 [])) (fun t =>
      t.mem == cleared 8 [(0x1000, 0x1D), (0x1003, 0x1F), (0x1005, 0x20)] && (t.ctx 0).cursor == 47) = true := by decide +kernel

theorem test_wvec3normal :
    after (exec (.wvec3normal 0) (writer 0x3F0000003F000000 0xBF350481 8 0 [])) (fun t =>
      t.mem == cleared 8 [(0x1000, 0x03), (0x1001, 0x20), (0x1003, 0x06)] && (t.ctx 0).cursor == 27) = true := by decide +kernel

/-! ### Status commands (95_test_vectors.md 2.8) -/

theorem test_getbits :
    answers (exec (.getbits 0) (writer 0 0 4 13 [])) ((writer 0 0 4 13 []).setRes0 13) = true := by decide +kernel

theorem test_getbytes :
    answers (exec (.getbytes 0) (writer 0 0 4 13 [])) ((writer 0 0 4 13 []).setRes0 2) = true := by decide +kernel

theorem test_getbitsleft :
    answers (exec (.getbitsleft 0) (writer 0 0 4 13 [])) ((writer 0 0 4 13 []).setRes0 19) = true := by decide +kernel

theorem test_getbytesleft :
    answers (exec (.getbytesleft 0) (writer 0 0 4 13 [])) ((writer 0 0 4 13 []).setRes0 2) = true := by decide +kernel

theorem test_getcap :
    answers (exec (.getcap 0) (writer 0 0 4 13 [])) (((writer 0 0 4 13 []).setRes0 32).setRes1 4) = true := by decide +kernel

theorem test_getovf :
    answers (exec (.getovf 0) ((writer 0 0 4 13 []).setOvf 0 true)) (((writer 0 0 4 13 []).setOvf 0 true).setRes0 1) = true ∧
    refuses (exec (.getovf 0) State.reset) .wrongMode = true := by decide +kernel

/-! ### Readers (95_test_vectors.md 2.4, 2.7) -/

theorem test_rbit :
    after (exec (.rbit 0) (reader 0 0 1 0 [(0x1000, 0x01)])) (fun t =>
      t.res0 == ⟨1, true⟩ && (t.ctx 0).cursor == 1) = true := by decide +kernel

theorem test_runs :
    after (exec (.runs 0 10) (reader 0 0 4 3 [(0x1000, 0x45), (0x1001, 0x1F)])) (fun t =>
      t.res0 == ⟨1000, true⟩ && (t.ctx 0).cursor == 13) = true := by decide +kernel

theorem test_runs_overrun :
    after (exec (.runs 0 32) (reader 0 0 4 13 [(0x1000, 0x45), (0x1001, 0x1F)])) (fun t =>
      t.res0 == ⟨0, true⟩ && (t.ctx 0).cursor == 13 && (t.ctx 0).ovf && t.diag == overrun 0x42) = true := by decide +kernel

theorem test_rsigned :
    after (exec (.rsigned 0 4) (reader 0 0 1 0 [(0x1000, 0x08)])) (fun t =>
      t.res0 == ⟨0xFFFFFFFFFFFFFFF8, true⟩ && (t.ctx 0).cursor == 4) = true := by decide +kernel

theorem test_peekuns :
    after (exec (.peekuns 0 3) (reader 0 0 2 0 [(0x1000, 0x45), (0x1001, 0x1F)])) (fun t =>
      t.res0 == ⟨5, true⟩ && (t.ctx 0).cursor == 0) = true := by decide +kernel

theorem test_peekuns_overrun :
    after (exec (.peekuns 0 32) (reader 0 0 1 0 [(0x1000, 0x45)])) (fun t =>
      t.res0 == ⟨0, true⟩ && (t.ctx 0).cursor == 0 && !(t.ctx 0).ovf && t.diag == overrun 0x44) = true := by decide +kernel

theorem test_rvar32_cap :
    after (exec (.rvar32 0) (reader 0 0 5 0 [(0x1000, 0xFF), (0x1001, 0xFF), (0x1002, 0xFF), (0x1003, 0xFF), (0x1004, 0xFF)])) (fun t =>
      t.res0 == ⟨0xFFFFFFFF, true⟩ && (t.ctx 0).cursor == 40 && !(t.ctx 0).ovf) = true := by decide +kernel

theorem test_rvar32_runs_out :
    after (exec (.rvar32 0) (reader 0 0 2 0 [(0x1000, 0xFF), (0x1001, 0xFF)])) (fun t =>
      t.res0 == ⟨0x3FFF, true⟩ && (t.ctx 0).cursor == 16 && (t.ctx 0).ovf) = true := by decide +kernel

theorem test_rvar64 :
    after (exec (.rvar64 0) (reader 0 0 10 0 [(0x1000, 0x80), (0x1001, 0x80), (0x1002, 0x80), (0x1003, 0x80), (0x1004, 0x80), (0x1005, 0x80), (0x1006, 0x80), (0x1007, 0x80), (0x1008, 0x80), (0x1009, 0x01)])) (fun t =>
      t.res0 == ⟨0x8000000000000000, true⟩ && (t.ctx 0).cursor == 80) = true := by decide +kernel

theorem test_rsvar32 :
    after (exec (.rsvar32 0) (reader 0 0 2 0 [(0x1000, 0x81), (0x1001, 0x01)])) (fun t =>
      t.res0 == ⟨0xFFFFFFFFFFFFFFBF, true⟩ && (t.ctx 0).cursor == 16) = true := by decide +kernel

theorem test_rsvar64 :
    after (exec (.rsvar64 0) (reader 0 0 10 0 [(0x1000, 0xFF), (0x1001, 0xFF), (0x1002, 0xFF), (0x1003, 0xFF), (0x1004, 0xFF), (0x1005, 0xFF), (0x1006, 0xFF), (0x1007, 0xFF), (0x1008, 0xFF), (0x1009, 0x01)])) (fun t =>
      t.res0 == ⟨0x8000000000000000, true⟩ && (t.ctx 0).cursor == 80) = true := by decide +kernel

theorem test_rubitvar_long :
    after (exec (.rubitvar 0) (reader 0 0 5 0 [(0x1000, 0x17), (0x1001, 0x8D), (0x1002, 0x04)])) (fun t =>
      t.res0 == ⟨0x12345, true⟩ && (t.ctx 0).cursor == 34) = true := by decide +kernel

theorem test_rubitvar_runs_out :
    after (exec (.rubitvar 0) (reader 0 0 1 0 [(0x1000, 0x41)])) (fun t =>
      t.res0 == ⟨0, true⟩ && (t.ctx 0).cursor == 2 && (t.ctx 0).ovf) = true := by decide +kernel

theorem test_rcoord :
    after (exec (.rcoord 0) (reader 0 0 3 0 [(0x1000, 0x0F), (0x1002, 0x10)])) (fun t =>
      t.res0 == ⟨0xC0100000, true⟩ && (t.ctx 0).cursor == 22) = true := by decide +kernel

theorem test_rcoord_greatest :
    after (exec (.rcoord 0) (reader 0 0 3 0 [(0x1000, 0xFB), (0x1001, 0xFF), (0x1002, 0x3F)])) (fun t =>
      t.res0 == ⟨0x468001F0, true⟩ && (t.ctx 0).cursor == 22) = true := by decide +kernel

theorem test_rcoordmp_integral :
    after (exec (.rcoordmp 0 true false) (reader 0 0 2 0 [(0x1000, 0x17)])) (fun t =>
      t.res0 == ⟨0xC0400000, true⟩ && (t.ctx 0).cursor == 14) = true := by decide +kernel

theorem test_rcoordmp_lowprec :
    after (exec (.rcoordmp 0 false true) (reader 0 0 3 0 [(0x1000, 0x3A), (0x1001, 0x9C), (0x1002, 0x04)])) (fun t =>
      t.res0 == ⟨0x459C4200, true⟩ && (t.ctx 0).cursor == 20) = true := by decide +kernel

theorem test_rangle :
    after (exec (.rangle 0 8) (reader 0 0 1 0 [(0x1000, 0xFF)])) (fun t =>
      t.res0 == ⟨0x43B34C00, true⟩ && (t.ctx 0).cursor == 8) = true := by decide +kernel

theorem test_rangle_rounds :
    after (exec (.rangle 0 32) (reader 0 0 4 0 [(0x1000, 0x60), (0x1001, 0x0B), (0x1002, 0xB6)])) (fun t =>
      t.res0 == ⟨0x3F7FFFFF, true⟩ && (t.ctx 0).cursor == 32) = true := by decide +kernel

theorem test_rfloat :
    after (exec (.rfloat 0) (reader 0 0 4 0 [(0x1000, 0x01), (0x1002, 0xC0), (0x1003, 0x7F)])) (fun t =>
      t.res0 == ⟨0x7FC00001, true⟩ && (t.ctx 0).cursor == 32) = true := by decide +kernel

theorem test_rnormal :
    after (exec (.rnormal 0) (reader 0 0 2 0 [(0x1000, 0xFF), (0x1001, 0x0F)])) (fun t =>
      t.res0 == ⟨0xBF7FE000, true⟩ && (t.ctx 0).cursor == 12) = true := by decide +kernel

theorem test_rvec3coord :
    after (exec (.rvec3coord 0) (reader 0 0 6 0 [(0x1000, 0x1D), (0x1003, 0x1F), (0x1005, 0x20)])) (fun t =>
      t.res0 == ⟨0x000000003FC00000, true⟩ && (t.ctx 0).cursor == 47 && t.res1 == ⟨0xC0100000, true⟩) = true := by decide +kernel

theorem test_rvec3normal :
    after (exec (.rvec3normal 0) (reader 0 0 4 0 [(0x1000, 0x03), (0x1001, 0x20), (0x1003, 0x06)])) (fun t =>
      t.res0 == ⟨0x3F0000003F000000, true⟩ && (t.ctx 0).cursor == 27 && t.res1 == ⟨0xBF3504F3, true⟩) = true := by decide +kernel

theorem test_rvec3normal_empty :
    after (exec (.rvec3normal 0) (reader 0 0 1 8 [])) (fun t =>
      t.res0 == ⟨0, true⟩ && (t.ctx 0).cursor == 8 && t.res1 == ⟨0x3F800000, true⟩ && t.diag.length == 3) = true := by decide +kernel

theorem test_rstring_newline :
    after (exec (.rstring 0 true) (reader 0x5000 8 4 0 [(0x1000, 0x61), (0x1001, 0x0A), (0x1002, 0x62)])) (fun t =>
      t.res0 == ⟨1, true⟩ && (t.ctx 0).cursor == 16 && t.res1 == ⟨0, true⟩ &&
      t.mem.read 0x5000 == 0x61 && t.mem.read 0x5001 == 0) = true := by decide +kernel

theorem test_rstring_truncated :
    after (exec (.rstring 0 false) (reader 0x5000 2 3 0 [(0x1000, 0x68), (0x1001, 0x69)])) (fun t =>
      t.res0 == ⟨1, true⟩ && (t.ctx 0).cursor == 24 && t.res1 == ⟨1, true⟩ &&
      t.mem == cleared 3 [(0x1000, 0x68), (0x1001, 0x69), (0x5000, 0x68), (0x5001, 0)]) = true := by decide +kernel

theorem test_rbytes :
    after (exec (.rbytes 0) (reader 0x5000 2 3 0 [(0x1000, 0x68), (0x1001, 0x69)])) (fun t =>
      t.mem == cleared 3 [(0x1000, 0x68), (0x1001, 0x69), (0x5000, 0x68), (0x5001, 0x69)] && (t.ctx 0).cursor == 16) = true := by decide +kernel

theorem test_rbits :
    after (exec (.rbits 0) (reader 0x5000 9 2 3 [(0x1000, 0x58), (0x1001, 0x0D)])) (fun t =>
      t.mem == cleared 2 [(0x1000, 0x58), (0x1001, 0x0D), (0x5000, 0xAB), (0x5001, 0x01)] && (t.ctx 0).cursor == 12) = true := by decide +kernel

theorem test_rbits_overrun :
    after (exec (.rbits 0) (reader 0x5000 17 2 0 [(0x1000, 0x58), (0x5000, 1), (0x5002, 2), (0x5003, 3)])) (fun t =>
      t.mem == cleared 2 [(0x1000, 0x58), (0x5000, 0), (0x5001, 0), (0x5002, 0), (0x5003, 3)] && (t.ctx 0).cursor == 0 && t.diag == overrun 0x53) = true := by decide +kernel

theorem test_seek_end :
    after (exec (.seek 0) (reader 16 0 2 3 [])) (fun t =>
      (t.ctx 0).cursor == 16 && (t.ctx 0).ovf == false) = true := by decide +kernel

theorem test_seek_negative :
    after (exec (.seek 0) (reader (-1) 0 2 3 [])) (fun t =>
      (t.ctx 0).cursor == 16 && (t.ctx 0).ovf == true) = true := by decide +kernel

theorem test_seekrel_start :
    after (exec (.seekrel 0) (reader (-13) 0 2 13 [])) (fun t =>
      (t.ctx 0).cursor == 0 && (t.ctx 0).ovf == false) = true := by decide +kernel

theorem test_seekrel_before_start :
    after (exec (.seekrel 0) (reader (-14) 0 2 13 [])) (fun t =>
      (t.ctx 0).cursor == 16 && (t.ctx 0).ovf == true) = true := by decide +kernel

theorem test_cmpbits :
    after (exec (.cmpbits 0 1) (readers 4 0 4 [(0x1000, 0x0B), (0x2000, 0xB1)])) (fun t =>
      t.res0 == ⟨0, true⟩ && (t.ctx 0).cursor == 4 && (t.ctx 1).cursor == 8) = true ∧
    after (exec (.cmpbits 0 1) (readers 4 0 4 [(0x1000, 0x0B), (0x2000, 0x90)])) (fun t => t.res0 == ⟨1, true⟩) = true := by decide +kernel

theorem test_cmpbits_runs_out :
    after (exec (.cmpbits 0 1) (readers 40 0 0 [(0x1000, 0x5A), (0x2000, 0x5A)])) (fun t =>
      t.res0 == ⟨0, true⟩ && (t.ctx 0).cursor == 8 && (t.ctx 1).cursor == 8 && (t.ctx 0).ovf && (t.ctx 1).ovf) = true := by decide +kernel

/-! ### Steps (95_test_vectors.md 2.9) -/

theorem test_step_runs_the_word :
    answers (step ((regs 0xFFFFFFFF 0 0 0).withFetchWord 32 1)) ((regs 0xFFFFFFFF 0 0 0).setRes0 1) = true := by decide +kernel

theorem test_step_host_actions :
    after (step (State.reset.setInbox [.writeOperand .opc 7])) (fun t => t.opc == ⟨7, true⟩ && t.inbox == []) = true ∧
    after (step (State.reset.setInbox [.writeByte 0x1000 5])) (fun t => t.mem == [(0x1000, 5)]) = true ∧
    answers (step ((writer 1 2 4 13 [(0x1000, 5)]).setInbox [.reset])) (State.reset.setMem (cleared 4 [(0x1000, 5)])) = true := by decide +kernel

/-- A fresh buffer has no value (20_memory.md R82). -/
theorem test_fresh_memory_is_free (a : Nat) : State.reset.mem.read a = Config.freeByte a := rfl

theorem test_memory_write_keeps_order :
    Memory.write [(0x10, 1), (0x12, 3)] 0x11 0 = [(0x10, 1), (0x11, 0), (0x12, 3)] ∧
    Memory.write [(0x10, 1), (0x12, 3)] 0x12 0 = [(0x10, 1), (0x12, 0)] := by decide +kernel

theorem test_missing_byte_is_stuck :
    exec (.wuns 0 8) ((regs 1 0 0 0).setCtx 0 { mode := .writer, base := 0xFFFFE, byteCap := 4, bitCap := 32, cursor := 16, ovf := false }) =
      .fault (.missingAddress 0x100000) := by rfl
/-! ### For every statement with hypotheses, what meets them -/

/-- A ready writer of 4 bytes at bit 3, with OPA and OPB written. -/
theorem ready_writer : Ready (writer 5 9 4 3 []) .writer 0 ∧ (writer 5 9 4 3 []).opa.written = true ∧
    (writer 5 9 4 3 []).opb.written = true ∧ (writer 5 9 4 3 []).cfg.valid = true := by decide +kernel

/-- A writer whose stream is full. -/
theorem full_writer : Ready (writer 5 9 1 8 []) .writer 0 ∧ (writer 5 9 1 8 []).opa.written = true ∧
    (writer 5 9 1 8 []).opb.written = true ∧ (writer 5 9 1 8 []).cfg.valid = true := by decide +kernel

/-- A ready reader of 4 bytes at bit 3. -/
theorem ready_reader : Ready (reader 0 0 4 3 [(0x1000, 0x45), (0x1001, 0x1F)]) .reader 0 ∧
    (reader 0 0 4 3 [(0x1000, 0x45), (0x1001, 0x1F)]).cfg.valid = true := by decide +kernel

/-- A reader at the end of its stream. -/
theorem finished_reader : Ready (reader 0 0 1 8 []) .reader 0 ∧ (reader 0 0 1 8 []).cfg.valid = true := by decide +kernel

theorem witness_UnassignedOpcodesAreRefused :
    opField 0x00000000#32 = 0x00 ∧ opField 0xFE000007#32 = 0x07 ∧ opField 0x0000000F#32 = 0x0F ∧
    opField 0x00000022#32 = 0x22 ∧ opField 0x0000003F#32 = 0x3F ∧ opField 0x00000057#32 = 0x57 ∧
    opField 0x000000FF#32 = 0xFF ∧ opField 0x00000056#32 = 0x56 := by decide +kernel

theorem witness_BadWordsAreRefusedInOrder :
    rsvField 0x02000007#32 ≠ 0 ∧ (rsvField 0x00FF0007#32 = 0 ∧ opcodeRow (opField 0x00FF0007#32) (fieldsOf 0x00FF0007#32) = none) ∧
    (∃ u i, rsvField 0x00030011#32 = 0 ∧ opcodeRow (opField 0x00030011#32) (fieldsOf 0x00030011#32) = some (u, i) ∧
      fieldsOf 0x00030011#32 ≠ i.fields) ∧
    (∃ u i, rsvField 0x01000051#32 = 0 ∧ opcodeRow (opField 0x01000051#32) (fieldsOf 0x01000051#32) = some (u, i) ∧
      fieldsOf 0x01000051#32 = i.fields) :=
  ⟨by decide +kernel, by decide +kernel, ⟨_, .wbit 0, by decide +kernel, rfl, by decide +kernel⟩,
    ⟨_, .rstring 0 true, by decide +kernel, rfl, by decide +kernel⟩⟩

theorem witness_StepRunsTheDecodedCommand :
    (State.reset.setInbox [.command 0x00000001#32, .reset]).inbox = .command 0x00000001#32 :: [.reset] ∧
    decode 0x00000001#32 = .ok .zzenc32 := by decide +kernel

theorem witness_HostActionsTakeEffect :
    (State.reset.setInbox [.writeOperand .opd 1]).inbox = .writeOperand .opd 1 :: [] ∧
    ((State.reset.setInbox [.writeByte 0xFFFFF 1]).inbox = .writeByte 0xFFFFF 1 :: [] ∧ memOK State.reset.cfg 0xFFFFF = true) ∧
    State.reset.inbox = [] := by decide +kernel

theorem witness_ResetRestoresEveryValue :
    ((writer 5 9 4 3 [(0x1000, 5)]).setInbox [.reset, .reset]).inbox = .reset :: [.reset] := by decide +kernel

theorem witness_AfterResetOnlyBindsAndCodecRun :
    (∀ c, (regs 0x1000 4 32 (-1)).ctx c = Ctx.reset) ∧ (Instr.getovf 0).isBind = false ∧ (Instr.getovf 0).contexts ≠ [] ∧
    (regs 0x1000 4 32 (-1)).opa.written = true ∧ (3 : CtxId).val < (regs 0x1000 4 32 (-1)).cfg.nCtx ∧
    BindWritten (regs 0x1000 4 32 (-1)) ∧ BindBase (regs 0x1000 4 32 (-1)) ∧ ∃ cap, BindCap (regs 0x1000 4 32 (-1)) cap :=
  ⟨by decide +kernel, by decide, by decide, by decide, by decide, by decide +kernel, by decide +kernel, 32,
    by unfold BindCap; decide +kernel⟩

theorem witness_IllegalFieldsAndOperandsAreRefused :
    (Instr.wbit 4).wellFormed State.reset.cfg.nCtx = false ∧ (Instr.runs 0 33).wellFormed State.reset.cfg.nCtx = false ∧
    ¬(Instr.wbits 0).OperandsLegal (regs 0 0x80000000 0 0) ∧ ¬(Instr.rbytes 0).OperandsLegal (regs 0 0x10000000 0 0) ∧
    ¬(Instr.rstring 0 false).OperandsLegal (regs 0 0 0 0) ∧ ¬(Instr.cmpbits 0 1).OperandsLegal (regs 0 0x80000000 0 0) ∧
    ¬(Instr.wbind 0).OperandsLegal (regs 0x1000 0x10000000 0 0) :=
  ⟨by decide, by decide, by simp [Instr.OperandsLegal, regs], by simp [Instr.OperandsLegal, regs],
    by simp [Instr.OperandsLegal, regs], by simp [Instr.OperandsLegal, regs],
    by simp [Instr.OperandsLegal, BindCap, regs]⟩

theorem witness_WrongModeIsRefused :
    (∃ c ∈ (Instr.cmpbits 0 1).contexts, (Instr.cmpbits 0 1).modeOK ((reader 0 0 4 0 []).ctx c).mode = false) ∧
    ∀ c ∈ (Instr.getovf 0).contexts, (Instr.getovf 0).modeOK ((reader 0 0 4 0 []).ctx c).mode = true :=
  ⟨⟨1, by decide, by decide +kernel⟩, by decide +kernel⟩

theorem witness_OperandRegistersAreTheHosts :
    OperandName.opd ∈ (Instr.rbind 0).reads ∧ (State.reset.operandReg .opd).written = false ∧
    exec .zzenc32 (regs 1 0 0 0) = .next ((regs 1 0 0 0).setRes0 2) :=
  ⟨by decide, by decide, answers_next (by decide +kernel)⟩

theorem witness_OverlappingBuffersAreRefused :
    BindOverlaps ((regs 0x1003 1 0 0).setCtx 0 (bound .writer 4 0)) 1 .reader 0x1003 1 ∧
    BindOverlaps ((regs 0x0FFF 2 0 0).setCtx 0 (bound .reader 4 0)) 1 .writer 0x0FFF 2 ∧
    SourceOverlaps (writer 0x0FFF 16 4 0 []) 0x0FFF 2 ∧
    ((∀ j < 1, memOK (writer 0x0FFF 0 4 0 [(0x0FFF, 1)]).cfg (0x0FFF + j) = true ∧
      (writer 0x0FFF 0 4 0 [(0x0FFF, 1)]).mem.read (0x0FFF + j) ≠ 0) ∧
      SourceOverlaps (writer 0x0FFF 0 4 0 [(0x0FFF, 1)]) (0x0FFF + 1) 1) ∧
    DestOverlaps (reader 0x1003 1 4 0 []) 0x1003 1 ∧ ¬SharesByte 0x1000 0 0x1000 4 := by
  refine ⟨(bindOverlap_iff _ _ _ _ _).1 (by decide +kernel), (bindOverlap_iff _ _ _ _ _).1 (by decide +kernel),
    (sourceOverlap_iff _ _ _).1 (by decide +kernel), ⟨by decide +kernel, (sourceOverlap_iff _ _ _).1 (by decide +kernel)⟩,
    (destOverlap_iff _ _ _).1 (by decide +kernel), fun h => ?_⟩
  rw [← regionsOverlap_iff] at h
  revert h; decide

/-- A context whose second bit, and whose first bit past bit 15, has no byte; a field of 1, 2 and 32 bits; both modes. -/
theorem witness_MissingByteIsStuck :
    let x (mode : Mode) (cursor : Nat) : Ctx :=
      { mode := mode, base := 0xFFFFE, byteCap := 8, bitCap := 64, cursor := cursor, ovf := false }
    let s (mode : Mode) (cursor : Nat) : State := (regs 1 0 0 0).setCtx 0 (x mode cursor)
    (∀ mode ∈ [Mode.writer, .reader], (0 : CtxId).val < (s mode 15).cfg.nCtx ∧ ((s mode 15).ctx 0).mode = mode ∧
      (s mode 15).opa.written = true ∧ Fits (s mode 15) 0 2 ∧ Fits (s mode 15) 0 32 ∧
      memOK (s mode 15).cfg (0xFFFFE + (15 + 1) / 8) = false ∧ (∀ k < 1, memOK (s mode 15).cfg (0xFFFFE + (15 + k) / 8) = true) ∧
      Fits (s mode 16) 0 1 ∧ memOK (s mode 16).cfg (0xFFFFE + (16 + 0) / 8) = false) ∧
    (2 : Fin 64).val = 2 ∧ (32 : Fin 64).val = 32 := by decide +kernel

theorem witness_ZigZagEncode : (regs 0x8000000000000000 0 0 0).opa.written = true := by decide

theorem witness_ZigZagDecode : (regs 0xFFFFFFFFFFFFFFFF 0 0 0).opa.written = true := by decide

theorem witness_ZigZagDecodeInvertsEncode :
    (regs 0xFFFFFFFF 0 0 0).opa.written = true ∧ (regs 1 0 0 0).opa = ((regs 0xFFFFFFFF 0 0 0).setRes0 1).res0 ∧
    exec .zzenc32 (regs 0xFFFFFFFF 0 0 0) = .next ((regs 0xFFFFFFFF 0 0 0).setRes0 1) :=
  ⟨by decide, by decide, answers_next (by decide +kernel)⟩

theorem witness_VarintSizeIsLeast : (regs 128 0 0 0).opa.written = true := by decide

/-- Operands at their bounds, BASE at the last address of ADDR_W = 32 bits; a start bit and a base one too large; an overlap. -/
theorem witness_BindSetsTheContext :
    let k : Config := { Config.reference with addrW := 32 }
    let s : State := { regs 0xFFFFFFFF 4 32 32 with cfg := k }
    (BindWritten s ∧ BindCap s 32 ∧ BindBase s ∧
      ¬BindOverlaps s 3 .writer s.opa.value.toNat s.opb.value.toNat) ∧
    (¬∃ cap, BindCap (regs 0x1000 4 33 (-1)) cap) ∧ ¬BindBase { regs 0x100000000 4 32 32 with cfg := k } ∧
    (BindOverlaps ((regs 0x1003 1 0 0).setCtx 0 (bound .writer 4 0)) 1 .reader 0x1003 1 ∧
      BindCap ((regs 0x1003 1 0 0).setCtx 0 (bound .writer 4 0)) 0 ∧ BindBase ((regs 0x1003 1 0 0).setCtx 0 (bound .writer 4 0))) := by
  refine ⟨⟨by decide +kernel, by unfold BindCap; decide +kernel, by decide +kernel,
    (bindOverlap_false _ _ _ _ _).1 (by decide +kernel)⟩, ?_, by decide +kernel,
    (bindOverlap_iff _ _ _ _ _).1 (by decide +kernel), by unfold BindCap; decide +kernel, by decide +kernel⟩
  rintro ⟨cap, -, h, h'⟩
  simp [regs] at h h'
  omega

theorem witness_StatusCommandsReport :
    (0 : CtxId).val < (writer 0 0 4 13 []).cfg.nCtx ∧ ((writer 0 0 4 13 []).ctx 0).mode ≠ .unbound := by decide +kernel

theorem witness_BitSignedAndFloatWriters : Ready (writer 5 9 4 3 []) .writer 0 ∧ Fits (writer 5 9 4 3 []) 0 1 ∧
    Ready (writer 5 9 1 8 []) .writer 0 ∧ ¬Fits (writer 5 9 1 8 []) 0 1 := by decide +kernel

/-- 2^3 does not fit in 3 bits, 7 does. -/
theorem witness_WriteUnsigned :
    let s : State := { writer 8 0 4 3 [] with cfg := { Config.reference with debugRangeCheck := true } }
    Ready s .writer 0 ∧ s.opa.written = true ∧ s.cfg.debugRangeCheck = true ∧ 2 ^ 3 ≤ (s.opa.value.setWidth 32).toNat ∧
    ¬2 ^ 3 ≤ ((writer 7 0 4 3 []).opa.value.setWidth 32).toNat := by decide +kernel

theorem witness_FixedWidthRoundTrip :
    let s := writer 5 0 4 3 []
    let t := (s.setCursor 0 6).setMem (cleared 4 [(0x1000, 0x28)])
    Ready s .writer 0 ∧ Fits s 0 3 ∧ Rereads s 0 t (t.setCtx 0 (bound .reader 4 3)) 0 ∧
    (s.opa.value.setWidth 32).toNat < 2 ^ 3 ∧ exec (.wuns 0 3) s = .next t :=
  ⟨by decide +kernel, by decide +kernel, by unfold Rereads; decide +kernel, by decide +kernel, answers_next (by decide +kernel)⟩

theorem witness_FixedWidthRoundTrip_signed :
    let s := writer 0xFFFFFFFC 0 4 3 []
    let t := (s.setCursor 0 6).setMem (cleared 4 [(0x1000, 0x20)])
    Ready s .writer 0 ∧ Fits s 0 3 ∧ Rereads s 0 t (t.setCtx 0 (bound .reader 4 3)) 0 ∧
    -2 ^ (3 - 1) ≤ (s.opa.value.setWidth 32).toInt ∧ (s.opa.value.setWidth 32).toInt < 2 ^ (3 - 1) ∧
    exec (.wsigned 0 3) s = .next t :=
  ⟨by decide +kernel, by decide +kernel, by unfold Rereads; decide +kernel, by decide +kernel, by decide +kernel,
    answers_next (by decide +kernel)⟩

theorem witness_VarintWriters : Ready (writer 300 9 5 0 []) .writer 0 ∧ (writer 300 9 5 0 []).opa.written = true := by
  decide +kernel

theorem size_300 : IsVarintSize 300 2 := ⟨by omega, by omega, fun k _ h => by
  rcases k with _ | _ | k
  · omega
  · omega
  · omega⟩

theorem witness_VarintWriterThatRunsOut :
    Ready (writer 300 0 2 3 []) .writer 0 ∧ ((writer 300 0 2 3 []).ctx 0).cursor ≤ ((writer 300 0 2 3 []).ctx 0).bitCap ∧
    1 = (((writer 300 0 2 3 []).ctx 0).bitCap - ((writer 300 0 2 3 []).ctx 0).cursor) / 8 ∧ 1 < 2 ∧
    IsVarintSize ((writer 300 0 2 3 []).opa.value.setWidth 32).toNat 2 ∧ IsVarintSize (writer 300 0 2 3 []).opa.value.toNat 2 :=
  ⟨by decide +kernel, by decide +kernel, by decide +kernel, by omega, size_300, size_300⟩

theorem witness_VarintRoundTrip :
    let s := writer 300 0 4 3 []
    let t := (s.setCursor 0 19).setMem (cleared 4 [(0x1000, 0x60), (0x1001, 0x15)])
    Ready s .writer 0 ∧ Fits s 0 (8 * 2) ∧ Rereads s 0 t (t.setCtx 0 (bound .reader 4 3)) 0 ∧
    IsVarintSize (s.opa.value.setWidth 32).toNat 2 ∧ exec (.wvar32 0) s = .next t ∧ exec (.wvar64 0) s = .next t :=
  ⟨by decide +kernel, by decide +kernel, by unfold Rereads; decide +kernel, size_300, answers_next (by decide +kernel),
    answers_next (by decide +kernel)⟩

theorem witness_VarintRoundTrip_signed :
    let s := writer 150 0 4 3 []
    let t := (s.setCursor 0 19).setMem (cleared 4 [(0x1000, 0x60), (0x1001, 0x15)])
    Ready s .writer 0 ∧ Fits s 0 (8 * 2) ∧ Rereads s 0 t (t.setCtx 0 (bound .reader 4 3)) 0 ∧
    IsVarintSize (zigzagEnc32 (s.opa.value.setWidth 32)).toNat 2 ∧ IsVarintSize (zigzagEnc64 s.opa.value).toNat 2 ∧
    exec (.wsvar32 0) s = .next t ∧ exec (.wsvar64 0) s = .next t :=
  ⟨by decide +kernel, by decide +kernel, by unfold Rereads; decide +kernel, size_300, size_300, answers_next (by decide +kernel),
    answers_next (by decide +kernel)⟩

/-- The ranges at their first values, on a ready writer. -/
theorem witness_UBitVarWriter :
    Ready (writer 0 0 8 0 []) .writer 0 ∧ ((writer 15 0 8 0 []).opa.value.setWidth 32).toNat = 15 ∧
    Ready (writer 16 0 8 0 []) .writer 0 ∧ ((writer 16 0 8 0 []).opa.value.setWidth 32).toNat = 16 ∧
    Ready (writer 256 0 8 0 []) .writer 0 ∧ ((writer 256 0 8 0 []).opa.value.setWidth 32).toNat = 256 ∧
    Ready (writer 4096 0 8 0 []) .writer 0 ∧ ((writer 4096 0 8 0 []).opa.value.setWidth 32).toNat = 4096 := by
  decide +kernel

theorem witness_UBitVarRoundTrip :
    let s := writer 16 0 4 3 []
    let t := (s.setCursor 0 13).setMem (cleared 4 [(0x1000, 0x08), (0x1001, 0x02)])
    Ready s .writer 0 ∧ Fits s 0 10 ∧ exec (.wubitvar 0) s = .next t ∧ Rereads s 0 t (t.setCtx 0 (bound .reader 4 3)) 0 :=
  ⟨by decide +kernel, by decide +kernel, answers_next (by decide +kernel), by unfold Rereads; decide +kernel⟩

/-- A ready writer whose OPA is a finite value, and one whose OPA is an infinity. -/
theorem witness_CoordWriter : Ready (writer 0xC0100000 0 4 0 []) .writer 0 ∧ Finite32 0xC0100000#32 ∧
    Ready (writer 0x7F800000 0 4 0 []) .writer 0 ∧ ¬Finite32 0x7F800000#32 := by decide +kernel

theorem witness_CoordMpWriter : Ready (writer 5 9 4 3 []) .writer 0 ∧ (writer 5 9 4 3 []).opa.written = true :=
  ⟨ready_writer.1, ready_writer.2.1⟩

theorem witness_AngleAndNormalWriters : (writer 5 9 4 3 []).cfg.valid = true ∧ Ready (writer 5 9 4 3 []) .writer 0 ∧
    (writer 5 9 4 3 []).opa.written = true := ⟨ready_writer.2.2.2, ready_writer.1, ready_writer.2.1⟩

theorem witness_Vec3CoordWriter : Ready (writer 5 9 4 3 []) .writer 0 ∧ (writer 5 9 4 3 []).opa.written = true ∧
    (writer 5 9 4 3 []).opb.written = true := ⟨ready_writer.1, ready_writer.2.1, ready_writer.2.2.1⟩

theorem witness_Vec3NormalWriter : (writer 5 9 1 8 []).cfg.valid = true ∧ Ready (writer 5 9 1 8 []) .writer 0 ∧
    (writer 5 9 1 8 []).opa.written = true ∧ (writer 5 9 1 8 []).opb.written = true :=
  ⟨full_writer.2.2.2, full_writer.1, full_writer.2.1, full_writer.2.2.1⟩

/-- A source in its place, one that ends inside the region, a length one bit too long, and a source whose second byte is
missing. -/
theorem witness_BulkWrite :
    (Ready (writer 0x4000 8 1 0 []) .writer 0 ∧ ((writer 0x4000 8 1 0 []).ctx 0).Ok (writer 0x4000 8 1 0 []).cfg.addrW ∧
      ¬SourceOverlaps (writer 0x4000 8 1 0 []) 0x4000 1 ∧ Fits (writer 0x4000 8 1 0 []) 0 8 ∧
      BytesOK (writer 0x4000 8 1 0 []).cfg 0x4000 1) ∧
    SourceOverlaps (writer 0x0FFF 9 1 0 []) 0x0FFF 2 ∧
    (¬SourceOverlaps (writer 0x4000 9 1 0 []) 0x4000 2 ∧ ¬Fits (writer 0x4000 9 1 0 []) 0 9) ∧
    (Ready (writer 0xFFFFF 9 2 0 []) .writer 0 ∧ ((writer 0xFFFFF 9 2 0 []).ctx 0).Ok (writer 0xFFFFF 9 2 0 []).cfg.addrW ∧
      ¬SourceOverlaps (writer 0xFFFFF 9 2 0 []) 0xFFFFF 2 ∧ Fits (writer 0xFFFFF 9 2 0 []) 0 9 ∧
      BytesOK (writer 0xFFFFF 9 2 0 []).cfg 0xFFFFF 1 ∧ memOK (writer 0xFFFFF 9 2 0 []).cfg (0xFFFFF + 1) = false) :=
  ⟨⟨by decide +kernel, by unfold Ctx.Ok; decide +kernel, (sourceOverlap_false _ _ _).1 (by decide +kernel), by decide +kernel,
      by decide +kernel⟩, (sourceOverlap_iff _ _ _).1 (by decide +kernel),
    ⟨(sourceOverlap_false _ _ _).1 (by decide +kernel), by decide +kernel⟩,
    ⟨by decide +kernel, by unfold Ctx.Ok; decide +kernel, (sourceOverlap_false _ _ _).1 (by decide +kernel), by decide +kernel,
      by decide +kernel, by decide +kernel⟩⟩

/-- "A" at the last byte of memory: the string goes on into a missing byte, or into the region, or ends. -/
theorem witness_StringWrite :
    let s := writer 0xFFFFF 0 4 0 [(0x1004, 0), (0xFFFFF, 0x41)]
    Ready s .writer 0 ∧ s.opa.written = true ∧
    (∀ j < 1, memOK s.cfg (0xFFFFF + j) = true ∧ s.mem.read (0xFFFFF + j) ≠ 0 ∧ ¬SourceOverlaps s (0xFFFFF + j) 1) ∧
    (¬SourceOverlaps s (0xFFFFF + 1) 1 ∧ memOK s.cfg (0xFFFFF + 1) = false) ∧
    SourceOverlaps s 0x1000 1 ∧ (¬SourceOverlaps s 0x1004 1 ∧ memOK s.cfg 0x1004 = true ∧ s.mem.read 0x1004 = 0) := by
  refine ⟨by decide +kernel, by decide, fun j hj => ?_, ⟨(sourceOverlap_false _ _ _).1 (by decide +kernel), by decide +kernel⟩,
    (sourceOverlap_iff _ _ _).1 (by decide +kernel), (sourceOverlap_false _ _ _).1 (by decide +kernel), by decide +kernel,
    by decide +kernel⟩
  obtain rfl : j = 0 := by omega
  exact ⟨by decide +kernel, by decide +kernel, (sourceOverlap_false _ _ _).1 (by decide +kernel)⟩

theorem witness_PrimitiveReaders :
    Ready (reader 0 0 4 3 [(0x1000, 0x45), (0x1001, 0x1F)]) .reader 0 ∧ Ready (reader 0 0 1 8 []) .reader 0 :=
  ⟨ready_reader.1, finished_reader.1⟩

theorem witness_PeekRestores : Ready (reader 0 0 1 7 []) .reader 0 ∧ Fits (reader 0 0 1 7 []) 0 1 ∧
    ¬Fits (reader 0 0 1 7 []) 0 2 := by decide +kernel

theorem witness_VarintReaders : Ready (reader 0 0 1 8 []) .reader 0 := finished_reader.1

theorem witness_UBitVarReader : Ready (reader 0 0 1 8 []) .reader 0 := finished_reader.1

theorem witness_CoordReader : (reader 0 0 1 8 []).cfg.valid = true ∧ Ready (reader 0 0 1 8 []) .reader 0 :=
  ⟨finished_reader.2, finished_reader.1⟩

theorem witness_CoordMpReader : (reader 0 0 1 8 []).cfg.valid = true ∧ Ready (reader 0 0 1 8 []) .reader 0 :=
  ⟨finished_reader.2, finished_reader.1⟩

theorem witness_AngleAndNormalReaders : (reader 0 0 1 8 []).cfg.valid = true ∧ Ready (reader 0 0 1 8 []) .reader 0 :=
  ⟨finished_reader.2, finished_reader.1⟩

theorem witness_Vec3CoordReader : (reader 0 0 1 8 []).cfg.valid = true ∧ Ready (reader 0 0 1 8 []) .reader 0 :=
  ⟨finished_reader.2, finished_reader.1⟩

theorem witness_Vec3NormalReader : (reader 0 0 1 8 []).cfg.valid = true ∧ Ready (reader 0 0 1 8 []) .reader 0 :=
  ⟨finished_reader.2, finished_reader.1⟩

/-- Below the overflow threshold of RNE32, and at it. -/
theorem witness_RoundingIsToNearestEven :
    0 < (⟨1, 3⟩ : Frac).den ∧ (⟨1, 3⟩ : Frac).toRat < 2 ^ 128 - 2 ^ 103 ∧
    2 ^ 128 - 2 ^ 103 ≤ (⟨2 ^ 128 - 2 ^ 103, 1⟩ : Frac).toRat := by
  refine ⟨by decide, ?_, ?_⟩ <;> norm_num [Frac.toRat]

theorem witness_CoordRoundTripWithinResolution :
    let s := writer 0xC0100000 0 4 3 []
    let t := (s.setCursor 0 25).setMem (cleared 4 [(0x1000, 0x78), (0x1002, 0x80)])
    s.cfg.valid = true ∧ Ready s .writer 0 ∧ Fits s 0 (3 + s.cfg.ib + s.cfg.fb) ∧ Finite32 (s.opa.value.setWidth 32) ∧
    mag32 (s.opa.value.setWidth 32) < 2 ^ s.cfg.ib + 1 ∧ exec (.wcoord 0) s = .next t ∧
    Rereads s 0 t (t.setCtx 0 (bound .reader 4 3)) 0 :=
  ⟨by decide +kernel, by decide +kernel, by decide +kernel, by decide +kernel, by decide +kernel,
    answers_next (by decide +kernel), by unfold Rereads; decide +kernel⟩

/-- "hi" and its NUL, and "hi" cut off by the end of the stream, into a destination of which only the bytes stored exist; one
whose NUL has no byte; one whose second byte is missing; one that overlaps the stream. -/
theorem witness_StringReader :
    let s := reader 0xFFFFE 2 3 0 [(0x1000, 0x68), (0x1001, 0x69)]
    let u := reader 0xFFFFE 4 2 0 [(0x1000, 0x68), (0x1001, 0x69)]
    let v := reader 0xFFFFF 4 3 0 [(0x1000, 0x68), (0x1001, 0x69)]
    let w := reader 0xFFFFF 2 1 0 [(0x1000, 0x68)]
    (Ready s .reader 0 ∧ (s.ctx 0).Ok s.cfg.addrW ∧ s.opa.written = true ∧ s.opb.written = true ∧ ¬DestOverlaps s 0xFFFFE 2 ∧
      BytesOK s.cfg 0xFFFFE (min 2 (2 - 1) + 1) ∧
      (∀ j < 2, Fits s 0 (8 * (j + 1)) ∧ ¬streamBits s 0 ((s.ctx 0).cursor + 8 * j) 8 = 0) ∧ Fits s 0 (8 * (2 + 1)) ∧
      streamBits s 0 ((s.ctx 0).cursor + 8 * 2) 8 = 0) ∧
    (Ready u .reader 0 ∧ (∀ j < 2, Fits u 0 (8 * (j + 1)) ∧ ¬streamBits u 0 ((u.ctx 0).cursor + 8 * j) 8 = 0) ∧
      ¬Fits u 0 (8 * (2 + 1)) ∧ ¬DestOverlaps u 0xFFFFE 4 ∧
      BytesOK u.cfg 0xFFFFE 2 ∧ memOK u.cfg (0xFFFFE + 2) = false ∧ 2 < min 2 (4 - 1) + 1) ∧
    (Ready v .reader 0 ∧ (∀ j < 2, Fits v 0 (8 * (j + 1)) ∧ ¬streamBits v 0 ((v.ctx 0).cursor + 8 * j) 8 = 0) ∧
      streamBits v 0 ((v.ctx 0).cursor + 8 * 2) 8 = 0 ∧ ¬DestOverlaps v 0xFFFFF 4 ∧
      BytesOK v.cfg 0xFFFFF 1 ∧ memOK v.cfg (0xFFFFF + 1) = false ∧ 1 < min 2 (4 - 1) + 1) ∧
    (Ready w .reader 0 ∧ (∀ j < 0, Fits w 0 (8 * (j + 1)) ∧ ¬streamBits w 0 ((w.ctx 0).cursor + 8 * j) 8 = 0) ∧
      BytesOK w.cfg 0xFFFFF (min 0 (2 - 1) + 1) ∧ ¬BytesOK w.cfg 0xFFFFF 2) ∧
    DestOverlaps s 0x1002 1 :=
  ⟨⟨by decide +kernel, by unfold Ctx.Ok; decide +kernel, by decide, by decide, (destOverlap_false _ _ _).1 (by decide +kernel),
      by decide +kernel, by decide +kernel, by decide +kernel, by decide +kernel⟩,
    ⟨by decide +kernel, by decide +kernel, by decide +kernel, (destOverlap_false _ _ _).1 (by decide +kernel), by decide +kernel,
      by decide +kernel, by decide⟩,
    ⟨by decide +kernel, by decide +kernel, by decide +kernel, (destOverlap_false _ _ _).1 (by decide +kernel), by decide +kernel,
      by decide +kernel, by decide⟩,
    ⟨by decide +kernel, by decide, by decide +kernel, by decide +kernel⟩, (destOverlap_iff _ _ _).1 (by decide +kernel)⟩

/-- A length that fits and one that does not; a destination that overlaps, and one whose second byte is missing. -/
theorem witness_BulkReaders :
    let s := reader 0x5000 9 2 7 []
    (Ready s .reader 0 ∧ (s.ctx 0).Ok s.cfg.addrW ∧ s.opa.written = true ∧ s.opb.written = true ∧ s.opb.value.toNat < 2 ^ 28 ∧
      ¬DestOverlaps s 0x5000 2 ∧ BytesOK s.cfg 0x5000 2 ∧ Fits s 0 9) ∧
    (¬DestOverlaps s 0x5000 9 ∧ BytesOK s.cfg 0x5000 9 ∧ ¬Fits s 0 (8 * 9)) ∧ DestOverlaps s 0x1001 2 ∧
    (¬DestOverlaps s 0xFFFFF 2 ∧ ¬DestOverlaps s 0xFFFFF 9 ∧ BytesOK s.cfg 0xFFFFF 1 ∧ memOK s.cfg (0xFFFFF + 1) = false) :=
  ⟨⟨by decide +kernel, by unfold Ctx.Ok; decide +kernel, by decide, by decide, by decide +kernel,
      (destOverlap_false _ _ _).1 (by decide +kernel), by decide +kernel, by decide +kernel⟩,
    ⟨(destOverlap_false _ _ _).1 (by decide +kernel), by decide +kernel, by decide +kernel⟩,
    (destOverlap_iff _ _ _).1 (by decide +kernel),
    ⟨(destOverlap_false _ _ _).1 (by decide +kernel), (destOverlap_false _ _ _).1 (by decide +kernel), by decide +kernel,
      by decide +kernel⟩⟩

/-- A target at the end, one just past it, and one before the start. -/
theorem witness_SeekMovesTheCursor :
    let s := reader 16 0 2 13 []
    (0 : CtxId).val < s.cfg.nCtx ∧ (s.ctx 0).mode = .reader ∧ s.opa.written = true ∧
    (((16 : Nat) : Int) = s.opa.value.toInt ∧ 16 ≤ (s.ctx 0).bitCap) ∧
    ((s.ctx 0).bitCap : Int) < (reader 17 0 2 13 []).opa.value.toInt ∧
    ((s.ctx 0).cursor : Int) + (reader (-14) 0 2 13 []).opa.value.toInt < 0 := by decide +kernel

theorem witness_CompareReadsBoth :
    let s := readers 40 0 0 [(0x1000, 0x5A), (0x2000, 0x5A)]
    Ready s .reader 0 ∧ Ready s .reader 1 ∧ (1 : CtxId) ≠ 0 ∧ s.opb.written = true ∧ s.opb.value.toNat < 2 ^ 31 := by
  decide +kernel

theorem witness_CompareIsBitExact :
    let s := readers 4 4 4 [(0x1000, 0xB0), (0x2000, 0xB1)]
    let u := readers 4 4 4 [(0x1000, 0xB0), (0x2000, 0x90)]
    Ready s .reader 0 ∧ Ready s .reader 1 ∧ s.opb.written = true ∧ s.opb.value.toNat < 2 ^ 31 ∧ Fits s 0 4 ∧ Fits s 1 4 ∧
    streamBits s 0 4 4 = streamBits s 1 4 4 ∧ streamBits u 0 4 4 ≠ streamBits u 1 4 4 := by decide +kernel

/-- A state with a bound writer, some memory and an event meets the invariant, and a step of it writes a field. -/
theorem witness_StepKeepsTheInvariant :
    let s := ((writer 1000 0 4 3 [(0x1000, 5)]).setDiag (overrun 0x12)).setInbox [.command 0x000A0012#32]
    s.Inv ∧ step s = .next (((s.setInbox []).setCursor 0 13).setMem (cleared 4 [(0x1000, 0x45), (0x1001, 0x1F)])) := by
  refine ⟨⟨by decide +kernel, by decide +kernel, by decide +kernel, ?_, by decide +kernel, by decide +kernel, by decide +kernel⟩,
    answers_next (by decide +kernel)⟩
  unfold Ctx.Ok
  decide +kernel

theorem witness_OverflowFlagIsSticky :
    let s := (writer 5 0 4 3 []).setOvf 0 true
    let t := (s.setCursor 0 6).setMem (cleared 4 [(0x1000, 0x28)])
    exec (.wuns 0 3) s = .next t ∧ (s.ctx 0).ovf = true ∧
    exec (.rbind 0) ((regs 0x1000 4 0 (-1)).setOvf 0 true) = .next ((regs 0x1000 4 0 (-1)).setCtx 0 (bound .reader 4 0)) ∧
    (s.setInbox [.reset]).inbox = .reset :: [] ∧
    exec (.peekuns 0 9) (reader 0 0 1 0 []) = .next (((reader 0 0 1 0 []).setDiag (overrun 0x44)).setRes0 0) :=
  ⟨answers_next (by decide +kernel), by decide +kernel, answers_next (by decide +kernel), by decide, answers_next (by decide +kernel)⟩

/-- A command that answers, one that is refused and one that is stuck. -/
theorem witness_OverflowFlagGatesNothing :
    let s := writer 5 0 4 3 []
    let u := (regs 1 0 0 0).setCtx 0 { mode := .writer, base := 0xFFFFE, byteCap := 4, bitCap := 32, cursor := 16, ovf := false }
    exec (.wuns 0 3) s = .next ((s.setCursor 0 6).setMem (cleared 4 [(0x1000, 0x28)])) ∧ exec (.runs 0 3) s = .refused .wrongMode ∧
    exec (.wuns 0 8) u = .fault (.missingAddress 0x100000) :=
  ⟨answers_next (by decide +kernel), by rfl, by rfl⟩

theorem witness_DiagnosticTraceGatesNothing :
    let s := writer 5 0 1 7 []
    exec (.wuns 0 3) s = .next (s.overflow 0x12 0 .bufferOverrun) ∧ exec (.runs 0 3) s = .refused .wrongMode :=
  ⟨answers_next (by decide +kernel), by rfl⟩

theorem witness_CommandsTouchOnlyTheirContexts :
    exec (.wuns 0 3) (writer 5 0 1 7 []) = .next ((writer 5 0 1 7 []).overflow 0x12 0 .bufferOverrun) ∧
    (1 : CtxId) ∉ (Instr.wuns 0 3).contexts ∧ (Instr.wuns 0 3).isBind = false := by
  exact ⟨answers_next (by decide +kernel), by decide, by decide⟩

/-- A writer at the last bit before its cursor and the first bit past its capacity; RBITS at the bytes around its destination. -/
theorem witness_MemoryChangesOnlyWhereNamed :
    let s := writer 5 0 4 3 []
    let u := reader 0x5000 9 2 3 [(0x1000, 0x58), (0x1001, 0x0D)]
    exec (.wuns 0 3) s = .next ((s.setCursor 0 6).setMem (cleared 4 [(0x1000, 0x28)])) ∧ (0 : CtxId) ∈ (Instr.wuns 0 3).contexts ∧
    0x8002 < 8 * (s.ctx 0).base + (s.ctx 0).cursor ∧ 8 * (s.ctx 0).base + (s.ctx 0).bitCap ≤ 0x8020 ∧
    exec (.rbits 0) u = .next ((u.setCursor 0 12).setMem [(0x1000, 0x58), (0x1001, 0x0D), (0x5000, 0xAB), (0x5001, 0x01)]) ∧
    0x4FFF < u.opa.value.toNat ∧ u.opa.value.toNat + (u.opb.value.toNat + 7) / 8 ≤ 0x5002 ∧
    exec .zzenc32 (regs 1 0 0 0) = .next ((regs 1 0 0 0).setRes0 2) :=
  ⟨answers_next (by decide +kernel), by decide, by decide +kernel, by decide +kernel, answers_next (by decide +kernel),
    by decide +kernel, by decide +kernel, answers_next (by decide +kernel)⟩

theorem witness_ResultRegistersAndTrace :
    exec (.getcap 0) (writer 0 0 4 13 []) = .next (((writer 0 0 4 13 []).setRes0 32).setRes1 4) ∧
    exec (.wuns 0 3) (writer 5 0 1 7 []) = .next ((writer 5 0 1 7 []).overflow 0x12 0 .bufferOverrun) ∧
    (Instr.getcap 0).writesRes1 = true ∧ (Instr.wuns 0 3).writesRes0 = false :=
  ⟨answers_next (by decide +kernel), answers_next (by decide +kernel), by decide, by decide⟩

end Sys2Proof.Tests
end

section
/-! O45: RNE32, RNE64 and SQRT32 round to nearest, ties to even (00_scope.md R12). -/

namespace Sys2Proof.Proofs

open Sys2Proof.Machine

/-- Settles O45, one law of the floating-point layer per part. Those for RNE32 and SQRT32 are about a pattern with a chosen
sign, and the obligation's patterns are those with the sign clear (`withSign_false`). -/
theorem roundingIsToNearestEven : Obligations.RoundingIsToNearestEven := by
  intro x hden
  refine ⟨fun hsmall => ?rne32, fun hlarge => (rne32_overflow x hden hlarge).1, (rne64_spec x hden).1, fun hlt => ?sqrt32⟩
  case rne32 =>
    rw [← withSign_false]
    exact rne32_spec false x hden hsmall
  case sqrt32 =>
    rw [← withSign_false]
    exact sqrt32_spec false x hden hlt

end Sys2Proof.Proofs
end

section
/-! SUPPORT. All that a command which answers a next state can do to the machine: one lemma for the binds, one for every
other command, the two put together (`exec_cases`), and what a step does with each action of the host. -/

namespace Sys2Proof.Proofs

open Sys2Proof.Machine

/-! ### Partial runs -/

/-- Whatever value the rest of a command yields satisfies P. -/
def Leaves {α : Type} (P : α → Prop) (x : Exec α) : Prop := ∀ a, x = .ok a → P a

theorem Leaves.ok {α : Type} {P : α → Prop} {a : α} (h : P a) : Leaves P (.ok a) :=
  fun _ e => Except.ok.inj e ▸ h

/-- The rule for a sequence of two parts. -/
theorem Leaves.bind {α β : Type} {P : β → Prop} {x : Exec α} {f : α → Exec β}
    (h : ∀ a, x = .ok a → Leaves P (f a)) : Leaves P (x >>= f) := fun b e =>
  let ⟨a, ex, ef⟩ := exec_bind_eq_ok.1 e
  h a ex b ef

/-- A part whose value does not matter. -/
theorem Leaves.check {α β : Type} {P : β → Prop} {x : Exec α} {f : α → Exec β} (h : ∀ a, Leaves P (f a)) :
    Leaves P (x >>= f) :=
  .bind fun a _ => h a

/-- After the mode check the context is known to be bound in that mode. -/
theorem Leaves.mode {β : Type} {P : β → Prop} {m : Mode} {c : CtxId} {s : State} {f : Unit → Exec β}
    (h : (s.ctx c).mode = m → Leaves P (f ())) : Leaves P (needMode m c s >>= f) :=
  .bind fun _ e => h (needMode_eq_ok.1 e)

theorem Leaves.ite {α : Type} {P : α → Prop} {p : Prop} [Decidable p] {x y : Exec α} (hx : p → Leaves P x)
    (hy : ¬p → Leaves P y) : Leaves P (if p then x else y) := by
  split
  · exact hx ‹_›
  · exact hy ‹_›

/-- A command whose run leaves P leaves it in its next state. -/
theorem Leaves.next {P : State → Prop} {x : Exec State} {t : State} (e : finish x = .next t) (h : Leaves P x) : P t :=
  h t (finish_eq_next.1 e)

/-! ### Commands other than the binds -/

/-- `u` is `s` after accesses of the command i to the streams and buffers it names: the frame of these accesses, the
result registers as they were; and the contexts it names were bound. -/
structure Accessed (i : Instr) (s u : State) : Prop extends Frame i.opcode i.contexts s u where
  named : ∀ c ∈ i.contexts, (s.ctx c).mode ≠ .unbound
  res0 : u.res0 = s.res0
  res1 : u.res1 = s.res1

/-- All that a command i other than a bind can do from s to t: the frame of its accesses, and the result registers that
30_encoding.md R91 gives it written, the others as they were. The contexts it names were bound. -/
structure CommandFrame (i : Instr) (s t : State) : Prop extends Frame i.opcode i.contexts s t where
  named : ∀ c ∈ i.contexts, (s.ctx c).mode ≠ .unbound
  res0Written : i.writesRes0 = true → t.res0.written = true
  res0Kept : i.writesRes0 = false → t.res0 = s.res0
  res1Written : i.writesRes1 = true → t.res1.written = true
  res1Kept : i.writesRes1 = false → t.res1 = s.res1

section
variable {i : Instr} {c : CtxId} {s u : State}

/-- No access at all. -/
theorem Accessed.none (hn : ∀ c ∈ i.contexts, (s.ctx c).mode ≠ .unbound) : Accessed i s s :=
  ⟨Frame.refl _ _ _, hn, rfl, rfl⟩

/-- Accesses to the stream of the one context the command names. -/
theorem Accessed.stream (hc : i.contexts = [c]) (hm : (s.ctx c).mode ≠ .unbound) (hf : StreamFrame i.opcode c s u)
    (hk : Keeps s.cfg s.mem u.mem) : Accessed i s u :=
  ⟨hf.frame (hc ▸ List.mem_singleton_self c) hk, fun _ hd => List.mem_singleton.1 (hc ▸ hd) ▸ hm, hf.res0, hf.res1⟩

theorem Accessed.writes (hc : i.contexts = [c]) (hm : (s.ctx c).mode = .writer) (h : WriteFrame i.opcode c s u) :
    Accessed i s u :=
  .stream hc (by simp [hm]) h.toStreamFrame h.keeps

theorem Accessed.reads (hc : i.contexts = [c]) (hm : (s.ctx c).mode = .reader) (h : ReadFrame i.opcode c s u) :
    Accessed i s u :=
  .stream hc (by simp [hm]) h.1 (h.2.1 ▸ Keeps.refl _ _)

/-- A command without a result. -/
theorem Accessed.noResult (h : Accessed i s u) (h0 : i.writesRes0 = false) (h1 : i.writesRes1 = false) :
    CommandFrame i s u :=
  ⟨h.toFrame, h.named, by simp [h0], fun _ => h.res0, by simp [h1], fun _ => h.res1⟩

/-- A command whose result is RES0. -/
theorem Accessed.oneResult (h : Accessed i s u) (v : Word64) (h0 : i.writesRes0 = true) (h1 : i.writesRes1 = false) :
    CommandFrame i s (u.setRes0 v) :=
  ⟨h.toFrame.setRes0 v, h.named, fun _ => rfl, by simp [h0], by simp [h1], fun _ => h.res1⟩

/-- A command whose results are RES0 and RES1. -/
theorem Accessed.twoResults (h : Accessed i s u) (v w : Word64) (h0 : i.writesRes0 = true) (h1 : i.writesRes1 = true) :
    CommandFrame i s ((u.setRes0 v).setRes1 w) :=
  ⟨(h.toFrame.setRes0 v).setRes1 w, h.named, fun _ => rfl, by simp [h0], fun _ => rfl, by simp [h1]⟩

end

/-! ### The commands whose last part is not one shared operation -/

/-- Putting CURSOR and OVF of c back undoes what a stream access did to the contexts. -/
theorem ctx_restored {op : BitVec 8} {c : CtxId} {s u : State} (h : StreamFrame op c s u) (d : CtxId) :
    ((u.setCursor c (s.ctx c).cursor).setOvf c (s.ctx c).ovf).ctx d = s.ctx d := by
  by_cases hd : d = c
  · subst hd; rw [ctx_setOvf_same, ctx_setCursor_same, h.self]
  · rw [ctx_setOvf_other _ _ _ _ hd, ctx_setCursor_other _ _ _ _ hd, h.other d hd]

/-- Putting CURSOR and OVF of c back keeps the frame (43_reader.md R215). -/
theorem restored_frame {op : BitVec 8} {c : CtxId} {s u : State} (h : ReadFrame op c s u) :
    ReadFrame op c s ((u.setCursor c (s.ctx c).cursor).setOvf c (s.ctx c).ovf) := by
  obtain ⟨hs, hm, hk⟩ := h
  have hc := ctx_restored hs
  exact ⟨⟨hs.cfg, hs.opa, hs.opb, hs.opc, hs.opd, hs.res0, hs.res1, hs.inbox, fun d _ => hc d, by rw [hc],
    by rw [hc]; exact id, by rw [hc]; exact id, hs.diag⟩, hm, hk⟩

/-- WBITS writes all its bits or is an error (41_writer.md R150). -/
theorem execWbits_frame {c : CtxId} {s t : State} (h : execWbits c s = .next t) : CommandFrame (.wbits c) s t := by
  refine Leaves.next h <| .check fun _ => .check fun _ => .check fun _ => .check fun _ => .mode fun hm =>
    .check fun _ => .ite (fun _ => .ok ?full) fun hf => .bind fun m e => .ok ?fits
  case full => exact (Accessed.stream rfl (by simp [hm]) (overflow_frame _ _ _ _) (Keeps.refl _ _)).noResult rfl rfl
  case fits =>
    have hs := setCursor_frame (Instr.wbits c).opcode c _ s fun _ => not_lt.1 hf
    exact (Accessed.stream rfl (by simp [hm]) (hs.trans (setMem_frame _ _ _ m)) (copyBits_inv e).1).noResult rfl rfl

/-- RUBITVAR reads six bits and, for a selector that is not 0, seeks back four and reads the payload (43_reader.md
R221). -/
theorem execRubitvar_frame {c : CtxId} {s t : State} (h : execRubitvar c s = .next t) :
    CommandFrame (.rubitvar c) s t := by
  refine Leaves.next h <| .check fun _ => .mode fun hm => .bind fun ⟨six, u⟩ e => .ite (fun _ => .ok ?short) fun _ =>
    .bind fun ⟨v, w⟩ e' => .ok ?long
  case short => exact (Accessed.reads rfl hm (rd_frame e)).oneResult _ rfl rfl
  case long =>
    have hback : ReadFrame (Instr.rubitvar c).opcode c u (u.setCursor c ((u.ctx c).cursor - 4)) :=
      ⟨setCursor_frame _ _ _ _ fun hb => (Nat.sub_le _ _).trans hb, rfl, rfl⟩
    exact (Accessed.reads rfl hm (ReadFrame.trans (rd_frame e) (hback.trans (rd_frame e')))).oneResult _ rfl rfl

/-- RSTRING stores the string's bytes in its destination and then the NUL (43_reader.md R222). -/
theorem execRstring_frame {c : CtxId} {nl : Bool} {s t : State} (h : execRstring c nl s = .next t) :
    CommandFrame (.rstring c nl) s t := by
  refine Leaves.next h <| .check fun _ => .check fun _ => .check fun len => .bind fun _ hlen => .mode fun hm =>
    .check fun _ => .bind fun ⟨i, b, u⟩ e => .bind fun m em => .ok ?_
  obtain ⟨hs, hk, -, -⟩ := readString_frame (by have := require_eq_ok.1 hlen; omega) e
  obtain ⟨hok, rfl⟩ := memWrite_inv em
  exact (Accessed.stream rfl (by simp [hm]) (hs.trans (setMem_frame _ _ _ _))
    (hk.trans (hs.cfg ▸ keeps_write _ _ _ _ hok))).twoResults _ _ rfl rfl

/-- RVEC3COORD reads three presence flags and the present axes (44_reader_quant.md R267). -/
theorem execRvec3coord_frame {c : CtxId} {s t : State} (h : execRvec3coord c s = .next t) :
    CommandFrame (.rvec3coord c) s t := by
  refine Leaves.next h <| .check fun _ => .mode fun hm => .bind fun ⟨px, u₁⟩ e₁ => .bind fun ⟨py, u₂⟩ e₂ =>
    .bind fun ⟨pz, u₃⟩ e₃ => .bind fun ⟨x, u₄⟩ e₄ => .bind fun ⟨y, u₅⟩ e₅ => .bind fun ⟨z, u₆⟩ e₆ => .ok ?_
  have hflags := ReadFrame.trans (rd_frame e₁) (ReadFrame.trans (rd_frame e₂) (rd_frame e₃))
  have haxes := ReadFrame.trans (axisGet_frame coordGet_frame e₄)
    (ReadFrame.trans (axisGet_frame coordGet_frame e₅) (axisGet_frame coordGet_frame e₆))
  exact (Accessed.reads rfl hm (hflags.trans haxes)).twoResults _ _ rfl rfl

/-- RVEC3NORMAL reads two presence flags, the present axes and the sign of z (44_reader_quant.md R268). -/
theorem execRvec3normal_frame {c : CtxId} {s t : State} (h : execRvec3normal c s = .next t) :
    CommandFrame (.rvec3normal c) s t := by
  refine Leaves.next h <| .check fun _ => .mode fun hm => .bind fun ⟨px, u₁⟩ e₁ => .bind fun ⟨py, u₂⟩ e₂ =>
    .bind fun ⟨x, u₃⟩ e₃ => .bind fun ⟨y, u₄⟩ e₄ => .bind fun ⟨zs, u₅⟩ e₅ => .ok ?_
  have hflags := ReadFrame.trans (rd_frame e₁) (rd_frame e₂)
  have haxes := ReadFrame.trans (axisGet_frame normalGet_frame e₃) (axisGet_frame normalGet_frame e₄)
  exact (Accessed.reads rfl hm (hflags.trans (haxes.trans (rd_frame e₅)))).twoResults _ _ rfl rfl

/-- CMPBITS reads from both its contexts, which are readers (43_reader.md R227). -/
theorem execCmpbits_frame {c c2 : CtxId} {s t : State} (h : execCmpbits c c2 s = .next t) :
    CommandFrame (.cmpbits c c2) s t := by
  refine Leaves.next h <| .check fun _ => .check fun _ => .check fun _ => .check fun _ => .check fun _ =>
    .mode fun hm => .mode fun hm2 => .bind fun ⟨d, u⟩ e => .ok ?_
  obtain ⟨hf, -, h1⟩ := compareFrom_frame e
  refine ⟨hf.setRes0 _, fun b hb => ?named, fun _ => rfl, Bool.noConfusion, Bool.noConfusion, fun _ => h1⟩
  case named =>
    obtain rfl | rfl : b = c ∨ b = c2 := by simpa [Instr.contexts] using hb
    · simp [hm]
    · simp [hm2]

/-! ### Every command -/

/-- A command other than a bind keeps its frame. The arms with one proof are the commands of one shape: the checks, the
shared operation that does the work, the result. -/
theorem exec_frame {i : Instr} {s t : State} (hb : i.isBind = false) (h : exec i s = .next t) : CommandFrame i s t :=
  match i with
  | .wbind _ | .rbind _ => Bool.noConfusion hb
  | .zzenc32 | .zzdec32 | .zzenc64 | .zzdec64 | .vsize32 | .vsize64 =>
    Leaves.next h <| .check fun _ => .ok <| (Accessed.none (by simp [Instr.contexts])).oneResult _ rfl rfl
  | .getbits c | .getbytes c | .getbitsleft c | .getbytesleft c | .getovf c =>
    Leaves.next h <| .check fun _ => .bind fun _ hm => .ok <|
      (Accessed.none (by simpa [Instr.contexts] using hm)).oneResult _ rfl rfl
  | .getcap c =>
    Leaves.next h <| .check fun _ => .bind fun _ hm => .ok <|
      (Accessed.none (by simpa [Instr.contexts] using hm)).twoResults _ _ rfl rfl
  | .wbit c | .wfloat c =>
    Leaves.next h <| .check fun _ => .check fun _ => .mode fun hm _ e =>
      (Accessed.writes rfl hm (wr_frame e).1).noResult rfl rfl
  | .wsigned c nb =>
    Leaves.next h <| .check fun _ => .check fun _ => .check fun _ => .mode fun hm _ e =>
      (Accessed.writes rfl hm (wr_frame e).1).noResult rfl rfl
  | .wuns c nb =>
    Leaves.next h <| .check fun _ => .check fun _ => .check fun _ => .mode fun hm _ e =>
      (Accessed.writes rfl hm ((rangeCheck_frame _ _ _ _ _).trans (wr_frame e).1)).noResult rfl rfl
  | .wangle c nb =>
    Leaves.next h <| .check fun _ => .check fun _ => .check fun _ => .mode fun hm _ e =>
      (Accessed.writes rfl hm ((setDraws_frame _ _ _ _).trans (wr_frame e).1)).noResult rfl rfl
  | .wvar32 c | .wvar64 c | .wsvar32 c | .wsvar64 c =>
    Leaves.next h <| .check fun _ => .check fun _ => .mode fun hm _ e =>
      (Accessed.writes rfl hm (varPut_frame e)).noResult rfl rfl
  | .wubitvar c =>
    Leaves.next h <| .check fun _ => .check fun _ => .mode fun hm _ e =>
      (Accessed.writes rfl hm (wrAll_frame _ e).1).noResult rfl rfl
  | .wcoord c | .wcoordmp c _ _ | .wnormal c =>
    Leaves.next h <| .check fun _ => .check fun _ => .mode fun hm _ e =>
      (Accessed.writes rfl hm ((setDraws_frame _ _ _ _).trans (wrAll_frame _ e).1)).noResult rfl rfl
  | .wvec3coord c | .wvec3normal c =>
    Leaves.next h <| .check fun _ => .check fun _ => .check fun _ => .mode fun hm _ e =>
      (Accessed.writes rfl hm ((setDraws_frame _ _ _ _).trans (wrAll_frame _ e).1)).noResult rfl rfl
  | .wbits _ => execWbits_frame h
  | .wstring c =>
    Leaves.next h <| .check fun _ => .check fun _ => .mode fun hm => .check fun _ _ e =>
      (Accessed.writes rfl hm (wrAll_frame _ e).1).noResult rfl rfl
  | .rbit c | .rfloat c =>
    Leaves.next h <| .check fun _ => .mode fun hm => .bind fun ⟨_, _⟩ e => .ok <|
      (Accessed.reads rfl hm (rd_frame e)).oneResult _ rfl rfl
  | .runs c nb | .rsigned c nb | .rangle c nb =>
    Leaves.next h <| .check fun _ => .check fun _ => .mode fun hm => .bind fun ⟨_, _⟩ e => .ok <|
      (Accessed.reads rfl hm (rd_frame e)).oneResult _ rfl rfl
  | .peekuns c nb =>
    Leaves.next h <| .check fun _ => .check fun _ => .mode fun hm => .bind fun ⟨_, _⟩ e => .ok <|
      (Accessed.reads rfl hm (restored_frame (rd_frame e))).oneResult _ rfl rfl
  | .rvar32 c | .rvar64 c | .rsvar32 c | .rsvar64 c =>
    Leaves.next h <| .check fun _ => .mode fun hm => .bind fun ⟨_, _⟩ e => .ok <|
      (Accessed.reads rfl hm (varGetFrom_frame e)).oneResult _ rfl rfl
  | .rubitvar _ => execRubitvar_frame h
  | .rcoord c =>
    Leaves.next h <| .check fun _ => .mode fun hm => .bind fun ⟨_, _⟩ e => .ok <|
      (Accessed.reads rfl hm (coordGet_frame e)).oneResult _ rfl rfl
  | .rcoordmp c _ _ =>
    Leaves.next h <| .check fun _ => .mode fun hm => .bind fun ⟨_, _⟩ e => .ok <|
      (Accessed.reads rfl hm (coordMpGet_frame e)).oneResult _ rfl rfl
  | .rnormal c =>
    Leaves.next h <| .check fun _ => .mode fun hm => .bind fun ⟨_, _⟩ e => .ok <|
      (Accessed.reads rfl hm (normalGet_frame e)).oneResult _ rfl rfl
  | .rvec3coord _ => execRvec3coord_frame h
  | .rvec3normal _ => execRvec3normal_frame h
  | .rstring _ _ => execRstring_frame h
  | .rbytes c | .rbits c =>
    Leaves.next h <| .check fun _ => .check fun _ => .check fun _ => .check fun _ => .mode fun hm _ e =>
      have ⟨hs, hk, _⟩ := readBulk_frame e
      (Accessed.stream rfl (by simp [hm]) hs hk).noResult rfl rfl
  | .seek c | .seekrel c =>
    Leaves.next h <| .check fun _ => .check fun _ => .mode fun hm => .ok <|
      (Accessed.reads rfl hm (seekTo_frame _ _ _ _)).noResult rfl rfl
  | .cmpbits _ _ => execCmpbits_frame h

/-! ### The binds -/

/-- All that a completed bind of c as `mode` from s to t shows and does (41_writer.md R140, 43_reader.md R210): its
operands were legal, no region overlapped, and context c was set. -/
structure BindFrame (mode : Mode) (c : CtxId) (cap : Nat) (s t : State) : Prop where
  legal : c.val < s.cfg.nCtx
  base : BindBase s
  bytes : s.opb.value.toNat ≤ 2 ^ 28 - 1
  capacity : bindCapacity s.opb.value.toNat s.opd.value.toInt = some cap
  start : s.opc.value.toNat ≤ cap
  apart : ¬BindOverlaps s c mode s.opa.value.toNat s.opb.value.toNat
  next : t = s.setCtx c (boundCtx mode s.opa.value.toNat s.opb.value.toNat cap s.opc.value.toNat)

theorem bindAs_frame (mode : Mode) (c : CtxId) (s : State) :
    Leaves (fun t => ∃ cap, BindFrame mode c cap s t) (bindAs mode c s) := by
  refine Leaves.bind fun _ hc => .bind fun base ha => .bind fun bytes hb => .bind fun start hp => .bind fun ovr ho =>
    .bind fun _ hbase => .bind fun _ hbytes => ?_
  obtain ⟨-, rfl⟩ := operand_eq_ok.1 ha
  obtain ⟨-, rfl⟩ := operand_eq_ok.1 hb
  obtain ⟨-, rfl⟩ := operand_eq_ok.1 hp
  obtain ⟨-, rfl⟩ := operand_eq_ok.1 ho
  split
  case h_1 => exact fun _ e => by simp at e
  case h_2 cap hcap =>
    exact .bind fun _ hstart => .bind fun _ hover => .ok ⟨cap, needCtx_eq_ok.1 hc, require_eq_ok.1 hbase,
      require_eq_ok.1 hbytes, hcap, require_eq_ok.1 hstart,
      (bindOverlap_false _ _ _ _ _).1 (require_eq_ok.1 hover), rfl⟩

/-- The capacity of a bind is at most the bits of its buffer (10_state.md R34). -/
theorem bindCapacity_le {bytes cap : Nat} {ovr : Int} (h : bindCapacity bytes ovr = some cap) : cap ≤ 8 * bytes := by
  unfold bindCapacity at h
  split at h
  · exact (Option.some.inj h).ge
  · split at h
    · have := Option.some.inj h; omega
    · simp at h

/-- i is the bind of context c as that mode. -/
inductive IsBindOf : Instr → Mode → CtxId → Prop where
  | wbind (c : CtxId) : IsBindOf (.wbind c) .writer c
  | rbind (c : CtxId) : IsBindOf (.rbind c) .reader c

section
variable {i : Instr} {mode : Mode} {c : CtxId}

theorem IsBindOf.isBind (h : IsBindOf i mode c) : i.isBind = true := by cases h <;> rfl
theorem IsBindOf.contexts (h : IsBindOf i mode c) : i.contexts = [c] := by cases h <;> rfl
theorem IsBindOf.writesRes0 (h : IsBindOf i mode c) : i.writesRes0 = false := by cases h <;> rfl
theorem IsBindOf.writesRes1 (h : IsBindOf i mode c) : i.writesRes1 = false := by cases h <;> rfl
theorem IsBindOf.mode_bound (h : IsBindOf i mode c) : mode ≠ .unbound := by cases h <;> decide

theorem IsBindOf.exec_eq (h : IsBindOf i mode c) (s : State) : exec i s = finish (bindAs mode c s) := by
  cases h <;> rfl

end

theorem isBind_cases (i : Instr) : i.isBind = false ∨ ∃ mode c, IsBindOf i mode c := by
  unfold Instr.isBind
  split
  case h_1 c => exact .inr ⟨_, c, .wbind c⟩
  case h_2 c => exact .inr ⟨_, c, .rbind c⟩
  case h_3 => exact .inl rfl

/-- All that a command can do: it is a bind and sets one context, or it keeps its frame. -/
theorem exec_cases {i : Instr} {s t : State} (h : exec i s = .next t) :
    CommandFrame i s t ∨ ∃ mode c cap, IsBindOf i mode c ∧ BindFrame mode c cap s t := by
  rcases isBind_cases i with hb | ⟨mode, c, hb⟩
  · exact .inl (exec_frame hb h)
  · obtain ⟨cap, hf⟩ := Leaves.next (hb.exec_eq s ▸ h) (bindAs_frame mode c s)
    exact .inr ⟨mode, c, cap, hb, hf⟩

/-! ### One step, by the host's next action -/

section
variable {s : State} {rest : List HostAction}

theorem step_idle (h : s.inbox = []) : step s = .next s := by rw [step, h]

theorem step_writeOperand {r : OperandName} {v : Word64} (h : s.inbox = .writeOperand r v :: rest) :
    step s = .next ((s.setInbox rest).writeOperand r v) := by rw [step, h]

theorem step_writeByte {a : Nat} {b : Byte} (h : s.inbox = .writeByte a b :: rest) :
    step s = finish (hostWriteByte a b (s.setInbox rest)) := by rw [step, h]

theorem step_reset (h : s.inbox = .reset :: rest) : step s = .next (s.setInbox rest).hostReset := by rw [step, h]

theorem step_command {w : Word32} (h : s.inbox = .command w :: rest) : step s = runWord w (s.setInbox rest) := by
  rw [step, h]

end

/-- All that a command word can do: it is the word of some command, which runs. -/
theorem runWord_inv {w : Word32} {s t : State} (h : runWord w s = .next t) :
    ∃ i, decode w = .ok i ∧ exec i s = .next t := by
  unfold runWord at h
  split at h
  case h_1 i hi => exact ⟨i, hi, h⟩
  case h_2 => simp at h

end Sys2Proof.Proofs
end

section
/-! O57, O59, O54 and O11: what each command leaves of the state (10_state.md R30 to R45), read off from
`exec_cases`; and when a command that reads an operand register is refused (R39). -/

namespace Sys2Proof.Proofs

open Sys2Proof.Machine

/-! ### Contexts, operand registers, results and DIAG -/

/-- Settles O57: the frame of a command says it, and a bind sets one context only. -/
theorem commandsTouchOnlyTheirContexts : Obligations.CommandsTouchOnlyTheirContexts := by
  intro i s t h
  rcases exec_cases h with hf | ⟨mode, c, cap, hb, hf⟩
  · exact ⟨hf.other, fun _ => hf.ctx, hf.cfg, hf.inbox⟩
  · obtain rfl := hf.next
    refine ⟨fun d hd => ?_, by simp [hb.isBind], rfl, rfl⟩
    exact ctx_setCtx_other _ _ _ _ (by simpa [hb.contexts] using hd)

/-- Settles O59: the frame of a command says it, and a bind writes no result and is no error. -/
theorem resultRegistersAndTrace : Obligations.ResultRegistersAndTrace := by
  intro i s t h
  rcases exec_cases h with hf | ⟨mode, c, cap, hb, hf⟩
  · exact ⟨hf.res0Written, hf.res0Kept, hf.res1Written, hf.res1Kept, hf.diag⟩
  · obtain rfl := hf.next
    exact ⟨by simp [hb.writesRes0], fun _ => rfl, by simp [hb.writesRes1], fun _ => rfl, [], by simp, by simp,
      fun _ => rfl⟩

/-- A bind of context c leaves OVF of c clear (10_state.md R36). -/
theorem BindFrame.ovf {mode : Mode} {c : CtxId} {cap : Nat} {s t : State} (h : BindFrame mode c cap s t) :
    (t.ctx c).ovf = false := by
  rw [h.next, ctx_setCtx_same]; rfl

theorem IsBindOf.ovf_cleared {i : Instr} {mode : Mode} {c : CtxId} {s t : State} (hb : IsBindOf i mode c)
    (h : exec i s = .next t) : (t.ctx c).ovf = false :=
  have ⟨_, hf⟩ := Leaves.next (hb.exec_eq s ▸ h) (bindAs_frame mode c s)
  hf.ovf

/-- PEEKUNS leaves every context as it was (43_reader.md R215). -/
theorem execPeekuns_ctx {c : CtxId} {nb : Fin 64} {s t : State} (h : execPeekuns c nb s = .next t) (d : CtxId) :
    t.ctx d = s.ctx d :=
  Leaves.next (P := fun t => t.ctx d = s.ctx d) h <| .check fun _ => .check fun _ => .check fun _ =>
    .bind fun ⟨_, _⟩ e => .ok (ctx_restored (rd_frame e).1 d)

/-- Settles O54: an access never clears OVF, a bind of another context leaves it, and a bind of this one, a reset and
PEEKUNS do what their context then shows. -/
theorem overflowFlagIsSticky : Obligations.OverflowFlagIsSticky := by
  refine ⟨fun i s t c h hw hr hovf => ?sticky, fun s t c h => ?bind, fun s t rest c hin h => ?reset,
    fun s t c d nb h => by rw [execPeekuns_ctx h]⟩
  case sticky =>
    rcases exec_cases h with hf | ⟨mode, d, cap, hb, hf⟩
    · exact hf.ovf c hovf
    · have hne : c ≠ d := by rintro rfl; cases hb <;> contradiction
      rwa [hf.next, ctx_setCtx_other _ _ _ _ hne]
  case bind => exact h.elim (IsBindOf.wbind c).ovf_cleared (IsBindOf.rbind c).ovf_cleared
  case reset =>
    rw [step_reset hin] at h
    obtain rfl := Host.Outcome.next.inj h
    rw [ctx_hostReset]; rfl

/-! ### Operand registers -/

theorem exec_operandReg {i : Instr} {s t : State} (h : exec i s = .next t) (r : OperandName) :
    t.operandReg r = s.operandReg r := by
  rcases exec_cases h with hf | ⟨mode, c, cap, hb, hf⟩
  · cases r <;> [exact hf.opa; exact hf.opb; exact hf.opc; exact hf.opd]
  · rw [hf.next]; cases r <;> rfl

/-- Some of these operand registers has not been written. -/
def Unwritten (s : State) (rs : List OperandName) : Prop := ∃ r ∈ rs, (s.operandReg r).written = false

/-- A command reads r, where one of r and rs has not been written: it is refused there, or one of rs has not been
written. -/
theorem refused_operand {r : OperandName} {rs : List OperandName} {s : State} {β : Type} {f : Word64 → Exec β}
    (h : Unwritten s (r :: rs)) (hf : Unwritten s rs → ∀ v, Refused (f v)) : Refused (operand r s >>= f) := by
  refine refused_bind (isCheck_operand r s) fun v e => hf ?_ v
  obtain ⟨r', hr', hw⟩ := h
  rcases List.mem_cons.1 hr' with rfl | hr'
  · rw [operand_neg hw] at e; simp at e
  · exact ⟨r', hr', hw⟩

theorem not_unwritten_nil {s : State} {P : Prop} (h : Unwritten s []) : P :=
  absurd h (by simp [Unwritten])

/-- A command is refused when, whatever a check of it answers, it is refused after that check. -/
theorem refused_check {α β : Type} {x : Exec α} {f : α → Exec β} (hx : IsCheck x) (hf : ∀ a, Refused (f a)) :
    Refused (x >>= f) :=
  refused_bind hx fun a _ => hf a

/-- A command that reads an operand register which has not been written is refused: only checks come before its
reads. -/
theorem exec_refused_of_unwritten (i : Instr) (s : State) (h : Unwritten s i.reads) : ∃ e, exec i s = .refused e :=
  match i with
  | .zzenc32 | .zzdec32 | .zzenc64 | .zzdec64 | .vsize32 | .vsize64 =>
    finish_of_refused <| refused_operand h not_unwritten_nil
  | .wbind c | .rbind c =>
    finish_of_refused <| refused_check (isCheck_needCtx c s) fun _ => refused_operand h fun h _ =>
      refused_operand h fun h _ => refused_operand h fun h _ => refused_operand h not_unwritten_nil
  | .wbit c | .wvar32 c | .wvar64 c | .wsvar32 c | .wsvar64 c | .wubitvar c | .wcoord c | .wcoordmp c _ _ | .wfloat c
  | .wnormal c | .wstring c | .seek c | .seekrel c =>
    finish_of_refused <| refused_check (isCheck_needCtx c s) fun _ => refused_operand h not_unwritten_nil
  | .wuns c nb | .wsigned c nb | .wangle c nb =>
    finish_of_refused <| refused_check (isCheck_needCtx c s) fun _ => refused_check (isCheck_needCount nb) fun _ =>
      refused_operand h not_unwritten_nil
  | .wvec3coord c | .wvec3normal c | .wbits c | .rstring c _ | .rbytes c | .rbits c =>
    finish_of_refused <| refused_check (isCheck_needCtx c s) fun _ => refused_operand h fun h _ =>
      refused_operand h not_unwritten_nil
  | .cmpbits c c2 =>
    finish_of_refused <| refused_check (isCheck_needCtx c s) fun _ => refused_check (isCheck_needCtx c2 s) fun _ =>
      refused_check (isCheck_require _ _) fun _ => refused_operand h not_unwritten_nil
  | .getbits _ | .getbytes _ | .getbitsleft _ | .getbytesleft _ | .getcap _ | .getovf _ | .rbit _ | .runs _ _
  | .rsigned _ _ | .peekuns _ _ | .rvar32 _ | .rvar64 _ | .rsvar32 _ | .rsvar64 _ | .rubitvar _ | .rcoord _
  | .rcoordmp _ _ _ | .rangle _ _ | .rfloat _ | .rnormal _ | .rvec3coord _ | .rvec3normal _ => not_unwritten_nil h

theorem operandReg_reset (r : OperandName) : State.reset.operandReg r = Reg.reset := by cases r <;> rfl

/-- Settles O11: `exec_refused_of_unwritten` and `exec_operandReg` are its second and third parts. -/
theorem operandRegistersAreTheHosts : Obligations.OperandRegistersAreTheHosts :=
  ⟨fun r => by rw [operandReg_reset]; rfl, fun i s r hr hw => exec_refused_of_unwritten i s ⟨r, hr, hw⟩,
    fun _ _ _ h => exec_operandReg h⟩

end Sys2Proof.Proofs
end

section
/-! O6, O7, O53 and O52: what the host's actions do, and the invariant of the machine, which reset meets and every step
keeps (10_state.md R37, R44; 20_memory.md R76, R79; 70_reset_and_hazards.md R330). -/

namespace Sys2Proof.Proofs

open Sys2Proof.Machine

/-! ### The host's actions -/

/-- A host write to a byte that exists sets it. -/
theorem hostWriteByte_ok {a : Nat} {b : Byte} {s : State} (h : memOK s.cfg a = true) :
    hostWriteByte a b s = .ok (s.setMem (s.mem.write a b)) := by
  simp [hostWriteByte, memWrite, h]

/-- Settles O6, one equation of `step` per action. -/
theorem hostActionsTakeEffect : Obligations.HostActionsTakeEffect := by
  intro s rest
  refine ⟨fun r v h => ⟨_, step_writeOperand h, ?operand⟩, fun a b h hok =>
    ⟨(s.setInbox rest).setMem (s.mem.write a b), ?byte, rfl, ?read⟩, step_idle⟩
  case operand =>
    refine ⟨operandReg_writeOperand_same _ _ _, fun r' hne => ?_, fun c => ctx_writeOperand _ _ _ _, ?_⟩
    · rw [operandReg_writeOperand_other _ _ _ _ hne]; cases r' <;> rfl
    · simp
  case byte => rw [step_writeByte h, hostWriteByte_ok (s := s.setInbox rest) hok]; rfl
  case read => exact fun x => read_write _ _ _ _

/-- Settles O7: both states have every context at `Ctx.reset` and every register at `Reg.reset`. -/
theorem resetRestoresEveryValue : Obligations.ResetRestoresEveryValue := by
  refine ⟨⟨fun c => ?_, fun r => by cases r <;> rfl, rfl, rfl, rfl⟩, fun s rest h => ⟨_, step_reset h,
    ⟨fun c => ?_, fun r => by cases r <;> rfl, rfl, rfl, rfl⟩, rfl, rfl, rfl⟩⟩
  · rw [ctx_reset]; exact ⟨rfl, rfl, rfl, rfl, rfl, rfl⟩
  · rw [ctx_hostReset]; exact ⟨rfl, rfl, rfl, rfl, rfl, rfl⟩

/-! ### The invariant -/

theorem ctxOk_reset (addrW : Nat) : Ctx.reset.Ok addrW := by
  simp [Ctx.Ok, Ctx.reset]

/-- The converse of `Ctx.Ok.bound`. -/
theorem ctxOk_of_bound {x : Ctx} {addrW : Nat} (hm : x.mode ≠ .unbound)
    (h : x.cursor ≤ x.bitCap ∧ x.bitCap ≤ 8 * x.byteCap ∧ x.byteCap < 2 ^ 28 ∧ x.base < 2 ^ addrW) : x.Ok addrW := by
  rwa [Ctx.Ok, if_neg hm]

/-- A machine whose contexts are all as reset left them meets the invariant as soon as the parameters, the memory and
DIAG do. -/
theorem inv_of_contexts_reset {s : State} (hv : s.cfg.valid = true) (hwf : s.mem.wf = true)
    (hp : ∀ x ∈ s.mem, memOK s.cfg x.1 = true) (hc : ∀ c, s.ctx c = Ctx.reset) (hd : s.diag = []) : s.Inv where
  cfgValid := hv
  memWf := hwf
  memPresent := hp
  ctxOk c := hc c ▸ ctxOk_reset _
  slotsFree c _ := hc c
  regionsApart c _ _ hw := by rw [hc c] at hw; exact Mode.noConfusion hw
  diagEmpty _ := hd

/-- Settles O53: every context of `State.reset` is a reset one. -/
theorem resetMeetsTheInvariant : Obligations.ResetMeetsTheInvariant :=
  inv_of_contexts_reset (by decide) rfl (by simp [State.reset]) ctx_reset rfl

section
variable {s t : State}

/-- The invariant reads the parameters, the memory, the contexts and DIAG, and no other field. -/
theorem inv_congr (h : s.Inv) (hcfg : t.cfg = s.cfg) (hmem : t.mem = s.mem) (hctx : ∀ c, t.ctx c = s.ctx c)
    (hdiag : t.diag = s.diag) : t.Inv where
  cfgValid := hcfg ▸ h.cfgValid
  memWf := hmem ▸ h.memWf
  memPresent := by rw [hmem, hcfg]; exact h.memPresent
  ctxOk c := by rw [hctx, hcfg]; exact h.ctxOk c
  slotsFree c := by rw [hctx, hcfg]; exact h.slotsFree c
  regionsApart c d := by rw [hctx, hctx]; exact h.regionsApart c d
  diagEmpty := by rw [hcfg, hdiag]; exact h.diagEmpty

/-- A memory that keeps the canonical form and lists no missing byte keeps the invariant. -/
theorem inv_setMem (h : s.Inv) {m : Memory} (hk : Keeps s.cfg s.mem m) : (s.setMem m).Inv :=
  ⟨h.cfgValid, hk.1 h.memWf, hk.2 h.memPresent, h.ctxOk, h.slotsFree, h.regionsApart, h.diagEmpty⟩

/-- A command other than a bind leaves an unbound context as it was: the contexts it names are bound. -/
theorem CommandFrame.ctx_unbound {i : Instr} (hf : CommandFrame i s t) {c : CtxId} (hm : (s.ctx c).mode = .unbound) :
    t.ctx c = s.ctx c :=
  hf.other c fun hc => hf.named c hc hm

/-- It moves a cursor within the capacity and changes no width, so a legal context stays legal (10_state.md R37). -/
theorem CommandFrame.ctxOk {i : Instr} (hf : CommandFrame i s t) {c : CtxId} {addrW : Nat} (h : (s.ctx c).Ok addrW) :
    (t.ctx c).Ok addrW := by
  by_cases hm : (s.ctx c).mode = .unbound
  · rwa [hf.ctx_unbound hm]
  · obtain ⟨hcur, hcap, hbytes, hbase⟩ := h.bound hm
    have hcur' := hf.bound c hcur
    rw [hf.ctx c] at hcur' ⊢
    exact ctxOk_of_bound hm ⟨hcur', hcap, hbytes, hbase⟩

/-- A command other than a bind keeps the invariant. -/
theorem CommandFrame.keeps_inv {i : Instr} (hf : CommandFrame i s t) (h : s.Inv) : t.Inv where
  cfgValid := hf.cfg ▸ h.cfgValid
  memWf := hf.keeps.1 h.memWf
  memPresent := hf.cfg ▸ hf.keeps.2 h.memPresent
  ctxOk c := hf.cfg ▸ hf.ctxOk (h.ctxOk c)
  slotsFree c hc := by
    have hr := h.slotsFree c (hf.cfg ▸ hc)
    rw [hf.ctx_unbound (by rw [hr]; rfl), hr]
  regionsApart c d := by
    rw [hf.ctx c, hf.ctx d]
    exact h.regionsApart c d
  diagEmpty hh := by
    obtain ⟨es, he, -, hnone⟩ := hf.diag
    have hs : s.cfg.hookEnabled = false := hf.cfg ▸ hh
    rw [he, hnone hs, h.diagEmpty hs]; rfl

/-- The context that a bind sets is legal (10_state.md R31, R34, R37). -/
theorem BindFrame.ctxOk {mode : Mode} {c : CtxId} {cap : Nat} (hf : BindFrame mode c cap s t) (hm : mode ≠ .unbound) :
    (t.ctx c).Ok s.cfg.addrW := by
  have hbytes := hf.bytes
  rw [hf.next, ctx_setCtx_same]
  exact ctxOk_of_bound hm ⟨hf.start, bindCapacity_le hf.capacity, by simp only [boundCtx]; omega, hf.base⟩

/-- A context the bind does not set, bound in a slot of the machine, and one of the two a writer: their regions are
apart. -/
theorem BindFrame.regions {mode : Mode} {c d : CtxId} {cap : Nat} (hf : BindFrame mode c cap s t) (hd : d ≠ c)
    (hn : d.val < s.cfg.nCtx) (hm : (s.ctx d).mode ≠ .unbound) (hw : mode = .writer ∨ (s.ctx d).mode = .writer) :
    regionsOverlap s.opa.value.toNat s.opb.value.toNat (s.ctx d).base (s.ctx d).byteCap = false := by
  rw [← Bool.not_eq_true, regionsOverlap_iff]
  exact fun hs => hf.apart ⟨d, hn, hm, ⟨hd, hw⟩, hs⟩

/-- In a machine with the invariant a bound context is in a slot of the machine. -/
theorem slot_of_bound (h : s.Inv) {c : CtxId} (hm : (s.ctx c).mode ≠ .unbound) : c.val < s.cfg.nCtx := by
  by_contra hn
  exact hm (by rw [h.slotsFree c (not_lt.1 hn)]; rfl)

/-- A bind keeps the invariant. -/
theorem BindFrame.keeps_inv {mode : Mode} {c : CtxId} {cap : Nat} (hf : BindFrame mode c cap s t) (hm : mode ≠ .unbound)
    (h : s.Inv) : t.Inv := by
  have hok := hf.ctxOk hm
  have hregions := fun d => hf.regions (d := d)
  have hlegal := hf.legal
  obtain rfl := hf.next
  refine ⟨h.cfgValid, h.memWf, h.memPresent, fun d => ?ok, fun d hd => ?slots, fun d e hne hw hb => ?apart, h.diagEmpty⟩
  case ok =>
    by_cases hd : d = c
    · exact hd ▸ hok
    · rw [ctx_setCtx_other _ _ _ _ hd]; exact h.ctxOk d
  case slots =>
    have hdc : d ≠ c := by rintro rfl; exact absurd hlegal (not_lt.2 hd)
    rw [ctx_setCtx_other _ _ _ _ hdc]
    exact h.slotsFree d hd
  case apart =>
    by_cases hd : d = c
    · subst hd
      rw [ctx_setCtx_same] at hw ⊢
      rw [ctx_setCtx_other _ _ _ _ hne.symm] at hb ⊢
      exact hregions e hne.symm (slot_of_bound h hb) hb (.inl hw)
    · rw [ctx_setCtx_other _ _ _ _ hd] at hw ⊢
      by_cases he : e = c
      · subst he
        have hdb : (s.ctx d).mode ≠ .unbound := by simp [hw]
        rw [ctx_setCtx_same, regionsOverlap_comm]
        exact hregions d hd (slot_of_bound h hdb) hdb (.inr hw)
      · rw [ctx_setCtx_other _ _ _ _ he] at hb ⊢
        exact h.regionsApart d e hne hw hb

/-- Every command keeps the invariant. -/
theorem exec_keeps_inv {i : Instr} (h : s.Inv) (e : exec i s = .next t) : t.Inv := by
  rcases exec_cases e with hf | ⟨mode, c, cap, hb, hf⟩
  · exact hf.keeps_inv h
  · exact hf.keeps_inv hb.mode_bound h

end

/-- Settles O52: the host's actions one by one; a command word runs a command, which keeps the invariant. -/
theorem stepKeepsTheInvariant : Obligations.StepKeepsTheInvariant := by
  intro s t h e
  have hs (rest : List HostAction) : (s.setInbox rest).Inv := inv_congr h rfl rfl (fun _ => rfl) rfl
  match hin : s.inbox with
  | [] =>
    obtain rfl := Host.Outcome.next.inj (step_idle hin ▸ e)
    exact h
  | .writeOperand r v :: rest =>
    obtain rfl := Host.Outcome.next.inj (step_writeOperand hin ▸ e)
    exact inv_congr (hs rest) (by simp) (by simp) (by simp) (by simp)
  | .writeByte a b :: rest =>
    obtain ⟨m, hm, ht⟩ := exec_bind_eq_ok.1 (finish_eq_next.1 (step_writeByte hin ▸ e))
    obtain ⟨hok, rfl⟩ := memWrite_inv hm
    obtain rfl := Except.ok.inj ht
    exact inv_setMem (hs rest) (keeps_write _ _ _ _ hok)
  | .reset :: rest =>
    obtain rfl := Host.Outcome.next.inj (step_reset hin ▸ e)
    exact inv_of_contexts_reset h.cfgValid h.memWf h.memPresent (ctx_hostReset _) rfl
  | .command w :: rest =>
    obtain ⟨i, -, hi⟩ := runWord_inv (step_command hin ▸ e)
    exact exec_keeps_inv (hs rest) hi

end Sys2Proof.Proofs
end

section
/-! O12: overlapping buffers are refused (20_memory.md R79, 41_writer.md R151). Only checks, which answer or refuse,
come before a command's overlap check. -/

namespace Sys2Proof.Proofs

open Sys2Proof.Machine

section
variable {s : State} {c : CtxId} {β : Type}

/-- A command that reads an operand register is refused when it is refused with the register's value. -/
theorem refused_operand_value {r : OperandName} {f : Word64 → Exec β} (h : Refused (f (s.operandReg r).value)) :
    Refused (operand r s >>= f) :=
  refused_bind (isCheck_operand r s) fun _ e => (operand_eq_ok.1 e).2 ▸ h

theorem refused_require {p : Prop} [Decidable p] {r : Refusal} {f : Unit → Exec β} (h : ¬p) :
    Refused (require p r >>= f) :=
  ⟨r, by rw [require_neg r h]; rfl⟩

theorem refused_sourceOverlap {a n : Nat} {r : Refusal} {f : Unit → Exec β} (h : SourceOverlaps s a n) :
    Refused (require (sourceOverlap s a n = false) r >>= f) :=
  refused_require fun e => (sourceOverlap_false s a n).1 e h

theorem refused_destOverlap {a n : Nat} {r : Refusal} {f : Unit → Exec β} (h : DestOverlaps s a n) :
    Refused (require (destOverlap s a n = false) r >>= f) :=
  refused_require fun e => (destOverlap_false s a n).1 e h

theorem bindAs_refused {mode : Mode} (h : BindOverlaps s c mode s.opa.value.toNat s.opb.value.toNat) :
    Refused (bindAs mode c s) := by
  refine refused_check (isCheck_needCtx c s) fun _ => refused_operand_value <| refused_operand_value <|
    refused_operand_value <| refused_operand_value <| refused_check (isCheck_require _ _) fun _ =>
    refused_check (isCheck_require _ _) fun _ => ?_
  split
  case h_1 => exact ⟨_, rfl⟩
  case h_2 =>
    exact refused_check (isCheck_require _ _) fun _ => refused_require fun e => (bindOverlap_false _ _ _ _ _).1 e h

/-- The scan stops at the first source byte in a writer's region, so bytes before it may overlap too. -/
theorem scanString_refused_of_overlap {a n : Nat} (h : ∀ j < n, memOK s.cfg (a + j) = true ∧ s.mem.read (a + j) ≠ 0)
    (ho : SourceOverlaps s (a + n) 1) : Refused (scanString s (memEnd s.cfg - a + 1) a) := by
  induction n using Nat.strong_induction_on with
  | _ n ih =>
    by_cases hfirst : ∃ j < n, SourceOverlaps s (a + j) 1
    · obtain ⟨j, hj, hover⟩ := hfirst
      exact ih j hj (fun i hi => h i (hi.trans hj)) hover
    · have hclear : ∀ j < n, ¬SourceOverlaps s (a + j) 1 := fun j hj hover => hfirst ⟨j, hj, hover⟩
      exact ⟨_, scanString_refused (fun j hj => ⟨(h j hj).1, (h j hj).2, hclear j hj⟩) ho⟩

theorem execWbits_refused (h : SourceOverlaps s s.opa.value.toNat ((s.opb.value.toNat + 7) / 8)) :
    ∃ r, execWbits c s = .refused r :=
  finish_of_refused <| refused_check (isCheck_needCtx c s) fun _ => refused_operand_value <| refused_operand_value <|
    refused_check (isCheck_require _ _) fun _ => refused_check (isCheck_needMode _ _ _) fun _ => refused_sourceOverlap h

theorem execWstring_refused {n : Nat}
    (h : ∀ j < n, memOK s.cfg (s.opa.value.toNat + j) = true ∧ s.mem.read (s.opa.value.toNat + j) ≠ 0)
    (ho : SourceOverlaps s (s.opa.value.toNat + n) 1) : ∃ r, execWstring c s = .refused r :=
  finish_of_refused <| refused_check (isCheck_needCtx c s) fun _ => refused_operand_value <|
    refused_check (isCheck_needMode _ _ _) fun _ =>
    have hscan := scanString_refused_of_overlap h ho
    refused_bind (.inr hscan) fun _ e => by obtain ⟨r, hr⟩ := hscan; simp [hr] at e

theorem execRbits_refused (h : DestOverlaps s s.opa.value.toNat ((s.opb.value.toNat + 7) / 8)) :
    ∃ r, execRbits c s = .refused r :=
  finish_of_refused <| refused_check (isCheck_needCtx c s) fun _ => refused_operand_value <| refused_operand_value <|
    refused_check (isCheck_require _ _) fun _ => refused_check (isCheck_needMode _ _ _) fun _ => refused_destOverlap h

/-- RBYTES runs RBITS' body with 8 bits a byte. -/
theorem execRbytes_refused (h : DestOverlaps s s.opa.value.toNat s.opb.value.toNat) :
    ∃ r, execRbytes c s = .refused r := by
  have hbytes : (8 * s.opb.value.toNat + 7) / 8 = s.opb.value.toNat := by omega
  exact finish_of_refused <| refused_check (isCheck_needCtx c s) fun _ => refused_operand_value <|
    refused_operand_value <| refused_check (isCheck_require _ _) fun _ =>
    refused_check (isCheck_needMode _ _ _) fun _ => refused_destOverlap (hbytes.symm ▸ h)

theorem execRstring_refused {nl : Bool} (h : DestOverlaps s s.opa.value.toNat s.opb.value.toNat) :
    ∃ r, execRstring c nl s = .refused r :=
  finish_of_refused <| refused_check (isCheck_needCtx c s) fun _ => refused_operand_value <| refused_operand_value <|
    refused_check (isCheck_require _ _) fun _ => refused_check (isCheck_needMode _ _ _) fun _ => refused_destOverlap h

end

theorem not_sharesByte_of_empty {a n b m : Nat} (h : n = 0 ∨ m = 0) : ¬SharesByte a n b m := by
  rintro ⟨x, ha, hn, hb, hm⟩
  omega

/-- Settles O12, one lemma per command. -/
theorem overlappingBuffersAreRefused : Obligations.OverlappingBuffersAreRefused :=
  ⟨fun _ _ => ⟨fun h => finish_of_refused (bindAs_refused h), fun h => finish_of_refused (bindAs_refused h),
    execWbits_refused, fun _ => execWstring_refused, execRbits_refused, execRbytes_refused,
    fun _ => execRstring_refused⟩,
    fun _ _ _ _ => not_sharesByte_of_empty⟩

end Sys2Proof.Proofs
end

section
/-! O13: a fixed-width access that fits but meets a missing byte is stuck at the first such address (20_memory.md R83,
R84; 60_exceptions.md R307). -/

namespace Sys2Proof.Proofs

open Sys2Proof.Machine

/-! ### Stuck runs -/

/-- The command is stuck at the missing address a (60_exceptions.md R307). -/
def StuckAt {α : Type} (a : Nat) (x : Exec α) : Prop := x = .error (.fault (.missingAddress a))

theorem finish_of_stuckAt {a : Nat} {x : Exec State} (h : StuckAt a x) : finish x = .fault (.missingAddress a) :=
  finish_eq_fault.2 h

section
variable {α β : Type} {a : Nat} {x : Exec α} {f : α → Exec β}

theorem StuckAt.bind (h : StuckAt a x) : StuckAt a (x >>= f) := exec_bind_eq_error.2 (.inl h)

/-- A command is stuck when a check of it passes and it is stuck after that check. -/
theorem StuckAt.after {v : α} (hx : x = .ok v) (h : StuckAt a (f v)) : StuckAt a (x >>= f) :=
  exec_bind_eq_error.2 (.inr ⟨v, hx, h⟩)

end

/-! ### Accesses that meet a missing byte -/

/-- The address of the byte that holds the j-th stream bit from the cursor of c (20_memory.md R62). -/
def streamByte (s : State) (c : CtxId) (j : Nat) : Nat := (s.ctx c).base + ((s.ctx c).cursor + j) / 8

@[simp] theorem streamByte_overflow (s : State) (c : CtxId) (j : Nat) (op : BitVec 8) (k : ErrorKind) :
    streamByte (s.overflow op c k) c j = streamByte s c j := by simp [streamByte]

/-- The n stream bits at the cursor of c fit, and the j-th of them is the first whose byte is missing. -/
structure MeetsMissing (s : State) (c : CtxId) (n j : Nat) : Prop where
  fits : Fits s c n
  within : j < n
  missing : memOK s.cfg (streamByte s c j) = false
  before : ∀ k < j, memOK s.cfg (streamByte s c k) = true

section
variable {s : State} {c : CtxId} {n j : Nat}

theorem wr_stuckAt (h : MeetsMissing s c n j) (op : BitVec 8) (v : Nat) :
    StuckAt (streamByte s c j) (wr op c n v s) := by
  unfold wr
  rw [if_neg (not_lt.2 h.fits)]
  exact StuckAt.bind (putBits_stuck _ _ _ _ _ _ _ h.within h.missing h.before)

theorem rd_stuckAt (h : MeetsMissing s c n j) (op : BitVec 8) :
    StuckAt (streamByte s c j) (rd op c n s) := by
  unfold rd
  rw [if_neg (not_lt.2 h.fits)]
  exact StuckAt.bind (getBits_stuck _ _ _ _ _ _ h.within h.missing h.before)

theorem MeetsMissing.setDraws (h : MeetsMissing s c n j) (k : Nat) : MeetsMissing (s.setDraws k) c n j :=
  ⟨h.fits, h.within, h.missing, h.before⟩

/-- The error procedure moves no cursor. -/
theorem MeetsMissing.overflow (h : MeetsMissing s c n j) (op : BitVec 8) (k : ErrorKind) :
    MeetsMissing (s.overflow op c k) c n j where
  fits := by simpa using h.fits
  within := h.within
  missing := by simpa using h.missing
  before := by simpa using h.before

/-- The range check of WUNS is an advisory: the write goes on (41_writer.md R142). -/
theorem wr_rangeCheck_stuckAt (h : MeetsMissing s c n j) (op : BitVec 8) (v : Nat) :
    StuckAt (streamByte s c j) (wr op c n v (rangeCheck op c n v s)) := by
  unfold rangeCheck
  split
  · simpa using wr_stuckAt (h.overflow op .valueOutOfRange) op v
  · exact wr_stuckAt h op v

/-! ### The checks before the access -/

variable {a : Nat} {nb : Fin 64} {f : Word64 → Exec State} {g : Nat × State → Exec State}

theorem write_stuckAt (hc : c.val < s.cfg.nCtx) (ha : s.opa.written = true) (hm : (s.ctx c).mode = .writer)
    (hf : StuckAt a (f s.opa.value)) :
    StuckAt a (do needCtx c s; let v ← operand .opa s; needMode .writer c s; f v) :=
  .after (needCtx_pos hc) <| .after (operand_pos ha) <| .after (needMode_pos hm) hf

theorem countedWrite_stuckAt (hc : c.val < s.cfg.nCtx) (hnb : nb.val ≤ 32) (ha : s.opa.written = true)
    (hm : (s.ctx c).mode = .writer) (hf : StuckAt a (f s.opa.value)) :
    StuckAt a (do needCtx c s; needCount nb; let v ← operand .opa s; needMode .writer c s; f v) :=
  .after (needCtx_pos hc) <| .after (needCount_pos hnb) <| .after (operand_pos ha) <| .after (needMode_pos hm) hf

theorem read_stuckAt {op : BitVec 8} (hc : c.val < s.cfg.nCtx) (hm : (s.ctx c).mode = .reader)
    (h : MeetsMissing s c n j) :
    StuckAt (streamByte s c j)
      (do needCtx c s; needMode .reader c s; let r ← rd op c n s; g r) :=
  .after (needCtx_pos hc) <| .after (needMode_pos hm) <| .bind <| rd_stuckAt h op

theorem countedRead_stuckAt {op : BitVec 8} (hc : c.val < s.cfg.nCtx) (hnb : nb.val ≤ 32)
    (hm : (s.ctx c).mode = .reader) (h : MeetsMissing s c nb.val j) :
    StuckAt (streamByte s c j)
      (do needCtx c s; needCount nb; needMode .reader c s; let r ← rd op c nb.val s; g r) :=
  .after (needCtx_pos hc) <| .after (needCount_pos hnb) <| .after (needMode_pos hm) <| .bind <| rd_stuckAt h op

end

/-- Settles O13: the checks of each command pass, and its access is stuck. -/
theorem missingByteIsStuck : Obligations.MissingByteIsStuck := by
  intro s c n j hc hfits hj address stuck hmissing hbefore
  have h : MeetsMissing s c n j := ⟨hfits, hj, hmissing, hbefore⟩
  refine ⟨fun hm ha => ⟨fun hn => ?wbit, fun hn => ?wfloat, fun nb hn hnb => ?counted⟩,
    fun hm => ⟨fun hn => ?rbit, fun hn => ?rfloat, fun nb hn hnb => ?countedReads⟩⟩ <;> subst hn
  case wbit => exact finish_of_stuckAt <| write_stuckAt hc ha hm <| wr_stuckAt h _ _
  case wfloat => exact finish_of_stuckAt <| write_stuckAt hc ha hm <| wr_stuckAt h _ _
  case counted =>
    exact ⟨finish_of_stuckAt <| countedWrite_stuckAt hc hnb ha hm <| wr_rangeCheck_stuckAt h _ _,
      finish_of_stuckAt <| countedWrite_stuckAt hc hnb ha hm <| wr_stuckAt h _ _,
      finish_of_stuckAt <| countedWrite_stuckAt hc hnb ha hm <| wr_stuckAt (h.setDraws _) _ _⟩
  case rbit => exact finish_of_stuckAt <| read_stuckAt hc hm h
  case rfloat => exact finish_of_stuckAt <| read_stuckAt hc hm h
  case countedReads =>
    exact ⟨finish_of_stuckAt <| countedRead_stuckAt hc hnb hm h, finish_of_stuckAt <| countedRead_stuckAt hc hnb hm h,
      finish_of_stuckAt <| countedRead_stuckAt hc hnb hm h, finish_of_stuckAt <| countedRead_stuckAt hc hnb hm h⟩

end Sys2Proof.Proofs
end

section
/-! O58: where a command changes memory (20_memory.md R65, R69, R72, R82), one memory frame for every command. -/

namespace Sys2Proof.Proofs

open Sys2Proof.Machine

/-- A writer command, 0x11 to 0x21 of the opcode map (30_encoding.md R92). -/
def writesStream (i : Instr) : Bool := decide (0x11 ≤ i.opcode.toNat ∧ i.opcode.toNat ≤ 0x21)

/-- How many bytes from the address in OPA a command may store: the destination of RBITS, RBYTES and RSTRING. -/
def destBytes (s : State) : Instr → Option Nat
  | .rbits _ => some ((s.opb.value.toNat + 7) / 8)
  | .rbytes _ | .rstring _ _ => some s.opb.value.toNat
  | _ => none

theorem destBytes_eq_none {i : Instr} (s : State) (h : ∀ c nl, i ≠ .rbits c ∧ i ≠ .rbytes c ∧ i ≠ .rstring c nl) :
    destBytes s i = none := by
  unfold destBytes
  split
  case h_1 c => exact absurd rfl (h c false).1
  case h_2 c => exact absurd rfl (h c false).2.1
  case h_3 c nl => exact absurd rfl (h c nl).2.2
  case h_4 => rfl

/-- No stream bit of c outside [CURSOR, BITCAP) changes from s to t. -/
def StreamKept (c : CtxId) (s t : State) : Prop :=
  ∀ k, k < 8 * (s.ctx c).base + (s.ctx c).cursor ∨ 8 * (s.ctx c).base + (s.ctx c).bitCap ≤ k →
    memBit t.mem k = memBit s.mem k

/-- No byte outside [a, a + n) changes from s to t. -/
def BytesKept (a n : Nat) (s t : State) : Prop := ∀ x, x < a ∨ a + n ≤ x → t.mem.read x = s.mem.read x

/-- All that a command can do to memory. -/
structure MemoryFrame (i : Instr) (s t : State) : Prop where
  kept : writesStream i = false → destBytes s i = none → t.mem = s.mem
  stream : writesStream i = true → ∀ c ∈ i.contexts, StreamKept c s t
  dest : ∀ n, destBytes s i = some n → BytesKept s.opa.value.toNat n s t

section
variable {i : Instr} {c : CtxId} {n : Nat} {s t u : State}

theorem MemoryFrame.unchanged (h : t.mem = s.mem) : MemoryFrame i s t where
  kept _ _ := h
  stream _ _ _ k _ := by rw [h]
  dest _ _ x _ := by rw [h]

/-- A command that reads from the stream of c and leaves its result in RES0. -/
theorem MemoryFrame.reads {op : BitVec 8} (h : ReadFrame op c s u) (v : Word64) : MemoryFrame i s (u.setRes0 v) :=
  .unchanged h.2.1

/-- A writer command. -/
theorem MemoryFrame.writes (hw : writesStream i = true) (hd : destBytes s i = none) (hc : i.contexts = [c])
    (h : StreamKept c s t) : MemoryFrame i s t where
  kept hn := by simp [hw] at hn
  stream _ d hmem := List.mem_singleton.1 (hc ▸ hmem) ▸ h
  dest := by simp [hd]

/-- A command with a destination. -/
theorem MemoryFrame.stores (hw : writesStream i = false) (hd : destBytes s i = some n)
    (h : BytesKept s.opa.value.toNat n s t) : MemoryFrame i s t where
  kept _ hn := by simp [hd] at hn
  stream := by simp [hw]
  dest _ e := Option.some.inj (hd.symm.trans e) ▸ h

end

/-- WBITS changes the stream bits from the cursor on that its operand counts, when they fit (41_writer.md R150). -/
theorem execWbits_memory {c : CtxId} {s t : State} (h : execWbits c s = .next t) : MemoryFrame (.wbits c) s t := by
  refine Leaves.next h <| .check fun _ => .check fun _ => .check fun _ => .check fun _ => .check fun _ =>
    .check fun _ => .ite (fun _ => .ok ?full) fun hf => .bind fun m e => .ok ?fits
  case full => exact .unchanged rfl
  case fits => exact .writes rfl rfl rfl fun k hk => (copyBits_inv e).2 k (by omega)

theorem execRbits_memory {c : CtxId} {s t : State} (h : execRbits c s = .next t) :
    BytesKept s.opa.value.toNat ((s.opb.value.toNat + 7) / 8) s t := by
  refine Leaves.next h <| .check fun _ => .bind fun _ ha => .bind fun _ hb => .check fun _ => .check fun _ =>
    fun t e => ?_
  obtain ⟨-, rfl⟩ := operand_eq_ok.1 ha
  obtain ⟨-, rfl⟩ := operand_eq_ok.1 hb
  exact (readBulk_frame e).2.2

theorem execRbytes_memory {c : CtxId} {s t : State} (h : execRbytes c s = .next t) :
    BytesKept s.opa.value.toNat s.opb.value.toNat s t := by
  refine Leaves.next h <| .check fun _ => .bind fun _ ha => .bind fun _ hb => .check fun _ => .check fun _ =>
    fun t e x hx => ?_
  obtain ⟨-, rfl⟩ := operand_eq_ok.1 ha
  obtain ⟨-, rfl⟩ := operand_eq_ok.1 hb
  exact (readBulk_frame e).2.2 x (by simp only [operandReg_opa, operandReg_opb]; omega)

/-- The string's bytes and its NUL lie in the destination (43_reader.md R222). -/
theorem execRstring_memory {c : CtxId} {nl : Bool} {s t : State} (h : execRstring c nl s = .next t) :
    BytesKept s.opa.value.toNat s.opb.value.toNat s t := by
  refine Leaves.next h <| .check fun _ => .bind fun _ ha => .bind fun _ hb => .bind fun _ hlen => .check fun _ =>
    .check fun _ => .bind fun ⟨i, b, u⟩ e => .bind fun m em => .ok fun x hx => ?_
  obtain ⟨-, rfl⟩ := operand_eq_ok.1 ha
  obtain ⟨-, rfl⟩ := operand_eq_ok.1 hb
  obtain ⟨-, -, hstored, hnul⟩ := readString_frame (by have := require_eq_ok.1 hlen; omega) e
  obtain ⟨-, rfl⟩ := memWrite_inv em
  have hne : x ≠ s.opa.value.toNat + i := by rw [operandReg_opb] at hnul; omega
  exact (read_write_other _ _ _ _ hne).trans (hstored x hx)

theorem execRvec3coord_memory {c : CtxId} {s t : State} (h : execRvec3coord c s = .next t) : t.mem = s.mem := by
  refine Leaves.next (P := fun t => t.mem = s.mem) h <| .check fun _ => .check fun _ => .bind fun ⟨_, _⟩ e₁ =>
    .bind fun ⟨_, _⟩ e₂ => .bind fun ⟨_, _⟩ e₃ => .bind fun ⟨_, _⟩ e₄ => .bind fun ⟨_, _⟩ e₅ =>
    .bind fun ⟨_, _⟩ e₆ => .ok ?_
  have hflags := ReadFrame.trans (rd_frame e₁) (ReadFrame.trans (rd_frame e₂) (rd_frame e₃))
  have haxes := ReadFrame.trans (axisGet_frame coordGet_frame e₄)
    (ReadFrame.trans (axisGet_frame coordGet_frame e₅) (axisGet_frame coordGet_frame e₆))
  exact (hflags.trans haxes).2.1

theorem execRvec3normal_memory {c : CtxId} {s t : State} (h : execRvec3normal c s = .next t) : t.mem = s.mem := by
  refine Leaves.next (P := fun t => t.mem = s.mem) h <| .check fun _ => .check fun _ => .bind fun ⟨_, _⟩ e₁ =>
    .bind fun ⟨_, _⟩ e₂ => .bind fun ⟨_, _⟩ e₃ => .bind fun ⟨_, _⟩ e₄ => .bind fun ⟨_, _⟩ e₅ => .ok ?_
  have haxes := ReadFrame.trans (axisGet_frame normalGet_frame e₃) (axisGet_frame normalGet_frame e₄)
  exact (ReadFrame.trans (rd_frame e₁) (ReadFrame.trans (rd_frame e₂) (haxes.trans (rd_frame e₅)))).2.1

/-- Every command keeps its memory frame. The arms with one proof are the commands of one shape. -/
theorem exec_memory {i : Instr} {s t : State} (h : exec i s = .next t) : MemoryFrame i s t :=
  match i with
  | .wbind c | .rbind c =>
    have ⟨_, hf⟩ := Leaves.next h (bindAs_frame _ c s)
    .unchanged (hf.next ▸ rfl)
  | .zzenc32 | .zzdec32 | .zzenc64 | .zzdec64 | .vsize32 | .vsize64 =>
    Leaves.next h <| .check fun _ => .ok <| .unchanged rfl
  | .getbits _ | .getbytes _ | .getbitsleft _ | .getbytesleft _ | .getcap _ | .getovf _ =>
    Leaves.next h <| .check fun _ => .check fun _ => .ok <| .unchanged rfl
  | .wbit _ | .wfloat _ =>
    Leaves.next h <| .check fun _ => .check fun _ => .check fun _ _ e => .writes rfl rfl rfl (wr_frame e).1.bits
  | .wsigned _ _ =>
    Leaves.next h <| .check fun _ => .check fun _ => .check fun _ => .check fun _ _ e =>
      .writes rfl rfl rfl (wr_frame e).1.bits
  | .wuns _ _ =>
    Leaves.next h <| .check fun _ => .check fun _ => .check fun _ => .check fun _ _ e =>
      .writes rfl rfl rfl ((rangeCheck_frame _ _ _ _ _).trans (wr_frame e).1).bits
  | .wangle _ _ =>
    Leaves.next h <| .check fun _ => .check fun _ => .check fun _ => .check fun _ _ e =>
      .writes rfl rfl rfl ((setDraws_frame _ _ _ _).trans (wr_frame e).1).bits
  | .wvar32 _ | .wvar64 _ | .wsvar32 _ | .wsvar64 _ =>
    Leaves.next h <| .check fun _ => .check fun _ => .check fun _ _ e => .writes rfl rfl rfl (varPut_frame e).bits
  | .wubitvar _ =>
    Leaves.next h <| .check fun _ => .check fun _ => .check fun _ _ e => .writes rfl rfl rfl (wrAll_frame _ e).1.bits
  | .wcoord _ | .wcoordmp _ _ _ | .wnormal _ =>
    Leaves.next h <| .check fun _ => .check fun _ => .check fun _ _ e =>
      .writes rfl rfl rfl ((setDraws_frame _ _ _ _).trans (wrAll_frame _ e).1).bits
  | .wvec3coord _ | .wvec3normal _ =>
    Leaves.next h <| .check fun _ => .check fun _ => .check fun _ => .check fun _ _ e =>
      .writes rfl rfl rfl ((setDraws_frame _ _ _ _).trans (wrAll_frame _ e).1).bits
  | .wbits _ => execWbits_memory h
  | .wstring _ =>
    Leaves.next h <| .check fun _ => .check fun _ => .check fun _ => .check fun _ _ e =>
      .writes rfl rfl rfl (wrAll_frame _ e).1.bits
  | .rbit _ | .rfloat _ =>
    Leaves.next h <| .check fun _ => .check fun _ => .bind fun ⟨_, _⟩ e => .ok <| .reads (rd_frame e) _
  | .runs _ _ | .rsigned _ _ | .rangle _ _ =>
    Leaves.next h <| .check fun _ => .check fun _ => .check fun _ => .bind fun ⟨_, _⟩ e => .ok <|
      .reads (rd_frame e) _
  | .peekuns _ _ =>
    Leaves.next h <| .check fun _ => .check fun _ => .check fun _ => .bind fun ⟨_, _⟩ e => .ok <|
      .reads (restored_frame (rd_frame e)) _
  | .rvar32 _ | .rvar64 _ | .rsvar32 _ | .rsvar64 _ =>
    Leaves.next h <| .check fun _ => .check fun _ => .bind fun ⟨_, _⟩ e => .ok <| .reads (varGetFrom_frame e) _
  | .rubitvar _ =>
    Leaves.next h <| .check fun _ => .check fun _ => .bind fun ⟨_, _⟩ e =>
      .ite (fun _ => .ok <| .reads (rd_frame e) _) fun _ => .bind fun ⟨_, _⟩ e' => .ok <|
        .unchanged ((rd_frame e').2.1.trans (rd_frame e).2.1)
  | .rcoord _ =>
    Leaves.next h <| .check fun _ => .check fun _ => .bind fun ⟨_, _⟩ e => .ok <| .reads (coordGet_frame e) _
  | .rcoordmp _ _ _ =>
    Leaves.next h <| .check fun _ => .check fun _ => .bind fun ⟨_, _⟩ e => .ok <| .reads (coordMpGet_frame e) _
  | .rnormal _ =>
    Leaves.next h <| .check fun _ => .check fun _ => .bind fun ⟨_, _⟩ e => .ok <| .reads (normalGet_frame e) _
  | .rvec3coord _ => .unchanged (execRvec3coord_memory h)
  | .rvec3normal _ => .unchanged (execRvec3normal_memory h)
  | .rstring _ _ => .stores rfl rfl (execRstring_memory h)
  | .rbytes _ => .stores rfl rfl (execRbytes_memory h)
  | .rbits _ => .stores rfl rfl (execRbits_memory h)
  | .seek _ | .seekrel _ =>
    Leaves.next h <| .check fun _ => .check fun _ => .check fun _ => .ok <| .unchanged (seekTo_frame _ _ _ _).2.1
  | .cmpbits _ _ =>
    Leaves.next h <| .check fun _ => .check fun _ => .check fun _ => .check fun _ => .check fun _ => .check fun _ =>
      .check fun _ => .bind fun ⟨_, _⟩ e => .ok <| .unchanged (compareFrom_frame e).2.1

/-- Settles O58: the parts of the memory frame. -/
theorem memoryChangesOnlyWhereNamed : Obligations.MemoryChangesOnlyWhereNamed := by
  intro i s t h
  have hf := exec_memory h
  refine ⟨fun hd hw => hf.kept (decide_eq_false hw) (destBytes_eq_none s hd), fun hlo hhi => ?writer,
    fun c hi => ?rbits, fun c nl hi => ?bytes⟩
  case writer => exact hf.stream (decide_eq_true ⟨hlo, hhi⟩)
  case rbits => exact hf.dest _ (by rw [hi]; rfl)
  case bytes => exact hf.dest _ (by rcases hi with rfl | rfl <;> rfl)

end Sys2Proof.Proofs
end

section
/-! O2, O3, O4, O1 and O5: which words decode, and to what (30_encoding.md R90 to R95, R98); and what a step does with the
word at the head of the inbox (notes/assumptions/6.md). -/

namespace Sys2Proof.Proofs

open Sys2Proof.Machine

/-! ### The decoder, by the branches of 30_encoding.md R93 -/

section
variable {w : Word32} {u : Used} {i : Instr}

theorem decode_reserved (h : rsvField w ≠ 0) : decode w = .error .reservedBits := if_pos h

theorem decode_unassigned (h : rsvField w = 0) (hrow : opcodeRow (opField w) (fieldsOf w) = none) :
    decode w = .error .unassignedOpcode := by
  simp [decode, h, hrow]

theorem decode_unused (h : rsvField w = 0) (hrow : opcodeRow (opField w) (fieldsOf w) = some (u, i))
    (hf : fieldsOf w ≠ i.fields) : decode w = .error .unusedField := by
  have hz : u.othersZero (fieldsOf w) ≠ true := mt (opcodeRow_inv hrow).2.1 hf
  simp [decode, h, hrow, hz]

theorem decode_row (h : rsvField w = 0) (hrow : opcodeRow (opField w) (fieldsOf w) = some (u, i))
    (hf : fieldsOf w = i.fields) : decode w = .ok i := by
  have hz : u.othersZero (fieldsOf w) = true := (opcodeRow_inv hrow).2.2 hf
  simp [decode, h, hrow, hz]

/-- Only the last branch of the decoder yields a command: all three parts of the word are the command's. -/
theorem decode_inv (hd : decode w = .ok i) : rsvField w = 0 ∧ opField w = i.opcode.toNat ∧ fieldsOf w = i.fields := by
  by_cases h : rsvField w = 0
  · match hrow : opcodeRow (opField w) (fieldsOf w) with
    | none => simp [decode_unassigned h hrow] at hd
    | some (u, j) =>
      by_cases hf : fieldsOf w = j.fields
      · obtain rfl : j = i := by simpa [decode_row h hrow hf] using hd
        exact ⟨h, (opcodeRow_inv hrow).1, hf⟩
      · simp [decode_unused h hrow hf] at hd
  · simp [decode_reserved h] at hd

/-- A word that decodes is the encoding of its command: opcode, fields and zero RSV are all its bits. -/
theorem eq_encode_of_decode (hd : decode w = .ok i) : w = encode i := by
  obtain ⟨hrsv, hop, hf⟩ := decode_inv hd
  apply BitVec.eq_of_toNat_eq
  rw [word_eq_number w hrsv, hop, hf, encode_toNat]

end

/-- Settles O2: `decode_encode` one way, `eq_encode_of_decode` the other. -/
theorem decodeAgreesWithEncode : Obligations.DecodeAgreesWithEncode :=
  fun _ i => ⟨eq_encode_of_decode, fun h => h ▸ decode_encode i⟩

/-- Settles O1: each word is the encoding of its command. -/
theorem specExampleWordsDecode : Obligations.SpecExampleWordsDecode := by
  refine ⟨?_, ?_, ?_, ?_, ?_, ?_, ?_, ?_, ?_, ?_⟩ <;> exact (decodeAgreesWithEncode _ _).2 (by decide)

/-! ### Unassigned opcodes (30_encoding.md R95) -/

/-- The opcodes that 30_encoding.md R95 lists as unassigned. -/
abbrev Unassigned (op : Nat) : Prop :=
  op = 0x00 ∨ (0x07 ≤ op ∧ op ≤ 0x0F) ∨ (0x22 ≤ op ∧ op ≤ 0x2F) ∨ (0x36 ≤ op ∧ op ≤ 0x3F) ∨ (0x57 ≤ op ∧ op ≤ 0xFF)

theorem opcode_assigned (i : Instr) : ¬Unassigned i.opcode.toNat := by
  cases i <;> simp [Instr.opcode]

theorem opcodeRow_of_unassigned {op : Nat} (h : Unassigned op) (f : Fields) : opcodeRow op f = none := by
  match hrow : opcodeRow op f with
  | none => rfl
  | some (u, i) => exact absurd ((opcodeRow_inv hrow).1 ▸ h) (opcode_assigned i)

theorem decode_of_unassigned {w : Word32} (h : Unassigned (opField w)) : ∃ e, decode w = .error e := by
  by_cases hrsv : rsvField w = 0
  · exact ⟨_, decode_unassigned hrsv (opcodeRow_of_unassigned h _)⟩
  · exact ⟨_, decode_reserved hrsv⟩

/-- The opcode map has a row at each opcode that R95 does not list. -/
theorem opcodeRow_of_assigned : ∀ op < 256, ¬Unassigned op → (opcodeRow op (Fields.ofCtx 0)).isSome = true := by
  decide +kernel

theorem exists_opcode {op : Nat} (hop : op < 256) (h : ¬Unassigned op) : ∃ i : Instr, i.opcode.toNat = op := by
  obtain ⟨⟨u, i⟩, hrow⟩ := Option.isSome_iff_exists.1 (opcodeRow_of_assigned op hop h)
  exact ⟨i, (opcodeRow_inv hrow).1.symm⟩

/-! ### The word at the head of the inbox -/

section
variable {w : Word32} {s : State} {rest : List HostAction}

theorem runWord_ok {i : Instr} (h : decode w = .ok i) : runWord w s = exec i s := by
  rw [runWord, h]

theorem runWord_error {e : DecodeError} (h : decode w = .error e) : runWord w s = .refused (.notACommand e) := by
  rw [runWord, h]

theorem step_command_ok {i : Instr} (hin : s.inbox = .command w :: rest) (h : decode w = .ok i) :
    step s = exec i (s.setInbox rest) :=
  (step_command hin).trans (runWord_ok h)

theorem step_command_error {e : DecodeError} (hin : s.inbox = .command w :: rest) (h : decode w = .error e) :
    step s = .refused (.notACommand e) :=
  (step_command hin).trans (runWord_error h)

end

/-- A whole command word survives the cut to 32 bits. -/
theorem withFetchWord_inbox (s : State) (w : Word32) :
    (s.withFetchWord 32 w.toNat).inbox = .command w :: s.inbox := by
  simp [State.withFetchWord, Nat.mod_eq_of_lt w.isLt]

theorem setInbox_withFetchWord (s : State) (nbits w : Nat) : (s.withFetchWord nbits w).setInbox s.inbox = s := rfl

/-- Settles O3: an unassigned opcode has no row in the opcode map, and any other is that of some command's encoding. -/
theorem unassignedOpcodesAreRefused : Obligations.UnassignedOpcodesAreRefused := by
  refine ⟨fun w s h => ?refused, fun op hop h => ?decodes⟩
  case refused =>
    obtain ⟨e, he⟩ := decode_of_unassigned h
    exact ⟨_, runWord_error he⟩
  case decodes =>
    obtain ⟨i, rfl⟩ := exists_opcode hop h
    exact ⟨encode i, i, opField_encode i, decode_encode i⟩

/-- Settles O4, one branch of the decoder per part. -/
theorem badWordsAreRefusedInOrder : Obligations.BadWordsAreRefusedInOrder := fun _ _ _ hin =>
  ⟨fun hrsv => step_command_error hin (decode_reserved hrsv),
    fun hrsv hrow => step_command_error hin (decode_unassigned hrsv hrow),
    fun _ _ hrsv hrow hf => step_command_error hin (decode_unused hrsv hrow hf),
    fun _ _ hrsv hrow hf => step_command_ok hin (decode_row hrsv hrow hf)⟩

/-- Settles O5: `step_command_ok`, and the word that `withFetchWord` places is the whole encoding. -/
theorem stepRunsTheDecodedCommand : Obligations.StepRunsTheDecodedCommand :=
  ⟨fun _ _ _ _ hin h => step_command_ok hin h, fun s i =>
    (step_command_ok (withFetchWord_inbox s (encode i)) (decode_encode i)).trans
      (congrArg (exec i) (setInbox_withFetchWord s _ _))⟩

end Sys2Proof.Proofs
end

section
/-! O9 and O10: a command makes its checks, of its fields, its operand registers and the MODE of its contexts, before it
does anything else (30_encoding.md R93, R94, R96; notes/assumptions/11.md). -/

namespace Sys2Proof.Proofs

open Sys2Proof.Machine

/-- The fields and the operand registers of a command are legal (30_encoding.md R94). -/
def Legal (i : Instr) (s : State) : Prop := i.wellFormed s.cfg.nCtx = true ∧ i.OperandsLegal s

/-- Every context that a command names has a MODE it may run in (30_encoding.md R96). -/
def RightModes (i : Instr) (s : State) : Prop := ∀ c ∈ i.contexts, i.modeOK (s.ctx c).mode = true

/-- No refusal of it blames the MODE of a context. -/
def NotForMode {α : Type} (x : Exec α) : Prop := x ≠ .error (.refused .wrongMode)

/-- The rest x of command i, or a part of it, is guarded: it is refused where the command is not legal or a MODE is wrong,
and no refusal of it blames the MODE where every MODE is right. -/
structure Guarded {α : Type} (i : Instr) (s : State) (x : Exec α) : Prop where
  refused : ¬(Legal i s ∧ RightModes i s) → Refused x
  notForMode : RightModes i s → NotForMode x

section
variable {α β : Type} {i : Instr} {s : State} {c : CtxId}

/-! ### The reason of a refusal -/

theorem NotForMode.bind {x : Exec α} {f : α → Exec β} (hx : NotForMode x) (h : ∀ a, x = .ok a → NotForMode (f a)) :
    NotForMode (x >>= f) :=
  fun e => (exec_bind_eq_error.1 e).elim hx fun ⟨a, ea, ef⟩ => h a ea ef

theorem notForMode_of_neverRefused {x : Exec α} (h : NeverRefused x) : NotForMode x := h _

theorem notForMode_require {p : Prop} [Decidable p] {r : Refusal} (hr : r ≠ .wrongMode) : NotForMode (require p r) := by
  unfold require NotForMode; split <;> simp [hr]

theorem notForMode_operand (r : OperandName) (s : State) : NotForMode (operand r s) := by
  unfold operand NotForMode; split <;> simp

/-- The scan of a source string checks for overlap only (41_writer.md R151). -/
theorem notForMode_scanString (s : State) (fuel a : Nat) : NotForMode (scanString s fuel a) := by
  induction fuel generalizing a with
  | zero => simp [scanString, NotForMode]
  | succ fuel ih =>
    refine .bind (notForMode_require (by decide)) fun _ _ =>
      .bind (notForMode_of_neverRefused (neverRefused_memRead _ _ _)) fun b _ => ?_
    split
    · simp [NotForMode]
    · exact .bind (ih _) fun _ _ => by simp [NotForMode]

/-! ### Guarded runs, check by check -/

/-- After a check that does not concern the MODE. -/
theorem Guarded.check {x : Exec α} {f : α → Exec β} (hx : IsCheck x) (hm : NotForMode x)
    (h : ∀ a, x = .ok a → Guarded i s (f a)) : Guarded i s (x >>= f) where
  refused hn := refused_bind hx fun a e => (h a e).refused hn
  notForMode hr := hm.bind fun a e => (h a e).notForMode hr

theorem Guarded.require {p : Prop} [Decidable p] {r : Refusal} {f : Unit → Exec β} (hr : r ≠ .wrongMode)
    (h : p → Guarded i s (f ())) : Guarded i s (require p r >>= f) :=
  .check (isCheck_require _ _) (notForMode_require hr) fun _ e => h (require_eq_ok.1 e)

theorem Guarded.needCtx {f : Unit → Exec β} (h : legalCtx s.cfg.nCtx c = true → Guarded i s (f ())) :
    Guarded i s (needCtx c s >>= f) :=
  .require (by decide) h

theorem Guarded.needCount {nb : Fin 64} {f : Unit → Exec β} (h : legalCount nb = true → Guarded i s (f ())) :
    Guarded i s (needCount nb >>= f) :=
  .require (by decide) h

theorem Guarded.operand {r : OperandName} {f : Word64 → Exec β} (h : Guarded i s (f (s.operandReg r).value)) :
    Guarded i s (operand r s >>= f) :=
  .check (isCheck_operand r s) (notForMode_operand r s) fun _ e => (operand_eq_ok.1 e).2 ▸ h

/-- After a check of the MODE that 30_encoding.md R96 asks for. -/
theorem Guarded.modeCheck {p : Prop} [Decidable p] {f : Unit → Exec β} (hp : RightModes i s → p)
    (h : p → Guarded i s (f ())) : Guarded i s (Machine.require p .wrongMode >>= f) where
  refused hn := refused_bind (isCheck_require _ _) fun _ e => (h (require_eq_ok.1 e)).refused hn
  notForMode hr := by
    rw [require_pos _ (hp hr), exec_ok_bind]
    exact (h (hp hr)).notForMode hr

/-- The MODE check of a command that names one context. -/
theorem Guarded.needMode {m : Mode} {f : Unit → Exec β} (hc : i.contexts = [c])
    (hm : ∀ k, i.modeOK k = decide (k = m)) (h : RightModes i s → Guarded i s (f ())) :
    Guarded i s (needMode m c s >>= f) :=
  have hiff : RightModes i s ↔ (s.ctx c).mode = m := by simp [RightModes, hc, hm]
  .modeCheck hiff.1 fun e => h (hiff.2 e)

theorem Guarded.needBound {f : Unit → Exec β} (hc : i.contexts = [c])
    (hm : ∀ k, i.modeOK k = decide (k ≠ .unbound)) (h : RightModes i s → Guarded i s (f ())) :
    Guarded i s (needBound c s >>= f) :=
  have hiff : RightModes i s ↔ (s.ctx c).mode ≠ .unbound := by simp [RightModes, hc, hm]
  .modeCheck hiff.1 fun e => h (hiff.2 e)

/-- Once the checks have passed, only the reason of a refusal matters. -/
theorem Guarded.passed {x : Exec α} (hl : Legal i s) (hr : RightModes i s) (hx : NotForMode x) : Guarded i s x :=
  ⟨fun hn => absurd ⟨hl, hr⟩ hn, fun _ => hx⟩

/-- Accesses, which are never refused. -/
theorem Guarded.access {x : Exec α} (hl : Legal i s) (hr : RightModes i s) (hx : NeverRefused x) : Guarded i s x :=
  .passed hl hr (hx _)

theorem neverRefused_ite {p : Prop} [Decidable p] {x y : Exec α} (hx : NeverRefused x) (hy : NeverRefused y) :
    NeverRefused (if p then x else y) := by
  split <;> assumption

/-- A read and a result. -/
theorem neverRefused_result {x : Exec (α × State)} (hx : NeverRefused x) (f : α × State → State) :
    NeverRefused (x >>= fun y => .ok (f y)) :=
  neverRefused_bind hx fun _ _ => neverRefused_ok _

end

/-- The capacity that the model computes for a bind is the one 30_encoding.md R94 allows. -/
theorem bindCap_of_bindCapacity {s : State} {cap : Nat} (hbytes : s.opb.value.toNat ≤ 2 ^ 28 - 1)
    (hcap : bindCapacity s.opb.value.toNat s.opd.value.toInt = some cap) (hstart : s.opc.value.toNat ≤ cap) :
    BindCap s cap := by
  refine ⟨hbytes, ?_, hstart⟩
  unfold bindCapacity at hcap
  split at hcap
  case isTrue hall => exact .inl ⟨BitVec.eq_of_toInt_eq hall, (Option.some.inj hcap).symm⟩
  case isFalse =>
    split at hcap
    case isTrue hrange =>
      have hval : s.opd.value.toInt.toNat = cap := Option.some.inj hcap
      have hnat := BitVec.toInt_eq_toNat_of_lt (BitVec.toInt_pos_iff.1 hrange.1)
      exact .inr ⟨by omega, by omega⟩
    case isFalse => simp at hcap

/-- The binds check all their operands and accept any MODE (41_writer.md R140, 43_reader.md R210). -/
theorem bindAs_guarded {i : Instr} {mode : Mode} {c : CtxId} (hb : IsBindOf i mode c) (s : State) :
    Guarded i s (bindAs mode c s) := by
  refine .needCtx fun hc => .operand <| .operand <| .operand <| .operand <| .require (by decide) fun _ =>
    .require (by decide) fun hbytes => ?_
  match hcap : bindCapacity (s.operandReg .opb).value.toNat (s.operandReg .opd).value.toInt with
  | none => exact ⟨fun _ => ⟨_, rfl⟩, fun _ => by simp [NotForMode]⟩
  | some cap =>
    refine .require (by decide) fun hstart => .require (by decide) fun _ =>
      .access ⟨?fields, ?operands⟩ (fun _ _ => ?modes) (neverRefused_ok _)
    case fields => cases hb <;> exact hc
    case operands =>
      have hlegal : ∃ cap, BindCap s cap := ⟨cap, bindCap_of_bindCapacity hbytes hcap hstart⟩
      cases hb <;> exact hlegal
    case modes => cases hb <;> rfl

/-- CMPBITS names two contexts, and both are to be readers (43_reader.md R227). -/
theorem execCmpbits_guarded (c c2 : CtxId) (s : State) :
    ∃ x, exec (.cmpbits c c2) s = finish x ∧ Guarded (.cmpbits c c2) s x := by
  have hmodes : RightModes (.cmpbits c c2) s ↔ (s.ctx c).mode = .reader ∧ (s.ctx c2).mode = .reader := by
    simp [RightModes, Instr.contexts, Instr.modeOK, Instr.isBind, Instr.opcode]
  refine ⟨_, rfl, .needCtx fun hc => .needCtx fun hc2 => .require (by decide) fun hne => .operand <|
    .require (by decide) fun hn => .modeCheck (fun hr => (hmodes.1 hr).1) fun hm =>
    .modeCheck (fun hr => (hmodes.1 hr).2) fun hm2 => .access ⟨?_, hn⟩ (hmodes.2 ⟨hm, hm2⟩) <|
    neverRefused_result (neverRefused_compareFrom _ _ _ _ _ _ _) _⟩
  simp [Instr.wellFormed, hc, hc2, hne]

/-- Every command is guarded. The arms with one proof are the commands of one shape: the checks, and an access that is never
refused. -/
theorem exec_guarded (i : Instr) (s : State) : ∃ x, exec i s = finish x ∧ Guarded i s x :=
  match i with
  | .zzenc32 | .zzdec32 | .zzenc64 | .zzdec64 | .vsize32 | .vsize64 =>
    ⟨_, rfl, .operand <| .access ⟨rfl, trivial⟩ (by simp [RightModes, Instr.contexts]) (neverRefused_ok _)⟩
  | .wbind c => ⟨_, rfl, bindAs_guarded (.wbind c) s⟩
  | .rbind c => ⟨_, rfl, bindAs_guarded (.rbind c) s⟩
  | .getbits _ | .getbytes _ | .getbitsleft _ | .getbytesleft _ | .getcap _ | .getovf _ =>
    ⟨_, rfl, .needCtx fun hc => .needBound rfl (fun _ => rfl) fun hr => .access ⟨hc, trivial⟩ hr (neverRefused_ok _)⟩
  | .wbit _ | .wfloat _ =>
    ⟨_, rfl, .needCtx fun hc => .operand <| .needMode rfl (fun _ => rfl) fun hr => .access ⟨hc, trivial⟩ hr
      (neverRefused_wr _ _ _ _ _)⟩
  | .wuns _ _ | .wsigned _ _ | .wangle _ _ =>
    ⟨_, rfl, .needCtx fun hc => .needCount fun hn => .operand <| .needMode rfl (fun _ => rfl) fun hr =>
      .access ⟨Bool.and_eq_true_iff.2 ⟨hc, hn⟩, trivial⟩ hr (neverRefused_wr _ _ _ _ _)⟩
  | .wvar32 _ | .wvar64 _ | .wsvar32 _ | .wsvar64 _ =>
    ⟨_, rfl, .needCtx fun hc => .operand <| .needMode rfl (fun _ => rfl) fun hr => .access ⟨hc, trivial⟩ hr
      (neverRefused_varPut _ _ _ _ _)⟩
  | .wubitvar _ | .wcoord _ | .wcoordmp _ _ _ | .wnormal _ =>
    ⟨_, rfl, .needCtx fun hc => .operand <| .needMode rfl (fun _ => rfl) fun hr => .access ⟨hc, trivial⟩ hr
      (neverRefused_wrAll _ _ _ _)⟩
  | .wvec3coord _ | .wvec3normal _ =>
    ⟨_, rfl, .needCtx fun hc => .operand <| .operand <| .needMode rfl (fun _ => rfl) fun hr =>
      .access ⟨hc, trivial⟩ hr (neverRefused_wrAll _ _ _ _)⟩
  | .rbit _ | .rfloat _ =>
    ⟨_, rfl, .needCtx fun hc => .needMode rfl (fun _ => rfl) fun hr => .access ⟨hc, trivial⟩ hr <|
      neverRefused_result (neverRefused_rd _ _ _ _) _⟩
  | .runs _ _ | .rsigned _ _ | .rangle _ _ | .peekuns _ _ =>
    ⟨_, rfl, .needCtx fun hc => .needCount fun hn => .needMode rfl (fun _ => rfl) fun hr =>
      .access ⟨Bool.and_eq_true_iff.2 ⟨hc, hn⟩, trivial⟩ hr <| neverRefused_result (neverRefused_rd _ _ _ _) _⟩
  | .seek _ | .seekrel _ =>
    ⟨_, rfl, .needCtx fun hc => .operand <| .needMode rfl (fun _ => rfl) fun hr => .access ⟨hc, trivial⟩ hr
      (neverRefused_ok _)⟩
  | .rvar32 _ | .rvar64 _ | .rsvar32 _ | .rsvar64 _ =>
    ⟨_, rfl, .needCtx fun hc => .needMode rfl (fun _ => rfl) fun hr => .access ⟨hc, trivial⟩ hr <|
      neverRefused_result (neverRefused_varGetFrom _ _ _ _ _ _) _⟩
  | .rcoord _ =>
    ⟨_, rfl, .needCtx fun hc => .needMode rfl (fun _ => rfl) fun hr => .access ⟨hc, trivial⟩ hr <|
      neverRefused_result (neverRefused_coordGet _ _ _) _⟩
  | .rcoordmp _ _ _ =>
    ⟨_, rfl, .needCtx fun hc => .needMode rfl (fun _ => rfl) fun hr => .access ⟨hc, trivial⟩ hr <|
      neverRefused_result (neverRefused_coordMpGet _ _ _ _ _) _⟩
  | .rnormal _ =>
    ⟨_, rfl, .needCtx fun hc => .needMode rfl (fun _ => rfl) fun hr => .access ⟨hc, trivial⟩ hr <|
      neverRefused_result (neverRefused_normalGet _ _ _) _⟩
  | .rubitvar _ =>
    ⟨_, rfl, .needCtx fun hc => .needMode rfl (fun _ => rfl) fun hr => .access ⟨hc, trivial⟩ hr <|
      neverRefused_bind (neverRefused_rd _ _ _ _) fun _ _ => neverRefused_ite (neverRefused_ok _)
        (neverRefused_result (neverRefused_rd _ _ _ _) _)⟩
  | .rvec3coord _ =>
    ⟨_, rfl, .needCtx fun hc => .needMode rfl (fun _ => rfl) fun hr => .access ⟨hc, trivial⟩ hr <|
      neverRefused_bind (neverRefused_rd _ _ _ _) fun _ _ => neverRefused_bind (neverRefused_rd _ _ _ _) fun _ _ =>
      neverRefused_bind (neverRefused_rd _ _ _ _) fun _ _ =>
      neverRefused_bind (neverRefused_axisGet _ _ (neverRefused_coordGet _ _) _) fun _ _ =>
      neverRefused_bind (neverRefused_axisGet _ _ (neverRefused_coordGet _ _) _) fun _ _ =>
      neverRefused_result (neverRefused_axisGet _ _ (neverRefused_coordGet _ _) _) _⟩
  | .rvec3normal _ =>
    ⟨_, rfl, .needCtx fun hc => .needMode rfl (fun _ => rfl) fun hr => .access ⟨hc, trivial⟩ hr <|
      neverRefused_bind (neverRefused_rd _ _ _ _) fun _ _ => neverRefused_bind (neverRefused_rd _ _ _ _) fun _ _ =>
      neverRefused_bind (neverRefused_axisGet _ _ (neverRefused_normalGet _ _) _) fun _ _ =>
      neverRefused_bind (neverRefused_axisGet _ _ (neverRefused_normalGet _ _) _) fun _ _ =>
      neverRefused_result (neverRefused_rd _ _ _ _) _⟩
  | .wbits _ =>
    ⟨_, rfl, .needCtx fun hc => .operand <| .operand <| .require (by decide) fun hn =>
      .needMode rfl (fun _ => rfl) fun hr => .require (by decide) fun _ => .access ⟨hc, hn⟩ hr <|
      neverRefused_ite (neverRefused_ok _) (neverRefused_bind (neverRefused_copyBits _ _ _ _ _ _ _) fun _ _ =>
        neverRefused_ok _)⟩
  | .wstring _ =>
    ⟨_, rfl, .needCtx fun hc => .operand <| .needMode rfl (fun _ => rfl) fun hr =>
      .passed ⟨hc, trivial⟩ hr <| .bind (notForMode_scanString _ _ _) fun _ _ => neverRefused_wrAll _ _ _ _ _⟩
  | .rstring _ _ =>
    ⟨_, rfl, .needCtx fun hc => .operand <| .operand <| .require (by decide) fun hn =>
      .needMode rfl (fun _ => rfl) fun hr => .require (by decide) fun _ => .access ⟨hc, hn⟩ hr <|
      neverRefused_bind (neverRefused_readString _ _ _ _ _ _ _ _ _) fun _ _ =>
      neverRefused_bind (neverRefused_memWrite _ _ _ _) fun _ _ => neverRefused_ok _⟩
  | .rbytes _ | .rbits _ =>
    ⟨_, rfl, .needCtx fun hc => .operand <| .operand <| .require (by decide) fun hn =>
      .needMode rfl (fun _ => rfl) fun hr => .require (by decide) fun _ => .access ⟨hc, hn⟩ hr <|
      neverRefused_ite (neverRefused_bind (neverRefused_zeroBytes _ _ _ _) fun _ _ => neverRefused_ok _)
        (neverRefused_bind (neverRefused_copyOut _ _ _ _ _ _ _) fun _ _ => neverRefused_ok _)⟩
  | .cmpbits c c2 => execCmpbits_guarded c c2 s

/-- A command that is not legal, or on a context of a wrong MODE, is refused. -/
theorem exec_refused_of_check {i : Instr} {s : State} (h : ¬(Legal i s ∧ RightModes i s)) :
    ∃ r, exec i s = .refused r := by
  obtain ⟨x, he, hg⟩ := exec_guarded i s
  exact he ▸ finish_of_refused (hg.refused h)

theorem exec_notForMode {i : Instr} {s : State} (h : RightModes i s) : exec i s ≠ .refused .wrongMode := by
  obtain ⟨x, he, hg⟩ := exec_guarded i s
  exact he ▸ mt finish_eq_refused.1 (hg.notForMode h)

/-- Settles O9: such a command is not legal. -/
theorem illegalFieldsAndOperandsAreRefused : Obligations.IllegalFieldsAndOperandsAreRefused := by
  intro i s h
  refine exec_refused_of_check fun ⟨⟨hfields, hoperands⟩, _⟩ => ?_
  rcases h with h | h
  · simp [hfields] at h
  · exact h hoperands

/-- Settles O10: `exec_refused_of_check` and `exec_notForMode` are its two parts. -/
theorem wrongModeIsRefused : Obligations.WrongModeIsRefused := by
  refine fun i s => ⟨fun ⟨c, hc, hm⟩ => exec_refused_of_check fun ⟨_, hr⟩ => ?_, exec_notForMode⟩
  simp [hr c hc] at hm

end Sys2Proof.Proofs
end

section
/-! O14 to O17: the codec commands (40_codec.md R120 to R125). Each of the six answers one change of RES0, by a function of
OPA whose value is a law of the codec. -/

namespace Sys2Proof.Proofs

open Sys2Proof.Machine

/-- A command whose checks pass goes on with what they yield. -/
theorem ok_bind {α β : Type} {x : Exec α} {f : α → Exec β} {a : α} {b : β} (hx : x = .ok a) (hf : f a = .ok b) :
    (x >>= f) = .ok b :=
  exec_bind_eq_ok.2 ⟨a, hx, hf⟩

/-! ### What each command answers -/

section
variable {s : State}

/-- The run that the codec commands share: OPA is read, and `f` of it goes to RES0. -/
theorem finish_codec (f : Word64 → Word64) (h : s.opa.written = true) :
    finish (do let a ← operand .opa s; .ok (s.setRes0 (f a))) = .next (s.setRes0 (f s.opa.value)) :=
  finish_eq_next.2 <| ok_bind (operand_pos h) rfl

theorem exec_zzenc32 (h : s.opa.written = true) :
    exec .zzenc32 s = .next (s.setRes0 (zext64 (zigzagEnc32 (lowWord s.opa.value)))) :=
  finish_codec (fun a => zext64 (zigzagEnc32 (lowWord a))) h

theorem exec_zzdec32 (h : s.opa.written = true) :
    exec .zzdec32 s = .next (s.setRes0 (sext64 (zigzagDec32 (lowWord s.opa.value)))) :=
  finish_codec (fun a => sext64 (zigzagDec32 (lowWord a))) h

theorem exec_zzenc64 (h : s.opa.written = true) : exec .zzenc64 s = .next (s.setRes0 (zigzagEnc64 s.opa.value)) :=
  finish_codec zigzagEnc64 h

theorem exec_zzdec64 (h : s.opa.written = true) : exec .zzdec64 s = .next (s.setRes0 (zigzagDec64 s.opa.value)) :=
  finish_codec zigzagDec64 h

theorem exec_vsize32 (h : s.opa.written = true) :
    exec .vsize32 s = .next (s.setRes0 (BitVec.ofNat 64 (varSize (lowWord s.opa.value).toNat))) :=
  finish_codec (fun a => BitVec.ofNat 64 (varSize (lowWord a).toNat)) h

theorem exec_vsize64 (h : s.opa.written = true) :
    exec .vsize64 s = .next (s.setRes0 (BitVec.ofNat 64 (varSize s.opa.value.toNat))) :=
  finish_codec (fun a => BitVec.ofNat 64 (varSize a.toNat)) h

/-- The low word of a zero-extended 32-bit result is that result (30_encoding.md R97). -/
@[simp] theorem lowWord_zext64 (v : Word32) : lowWord (zext64 v) = v :=
  BitVec.setWidth_setWidth_of_le v (by decide)

end

/-! ### The statements -/

/-- Settles O16: RES0 of the encoder is an operand that has been written, and the codec's functions are inverse. -/
theorem zigZagDecodeInvertsEncode : Obligations.ZigZagDecodeInvertsEncode := by
  intro s t u hs hu
  refine ⟨fun h => ?zz32, fun h => ?zz64⟩
  case zz32 =>
    obtain rfl : _ = t := Host.Outcome.next.inj ((exec_zzenc32 hs).symm.trans h)
    rw [exec_zzdec32 (by rw [hu, setRes0_res0]), hu, setRes0_res0, lowWord_zext64, zigzagDec32_enc32]
    rfl
  case zz64 =>
    obtain rfl : _ = t := Host.Outcome.next.inj ((exec_zzenc64 hs).symm.trans h)
    rw [exec_zzdec64 (by rw [hu, setRes0_res0]), hu, setRes0_res0, zigzagDec64_enc64]

/-- Settles O14: the laws `zext64_zigzagEnc32` and `zigzagEnc64_eq` give the values. -/
theorem zigZagEncode : Obligations.ZigZagEncode := fun s h =>
  ⟨⟨commandWord _, (exec_zzenc32 h).trans (by rw [zext64_zigzagEnc32, lowWord])⟩,
    ⟨commandWord _, (exec_zzenc64 h).trans (by rw [zigzagEnc64_eq])⟩⟩

/-- Settles O15: the laws `sext64_zigzagDec32` and `zigzagDec64_eq` give the values. -/
theorem zigZagDecode : Obligations.ZigZagDecode := fun s h =>
  ⟨⟨commandWord _, (exec_zzdec32 h).trans (by rw [sext64_zigzagDec32, lowWord])⟩,
    ⟨commandWord _, (exec_zzdec64 h).trans (by rw [zigzagDec64_eq])⟩⟩

/-- Settles O17: the loop of the model ends at the least size. -/
theorem varintSizeIsLeast : Obligations.VarintSizeIsLeast := by
  refine fun s h => ⟨⟨commandWord _, varSize (lowWord s.opa.value).toNat, ?vsize32⟩,
    ⟨commandWord _, varSize s.opa.value.toNat, ?vsize64⟩⟩
  case vsize32 =>
    obtain ⟨hleast, hcap⟩ := varSize_32 (lowWord s.opa.value)
    exact ⟨hleast, hcap, exec_vsize32 h⟩
  case vsize64 =>
    obtain ⟨hleast, hcap⟩ := varSize_64 s.opa.value
    exact ⟨hleast, hcap, exec_vsize64 h⟩

end Sys2Proof.Proofs
end

section
/-! O26: a reader gets back what a varint writer sent (41_writer.md R144, 43_reader.md R216, 20_memory.md R69). The bytes of
the encoding stand in the stream, the fast path touches none of them, and the loop of `VarGet` gathers 7 bits of the value
from each byte, up to the one without the continuation bit. -/

namespace Sys2Proof.Proofs

open Sys2Proof.Machine

/-! ### The bytes in the stream -/

/-- The bytes of the encoding of v in `size` bytes are the stream bits at the cursor of c, and they exist (41_writer.md
R144). -/
structure HoldsVarint (s : State) (c : CtxId) (v size : Nat) : Prop where
  buffered : Buffered s c
  fits : Fits s c (8 * size)
  bytes : ∀ i < size, streamBits s c ((s.ctx c).cursor + 8 * i) 8 = varintByte v size i

/-- What `VarPut` leaves of a writer with room for the encoding: the fields side by side, and then what the fast path makes
of the bits past the cursor. -/
theorem varPut_wrote {op : BitVec 8} {c : CtxId} {v w size : Nat} {s t : State} (hb : Buffered s c)
    (hv : IsVarintSize v size) (hs : size ≤ 10) (hf : Fits s c (8 * size)) (h : varPut op c v w s = .ok t) :
    ∃ x, Wrote s c (8 * size) (fieldsValue (varintFields v size)) x ∧ FastPath c (s.ctx c).cursor w x t := by
  obtain ⟨x, t', e, hw, hp⟩ := varPut_completes op c v w size s hb hv hs
  obtain rfl : t' = t := Except.ok.inj (e.symm.trans h)
  have hwidth : fieldsWidth (varintFields v size) = 8 * size := by
    rw [fieldsWidth_eight _ (varintFields_width v size), varintFields, List.length_map, List.length_range]
  exact ⟨x, hwidth ▸ writesAll_fits hw (hwidth ▸ hf), hp⟩

/-- A field that was written is read back, whatever the fast path has made of the bits past it (20_memory.md R69). -/
theorem streamBits_of_fastPath {s t u x : State} {c d : CtxId} {n v p w : Nat} (hr : Rereads s c t u d)
    (hw : Wrote s c n v x) (hp : FastPath c p w x t) {i m : Nat} (hi : i + m ≤ n) :
    streamBits u d ((u.ctx d).cursor + i) m = v / 2 ^ i % 2 ^ m := by
  obtain ⟨hcfg, hmem, hd, hmode, hbase, hcap, hcur⟩ := hr
  have hx : Rereads s c x (u.setMem x.mem) d := ⟨hcfg, rfl, hd, hmode, hbase, hcap, hcur⟩
  refine Eq.trans (memBits_congr _ _ _ _ fun j hj => ?_) (hx.streamBits hw i m hi)
  rw [hmem]
  refine hp.2 _ fun ⟨_, _, hpast, _⟩ => ?_
  rw [hw.ctx] at hpast
  dsimp only at hpast
  omega

theorem fieldsValue_varintFields {v size i : Nat} (hi : i < size) :
    fieldsValue (varintFields v size) / 2 ^ (8 * i) % 2 ^ 8 = varintByte v size i := by
  rw [fieldsValue_byte _ (varintFields_width v size) i (by simpa [varintFields] using hi)]
  simpa [varintFields] using Nat.mod_eq_of_lt (varintByte_lt v size i)

/-- A reader over the writer's buffer finds the encoding at its cursor. -/
theorem holdsVarint_of_varPut {op : BitVec 8} {c d : CtxId} {v w size : Nat} {s t u : State} (hb : Buffered s c)
    (hv : IsVarintSize v size) (hs : size ≤ 10) (hf : Fits s c (8 * size)) (h : varPut op c v w s = .ok t)
    (hr : Rereads s c t u d) : HoldsVarint u d v size where
  buffered := hr.buffered hb
  fits := by
    obtain ⟨-, -, -, -, -, hcap, hcur⟩ := hr
    rwa [Fits, hcap, hcur]
  bytes i hi := by
    obtain ⟨x, hw, hp⟩ := varPut_wrote hb hv hs hf h
    rw [streamBits_of_fastPath hr hw hp (by omega), fieldsValue_varintFields hi]

/-! ### The loop of the reader -/

theorem varintByte_mod (v size i : Nat) : varintByte v size i % 2 ^ 7 = v / 2 ^ (7 * i) % 2 ^ 7 := by
  unfold varintByte
  split <;> omega

/-- The continuation bit is clear on the last byte alone. -/
theorem varintByte_lt_iff {v size i : Nat} (hi : i < size) : varintByte v size i < 0x80 ↔ i + 1 = size := by
  unfold varintByte
  split <;> omega

/-- The 7-bit groups of v below group k, with group k, are those below group k + 1. -/
theorem or_varintByte (v size k : Nat) :
    v % 2 ^ (7 * k) ||| (varintByte v size k % 0x80) <<< (7 * k) = v % 2 ^ (7 * (k + 1)) := by
  rw [or_shift _ _ _ (Nat.mod_lt _ (Nat.two_pow_pos _)), show (0x80 : Nat) = 2 ^ 7 from rfl, varintByte_mod,
    Nat.mul_succ, pow_add, Nat.mod_mul, Nat.mul_comm (2 ^ (7 * k))]

section
variable {s : State} {c : CtxId} {v size : Nat}

/-- A read of byte k of the encoding, with the cursor there. -/
theorem HoldsVarint.rd_eq (h : HoldsVarint s c v size) (op : BitVec 8) {k : Nat} (hk : k < size) :
    rd op c 8 (s.setCursor c ((s.ctx c).cursor + 8 * k)) =
      .ok (varintByte v size k, s.setCursor c ((s.ctx c).cursor + 8 * (k + 1))) := by
  have hf : Fits (s.setCursor c ((s.ctx c).cursor + 8 * k)) c 8 := by
    have := h.fits
    simp only [Fits, ctx_setCursor_same] at this ⊢
    omega
  have hb : Buffered (s.setCursor c ((s.ctx c).cursor + 8 * k)) c := fun p hp => by
    simp only [ctx_setCursor_same] at hp ⊢
    exact h.buffered p hp
  rw [rd_fits op c 8 _ hf (hb.bytes hf)]
  have hbyte := h.bytes k hk
  simp only [streamBits, ctx_setCursor_same, setCursor_mem, setCursor_setCursor] at hbyte ⊢
  rw [hbyte]
  rfl

/-- The loop of `VarGet` at byte k of the encoding, with the k groups before it gathered, ends after the last byte with the
whole value. -/
theorem HoldsVarint.varGetFrom_eq (h : HoldsVarint s c v size) (hv : v < 2 ^ (7 * size)) (op : BitVec 8) (left k : Nat)
    (hk : k < size) (hcap : size ≤ k + left) :
    varGetFrom op c left k (v % 2 ^ (7 * k)) (s.setCursor c ((s.ctx c).cursor + 8 * k)) =
      .ok (v, s.setCursor c ((s.ctx c).cursor + 8 * size)) := by
  induction left generalizing k with
  | zero => omega
  | succ left ih =>
    rw [varGetFrom, h.rd_eq op hk, exec_ok_bind]
    dsimp only
    rw [or_varintByte]
    by_cases hlast : k + 1 = size
    · rw [if_pos ((varintByte_lt_iff hk).2 hlast), hlast, Nat.mod_eq_of_lt hv]
    · rw [if_neg (mt (varintByte_lt_iff hk).1 hlast)]
      exact ih (k + 1) (by omega) (by omega)

/-- `VarGet` returns the encoded value and consumes its bytes. -/
theorem HoldsVarint.varGet_eq (h : HoldsVarint s c v size) (hv : IsVarintSize v size) (op : BitVec 8) {cap : Nat}
    (hcap : size ≤ cap) : varGet op c cap s = .ok (v, s.setCursor c ((s.ctx c).cursor + 8 * size)) := by
  obtain ⟨hpos, hlt, -⟩ := hv
  have := h.varGetFrom_eq hlt op cap 0 hpos (by omega)
  simpa [varGet, Nat.mod_one] using this

end

/-! ### The commands -/

/-- A write command of one operand that answers has passed its checks. -/
theorem write_inv {c : CtxId} {s t : State} {f : Word64 → Exec State}
    (h : finish (do needCtx c s; let v ← operand .opa s; needMode .writer c s; f v) = .next t) :
    f s.opa.value = .ok t := by
  obtain ⟨_, -, h⟩ := exec_bind_eq_ok.1 (finish_eq_next.1 h)
  obtain ⟨a, ha, h⟩ := exec_bind_eq_ok.1 h
  obtain ⟨_, -, h⟩ := exec_bind_eq_ok.1 h
  obtain ⟨-, rfl⟩ := operand_eq_ok.1 ha
  exact h

/-- A varint that was sent is read back: the checks of the reader pass and `VarGet` returns the value, of which `g` goes to
RES0. -/
theorem varint_reread {op op' : BitVec 8} {c d : CtxId} {v w size cap : Nat} {s t u : State} {r : Word64}
    (g : Nat → Word64) (hready : Ready s .writer c) (hf : Fits s c (8 * size)) (hr : Rereads s c t u d)
    (hv : IsVarintSize v size) (hcap : size ≤ cap) (hcap10 : cap ≤ 10) (h : varPut op c v w s = .ok t) (hg : g v = r) :
    finish (do needCtx d u; needMode .reader d u; let x ← varGet op' d cap u; .ok (x.2.setRes0 (g x.1))) =
      .next ((u.setCursor d ((u.ctx d).cursor + 8 * size)).setRes0 r) := by
  obtain ⟨-, -, hb⟩ := hready
  have hholds : HoldsVarint u d v size := holdsVarint_of_varPut hb hv (hcap.trans hcap10) hf h hr
  obtain ⟨-, -, hd, hmode, -⟩ := hr
  subst hg
  exact finish_eq_next.2 <| ok_bind (needCtx_pos hd) <| ok_bind (needMode_pos hmode) <|
    ok_bind (hholds.varGet_eq hv op' hcap) rfl

theorem varintSize_le_32 {x : Word32} {size : Nat} (h : IsVarintSize x.toNat size) : size ≤ 5 :=
  varintSize_le h (by decide) (x.isLt.trans (by decide))

theorem varintSize_le_64 {x : Word64} {size : Nat} (h : IsVarintSize x.toNat size) : size ≤ 10 :=
  varintSize_le h (by decide) (x.isLt.trans (by decide))

/-- Settles O26: `varint_reread` for each pair, and the value that was sent gives the operand back. -/
theorem varintRoundTrip : Obligations.VarintRoundTrip := by
  intro s t u c d size hready hf hr consumed
  refine ⟨fun hv h => ?var32, fun hv h => ?var64, fun hv h => ?svar32, fun hv h => ?svar64⟩
  case var32 =>
    exact varint_reread (fun n => zext64 (BitVec.ofNat 32 n)) hready hf hr hv
      (varintSize_le_32 hv) (by decide) (write_inv h)
      (by simp only [BitVec.ofNat_toNat, BitVec.setWidth_eq, zext64])
  case var64 =>
    exact varint_reread (fun n => BitVec.ofNat 64 n) hready hf hr hv
      (varintSize_le_64 hv) le_rfl (write_inv h)
      (by simp only [BitVec.ofNat_toNat, BitVec.setWidth_eq])
  case svar32 =>
    exact varint_reread (fun n => sext64 (zigzagDec32 (BitVec.ofNat 32 n))) hready hf hr hv
      (varintSize_le_32 hv) (by decide) (write_inv h)
      (by simp only [BitVec.ofNat_toNat, BitVec.setWidth_eq, zigzagDec32_enc32, sext64])
  case svar64 =>
    exact varint_reread (fun n => zigzagDec64 (BitVec.ofNat 64 n)) hready hf hr hv
      (varintSize_le_64 hv) le_rfl (write_inv h)
      (by simp only [BitVec.ofNat_toNat, BitVec.setWidth_eq, zigzagDec64_enc64])

end Sys2Proof.Proofs
end

section
/-! O18: the binds (41_writer.md R140, 43_reader.md R210). The model computes the capacity that R94 allows, and a bind is its
three checks, of BASE, of the capacity and of the overlap. -/

namespace Sys2Proof.Proofs

open Sys2Proof.Machine

/-- A command stops where what stands behind a check that passes does. -/
theorem error_after {α β : Type} {x : Exec α} {f : α → Exec β} {a : α} {e : Stop} (hx : x = .ok a)
    (hf : f a = .error e) : (x >>= f) = .error e :=
  exec_bind_eq_error.2 (.inr ⟨a, hx, hf⟩)

/-- A command is refused for the reason r when a check with this reason fails, or what stands behind it is. -/
theorem error_of_require {β : Type} {p : Prop} [Decidable p] {r : Refusal} {f : Unit → Exec β}
    (h : p → f () = .error (.refused r)) : (require p r >>= f) = .error (.refused r) := by
  by_cases hp : p
  · exact error_after (require_pos r hp) (h hp)
  · rw [require_neg r hp, exec_error_bind]

section
variable {s : State} {cap : Nat}

/-- The converse of `bindCap_of_bindCapacity`: an override that is no larger than the buffer is not negative. -/
theorem bindCapacity_of_bindCap (h : BindCap s cap) :
    bindCapacity s.opb.value.toNat s.opd.value.toInt = some cap := by
  obtain ⟨hbytes, ⟨hovr, rfl⟩ | ⟨rfl, hle⟩, -⟩ := h
  · rw [hovr]; rfl
  · have hint : s.opd.value.toInt = s.opd.value.toNat := BitVec.toInt_eq_toNat_of_lt (by omega)
    rw [bindCapacity, hint, if_neg (by omega), if_pos (by omega), Int.toNat_natCast]

variable {c : CtxId} {mode : Mode}

/-- A bind with legal operands checks the overlap and sets the context. -/
theorem bindAs_legal (hc : c.val < s.cfg.nCtx) (hw : BindWritten s) (h : BindCap s cap) (hbase : BindBase s) :
    bindAs mode c s =
      (require (bindOverlap s c mode s.opa.value.toNat s.opb.value.toNat = false) .overlap >>= fun _ =>
        .ok (s.setCtx c (boundCtx mode s.opa.value.toNat s.opb.value.toNat cap s.opc.value.toNat))) := by
  obtain ⟨ha, hb, hp, hd⟩ := hw
  have ⟨hbytes, _, hstart⟩ := h
  simp only [bindAs, needCtx_pos hc, operand_pos (r := .opa) ha, operand_pos (r := .opb) hb,
    operand_pos (r := .opc) hp, operand_pos (r := .opd) hd, exec_ok_bind, operandReg_opa, operandReg_opb,
    operandReg_opc, operandReg_opd, require_pos _ hbase, require_pos _ hbytes, bindCapacity_of_bindCap h,
    require_pos _ hstart]

theorem bindAs_next (hc : c.val < s.cfg.nCtx) (hw : BindWritten s) (h : BindCap s cap) (hbase : BindBase s)
    (ho : ¬BindOverlaps s c mode s.opa.value.toNat s.opb.value.toNat) :
    finish (bindAs mode c s) =
      .next (s.setCtx c (boundCtx mode s.opa.value.toNat s.opb.value.toNat cap s.opc.value.toNat)) := by
  rw [bindAs_legal hc hw h hbase, require_pos _ ((bindOverlap_false _ _ _ _ _).2 ho)]
  rfl

theorem bindAs_overlap (hc : c.val < s.cfg.nCtx) (hw : BindWritten s) (h : ∃ cap, BindCap s cap) (hbase : BindBase s)
    (ho : BindOverlaps s c mode s.opa.value.toNat s.opb.value.toNat) :
    finish (bindAs mode c s) = .refused .overlap := by
  obtain ⟨cap, h⟩ := h
  rw [bindAs_legal hc hw h hbase, require_neg _ fun e => (bindOverlap_false _ _ _ _ _).1 e ho]
  rfl

/-- With illegal operands one of the checks before the overlap fails. -/
theorem bindAs_badOperand (hc : c.val < s.cfg.nCtx) (hw : BindWritten s)
    (h : ¬((∃ cap, BindCap s cap) ∧ BindBase s)) : finish (bindAs mode c s) = .refused .badOperand := by
  obtain ⟨ha, hb, hp, hd⟩ := hw
  refine finish_eq_refused.2 <| error_after (needCtx_pos hc) <| error_after (operand_pos ha) <|
    error_after (operand_pos hb) <| error_after (operand_pos hp) <| error_after (operand_pos hd) <|
    error_of_require fun hbase => error_of_require fun hbytes => ?_
  split
  case h_1 => rfl
  case h_2 cap hcap =>
    exact error_of_require fun hstart => absurd ⟨⟨cap, bindCap_of_bindCapacity hbytes hcap hstart⟩, hbase⟩ h

end

/-- Settles O18: the binds share `bindAs`. -/
theorem bindSetsTheContext : Obligations.BindSetsTheContext := fun _ _ hc hw =>
  ⟨commandWord _, commandWord _, fun _ => bindAs_next hc hw, fun _ => bindAs_next hc hw,
    fun h => ⟨bindAs_badOperand hc hw h, bindAs_badOperand hc hw h⟩, bindAs_overlap hc hw, bindAs_overlap hc hw⟩

end Sys2Proof.Proofs
end

section
/-! O21, O22, O24 and O27: the writer commands of one operand (41_writer.md R141 to R149, 42_writer_quant.md R184). Where the
context is ready the checks pass, and what is left is one shared operation over the stream. -/

namespace Sys2Proof.Proofs

open Sys2Proof.Machine

/-! ### The checks pass -/

section
variable {s : State} {c : CtxId} {f : Word64 → Exec State} {nb : Fin 64}

/-- A writer command of one operand, on a ready context, does what stands behind its checks. -/
theorem finish_write (hr : Ready s .writer c) (ha : s.opa.written = true) :
    finish (do needCtx c s; let a ← operand .opa s; needMode .writer c s; f a) = finish (f s.opa.value) := by
  obtain ⟨hc, hm, -⟩ := hr
  simp only [needCtx_pos hc, operand_pos (r := .opa) ha, needMode_pos hm, exec_ok_bind, operandReg_opa]

/-- The same with the check of NB. -/
theorem finish_countedWrite (hr : Ready s .writer c) (ha : s.opa.written = true) (hnb : nb.val ≤ 32) :
    finish (do needCtx c s; needCount nb; let a ← operand .opa s; needMode .writer c s; f a) =
      finish (f s.opa.value) := by
  obtain ⟨hc, hm, -⟩ := hr
  simp only [needCtx_pos hc, needCount_pos hnb, operand_pos (r := .opa) ha, needMode_pos hm, exec_ok_bind,
    operandReg_opa]

theorem write_next {P : State → Prop} (hr : Ready s .writer c) (ha : s.opa.written = true)
    (h : ∃ t, f s.opa.value = .ok t ∧ P t) :
    ∃ t, finish (do needCtx c s; let a ← operand .opa s; needMode .writer c s; f a) = .next t ∧ P t := by
  obtain ⟨t, ht, hP⟩ := h
  exact ⟨t, (finish_write hr ha).trans (finish_eq_next.2 ht), hP⟩

theorem countedWrite_next {P : State → Prop} (hr : Ready s .writer c) (ha : s.opa.written = true) (hnb : nb.val ≤ 32)
    (h : ∃ t, f s.opa.value = .ok t ∧ P t) :
    ∃ t, finish (do needCtx c s; needCount nb; let a ← operand .opa s; needMode .writer c s; f a) = .next t ∧ P t := by
  obtain ⟨t, ht, hP⟩ := h
  exact ⟨t, (finish_countedWrite hr ha hnb).trans (finish_eq_next.2 ht), hP⟩

end

/-! ### One field -/

/-- Only the low n bits of a value matter to a field of n bits (20_memory.md R65). -/
theorem wrote_congr {s t : State} {c : CtxId} {n v v' : Nat} (hv : v % 2 ^ n = v' % 2 ^ n) (h : Wrote s c n v t) :
    Wrote s c n v' t := by
  refine ⟨h.1, fun k => (h.2 k).trans ?_⟩
  split
  case isFalse => rfl
  case isTrue hk =>
    have hlow : k - (8 * (s.ctx c).base + (s.ctx c).cursor) < n := by omega
    have hbit := congrArg (Nat.testBit · (k - (8 * (s.ctx c).base + (s.ctx c).cursor))) hv
    simpa [Nat.testBit_mod_two_pow, hlow] using hbit

theorem wrOutcome_congr {op : BitVec 8} {s t : State} {c : CtxId} {n v v' : Nat} (hv : v % 2 ^ n = v' % 2 ^ n)
    (h : WrOutcome op c n v s t) : WrOutcome op c n v' s t :=
  ⟨fun hf => wrote_congr hv (h.1 hf), h.2⟩

/-- The two's-complement pattern of a 32-bit word masked to n bits (41_writer.md R143). -/
theorem toInt_emod_two_pow (x : Word32) {n : Nat} (hn : n ≤ 32) : (x.toInt % 2 ^ n).toNat = x.toNat % 2 ^ n := by
  have hdvd : ((2 : ℤ) ^ n) ∣ ((2 ^ 32 : ℕ) : ℤ) := by exact_mod_cast pow_dvd_pow 2 hn
  rw [BitVec.toInt_eq_toNat_bmod, ← Int.emod_emod_of_dvd _ hdvd, Int.bmod_emod, Int.emod_emod_of_dvd _ hdvd]
  exact_mod_cast Int.toNat_natCast _

/-- Settles O21: each command is one `Wr`. -/
theorem bitSignedAndFloatWriters : Obligations.BitSignedAndFloatWriters := by
  intro s c hr ha
  have hb := hr.2.2
  refine ⟨⟨commandWord _, write_next hr ha (wr_completes _ c 1 _ s hb)⟩, fun nb hnb => ⟨commandWord _, ?signed⟩,
    ⟨commandWord _, write_next hr ha (wr_completes _ c 32 _ s hb)⟩⟩
  obtain ⟨t, ht, ho⟩ := wr_completes 0x13 c nb.val (lowWord s.opa.value).toNat s hb
  refine countedWrite_next hr ha hnb ⟨t, ht, wrOutcome_congr ?_ ho⟩
  rw [← lowWord, toInt_emod_two_pow _ hnb, Nat.mod_mod]

theorem rangeCheck_overflow {op : BitVec 8} {c : CtxId} {n v : Nat} {s : State}
    (h : s.cfg.debugRangeCheck = true ∧ n < 32 ∧ 2 ^ n ≤ v) :
    rangeCheck op c n v s = s.overflow op c .valueOutOfRange := if_pos h

theorem rangeCheck_none {op : BitVec 8} {c : CtxId} {n v : Nat} {s : State}
    (h : ¬(s.cfg.debugRangeCheck = true ∧ n < 32 ∧ 2 ^ n ≤ v)) : rangeCheck op c n v s = s := if_neg h

/-- In a context whose buffer exists, the `Wr` of WUNS completes after the advisory or without it. -/
theorem wr_rangeCheck_completes (op : BitVec 8) (c : CtxId) (n v : Nat) {s : State} (hb : Buffered s c) :
    ∃ t, wr op c n v (rangeCheck op c n v s) = .ok t ∧
      (s.cfg.debugRangeCheck = true ∧ n < 32 ∧ 2 ^ n ≤ v → WrOutcome op c n v (s.overflow op c .valueOutOfRange) t) ∧
      (¬(s.cfg.debugRangeCheck = true ∧ n < 32 ∧ 2 ^ n ≤ v) → WrOutcome op c n v s t) := by
  by_cases h : s.cfg.debugRangeCheck = true ∧ n < 32 ∧ 2 ^ n ≤ v
  · rw [rangeCheck_overflow h]
    obtain ⟨t, ht, ho⟩ := wr_completes op c n v _ ((overflow_frame op c .valueOutOfRange s).buffered hb)
    exact ⟨t, ht, fun _ => ho, fun hn => absurd h hn⟩
  · rw [rangeCheck_none h]
    obtain ⟨t, ht, ho⟩ := wr_completes op c n v s hb
    exact ⟨t, ht, fun hp => absurd hp h, fun _ => ho⟩

/-- Settles O22: the command is the range check and one `Wr`. -/
theorem writeUnsigned : Obligations.WriteUnsigned := fun s c nb hr ha hnb =>
  ⟨commandWord _, countedWrite_next hr ha hnb (wr_rangeCheck_completes 0x12 c nb.val (lowWord s.opa.value).toNat hr.2.2)⟩

/-! ### Several fields -/

/-- A varint writer on a ready context sends the encoding of `g OPA`, and then the fast path may apply. -/
theorem varPut_next {s : State} {c : CtxId} (hr : Ready s .writer c) (ha : s.opa.written = true) (op : BitVec 8)
    (g : Word64 → Nat) (w : Nat) {v size cap : Nat} (hg : g s.opa.value = v) (hv : IsVarintSize v size ∧ size ≤ cap)
    (hcap : cap ≤ 10) :
    ∃ size u t, finish (do needCtx c s; let a ← operand .opa s; needMode .writer c s; varPut op c (g a) w s) = .next t ∧
      IsVarintSize v size ∧ size ≤ cap ∧ WritesAll op c (varintFields v size) s u ∧
      FastPath c (s.ctx c).cursor w u t := by
  subst hg
  obtain ⟨u, t, e, hu, ht⟩ := varPut_completes op c (g s.opa.value) w size s hr.2.2 hv.1 (hv.2.trans hcap)
  exact ⟨size, u, t, (finish_write hr ha).trans (finish_eq_next.2 e), hv.1, hv.2, hu, ht⟩

/-- Settles O24: each command is one `VarPut`, of a value whose size is at most the command's cap. -/
theorem varintWriters : Obligations.VarintWriters := by
  intro s c hr ha
  refine ⟨⟨commandWord _, ?var32⟩, ⟨commandWord _, ?var64⟩, ⟨commandWord _, ?svar32⟩, ⟨commandWord _, ?svar64⟩⟩
  case var32 => exact varPut_next hr ha _ (fun a => (lowWord a).toNat) 40 rfl (varSize_32 _) (by decide)
  case var64 => exact varPut_next hr ha _ (fun a => a.toNat) 80 rfl (varSize_64 _) le_rfl
  case svar32 =>
    have hz := toNat_zigzag32 (lowWord s.opa.value)
    exact varPut_next hr ha _ (fun a => (zigzagEnc32 (lowWord a)).toNat) 40 hz.symm (hz ▸ varSize_32 _) (by decide)
  case svar64 =>
    have hz := toNat_zigzag64 s.opa.value
    exact varPut_next hr ha _ (fun a => (zigzagEnc64 a).toNat) 80 hz.symm (hz ▸ varSize_64 _) le_rfl

/-- Settles O27: `ubitFields_cases` gives the fields. -/
theorem uBitVarWriter : Obligations.UBitVarWriter := by
  intro s c hr ha
  refine ⟨commandWord _, ?_⟩
  obtain ⟨t, ht, hw⟩ := wrAll_completes 0x18 c (ubitFields (lowWord s.opa.value).toNat) s hr.2.2
  obtain ⟨h0, h1, h2, h3⟩ := ubitFields_cases (lowWord s.opa.value).toNat (BitVec.isLt _)
  exact write_next hr ha ⟨t, ht, fun h => h0 h ▸ hw, fun h h' => h1 h h' ▸ hw, fun h h' => h2 h h' ▸ hw,
    fun h => h3 h ▸ hw⟩

end Sys2Proof.Proofs
end

section
/-! O25: a varint writer that runs out of room (41_writer.md R145, 20_memory.md R66, R68, R69). The fields that fit go out
side by side, each later field is one more call of the error procedure, and the fast path, whose window does not fit, leaves
memory as it is. -/

namespace Sys2Proof.Proofs

open Sys2Proof.Machine

/-- A BufferOverrun of context c, raised n times by the command with opcode `op` (60_exceptions.md R301). -/
def overruns (op : BitVec 8) (c : CtxId) (n : Nat) (s : State) : State :=
  (fun u => u.overflow op c .bufferOverrun)^[n] s

section
variable {op : BitVec 8} {c : CtxId} {s t u : State}

theorem overruns_succ (n : Nat) : overruns op c (n + 1) s = overruns op c n (s.overflow op c .bufferOverrun) := rfl

theorem overruns_mem (n : Nat) : (overruns op c n s).mem = s.mem := by
  induction n generalizing s with
  | zero => rfl
  | succ n ih => rw [overruns_succ, ih, overflow_mem]

/-- The first call sets OVF, and the later ones find it set. -/
theorem ctx_overruns {n : Nat} (hn : 0 < n) : (overruns op c n s).ctx c = { s.ctx c with ovf := true } := by
  induction n generalizing s with
  | zero => omega
  | succ n ih =>
    rw [overruns_succ]
    rcases Nat.eq_zero_or_pos n with rfl | hpos
    · exact ctx_overflow_same s c op .bufferOverrun
    · rw [ih hpos, ctx_overflow_same]

theorem overruns_diag (n : Nat) : (overruns op c n s).diag = s.diag ++
    (if s.cfg.hookEnabled = true then List.replicate n { kind := .bufferOverrun, c := c, opcode := op } else []) := by
  induction n generalizing s with
  | zero => simp [overruns]
  | succ n ih =>
    rw [overruns_succ, ih, overflow_diag, overflow_cfg]
    split <;> simp [List.replicate_succ]

/-- Fields of which none fits raise one error each and change nothing else. -/
theorem writesAll_overruns {fs : List StreamField} (h : WritesAll op c fs s t) (hf : ∀ f ∈ fs, ¬Fits s c f.width) :
    t = overruns op c fs.length s := by
  induction fs generalizing s with
  | nil => exact h
  | cons f fs ih =>
    obtain ⟨u, hu, ht⟩ := h
    obtain rfl := hu.2 (hf f (by simp))
    rw [List.length_cons, overruns_succ]
    refine ih ht fun g hg => ?_
    have := hf g (by simp [hg])
    simpa using this

/-- What was written, read straight from memory. -/
theorem memBits_of_wrote {n v i m : Nat} (h : Wrote s c n v t) (hi : i + m ≤ n) :
    memBits t.mem (8 * (s.ctx c).base + (s.ctx c).cursor + i) m = v / 2 ^ i % 2 ^ m := by
  refine Nat.eq_of_testBit_eq fun j => ?_
  rw [memBits_testBit, Nat.testBit_mod_two_pow, Nat.testBit_div_two_pow, h.2]
  by_cases hj : j < m
  · rw [if_pos (by omega)]
    congr 2
    omega
  · simp [hj]

/-- Byte fields of which the stream has room for j: those go out side by side, and each later one is one error. -/
theorem writesAll_ranOut {fs : List StreamField} {j : Nat} (h8 : ∀ f ∈ fs, f.width = 8) (h : WritesAll op c fs s t)
    (hcur : (s.ctx c).cursor ≤ (s.ctx c).bitCap) (hj : j = ((s.ctx c).bitCap - (s.ctx c).cursor) / 8)
    (hlt : j < fs.length) :
    ∃ x, Wrote s c (8 * j) (fieldsValue (fs.take j)) x ∧ t = overruns op c (fs.length - j) x := by
  rw [← List.take_append_drop j fs] at h
  obtain ⟨x, hx, ht⟩ := writesAll_append.1 h
  have hwidth : fieldsWidth (fs.take j) = 8 * j := by
    rw [fieldsWidth_eight _ fun f hf => h8 f (List.mem_of_mem_take hf), List.length_take_of_le hlt.le]
  have hw : Wrote s c (8 * j) (fieldsValue (fs.take j)) x :=
    hwidth ▸ writesAll_fits hx (by rw [hwidth, Fits]; omega)
  refine ⟨x, hw, List.length_drop (l := fs) ▸ writesAll_overruns ht fun f hf => ?_⟩
  rw [h8 f (List.mem_of_mem_drop hf), Fits, hw.ctx]
  dsimp only
  omega

/-- A fast path whose window does not fit changes nothing but the count of draws. -/
theorem memBit_of_window_full {p w : Nat} (h : FastPath c p w u t) (hfull : (u.ctx c).bitCap < p + w) (k : Nat) :
    memBit t.mem k = memBit u.mem k :=
  h.2 k fun ⟨_, hfits, _⟩ => absurd hfits (not_le.2 hfull)

theorem fastPath_frame {p w : Nat} (h : FastPath c p w u t) : t.ctx c = u.ctx c ∧ t.diag = u.diag := by
  rw [h.1]
  exact ⟨rfl, rfl⟩

end

/-! ### The varint writers -/

/-- What a varint writer leaves when there is room for j of the `size` bytes of the encoding of v. -/
structure RanOut (op : BitVec 8) (c : CtxId) (v size j : Nat) (s t : State) : Prop where
  ctx : t.ctx c = { s.ctx c with cursor := (s.ctx c).cursor + 8 * j, ovf := true }
  diag : t.diag = s.diag ++ (if s.cfg.hookEnabled = true then
    List.replicate (size - j) { kind := .bufferOverrun, c := c, opcode := op } else [])
  bytes : ∀ i < j, streamBits t c ((s.ctx c).cursor + 8 * i) 8 = varintByte v size i
  kept : ∀ k, k < 8 * (s.ctx c).base + (s.ctx c).cursor ∨ 8 * (s.ctx c).base + (s.ctx c).cursor + 8 * j ≤ k →
    memBit t.mem k = memBit s.mem k

theorem fieldsValue_take_varintFields {v size i j : Nat} (hi : i < j) (hj : j ≤ size) :
    fieldsValue ((varintFields v size).take j) / 2 ^ (8 * i) % 2 ^ 8 = varintByte v size i := by
  have hlen : i < ((varintFields v size).take j).length := by simp [varintFields]; omega
  rw [fieldsValue_byte _ (fun f hf => varintFields_width v size f (List.mem_of_mem_take hf)) i hlen]
  simpa [varintFields] using Nat.mod_eq_of_lt (varintByte_lt v size i)

theorem varPut_ranOut {c : CtxId} {v w size j : Nat} {s : State} (op : BitVec 8) (hb : Buffered s c)
    (hcur : (s.ctx c).cursor ≤ (s.ctx c).bitCap) (hj : j = ((s.ctx c).bitCap - (s.ctx c).cursor) / 8) (hlt : j < size)
    (hv : IsVarintSize v size) (hs : size ≤ 10) (hw : 8 * size ≤ w) :
    ∃ t, varPut op c v w s = .ok t ∧ RanOut op c v size j s t := by
  obtain ⟨u, t, e, hu, hfast⟩ := varPut_completes op c v w size s hb hv hs
  have hlen : (varintFields v size).length = size := by simp [varintFields]
  obtain ⟨x, hx, rfl⟩ := writesAll_ranOut (varintFields_width v size) hu hcur hj (hlen.symm ▸ hlt)
  rw [hlen] at hfast
  obtain ⟨hctx, hdiag⟩ := fastPath_frame hfast
  rw [ctx_overruns (by omega), hx.ctx] at hctx
  have hmem (k : Nat) : memBit t.mem k = memBit x.mem k := by
    rw [memBit_of_window_full hfast, overruns_mem]
    rw [ctx_overruns (by omega), hx.ctx]
    dsimp only
    omega
  refine ⟨t, e, hctx, ?diag, fun i hi => ?bytes, fun k hk => ?kept⟩
  case diag => rw [hdiag, overruns_diag, hx.1]; rfl
  case bytes =>
    rw [streamBits, hctx, memBits_congr _ x.mem _ _ fun _ _ => hmem _]
    dsimp only
    rw [← Nat.add_assoc, memBits_of_wrote hx (by omega), fieldsValue_take_varintFields hi hlt.le]
  case kept => rw [hmem, hx.2, if_neg (by omega)]

/-- Settles O25: `varPut_ranOut` for the two widths. -/
theorem varintWriterThatRunsOut : Obligations.VarintWriterThatRunsOut := by
  intro s c size j hr ha hcur hj hlt event ranOut
  have run {op : BitVec 8} {v : Nat} {t : State} (h : RanOut op c v size j s t) : ranOut op v t :=
    ⟨h.ctx, h.diag, h.bytes, h.kept⟩
  refine ⟨fun hv => ?var32, fun hv => ?var64⟩
  case var32 =>
    have hs := varintSize_le_32 hv
    obtain ⟨t, ht, h⟩ := varPut_ranOut 0x14 (w := 40) hr.2.2 hcur hj hlt hv (by omega) (by omega)
    exact write_next hr ha ⟨t, ht, run h⟩
  case var64 =>
    have hs := varintSize_le_64 hv
    obtain ⟨t, ht, h⟩ := varPut_ranOut 0x15 (w := 80) hr.2.2 hcur hj hlt hv hs (by omega)
    exact write_next hr ha ⟨t, ht, run h⟩

end Sys2Proof.Proofs
end

section
/-! O23 and O28: a reader gets back what WUNS, WSIGNED and WUBITVAR wrote (41_writer.md R142, R143, R149; 43_reader.md R212,
R213, R221). -/

namespace Sys2Proof.Proofs

open Sys2Proof.Machine

/-! ### Fixed width -/

section
variable {s t u : State} {c d : CtxId} {nb : Fin 64}

/-- A counted write command that answers has passed its checks. -/
theorem countedWrite_inv {f : Word64 → Exec State}
    (h : finish (do needCtx c s; needCount nb; let a ← operand .opa s; needMode .writer c s; f a) = .next t) :
    nb.val ≤ 32 ∧ f s.opa.value = .ok t := by
  obtain ⟨_, -, h⟩ := exec_bind_eq_ok.1 (finish_eq_next.1 h)
  obtain ⟨_, hnb, h⟩ := exec_bind_eq_ok.1 h
  obtain ⟨a, ha, h⟩ := exec_bind_eq_ok.1 h
  obtain ⟨_, -, h⟩ := exec_bind_eq_ok.1 h
  obtain ⟨-, rfl⟩ := operand_eq_ok.1 ha
  exact ⟨needCount_eq_ok.1 hnb, h⟩

/-- A field that was written is read back by a counted reader command, and `g` of it goes to RES0. -/
theorem counted_reread {op op' : BitVec 8} {v : Nat} {r : Word64} (g : Nat → Word64) (hready : Ready s .writer c)
    (hf : Fits s c nb.val) (hr : Rereads s c t u d) (hnb : nb.val ≤ 32) (hw : wr op c nb.val v s = .ok t)
    (hg : g (v % 2 ^ nb.val) = r) :
    finish (do
      needCtx d u; needCount nb; needMode .reader d u
      let x ← rd op' d nb.val u
      .ok (x.2.setRes0 (g x.1))) =
      .next ((u.setCursor d ((u.ctx d).cursor + nb.val)).setRes0 r) := by
  subst hg
  have hrd := hr.rd op' hready.2.2 hf ((wr_outcome hw).1 hf)
  obtain ⟨-, -, hd, hmode, -⟩ := hr
  exact finish_eq_next.2 <| ok_bind (needCtx_pos hd) <| ok_bind (needCount_pos hnb) <| ok_bind (needMode_pos hmode) <|
    ok_bind hrd rfl

end

/-- Sign extension undoes the masking of a signed value of m + 1 bits. -/
theorem sextField_emod {x : ℤ} {m : Nat} (hlo : -2 ^ m ≤ x) (hhi : x < 2 ^ m) :
    sextField (m + 1) (x % 2 ^ (m + 1)).toNat = BitVec.ofInt 64 x := by
  have hpos : (0 : ℤ) < 2 ^ m := by positivity
  have hsucc : (2 : ℤ) ^ (m + 1) = 2 * 2 ^ m := pow_succ' 2 m
  have hnat : ((x % 2 ^ (m + 1)).toNat : ℤ) = x % 2 ^ (m + 1) := Int.toNat_of_nonneg (Int.emod_nonneg _ (by positivity))
  have hlt : (x % 2 ^ (m + 1)).toNat < 2 ^ (m + 1) := by
    zify
    rw [hnat]
    exact Int.emod_lt_of_pos _ (by positivity)
  rw [sextField_eq _ _ hlt]
  congr 1
  have hiff : (2 : Nat) ^ m ≤ (x % 2 ^ (m + 1)).toNat ↔ (2 : ℤ) ^ m ≤ x % 2 ^ (m + 1) := by
    zify
    rw [hnat]
  simp only [Nat.add_sub_cancel, hiff, hnat]
  rcases lt_or_ge x 0 with hneg | hnonneg
  · have hmod : x % 2 ^ (m + 1) = x + 2 ^ (m + 1) := by
      rw [← Int.add_emod_right, Int.emod_eq_of_lt] <;> omega
    rw [if_pos ⟨by omega, by omega⟩]
    omega
  · have hmod : x % 2 ^ (m + 1) = x := Int.emod_eq_of_lt hnonneg (by omega)
    rw [if_neg (by omega), hmod]

/-- Settles O23: `counted_reread` for both commands, and the field that was sent gives the operand back. -/
theorem fixedWidthRoundTrip : Obligations.FixedWidthRoundTrip := by
  intro s t u c d nb hready hf hr v consumed
  refine ⟨fun hv h => ?unsigned, fun hpos hlo hhi h => ?signed⟩
  case unsigned =>
    obtain ⟨hnb, hw⟩ := countedWrite_inv h
    replace hw : wr 0x12 c nb.val v.toNat (rangeCheck 0x12 c nb.val v.toNat s) = .ok t := hw
    rw [rangeCheck_none fun hc => absurd hc.2.2 (not_le.2 hv)] at hw
    exact counted_reread (fun n => BitVec.ofNat 64 n) hready hf hr hnb hw (by rw [Nat.mod_eq_of_lt hv])
  case signed =>
    obtain ⟨hnb, hw⟩ := countedWrite_inv h
    refine counted_reread (fun n => sextField nb.val n) hready hf hr hnb hw ?_
    obtain ⟨m, hm⟩ : ∃ m, nb.val = m + 1 := ⟨nb.val - 1, by omega⟩
    rw [hm, Nat.add_sub_cancel] at hlo hhi
    rw [← toInt_emod_two_pow _ hnb, hm]
    exact sextField_emod hlo hhi

/-! ### UBitVar -/

section
variable {s t u : State} {c d : CtxId} {n v : Nat}

/-- A reader that has moved i bits into what was written reads the next m bits of it. -/
theorem rd_of_rereads (op : BitVec 8) (hr : Rereads s c t u d) (hb : Buffered s c) (hf : Fits s c n)
    (hw : Wrote s c n v t) {i m : Nat} (hi : i + m ≤ n) :
    rd op d m (u.setCursor d ((u.ctx d).cursor + i)) =
      .ok (v / 2 ^ i % 2 ^ m, u.setCursor d ((u.ctx d).cursor + (i + m))) := by
  have hbits := hr.streamBits hw i m hi
  have hbuf : Buffered (u.setCursor d ((u.ctx d).cursor + i)) d := fun p hp => by
    simp only [ctx_setCursor_same] at hp ⊢
    exact hr.buffered hb p hp
  obtain ⟨-, -, -, -, -, hcap, hcur⟩ := hr
  have hfits : Fits (u.setCursor d ((u.ctx d).cursor + i)) d m := by
    simp only [Fits, ctx_setCursor_same] at hf ⊢
    omega
  rw [rd_fits op d m _ hfits (hbuf.bytes hfits)]
  simp only [streamBits, ctx_setCursor_same, setCursor_mem, setCursor_setCursor] at hbits ⊢
  rw [hbits, Nat.add_assoc]

/-- RUBITVAR of a value whose first two bits are 0: the six bits are all of it (43_reader.md R221). -/
theorem rubitvar_short (hready : Ready s .writer c) (hf : Fits s c 6) (hr : Rereads s c t u d)
    (hw : Wrote s c 6 (4 * v) t) (hv : v < 16) :
    exec (.rubitvar d) u = .next ((u.setCursor d ((u.ctx d).cursor + 6)).setRes0 (BitVec.ofNat 64 v)) := by
  have hsix := rd_of_rereads (Instr.rubitvar d).opcode hr hready.2.2 hf hw (i := 0) (m := 6) le_rfl
  obtain ⟨-, -, hd, hmode, -⟩ := hr
  rw [Nat.add_zero, setCursor_self, pow_zero, Nat.div_one, Nat.mod_eq_of_lt (by omega)] at hsix
  refine finish_eq_next.2 <| ok_bind (needCtx_pos hd) <| ok_bind (needMode_pos hmode) <| ok_bind hsix ?_
  dsimp only
  rw [if_pos (by omega), Nat.mul_div_cancel_left v (by decide)]

/-- RUBITVAR of a value behind a selector g that is not 0: the reader seeks back to the end of the selector and reads the
payload (43_reader.md R221). -/
theorem rubitvar_long {g : Nat} (hg : g % 4 = g) (hg0 : g ≠ 0) (hready : Ready s .writer c)
    (hf : Fits s c (2 + ubitPayload g)) (hr : Rereads s c t u d) (hw : Wrote s c (2 + ubitPayload g) (4 * v + g) t)
    (hv : v < 2 ^ ubitPayload g) :
    exec (.rubitvar d) u =
      .next ((u.setCursor d ((u.ctx d).cursor + (2 + ubitPayload g))).setRes0 (BitVec.ofNat 64 v)) := by
  have hlen : 8 ≤ ubitPayload g := by unfold ubitPayload; split_ifs <;> decide
  have hsix := rd_of_rereads (Instr.rubitvar d).opcode hr hready.2.2 hf hw (i := 0) (m := 6) (by omega)
  have hpayload := rd_of_rereads (Instr.rubitvar d).opcode hr hready.2.2 hf hw (i := 2) (m := ubitPayload g) le_rfl
  obtain ⟨-, -, hd, hmode, -⟩ := hr
  rw [Nat.add_zero, setCursor_self, pow_zero, Nat.div_one] at hsix
  rw [show (4 * v + g) / 2 ^ 2 = v by omega, Nat.mod_eq_of_lt hv] at hpayload
  refine finish_eq_next.2 <| ok_bind (needCtx_pos hd) <| ok_bind (needMode_pos hmode) <| ok_bind hsix ?_
  have hsel : (4 * v + g) % 2 ^ 6 % 4 = g := by omega
  have hback : (u.ctx d).cursor + (0 + 6) - 4 = (u.ctx d).cursor + 2 := by omega
  dsimp only
  rw [hsel, if_neg hg0, ctx_setCursor_same, setCursor_setCursor, hback]
  exact ok_bind hpayload rfl

/-- WUBITVAR with room for its fields writes them side by side, as one number. -/
theorem wubitvar_wrote {fs : List StreamField} {x : Nat} (h : exec (.wubitvar c) s = .next t)
    (hfs : ubitFields (lowWord s.opa.value).toNat = fs) (hn : fieldsWidth fs = n) (hx : fieldsValue fs = x)
    (hf : Fits s c n) : Wrote s c n x t := by
  subst hfs hn hx
  have hall : wrAll 0x18 c (ubitFields (lowWord s.opa.value).toNat) s = .ok t := write_inv h
  exact writesAll_fits (wrAll_outcome hall) hf

end

/-- Settles O28, one range of the value at a time: what goes out is 4v and the selector. -/
theorem uBitVarRoundTrip : Obligations.UBitVarRoundTrip := by
  intro s t u c d hready v n hf h hr
  have hv : v < 2 ^ 32 := BitVec.isLt _
  obtain ⟨h0, h1, h2, h3⟩ := ubitFields_cases v hv
  by_cases h16 : v < 16
  · obtain hn : n = 6 := if_pos h16
    rw [hn] at hf ⊢
    refine rubitvar_short hready hf hr (wubitvar_wrote h (h0 h16) rfl ?_ hf) h16
    simp only [fieldsValue]; omega
  by_cases h256 : v < 256
  · obtain hn : n = 10 := (if_neg h16).trans (if_pos h256)
    rw [hn] at hf ⊢
    refine rubitvar_long (g := 1) rfl (by decide) hready hf hr (wubitvar_wrote h (h1 (by omega) h256) rfl ?_ hf) h256
    simp only [fieldsValue]; omega
  by_cases h4096 : v < 4096
  · obtain hn : n = 14 := (if_neg h16).trans ((if_neg h256).trans (if_pos h4096))
    rw [hn] at hf ⊢
    refine rubitvar_long (g := 2) rfl (by decide) hready hf hr (wubitvar_wrote h (h2 (by omega) h4096) rfl ?_ hf) h4096
    simp only [fieldsValue]; omega
  · obtain hn : n = 34 := (if_neg h16).trans ((if_neg h256).trans (if_neg h4096))
    rw [hn] at hf ⊢
    refine rubitvar_long (g := 3) rfl (by decide) hready hf hr (wubitvar_wrote h (h3 (by omega)) rfl ?_ hf) hv
    simp only [fieldsValue]; omega

end Sys2Proof.Proofs
end

section
/-! O34 and O35: the commands that write from a buffer of the host (41_writer.md R150, R151; 20_memory.md R79, R83). -/

namespace Sys2Proof.Proofs

open Sys2Proof.Machine

/-! ### WBITS -/

section
variable {s : State} {c : CtxId} {src n : Nat}

/-- WBITS on a ready writer with operands that have been written and are legal. -/
theorem exec_wbits (hr : Ready s .writer c) (ha : s.opa.written = true) (hb : s.opb.written = true)
    (hn : s.opb.value.toNat < 2 ^ 31) :
    exec (.wbits c) s = finish (do
      require (sourceOverlap s s.opa.value.toNat ((s.opb.value.toNat + 7) / 8) = false) .overlap
      if (s.ctx c).cursor + s.opb.value.toNat > (s.ctx c).bitCap then .ok (s.overflow 0x20 c .bufferOverrun)
      else do
        let m ← copyBits s.cfg (s.ctx c).base s.opa.value.toNat s.opb.value.toNat 0 (s.ctx c).cursor s.mem
        .ok ((s.setCursor c ((s.ctx c).cursor + s.opb.value.toNat)).setMem m)) := by
  obtain ⟨hc, hm, -⟩ := hr
  change execWbits c s = _
  simp only [execWbits, needCtx_pos hc, operand_pos (r := .opa) ha, operand_pos (r := .opb) hb, operandReg_opa,
    operandReg_opb, require_pos _ hn, needMode_pos hm, exec_ok_bind]
  rfl

/-- A source that overlaps no writer shares no byte with the bits to be written. -/
theorem source_apart (hr : Ready s .writer c) (hok : (s.ctx c).Ok s.cfg.addrW)
    (ho : ¬SourceOverlaps s src ((n + 7) / 8)) (hf : Fits s c n) {i j : Nat} (hi : i < n) (hj : j < n) :
    src + i / 8 ≠ (s.ctx c).base + ((s.ctx c).cursor + j) / 8 := by
  obtain ⟨hc, hm, -⟩ := hr
  obtain ⟨-, hcap, -⟩ := hok.bound (by simp [hm])
  rw [Fits] at hf
  intro he
  exact ho ⟨c, hc, by simp [hm], hm, src + i / 8, by omega, by omega, by omega, by omega⟩

/-- The loop of WBITS writes the bits of the source. -/
theorem copyBits_wrote (hr : Ready s .writer c) (hok : (s.ctx c).Ok s.cfg.addrW)
    (ho : ¬SourceOverlaps s src ((n + 7) / 8)) (hf : Fits s c n) (hs : BytesOK s.cfg src ((n + 7) / 8)) :
    ∃ m, copyBits s.cfg (s.ctx c).base src n 0 (s.ctx c).cursor s.mem = .ok m ∧
      Wrote s c n (memBits s.mem (8 * src) n) ((s.setCursor c ((s.ctx c).cursor + n)).setMem m) := by
  obtain ⟨m, hm, -, hbits⟩ := copyBits_ok s.cfg (s.ctx c).base src s.mem n 0 (s.ctx c).cursor s.mem
    (fun j hj => hs _ (by omega)) (hr.2.2.bytes hf) (fun _ _ => rfl)
    (fun i hi j hj => by simpa using source_apart hr hok ho hf hi hj)
  refine ⟨m, hm, rfl, fun k => (hbits k).trans ?_⟩
  split
  case isFalse => rfl
  case isTrue hk => rw [memBits_testBit, decide_eq_true (by omega), Bool.true_and, Nat.add_zero]

end

/-- Settles O34: the overlap check, the capacity check, and the loop `copyBits`. -/
theorem bulkWrite : Obligations.BulkWrite := by
  intro s c hr hok ha hb
  refine ⟨commandWord _, fun hn ho => ?overlap, fun hn ho hf hs => ?fits, fun hn ho hf => ?full,
    fun hn ho hf j hj hbefore hmiss => ?stuck⟩ <;> rw [exec_wbits hr ha hb hn]
  case overlap => exact finish_eq_refused.2 <| error_of_require fun h => absurd ho ((sourceOverlap_false _ _ _).1 h)
  all_goals rw [require_pos _ ((sourceOverlap_false _ _ _).2 ho), exec_ok_bind]
  case fits =>
    obtain ⟨m, hm, hw⟩ := copyBits_wrote hr hok ho hf hs
    exact ⟨_, by rw [if_neg (not_lt.2 hf), hm]; rfl, hw⟩
  case full => rw [if_pos (not_le.1 hf)]; rfl
  case stuck =>
    have hstuck := copyBits_stuck s.cfg (s.ctx c).base s.opa.value.toNat s.opb.value.toNat 0 (s.ctx c).cursor s.mem
      (hr.2.2.bytes hf) (8 * j) (by omega) (fun i hi => hbefore _ (by omega)) (by simpa using hmiss)
    rw [if_neg (not_lt.2 hf), hstuck]
    simp

/-! ### WSTRING -/

section
variable {s : State} {c : CtxId}

/-- WSTRING on a ready writer scans its string and sends the bytes found. -/
theorem exec_wstring (hr : Ready s .writer c) (ha : s.opa.written = true) :
    exec (.wstring c) s = finish (do
      let bytes ← scanString s (memEnd s.cfg - s.opa.value.toNat + 1) s.opa.value.toNat
      wrAll 0x21 c (bytes.map fun b => { width := 8, value := b.toNat }) s) :=
  finish_write hr ha

end

/-- Settles O35: the scan stops at byte a + n, for the reason that this byte gives. -/
theorem stringWrite : Obligations.StringWrite := by
  intro s c n hr ha
  refine ⟨commandWord _, fun h => ⟨fun ho => ?overlap, fun ho hm => ?stuck, fun ho hm hz => ?nul⟩⟩ <;>
    rw [exec_wstring hr ha]
  case overlap => rw [scanString_refused h ho]; rfl
  case stuck => rw [scanString_stuck h ho hm]; rfl
  case nul =>
    rw [scanString_ok h ho hm hz, exec_ok_bind, List.map_map]
    obtain ⟨t, ht, hw⟩ := wrAll_completes 0x21 c _ s hr.2.2
    exact ⟨t, finish_eq_next.2 ht, hw⟩

end Sys2Proof.Proofs
end

section
/-! O29 to O33: the quantizing writers (42_writer_quant.md R180 to R188). Each computes its fields from its operands and the
number of draws, and then writes them; what the fields are, Laws/Quant.lean says, but for the two vectors. -/

namespace Sys2Proof.Proofs

open Sys2Proof.Machine

/-! ### The commands -/

section
variable {s : State} {c : CtxId}

/-- A writer of one operand whose fields g computes, with the number of the next draw, sends them. -/
theorem fieldsWrite_next (op : BitVec 8) (g : Word64 → List StreamField × Nat) {P : List StreamField → Nat → Prop}
    (hr : Ready s .writer c) (ha : s.opa.written = true) (hP : P (g s.opa.value).1 (g s.opa.value).2) :
    ∃ fs k t, finish (do
        needCtx c s
        let a ← operand .opa s
        needMode .writer c s
        wrAll op c (g a).1 (s.setDraws (g a).2)) = .next t ∧ P fs k ∧ WritesAll op c fs (s.setDraws k) t := by
  obtain ⟨t, ht, hw⟩ := wrAll_completes op c (g s.opa.value).1 (s.setDraws (g s.opa.value).2) hr.2.2
  exact ⟨_, _, t, (finish_write hr ha).trans (finish_eq_next.2 ht), hP, hw⟩

/-- A writer of two operands sends the fields that g computes from both. -/
theorem fieldsWrite₂_next (op : BitVec 8) (g : Word64 → Word64 → List StreamField × Nat) (hr : Ready s .writer c)
    (ha : s.opa.written = true) (hb : s.opb.written = true) :
    ∃ t, finish (do
        needCtx c s
        let a ← operand .opa s
        let b ← operand .opb s
        needMode .writer c s
        wrAll op c (g a b).1 (s.setDraws (g a b).2)) = .next t ∧
      WritesAll op c (g s.opa.value s.opb.value).1 (s.setDraws (g s.opa.value s.opb.value).2) t := by
  obtain ⟨hc, hm, hbuf⟩ := hr
  obtain ⟨t, ht, hw⟩ := wrAll_completes op c (g s.opa.value s.opb.value).1
    (s.setDraws (g s.opa.value s.opb.value).2) hbuf
  exact ⟨t, finish_eq_next.2 <| ok_bind (needCtx_pos hc) <| ok_bind (operand_pos (r := .opa) ha) <|
    ok_bind (operand_pos (r := .opb) hb) <| ok_bind (needMode_pos hm) ht, hw⟩

end

/-! ### One value -/

/-- Settles O29: the fields are those of `coordFields_spec`. -/
theorem coordWriter : Obligations.CoordWriter := fun s _ hr ha =>
  ⟨commandWord _, fieldsWrite_next _ (fun a => coordFields s.cfg (floatOperand a) s.draws) hr ha (coordFields_spec _ _ _)⟩

/-- Settles O30: the fields are those of `coordMpFields_spec`. -/
theorem coordMpWriter : Obligations.CoordMpWriter := fun s _ integral lowPrec hr ha =>
  ⟨commandWord _, fieldsWrite_next _ (fun a => coordMpFields s.cfg integral lowPrec (floatOperand a) s.draws) hr ha
    (coordMpFields_spec _ _ _ _ _)⟩

/-- Settles O31: WANGLE is one `Wr` of the value of `angleValue_spec`, and WNORMAL sends the fields of
`normalFields_spec`. -/
theorem angleAndNormalWriters : Obligations.AngleAndNormalWriters := by
  intro s c hv hr ha
  refine ⟨fun nb hnb => ⟨commandWord _, ?angle⟩, commandWord _, ?normal⟩
  case angle =>
    let d := angleValue (floatOperand s.opa.value) nb.val s.draws
    obtain ⟨t, ht, hw⟩ := wr_completes 0x1B c nb.val d.1 (s.setDraws d.2) hr.2.2
    exact ⟨d.1, d.2, t, (finish_countedWrite hr ha hnb).trans (finish_eq_next.2 ht), angleValue_spec _ _ _, hw⟩
  case normal =>
    exact fieldsWrite_next _ (fun a => normalFields s.cfg (floatOperand a) s.draws) hr ha (normalFields_spec _ hv _ _)

/-! ### Vectors -/

section
variable {r : Frac} {q : ℚ}

theorem flagField_absGe (b : Word32) (hr : r.toRat = q ∧ 0 < r.den) :
    flagField ((F32.ofBits b).absGe r) = ⟨1, if AbsGe32 b q then 1 else 0⟩ := by
  obtain ⟨rfl, hden⟩ := hr
  simp only [flagField_eq, absGe_spec b r hden, decide_eq_true_eq]

theorem flagField_signBit (b : Word32) (hr : r.toRat = q ∧ 0 < r.den) :
    flagField ((F32.ofBits b).signBit r) = ⟨1, if Sign32 b q then 1 else 0⟩ := by
  obtain ⟨rfl, hden⟩ := hr
  simp only [flagField_eq, signBit_spec b r hden, decide_eq_true_eq]

/-- The fields of an axis whose presence is its magnitude against a threshold (42_writer_quant.md R186). -/
theorem axisFields_absGe {f : Nat → List StreamField × Nat} {g : Nat → List StreamField → Nat → Prop} (b : Word32)
    (hr : r.toRat = q ∧ 0 < r.den) (h : ∀ k, g k (f k).1 (f k).2) (k : Nat) :
    AxisFieldsOf (AbsGe32 b q) g k (axisFields ((F32.ofBits b).absGe r) f k).1
      (axisFields ((F32.ofBits b).absGe r) f k).2 := by
  obtain ⟨rfl, hden⟩ := hr
  exact axisFields_spec (absGe_spec b r hden) f g k h

end

theorem normalResolution_spec {cfg : Config} (hv : cfg.valid = true) :
    (normalResolution cfg).toRat = 1 / cfg.nd ∧ 0 < (normalResolution cfg).den := by
  obtain ⟨-, -, -, -, -, -, -, -, -, -, hnd⟩ := Config.valid_bounds hv
  exact ⟨by simp [normalResolution, Frac.toRat], hnd⟩

/-- Settles O32: three axes one after the other, each taking up the draws where the one before it left them. -/
theorem vec3CoordWriter : Obligations.Vec3CoordWriter := by
  intro s c hr ha hb
  refine ⟨commandWord _, ?_⟩
  intro x y z r flag
  have hres := resolution_spec s.cfg.fb
  have haxis (b : Word32) := axisFields_absGe b hres (coordFields_spec s.cfg b)
  obtain ⟨t, ht, hw⟩ := fieldsWrite₂_next 0x1E (fun a b =>
    vec3CoordFields s.cfg (floatOperand a) (F32.ofBits (highWord a)) (floatOperand b) s.draws) hr ha hb
  simp only [floatOperand, lowWord_eq, highWord_eq, vec3CoordFields, flagField_absGe _ hres] at hw
  exact ⟨_, _, _, _, _, _, t, ht, haxis x _, haxis y _, haxis z _, hw⟩

/-- Settles O33: two axes one after the other, and the sign of z. -/
theorem vec3NormalWriter : Obligations.Vec3NormalWriter := by
  intro s c hv hr ha hb
  refine ⟨commandWord _, ?_⟩
  intro x y z r flag
  have hres := normalResolution_spec hv
  have haxis (b : Word32) := axisFields_absGe b hres (normalFields_spec s.cfg hv b)
  obtain ⟨t, ht, hw⟩ := fieldsWrite₂_next 0x1F (fun a b =>
    vec3NormalFields s.cfg (floatOperand a) (F32.ofBits (highWord a)) (floatOperand b) s.draws) hr ha hb
  simp only [floatOperand, lowWord_eq, highWord_eq, vec3NormalFields, flagField_absGe _ hres,
    flagField_signBit _ hres] at hw
  exact ⟨_, _, _, _, t, ht, haxis x _, haxis y _, hw⟩

end Sys2Proof.Proofs
end

section
/-! O36 to O39: the reader commands that return one value (43_reader.md R211 to R221, 44_reader_quant.md R264). Where the
context is ready the checks pass, and what is left is one shared operation over the stream. -/

namespace Sys2Proof.Proofs

open Sys2Proof.Machine

/-! ### The checks pass -/

section
variable {s : State} {c : CtxId} {nb : Fin 64}

/-- A reader command on a ready context does what stands behind its checks. -/
theorem finish_read {x : Exec State} (hr : Ready s .reader c) :
    finish (do needCtx c s; needMode .reader c s; x) = finish x := by
  obtain ⟨hc, hm, -⟩ := hr
  rw [needCtx_pos hc, needMode_pos hm]
  rfl

/-- The same with the check of NB. -/
theorem finish_countedRead {x : Exec State} (hr : Ready s .reader c) (hnb : nb.val ≤ 32) :
    finish (do needCtx c s; needCount nb; needMode .reader c s; x) = finish x := by
  obtain ⟨hc, hm, -⟩ := hr
  rw [needCtx_pos hc, needCount_pos hnb, needMode_pos hm]
  rfl

section
variable {x : Exec (Nat × State)} {v : Nat} {t : State} {r : Word64} (g : Nat → Word64)

/-- What a read yields goes to RES0. -/
theorem finish_result (e : x = .ok (v, t)) (hg : g v = r) :
    finish (do let y ← x; .ok (y.2.setRes0 (g y.1))) = .next (t.setRes0 r) :=
  finish_eq_next.2 <| ok_bind e (by rw [← hg])

/-- A reader command on a ready context whose one access is `x`. -/
theorem read_next (hr : Ready s .reader c) (e : x = .ok (v, t)) (hg : g v = r) :
    finish (do needCtx c s; needMode .reader c s; let y ← x; .ok (y.2.setRes0 (g y.1))) = .next (t.setRes0 r) :=
  (finish_read hr).trans (finish_result g e hg)

/-- The same with the check of NB. -/
theorem countedRead_next (hr : Ready s .reader c) (hnb : nb.val ≤ 32) (e : x = .ok (v, t)) (hg : g v = r) :
    finish (do needCtx c s; needCount nb; needMode .reader c s; let y ← x; .ok (y.2.setRes0 (g y.1))) =
      .next (t.setRes0 r) :=
  (finish_countedRead hr hnb).trans (finish_result g e hg)

end

end

/-! ### One field -/

/-- Settles O36: each command is one `Rd`, and `sextField_eq` gives the value of RSIGNED. -/
theorem primitiveReaders : Obligations.PrimitiveReaders := by
  intro s c hr
  have hrd (op : BitVec 8) (n : Nat) := rd_completes op c n s hr.2.2
  refine ⟨⟨commandWord _, ?bit⟩, fun nb hnb => ⟨commandWord _, ?unsigned⟩, fun nb hnb => ⟨commandWord _, ?signed⟩,
    commandWord _, ?float⟩
  case bit =>
    obtain ⟨v, t, e, ho, -⟩ := hrd 0x41 1
    exact ⟨v, t, ho, read_next (BitVec.ofNat 64) hr e rfl⟩
  case unsigned =>
    obtain ⟨v, t, e, ho, -⟩ := hrd 0x42 nb.val
    exact ⟨v, t, ho, countedRead_next (BitVec.ofNat 64) hr hnb e rfl⟩
  case signed =>
    obtain ⟨u, t, e, ho, hu, -⟩ := hrd 0x43 nb.val
    exact ⟨u, t, ho, countedRead_next (sextField nb.val) hr hnb e (sextField_eq nb.val u hu)⟩
  case float =>
    obtain ⟨v, t, e, ho, -⟩ := hrd 0x4D 32
    exact ⟨v, t, ho, read_next (BitVec.ofNat 64) hr e rfl⟩

/-! ### PEEKUNS -/

section
variable (s : State) (c : CtxId)

@[simp] theorem setOvf_self : s.setOvf c (s.ctx c).ovf = s := setCtx_self s c

/-- Putting CURSOR back undoes a read that fits. -/
theorem setCursor_restored (p : Nat) :
    ((s.setCursor c p).setCursor c (s.ctx c).cursor).setOvf c (s.ctx c).ovf = s := by
  rw [setCursor_setCursor, setCursor_self, setOvf_self]

/-- Putting CURSOR and OVF back undoes the error procedure but for its event (92_eei_decisions.md D22). -/
theorem overflow_restored (op : BitVec 8) (k : ErrorKind) :
    ((s.overflow op c k).setCursor c (s.ctx c).cursor).setOvf c (s.ctx c).ovf =
      s.setDiag (s.overflow op c k).diag := by
  have hctx : ((s.setOvf c true).setCursor c (s.ctx c).cursor).setOvf c (s.ctx c).ovf = s := by
    rw [setOvf_setCursor_comm, setCursor_self, State.setOvf, State.setOvf, setCtx_setCtx, ctx_setCtx_same]
    exact setCtx_self s c
  exact congrArg (State.setDiag · (s.overflow op c k).diag) hctx

end

/-- Settles O37: PEEKUNS is one `Rd`, and then CURSOR and OVF are put back. -/
theorem peekRestores : Obligations.PeekRestores := by
  intro s c nb hr hnb
  refine ⟨commandWord _, fun hf => ?fits, fun hf => ?full⟩ <;> refine (finish_countedRead hr hnb).trans ?_
  case fits =>
    rw [rd_fits _ _ _ _ hf (hr.2.2.bytes hf), exec_ok_bind]
    dsimp only
    rw [setCursor_restored, finish_ok]
  case full =>
    rw [rd_full _ _ _ _ hf, exec_ok_bind]
    dsimp only
    rw [overflow_restored]
    rfl

/-! ### Varints -/

theorem zext64_ofNat (v : Nat) : zext64 (BitVec.ofNat 32 v) = BitVec.ofNat 64 (v % 2 ^ 32) := by
  rw [zext64, ← BitVec.ofNat_toNat, BitVec.toNat_ofNat]

/-- Settles O38: each command is one `VarGet`, whose value goes to RES0 as it is or zigzag-decoded. -/
theorem varintReaders : Obligations.VarintReaders := by
  intro s c hr
  have hget (op : BitVec 8) (cap : Nat) : ∃ v t, varGet op c cap s = .ok (v, t) ∧ VarReads op c cap 0 0 s v t :=
    varGetFrom_outcome op c cap 0 0 s hr.2.2 (by decide)
  refine ⟨⟨commandWord _, ?var32⟩, ⟨commandWord _, ?var64⟩, ⟨commandWord _, ?svar32⟩, commandWord _, ?svar64⟩
  case var32 =>
    obtain ⟨v, t, e, ho⟩ := hget 0x45 5
    exact ⟨v, t, ho, read_next (fun n => zext64 (BitVec.ofNat 32 n)) hr e (zext64_ofNat v)⟩
  case var64 =>
    obtain ⟨v, t, e, ho⟩ := hget 0x46 10
    exact ⟨v, t, ho, read_next (BitVec.ofNat 64) hr e rfl⟩
  case svar32 =>
    obtain ⟨v, t, e, ho⟩ := hget 0x47 5
    exact ⟨v, t, ho, read_next (fun n => sext64 (zigzagDec32 (BitVec.ofNat 32 n))) hr e (sext64_zigzagDec32 _)⟩
  case svar64 =>
    obtain ⟨v, t, e, ho⟩ := hget 0x48 10
    exact ⟨v, t, ho, read_next (fun n => zigzagDec64 (BitVec.ofNat 64 n)) hr e (zigzagDec64_eq _)⟩

/-! ### RUBITVAR -/

/-- RUBITVAR on a ready context, after its read of 6 bits. -/
theorem exec_rubitvar {s u : State} {c : CtxId} {six : Nat} (hr : Ready s .reader c) (e : rd 0x49 c 6 s = .ok (six, u)) :
    exec (.rubitvar c) s = finish (
      if six % 4 = 0 then .ok (u.setRes0 (BitVec.ofNat 64 (six / 4)))
      else do
        let y ← rd 0x49 c (ubitPayload (six % 4)) (u.setCursor c ((u.ctx c).cursor - 4))
        .ok (y.2.setRes0 (BitVec.ofNat 64 y.1))) := by
  refine (finish_read hr).trans ?_
  rw [show rd (Instr.rubitvar c).opcode c 6 s = .ok (six, u) from e]
  rfl

/-- Settles O39: a `Rd` of 6 bits, and for a selector that is not 0 a second one from 4 bits before where it ended. -/
theorem uBitVarReader : Obligations.UBitVarReader := by
  intro s c hr
  obtain ⟨six, u, e, ho, -, hframe⟩ := rd_completes 0x49 c 6 s hr.2.2
  refine ⟨commandWord _, six, u, ho, fun hsel => ?short, fun hsel => ?long⟩ <;> rw [exec_rubitvar hr e]
  case short => rw [if_pos hsel, finish_ok]
  case long =>
    have hback := setCursor_frame 0x49 c ((u.ctx c).cursor - 4) u fun hcur => (Nat.sub_le _ _).trans hcur
    obtain ⟨v, t, e', ho', -⟩ := rd_completes 0x49 c (ubitPayload (six % 4)) _ ((hframe.trans hback).buffered hr.2.2)
    rw [if_neg hsel]
    exact ⟨v, t, ho', finish_result (BitVec.ofNat 64) e' rfl⟩

end Sys2Proof.Proofs
end

section
/-! O47 and O48: the reader commands that store in a buffer of the host (43_reader.md R222 to R224; 20_memory.md R79, R83). -/

namespace Sys2Proof.Proofs

open Sys2Proof.Machine

section
variable {s : State} {c : CtxId} {f : Word64 → Word64 → Exec State}

/-- A reader command with a destination, on a ready context and with operands that have been written and of which the second
is legal, does what stands behind its checks. -/
theorem finish_store {p : Nat → Prop} [DecidablePred p] (hr : Ready s .reader c) (ha : s.opa.written = true)
    (hb : s.opb.written = true) (hp : p s.opb.value.toNat) :
    finish (do
      needCtx c s
      let dst ← operand .opa s
      let n ← operand .opb s
      require (p n.toNat) .badOperand
      needMode .reader c s
      f dst n) = finish (f s.opa.value s.opb.value) := by
  obtain ⟨hc, hm, -⟩ := hr
  simp only [needCtx_pos hc, operand_pos (r := .opa) ha, operand_pos (r := .opb) hb, operandReg_opa, operandReg_opb,
    require_pos _ hp, needMode_pos hm, exec_ok_bind]

end

/-! ### RBITS and RBYTES -/

/-- Settles O48: both commands are `readBulk`, and `readBulk_cases` says what it does. -/
theorem bulkReaders : Obligations.BulkReaders := by
  intro s c hr hok ha hb
  refine ⟨commandWord _, commandWord _, ?_⟩
  intro dst bulk
  have run {op : BitVec 8} {i : Instr} {n : Nat} (hi : exec i s = finish (readBulk op c dst n s)) : bulk op i n := by
    obtain ⟨hover, hfits, hfull, hstuck⟩ := readBulk_cases op dst n hr hok
    refine ⟨fun ho => ?overlap, fun ho hd hf => ?fits, fun ho hd hf => ?full, fun ho j hj hd hm => ?stuck⟩ <;> rw [hi]
    case overlap => exact finish_eq_refused.2 (hover ho)
    case fits => exact (hfits ho hd hf).imp fun t ht => ⟨finish_eq_next.2 ht.1, ht.2⟩
    case full => exact (hfull ho hd hf).imp fun t ht => ⟨finish_eq_next.2 ht.1, ht.2⟩
    case stuck => exact finish_eq_fault.2 (hstuck ho j hj hd hm)
  exact ⟨fun hn => run (finish_store (p := (· < 2 ^ 31)) hr ha hb hn),
    fun hn => run (finish_store (p := (· < 2 ^ 28)) hr ha hb hn)⟩

/-! ### RSTRING -/

/-- The byte ends a string (43_reader.md R222). -/
abbrev EndsString (nl : Bool) (b : Nat) : Prop := b = 0 ∨ nl = true ∧ b = 0x0A

/-- Byte j of the string at the cursor of c. -/
abbrev stringByte (s : State) (c : CtxId) (j : Nat) : Nat := streamBits s c ((s.ctx c).cursor + 8 * j) 8

/-- The result registers of RSTRING after a string of n bytes before the terminator. -/
abbrev stringResults (maxLen n : Nat) (u : State) : State :=
  (u.setRes0 (BitVec.ofNat 64 (min n (maxLen - 1)))).setRes1 (if maxLen - 1 < n then 1 else 0)

/-- The state of RSTRING after a string of n bytes, but for memory and results: the cursor is past the terminator, or the
string is cut off by the end of the stream (43_reader.md R222). -/
abbrev afterString (op : BitVec 8) (c : CtxId) (n : Nat) (s : State) : State :=
  if Fits s c (8 * (n + 1)) then s.setCursor c ((s.ctx c).cursor + 8 * (n + 1))
  else (s.setCursor c ((s.ctx c).cursor + 8 * n)).overflow op c .bufferOverrun

/-- What RSTRING does with what its loop ends with: the NUL is stored and the results are set (43_reader.md R222). -/
def endString (dst : Nat) (r : Nat × Bool × State) : Exec State := do
  let m ← memWrite r.2.2.cfg r.2.2.mem (dst + r.1) 0
  .ok (((r.2.2.setMem m).setRes0 (BitVec.ofNat 64 r.1)).setRes1 (if r.2.1 then 1 else 0))

/-- RSTRING behind its checks: the loop, with the turns that the stream leaves it, and the NUL. -/
def runString (op : BitVec 8) (c : CtxId) (nl : Bool) (dst maxLen : Nat) (s : State) : Exec State := do
  let r ← readString op c dst maxLen nl (((s.ctx c).bitCap - (s.ctx c).cursor) / 8 + 1) 0 false s
  endString dst r

/-- RSTRING on a ready reader with operands that have been written and are legal. -/
theorem exec_rstring {s : State} {c : CtxId} {nl : Bool} (hr : Ready s .reader c) (ha : s.opa.written = true)
    (hb : s.opb.written = true) (hlen : 1 ≤ s.opb.value.toNat ∧ s.opb.value.toNat < 2 ^ 31) :
    exec (.rstring c nl) s = finish (do
      require (destOverlap s s.opa.value.toNat s.opb.value.toNat = false) .overlap
      runString 0x51 c nl s.opa.value.toNat s.opb.value.toNat s) :=
  finish_store (p := fun n => 1 ≤ n ∧ n < 2 ^ 31) hr ha hb hlen

section
variable {s : State} {c : CtxId} {nl : Bool} {dst maxLen n : Nat}

theorem stringCopied_zero : StringCopied s c dst maxLen 0 s.mem := fun x => by
  rw [Nat.zero_min, if_neg (by omega)]

theorem stringAt_zero : stringAt s c 0 s.mem = s := by
  rw [stringAt, Nat.mul_zero, Nat.add_zero, setCursor_self, setMem_self]

/-- The loop of RSTRING has a turn for each byte of a string in the stream, and one more. -/
theorem string_fuel (h : ∀ j < n, Fits s c (8 * (j + 1))) : n ≤ ((s.ctx c).bitCap - (s.ctx c).cursor) / 8 := by
  rcases Nat.eq_zero_or_pos n with rfl | hn
  · exact Nat.zero_le _
  · have hlast := h (n - 1) (by omega)
    rw [Fits] at hlast
    omega

/-- The NUL after the bytes of the string. -/
theorem endString_next {u : State} {m : Memory} (hcfg : u.cfg = s.cfg) (hmem : u.mem = s.mem)
    (hm : StringCopied s c dst maxLen n m) (hnul : memOK s.cfg (dst + min n (maxLen - 1)) = true) :
    ∃ t, endString dst (min n (maxLen - 1), decide (maxLen - 1 < n), u.setMem m) = .ok t ∧
      SetsBytes (stringResults maxLen n u) dst (min n (maxLen - 1) + 1)
        (fun j => if j < min n (maxLen - 1) then BitVec.ofNat 8 (stringByte s c j) else 0) t := by
  refine ⟨(stringResults maxLen n u).setMem (m.write (dst + min n (maxLen - 1)) 0), ?_, rfl, fun x => ?_⟩
  · simp only [endString, memWrite, setMem_cfg, hcfg, hnul, if_true, exec_ok_bind, decide_eq_true_eq]
    rfl
  · have hread : (stringResults maxLen n u).mem.read x = s.mem.read x := congrArg (Memory.read · x) hmem
    rw [setMem_mem, read_write, hm x, hread]
    generalize min n (maxLen - 1) = q
    dsimp only
    by_cases hx : x = dst + q
    · rw [if_pos hx, if_pos (by omega), if_neg (by omega)]
    by_cases hbyte : dst ≤ x ∧ x < dst + q
    · rw [if_neg hx, if_pos hbyte, if_pos (by omega), if_pos (by omega)]
    · rw [if_neg hx, if_neg hbyte, if_neg (by omega)]

variable (hr : Ready s .reader c) (hok : (s.ctx c).Ok s.cfg.addrW) (ho : ¬DestOverlaps s dst maxLen)
  (hn : ∀ j < n, Fits s c (8 * (j + 1)) ∧ ¬EndsString nl (stringByte s c j))
  (hend : Fits s c (8 * (n + 1)) → EndsString nl (stringByte s c n))
include hr hok ho hn

/-- The loop stops at the first missing byte of the string. -/
theorem runString_stuck (op : BitVec 8) {j : Nat} (hj : j < min n (maxLen - 1)) (hd : BytesOK s.cfg dst j)
    (hmiss : memOK s.cfg (dst + j) = false) :
    runString op c nl dst maxLen s = .error (.fault (.missingAddress (dst + j))) := by
  have hfuel := string_fuel fun j hj => (hn j hj).1
  have hloop := readString_stuck op nl hr hok ho hn j hj hd hmiss
    (((s.ctx c).bitCap - (s.ctx c).cursor) / 8 + 1) 0 (Nat.zero_le j) (by omega) s.mem stringCopied_zero
  rw [stringAt_zero] at hloop
  rw [runString, hloop, exec_error_bind]

include hend

/-- Where the bytes of the string exist, the loop stores them and leaves the NUL to be stored. -/
theorem runString_eq (op : BitVec 8) (h1 : 1 ≤ maxLen) (hd : BytesOK s.cfg dst (min n (maxLen - 1))) :
    ∃ m, StringCopied s c dst maxLen n m ∧ runString op c nl dst maxLen s =
      endString dst (min n (maxLen - 1), decide (maxLen - 1 < n), (afterString op c n s).setMem m) := by
  obtain ⟨m, hm, hfits, hfull⟩ := readString_run op nl h1 hr hok ho hd hn
    (((s.ctx c).bitCap - (s.ctx c).cursor) / 8 + 1) 0 (Nat.zero_le n)
    (Nat.succ_le_succ (string_fuel fun j hj => (hn j hj).1)) s.mem stringCopied_zero
  rw [Nat.zero_min, decide_eq_false (Nat.not_lt_zero _), stringAt_zero] at hfits hfull
  refine ⟨m, hm, ?_⟩
  by_cases hf : Fits s c (8 * (n + 1))
  · rw [runString, hfits hf (hend hf), exec_ok_bind, afterString, if_pos hf]
  · rw [runString, hfull hf, exec_ok_bind, afterString, if_neg hf]

/-- RSTRING where all that it stores has a byte. -/
theorem runString_ok (op : BitVec 8) (h1 : 1 ≤ maxLen) (hd : BytesOK s.cfg dst (min n (maxLen - 1) + 1)) :
    ∃ t, runString op c nl dst maxLen s = .ok t ∧
      SetsBytes (stringResults maxLen n (afterString op c n s)) dst (min n (maxLen - 1) + 1)
        (fun j => if j < min n (maxLen - 1) then BitVec.ofNat 8 (stringByte s c j) else 0) t := by
  obtain ⟨m, hm, e⟩ := runString_eq hr hok ho hn hend op h1 fun j hj => hd j (by omega)
  rw [e]
  refine endString_next ?_ ?_ hm (hd _ (Nat.lt_succ_self _)) <;> unfold afterString <;> split <;> rfl

/-- RSTRING where the byte of the NUL is missing. -/
theorem runString_nulStuck (op : BitVec 8) (h1 : 1 ≤ maxLen) (hd : BytesOK s.cfg dst (min n (maxLen - 1)))
    (hmiss : memOK s.cfg (dst + min n (maxLen - 1)) = false) :
    runString op c nl dst maxLen s = .error (.fault (.missingAddress (dst + min n (maxLen - 1)))) := by
  obtain ⟨m, -, e⟩ := runString_eq hr hok ho hn hend op h1 hd
  have hcfg : (afterString op c n s).cfg = s.cfg := by unfold afterString; split <;> rfl
  rw [e, endString, memWrite, setMem_cfg, hcfg, if_neg (by simp [hmiss]), exec_error_bind]

end

/-- Settles O47: the checks, and `runString` on a stream whose string has n bytes. -/
theorem stringReader : Obligations.StringReader := by
  intro s c nl n hr hok ha hb
  refine ⟨commandWord _, ?_⟩
  intro dst maxLen byte ends stored results copied h1 h2
  have hexec := exec_rstring (nl := nl) hr ha hb ⟨h1, h2⟩
  refine ⟨fun ho => ?overlap, fun ho hn => ?_⟩
  case overlap =>
    exact hexec.trans <| finish_eq_refused.2 <| error_of_require fun h => absurd ho ((destOverlap_false _ _ _).1 h)
  rw [require_pos _ ((destOverlap_false _ _ _).2 ho), exec_ok_bind] at hexec
  refine ⟨fun hd hf he => ?ends, fun hd hf => ?cut, fun he j hj hd hm => hexec.trans (finish_eq_fault.2 ?stuck)⟩
  case ends =>
    obtain ⟨t, ht, hset⟩ := runString_ok hr hok ho hn (fun _ => he) 0x51 h1 hd
    rw [afterString, if_pos hf] at hset
    exact ⟨t, hexec.trans (finish_eq_next.2 ht), hset⟩
  case cut =>
    obtain ⟨t, ht, hset⟩ := runString_ok hr hok ho hn (fun h => absurd h hf) 0x51 h1 hd
    rw [afterString, if_neg hf] at hset
    exact ⟨t, hexec.trans (finish_eq_next.2 ht), hset⟩
  case stuck =>
    rcases Nat.lt_succ_iff_lt_or_eq.1 hj with hlt | rfl
    · exact runString_stuck hr hok ho hn 0x51 hlt hd hm
    · exact runString_nulStuck hr hok ho hn he 0x51 h1 hd hm

end Sys2Proof.Proofs
end

section
/-! O49: SEEK and SEEKREL (43_reader.md R225, R226). -/

namespace Sys2Proof.Proofs

open Sys2Proof.Machine

section
variable {s : State} {c : CtxId} {op : BitVec 8} {pos : Int}

theorem seekTo_inside {p : Nat} (hp : (p : Int) = pos) (h : p ≤ (s.ctx c).bitCap) :
    seekTo op c pos s = s.setCursor c p := by
  unfold seekTo
  rw [if_neg (by omega), ← hp, Int.toNat_natCast]

theorem seekTo_outside (h : pos < 0 ∨ (s.ctx c).bitCap < pos) :
    seekTo op c pos s = (s.overflow op c .bufferOverrun).setCursor c (s.ctx c).bitCap := if_pos h

/-- A seek command runs `seekTo` with the target that `pos` computes from OPA. -/
theorem finish_seek (pos : Word64 → Int) (hc : c.val < s.cfg.nCtx) (hm : (s.ctx c).mode = .reader)
    (ha : s.opa.written = true) :
    finish (do needCtx c s; let a ← operand .opa s; needMode .reader c s; .ok (seekTo op c (pos a) s)) =
      .next (seekTo op c (pos s.opa.value) s) :=
  finish_eq_next.2 <| ok_bind (needCtx_pos hc) <| ok_bind (operand_pos ha) <| ok_bind (needMode_pos hm) rfl

end

/-- Settles O49: both commands are `seekTo`. -/
theorem seekMovesTheCursor : Obligations.SeekMovesTheCursor := by
  intro s c hc hm ha
  refine ⟨commandWord _, commandWord _, ?_⟩
  intro seeks
  have run {op : BitVec 8} {i : Instr} {pos : Int} (hi : exec i s = .next (seekTo op c pos s)) : seeks op i pos :=
    ⟨fun p hp hle => hi.trans (congrArg _ (seekTo_inside hp hle)), fun h => hi.trans (congrArg _ (seekTo_outside h))⟩
  exact ⟨run (finish_seek BitVec.toInt hc hm ha), run (finish_seek ((s.ctx c).cursor + ·.toInt) hc hm ha)⟩

end Sys2Proof.Proofs
end

section
/-! O50 and O51: CMPBITS (43_reader.md R227). Where both streams have the bits, the reads of a chunk move both cursors by its
width, so the chunks together compare all the bits. -/

namespace Sys2Proof.Proofs

open Sys2Proof.Machine

/-- CMPBITS on two ready readers runs its loop over all the chunks, and returns whether one of them differed. -/
theorem exec_cmpbits {s : State} {c c2 : CtxId} (hr : Ready s .reader c) (hr2 : Ready s .reader c2) (hne : c2 ≠ c)
    (hb : s.opb.written = true) (hn : s.opb.value.toNat < 2 ^ 31) :
    ∃ (e : Bool) (t : State), CompareReads 0x56 c c2 (compareChunks s.opb.value.toNat) s (e = true) t ∧
      exec (.cmpbits c c2) s = .next (t.setRes0 (if e then 1 else 0)) := by
  obtain ⟨hc, hm, hbuf⟩ := hr
  obtain ⟨hc2, hm2, hbuf2⟩ := hr2
  obtain ⟨e, t, hrun, hreads⟩ := compareFrom_outcome 0x56 c c2 hne _ s.opb.value.toNat rfl false s hbuf hbuf2
  refine ⟨e, t, hreads, finish_eq_next.2 ?_⟩
  exact ok_bind (needCtx_pos hc) <| ok_bind (needCtx_pos hc2) <| ok_bind (require_pos _ hne) <|
    ok_bind (operand_pos hb) <| ok_bind (require_pos _ hn) <| ok_bind (needMode_pos hm) <|
    ok_bind (needMode_pos hm2) <| ok_bind hrun (by rw [Bool.false_or])

/-- Settles O50: `exec_cmpbits`. -/
theorem compareReadsBoth : Obligations.CompareReadsBoth := by
  intro s c c2 hr hr2 hne hb hn
  obtain ⟨e, t, hreads, hrun⟩ := exec_cmpbits hr hr2 hne hb hn
  exact ⟨commandWord _, e = true, t, hreads, fun he => hrun.trans (by rw [if_pos he]),
    fun he => hrun.trans (by rw [if_neg he])⟩

/-! ### Equal runs of bits -/

theorem memBits_eq_iff (m : Memory) (k k' n : Nat) :
    memBits m k n = memBits m k' n ↔ ∀ i < n, memBit m (k + i) = memBit m (k' + i) := by
  refine ⟨fun h i hi => ?_, fun h => Nat.eq_of_testBit_eq fun i => ?_⟩
  · have hbit := congrArg (Nat.testBit · i) h
    simpa [memBits_testBit, hi] using hbit
  · rw [memBits_testBit, memBits_testBit]
    by_cases hi : i < n
    · rw [h i hi]
    · rw [decide_eq_false hi, Bool.false_and, Bool.false_and]

/-- Two runs of a + b bits differ when their first a bits do or the b bits after these. -/
theorem memBits_ne_add (m : Memory) (k k' a b : Nat) :
    memBits m k (a + b) ≠ memBits m k' (a + b) ↔
      memBits m k a ≠ memBits m k' a ∨ memBits m (k + a) b ≠ memBits m (k' + a) b := by
  rw [ne_eq, ne_eq, ne_eq, ← not_and_or, not_iff_not, memBits_eq_iff, memBits_eq_iff, memBits_eq_iff]
  refine ⟨fun h => ⟨fun i hi => h i (by omega), fun i hi => ?_⟩, fun ⟨hlow, hhigh⟩ i hi => ?_⟩
  · simpa [Nat.add_assoc] using h (a + i) (by omega)
  · rcases Nat.lt_or_ge i a with hlt | hge
    · exact hlow i hlt
    · simpa [Nat.add_assoc, Nat.add_sub_cancel' hge] using hhigh (i - a) (by omega)

/-! ### Two cursors -/

/-- The state with the cursors of c and c2 moved on by n bits. -/
def bothMoved (s : State) (c c2 : CtxId) (n : Nat) : State :=
  (s.setCursor c ((s.ctx c).cursor + n)).setCursor c2 ((s.ctx c2).cursor + n)

/-- The n bits at the cursors of c and c2 differ. -/
abbrev Differ (s : State) (c c2 : CtxId) (n : Nat) : Prop :=
  streamBits s c (s.ctx c).cursor n ≠ streamBits s c2 (s.ctx c2).cursor n

section
variable {s t : State} {c c2 : CtxId} {a b : Nat}

theorem setCursor_setCursor_comm (hne : c2 ≠ c) (p q : Nat) :
    (s.setCursor c p).setCursor c2 q = (s.setCursor c2 q).setCursor c p := by
  simp only [State.setCursor, ctx_setCtx_other _ _ _ _ hne, ctx_setCtx_other _ _ _ _ hne.symm,
    setCtx_comm _ _ _ _ _ hne]

theorem ctx_bothMoved_left (hne : c2 ≠ c) (n : Nat) :
    (bothMoved s c c2 n).ctx c = { s.ctx c with cursor := (s.ctx c).cursor + n } := by
  rw [bothMoved, ctx_setCursor_other _ _ _ _ hne.symm, ctx_setCursor_same]

theorem ctx_bothMoved_right (hne : c2 ≠ c) (n : Nat) :
    (bothMoved s c c2 n).ctx c2 = { s.ctx c2 with cursor := (s.ctx c2).cursor + n } := by
  rw [bothMoved, ctx_setCursor_same, ctx_setCursor_other _ _ _ _ hne]

theorem bothMoved_zero : bothMoved s c c2 0 = s := by simp [bothMoved]

theorem bothMoved_bothMoved (hne : c2 ≠ c) : bothMoved (bothMoved s c c2 a) c c2 b = bothMoved s c c2 (a + b) := by
  rw [bothMoved, ctx_bothMoved_left hne, ctx_bothMoved_right hne]
  dsimp only [bothMoved]
  rw [setCursor_setCursor_comm (s := s) hne, setCursor_setCursor, setCursor_setCursor_comm hne.symm, setCursor_setCursor,
    Nat.add_assoc, Nat.add_assoc]

/-- The bits differ when those of the first a do, or those after them. -/
theorem differ_add (hne : c2 ≠ c) : Differ s c c2 (a + b) ↔ Differ s c c2 a ∨ Differ (bothMoved s c c2 a) c c2 b := by
  simp only [Differ, streamBits, ctx_bothMoved_left hne, ctx_bothMoved_right hne, ← Nat.add_assoc]
  exact memBits_ne_add _ _ _ _ _

/-- The reads of one chunk that fits in both streams. -/
theorem chunk_fits {op : BitVec 8} {w x y : Nat} {u v : State} (hne : c2 ≠ c) (hf : Fits s c w) (hf2 : Fits s c2 w)
    (hx : RdOutcome op c w s x u) (hy : RdOutcome op c2 w u y v) : v = bothMoved s c c2 w ∧ (x ≠ y ↔ Differ s c c2 w) := by
  obtain ⟨rfl, rfl⟩ := hx.1 hf
  have hctx := ctx_setCursor_other s c c2 ((s.ctx c).cursor + w) hne
  obtain ⟨rfl, rfl⟩ := hy.1 (by rwa [Fits, hctx])
  refine ⟨by rw [hctx]; rfl, ?_⟩
  simp only [streamBits, hctx, setCursor_mem, Differ]

/-- The loop of CMPBITS over chunks that fit as a whole in both streams. -/
theorem compareReads_fits {op : BitVec 8} {ws : List Nat} {d : Prop} (hne : c2 ≠ c) (hf : Fits s c ws.sum)
    (hf2 : Fits s c2 ws.sum) (h : CompareReads op c c2 ws s d t) :
    t = bothMoved s c c2 ws.sum ∧ (d ↔ Differ s c c2 ws.sum) := by
  induction ws generalizing s d with
  | nil =>
    obtain ⟨hd, rfl⟩ := h
    exact ⟨bothMoved_zero.symm, iff_of_false hd fun hdiff => hdiff rfl⟩
  | cons w ws ih =>
    obtain ⟨x, u, y, v, e, hx, hy, hrest, hd⟩ := h
    rw [List.sum_cons, Fits] at hf hf2
    obtain ⟨rfl, hxy⟩ := chunk_fits hne (by rw [Fits]; omega) (by rw [Fits]; omega) hx hy
    obtain ⟨rfl, he⟩ := ih (by rw [Fits, ctx_bothMoved_left hne]; dsimp only; omega)
      (by rw [Fits, ctx_bothMoved_right hne]; dsimp only; omega) hrest
    rw [List.sum_cons]
    exact ⟨bothMoved_bothMoved hne, by rw [hd, hxy, he, differ_add hne]⟩

end

/-- The chunks are all the bits. -/
theorem compareChunks_sum (n : Nat) : (compareChunks n).sum = n := by
  unfold compareChunks
  split <;> simp <;> omega

/-- Settles O51: the chunks fit as a whole, so some chunk differs when the n bits do. -/
theorem compareIsBitExact : Obligations.CompareIsBitExact := by
  intro s c c2 hr hr2 hne hb hn hf hf2
  obtain ⟨e, t, hreads, hrun⟩ := exec_cmpbits hr hr2 hne hb hn
  obtain ⟨rfl, he⟩ := compareReads_fits hne (by rwa [compareChunks_sum]) (by rwa [compareChunks_sum]) hreads
  rw [compareChunks_sum] at he hrun
  exact ⟨fun heq => hrun.trans (by rw [if_neg (mt he.1 (not_not.2 heq))]; rfl),
    fun hdiff => hrun.trans (by rw [if_pos (he.2 hdiff)]; rfl)⟩

end Sys2Proof.Proofs
end

section
/-! O40 to O44: the quantizing readers (44_reader_quant.md R260 to R268). Each makes its checks and then runs one operation of
Laws/Quant.lean per value; that of RCOORDMP is stated here. -/

namespace Sys2Proof.Proofs

open Sys2Proof.Machine

/-! ### The commands -/

section
variable {s t : State} {c : CtxId} {b : Word32}

/-- A reader on a ready context whose one operation yields a binary32 pattern returns it. -/
theorem patternRead_next {x : Exec (Word32 × State)} (hr : Ready s .reader c) (e : x = .ok (b, t)) :
    finish (do needCtx c s; needMode .reader c s; let y ← x; .ok (y.2.setRes0 (zext64 y.1))) =
      .next (t.setRes0 (b.setWidth 64)) :=
  (finish_read hr).trans <| finish_eq_next.2 <| ok_bind e rfl

/-- The result registers of the vector readers as numbers (44_reader_quant.md R266). -/
theorem setVector_eq (t : State) (x y z : Word32) :
    t.setVector x y z = (t.setRes0 (BitVec.ofNat 64 (y.toNat * 2 ^ 32 + x.toNat))).setRes1 (z.setWidth 64) := by
  rw [State.setVector, append_words, zext64]

/-- An axis of RVEC3COORD completes where the buffer exists (44_reader_quant.md R267). -/
theorem axisGet_coord (op : BitVec 8) (p : Nat) (hv : s.cfg.valid = true) (hb : Buffered s c) :
    ∃ b t, axisGet p (coordGet op c) s = .ok (b, t) ∧ AxisReads p (CoordReads op c) s b t ∧ StreamFrame op c s t :=
  axisGet_spec p (coordGet op c) (CoordReads op c) s (coordGet_spec op hv hb)

end

/-! ### One value -/

/-- Settles O40: RCOORD is one `CoordGet`. -/
theorem coordReader : Obligations.CoordReader := by
  intro s c hv hr
  obtain ⟨b, t, e, ho, -⟩ := coordGet_spec 0x4A hv hr.2.2
  exact ⟨commandWord _, b, t, ho, patternRead_next hr e⟩

/-- Where the buffer exists, RCOORDMP rebuilds what R262 says (44_reader_quant.md R262). -/
theorem coordMpGet_spec {s : State} {c : CtxId} (op : BitVec 8) (integral lowPrec : Bool) (hv : s.cfg.valid = true)
    (hb : Buffered s c) :
    ∃ b t, coordMpGet op c integral lowPrec s = .ok (b, t) ∧ CoordMpReads op c integral lowPrec s b t := by
  obtain ⟨-, hib, -, -, -, hibmp, -⟩ := Config.valid_bounds hv
  obtain ⟨inb, u₁, e₁, o₁, -, f₁⟩ := rd_completes op c 1 s hb
  obtain ⟨hi, u₂, e₂, o₂, -, f₂⟩ := rd_completes op c 1 u₁ (f₁.buffered hb)
  have f₁₂ := f₁.trans f₂
  obtain ⟨sg, u₃, e₃, o₃, -, f₃⟩ := rd_completes op c 1 u₂ (f₁₂.buffered hb)
  have f₁₃ := f₁₂.trans f₃
  have hwide : 2 ^ (if inb = 1 then s.cfg.ibmp else s.cfg.ib) ≤ 2 ^ 31 :=
    Nat.pow_le_pow_right (by decide) (by split <;> omega)
  cases integral with
  | true =>
    by_cases hzero : hi = 0
    · refine ⟨0, u₂, ok_bind e₁ <| ok_bind e₂ ?_, inb, u₁, hi, u₂, o₁, o₂, fun _ _ => ⟨rfl, rfl⟩,
        fun _ hne => absurd hzero hne, nofun⟩
      dsimp only
      rw [if_pos rfl, if_pos hzero]
    · obtain ⟨ip, u₄, e₄, o₄, hip, -⟩ :=
        rd_completes op c (if inb = 1 then s.cfg.ibmp else s.cfg.ib) u₃ (f₁₃.buffered hb)
      have hbits := coordBits_spec (sg == 1) (ip + 1) 0 0 (by omega) (by decide)
      refine ⟨_, u₄, ok_bind e₁ <| ok_bind e₂ ?_, inb, u₁, hi, u₂, o₁, o₂, fun _ h0 => absurd h0 hzero,
        fun _ _ => ⟨sg, u₃, ip, o₃, o₄, by simpa using hbits⟩, nofun⟩
      dsimp only
      rw [if_pos rfl, if_neg hzero, f₁.cfg]
      exact ok_bind e₃ (ok_bind e₄ rfl)
  | false =>
    obtain ⟨ip, u₄, e₄, o₄, hip, f₄⟩ :=
      rdIf_completes (hi == 1) op c (if inb = 1 then s.cfg.ibmp else s.cfg.ib) u₃ (f₁₃.buffered hb)
    obtain ⟨fr, u₅, e₅, o₅, hfr, -⟩ := rd_completes op c (s.cfg.mpFrac lowPrec) u₄ ((f₁₃.trans f₄).buffered hb)
    have hbits := coordBits_spec (sg == 1) (if hi = 1 then ip + 1 else 0) fr _ (by split <;> omega) hfr
    push_cast at hbits
    refine ⟨_, u₅, ok_bind e₁ <| ok_bind e₂ ?_, inb, u₁, hi, u₂, o₁, o₂, nofun, nofun,
      fun _ => ⟨sg, u₃, ip, u₄, fr, o₃, by simpa using o₄, o₅, hbits⟩⟩
    dsimp only
    rw [if_neg Bool.false_ne_true, f₁.cfg]
    exact ok_bind e₃ (ok_bind e₄ (ok_bind e₅ rfl))

/-- Settles O41: RCOORDMP is the operation of `coordMpGet_spec`. -/
theorem coordMpReader : Obligations.CoordMpReader := by
  intro s c integral lowPrec hv hr
  obtain ⟨b, t, e, ho⟩ := coordMpGet_spec 0x4B integral lowPrec hv hr.2.2
  exact ⟨commandWord _, b, t, ho, patternRead_next hr e⟩

/-- Settles O42: RANGLE is one `Rd` whose value `angleBits_spec` rounds, and RNORMAL is one `NormalGet`. -/
theorem angleAndNormalReaders : Obligations.AngleAndNormalReaders := by
  intro s c hv hr
  refine ⟨fun nb hnb => ⟨commandWord _, ?angle⟩, commandWord _, ?normal⟩
  case angle =>
    obtain ⟨i, t, e, ho, hi, -⟩ := rd_completes 0x4C c nb.val s hr.2.2
    exact ⟨i, angleBits i nb.val, t, ho, angleBits_spec i nb.val hi,
      countedRead_next (fun n => zext64 (angleBits n nb.val)) hr hnb e rfl⟩
  case normal =>
    obtain ⟨b, t, e, ho, -⟩ := normalGet_spec 0x4E hv hr.2.2
    exact ⟨b, t, ho, patternRead_next hr e⟩

/-! ### Vectors -/

/-- Settles O43: three flags, and then three axes, each from where the one before it left the stream. -/
theorem vec3CoordReader : Obligations.Vec3CoordReader := by
  intro s c hv hr
  have hbuf := hr.2.2
  obtain ⟨px, u₁, epx, opx, -, f₁⟩ := rd_completes 0x4F c 1 s hbuf
  obtain ⟨py, u₂, epy, opy, -, f₂⟩ := rd_completes 0x4F c 1 u₁ (f₁.buffered hbuf)
  replace f₂ := f₁.trans f₂
  obtain ⟨pz, u₃, epz, opz, -, f₃⟩ := rd_completes 0x4F c 1 u₂ (f₂.buffered hbuf)
  replace f₃ := f₂.trans f₃
  obtain ⟨x, u₄, ex, ox, f₄⟩ := axisGet_coord 0x4F px (f₃.cfg ▸ hv) (f₃.buffered hbuf)
  replace f₄ := f₃.trans f₄
  obtain ⟨y, u₅, ey, oy, f₅⟩ := axisGet_coord 0x4F py (f₄.cfg ▸ hv) (f₄.buffered hbuf)
  replace f₅ := f₄.trans f₅
  obtain ⟨z, t, ez, oz, -⟩ := axisGet_coord 0x4F pz (f₅.cfg ▸ hv) (f₅.buffered hbuf)
  refine ⟨commandWord _, px, u₁, py, u₂, pz, u₃, x, u₄, y, u₅, z, t, opx, opy, opz, ox, oy, oz, (finish_read hr).trans ?_⟩
  rw [← setVector_eq]
  exact finish_eq_next.2 <| ok_bind epx <| ok_bind epy <| ok_bind epz <| ok_bind ex <| ok_bind ey <| ok_bind ez rfl

/-- Settles O44: two flags, two axes and the sign of z; `normalZ_spec` says what z is, for components as small as those that
`NormalGet` yields. -/
theorem vec3NormalReader : Obligations.Vec3NormalReader := by
  intro s c hv hr
  have hbuf := hr.2.2
  obtain ⟨px, u₁, epx, opx, -, f₁⟩ := rd_completes 0x50 c 1 s hbuf
  obtain ⟨py, u₂, epy, opy, -, f₂⟩ := rd_completes 0x50 c 1 u₁ (f₁.buffered hbuf)
  replace f₂ := f₁.trans f₂
  obtain ⟨x, u₃, ex, ox, f₃, hxfin, hxle⟩ := axisGet_normal 0x50 px (f₂.cfg ▸ hv) (f₂.buffered hbuf)
  replace f₃ := f₂.trans f₃
  obtain ⟨y, u₄, ey, oy, f₄, hyfin, hyle⟩ := axisGet_normal 0x50 py (f₃.cfg ▸ hv) (f₃.buffered hbuf)
  replace f₄ := f₃.trans f₄
  obtain ⟨zs, t, ez, oz, -⟩ := rd_completes 0x50 c 1 u₄ (f₄.buffered hbuf)
  refine ⟨commandWord _, px, u₁, py, u₂, x, u₃, y, u₄, zs, t, withSign (zs == 1) (normalZBits x y), opx, opy, ox, oy, oz,
    normalZ_spec hxfin hyfin hxle hyle _, (finish_read hr).trans ?_⟩
  rw [← setVector_eq]
  exact finish_eq_next.2 <| ok_bind epx <| ok_bind epy <| ok_bind ex <| ok_bind ey <| ok_bind ez rfl

end Sys2Proof.Proofs
end

section
/-! O46: RCOORD of what WCOORD sent (42_writer_quant.md R181, 44_reader_quant.md R261). The reader gets every field back; the
number they make is |f| cut off after the fraction bits, and it has no more significant bits than f, so that no rounding
changes it. -/

namespace Sys2Proof.Proofs

open Sys2Proof.Machine

/-! ### The fields come back -/

/-- Reads of the widths of these fields, one after the other, yield their values and lead from u to w. -/
def ReadsBack (op : BitVec 8) (d : CtxId) : List StreamField → State → State → Prop
  | [], u, w => w = u
  | f :: fs, u, w => ∃ v, rd op d f.width u = .ok (f.value % 2 ^ f.width, v) ∧ ReadsBack op d fs v w

section
variable {s t u w : State} {c d : CtxId} {op : BitVec 8}

theorem fieldsWidth_cons (f : StreamField) (fs : List StreamField) :
    fieldsWidth (f :: fs) = f.width + fieldsWidth fs := by simp [fieldsWidth]

/-- A reader that has moved i bits into what was written gets back the fields that make up the rest of it. -/
theorem readsBack_from {n x : Nat} (hr : Rereads s c t u d) (hb : Buffered s c) (hf : Fits s c n) (hw : Wrote s c n x t)
    (fs : List StreamField) (i : Nat) (hx : x / 2 ^ i = fieldsValue fs) (hn : i + fieldsWidth fs = n) :
    ReadsBack op d fs (u.setCursor d ((u.ctx d).cursor + i)) (u.setCursor d ((u.ctx d).cursor + n)) := by
  induction fs generalizing i with
  | nil =>
    rw [← hn]
    rfl
  | cons f fs ih =>
    rw [fieldsWidth_cons, ← Nat.add_assoc] at hn
    have hrd := rd_of_rereads op hr hb hf hw (i := i) (m := f.width) (by omega)
    rw [hx, fieldsValue, Nat.add_mul_mod_self_left, Nat.mod_mod] at hrd
    refine ⟨_, hrd, ih (i + f.width) ?_ hn⟩
    rw [pow_add, ← Nat.div_div_eq_div_mul, hx, fieldsValue, Nat.add_mul_div_left _ _ (Nat.two_pow_pos _),
      Nat.div_eq_of_lt (Nat.mod_lt _ (Nat.two_pow_pos _)), Nat.zero_add]

/-- A reader gets back the fields that a writer sent, where there was room for them. -/
theorem readsBack_of_writesAll {op' : BitVec 8} {fs : List StreamField} (hr : Rereads s c t u d) (hb : Buffered s c)
    (h : WritesAll op' c fs s t) (hf : Fits s c (fieldsWidth fs)) :
    ReadsBack op d fs u (u.setCursor d ((u.ctx d).cursor + fieldsWidth fs)) := by
  have hback := readsBack_from (op := op) hr hb hf (writesAll_fits h hf) fs 0 (by simp) (by simp)
  rwa [Nat.add_zero, setCursor_self] at hback

theorem readsBack_append {fs gs : List StreamField} (h : ReadsBack op d (fs ++ gs) u w) :
    ∃ v, ReadsBack op d fs u v ∧ ReadsBack op d gs v w := by
  induction fs generalizing u with
  | nil => exact ⟨u, rfl, h⟩
  | cons f fs ih =>
    obtain ⟨u₁, e, h⟩ := h
    obtain ⟨v, hfs, hgs⟩ := ih h
    exact ⟨v, ⟨u₁, e, hfs⟩, hgs⟩

/-- A field of n bits that was sent under a condition is read under the same condition. -/
theorem rdIf_of_readsBack {p : Prop} [Decidable p] {n x v : Nat}
    (h : ReadsBack op d (if p then [{ width := n, value := x }] else []) u w) (hx : p → x % 2 ^ n = v)
    (hv : ¬p → v = 0) : rdIf (decide p) op d n u = .ok (v, w) ∧ w.cfg = u.cfg := by
  by_cases hp : p
  · rw [if_pos hp] at h
    obtain ⟨_, e, rfl⟩ := h
    rw [decide_eq_true hp, ← hx hp]
    exact ⟨e, (rd_frame e).1.cfg⟩
  · rw [if_neg hp] at h
    obtain rfl : w = u := h
    rw [decide_eq_false hp, hv hp]
    exact ⟨rfl, rfl⟩

/-! ### The coordinate -/

/-- The pattern that `CoordGet` makes of the fields of `coordLayout`. -/
def coordPattern (fb ip fr : Nat) (neg : Bool) : Word32 := if ip = 0 ∧ fr = 0 then 0 else coordBits neg ip fr fb

/-- The longest layout has three flags and both numbers. -/
theorem coordLayout_fits {ib fb ip fr : Nat} {neg : Bool} (hroom : Fits s c (3 + ib + fb)) :
    Fits s c (fieldsWidth (coordLayout ib fb ip fr neg)) := by
  have hwidth : fieldsWidth (coordLayout ib fb ip fr neg) ≤ 3 + ib + fb := by
    unfold coordLayout
    split_ifs <;> simp [fieldsWidth] <;> omega
  exact (Nat.add_le_add_left hwidth _).trans hroom

section
variable (p : Prop) [Decidable p]

theorem flag_mod : (if p then 1 else 0) % 2 ^ 1 = if p then 1 else 0 := by split <;> rfl

theorem flag_beq_one : ((if p then 1 else 0) == 1) = decide p := by by_cases hp : p <;> simp [hp]

end

/-- `CoordGet` of the fields that `CoordPut` sends (44_reader_quant.md R261). -/
theorem coordGet_of_readsBack {ip fr : Nat} {neg : Bool} (hip : ip ≤ 2 ^ u.cfg.ib) (hfr : fr < 2 ^ u.cfg.fb)
    (h : ReadsBack op d (coordLayout u.cfg.ib u.cfg.fb ip fr neg) u w) :
    coordGet op d u = .ok (coordPattern u.cfg.fb ip fr neg, w) := by
  obtain ⟨u₂, ⟨u₁, e₁, _, e₂, rfl⟩, h⟩ := readsBack_append h
  rw [flag_mod] at e₁ e₂
  refine ok_bind e₁ (ok_bind e₂ ?_)
  simp only [flag_beq_one, ite_eq_left_iff, ite_eq_right_iff, zero_ne_one, one_ne_zero, imp_false, not_not]
  by_cases h0 : ip = 0 ∧ fr = 0
  case pos =>
    rw [if_neg (by omega)] at h
    obtain rfl : w = u₂ := h
    rw [if_pos h0, coordPattern, if_pos h0]
  case neg =>
    rw [if_pos (by omega)] at h
    obtain ⟨u₄, h, h₅⟩ := readsBack_append h
    obtain ⟨u₃, ⟨_, e₃, rfl⟩, h₄⟩ := readsBack_append h
    rw [flag_mod] at e₃
    obtain ⟨e₄, hcfg₄⟩ := rdIf_of_readsBack (v := ip - 1) h₄
      (fun _ => by rw [Nat.mod_mod, Nat.mod_eq_of_lt (by omega)]) (by omega)
    obtain ⟨e₅, hcfg₅⟩ := rdIf_of_readsBack h₅ (fun _ => Nat.mod_eq_of_lt hfr) not_not.1
    have hcfg₃ : u₃.cfg = u.cfg := ((rd_frame e₁).1.trans ((rd_frame e₂).1.trans (rd_frame e₃).1)).cfg
    rw [hcfg₃] at hcfg₄
    rw [hcfg₄] at hcfg₅
    have hint : (if ip ≠ 0 then ip - 1 + 1 else 0) = ip := by split <;> omega
    rw [if_neg h0, coordPattern, if_neg h0]
    refine ok_bind e₃ ?_
    simp only [hcfg₃, flag_beq_one, Bool.decide_eq_true]
    refine ok_bind e₄ ?_
    simp only [hcfg₄]
    refine ok_bind e₅ ?_
    simp only [hcfg₅, hint]

end

/-! ### The number -/

theorem mag32_nonneg (f : Word32) : 0 ≤ mag32 f := by
  unfold mag32
  split <;> positivity

/-- |f| cut off after n fraction bits, in units of the last of them. -/
def cutOff (f : Word32) (n : Nat) : Nat := ⌊mag32 f * 2 ^ n⌋₊

section
variable {f : Word32} {n : Nat}

theorem floor_mag32_eq (f : Word32) (n : Nat) : ⌊mag32 f⌋₊ = cutOff f n / 2 ^ n := by
  have hdiv := Nat.floor_div_natCast (mag32 f * 2 ^ n) (2 ^ n)
  push_cast at hdiv
  rwa [mul_div_cancel_right₀ _ (by positivity)] at hdiv

/-- The integer part and the fraction bits together. -/
theorem intPart_add_fraction (k n : Nat) : ((k / 2 ^ n : Nat) : ℚ) + (k % 2 ^ n : Nat) / 2 ^ n = k / 2 ^ n := by
  rw [eq_div_iff (by positivity), add_mul, div_mul_cancel₀ _ (by positivity)]
  exact_mod_cast Nat.div_add_mod' k (2 ^ n)

theorem cutOff_le (f : Word32) (n : Nat) : (cutOff f n : ℚ) / 2 ^ n ≤ mag32 f := by
  rw [div_le_iff₀ (by positivity)]
  exact Nat.floor_le (mul_nonneg (mag32_nonneg f) (by positivity))

theorem sub_cutOff_lt (f : Word32) (n : Nat) : mag32 f - (cutOff f n : ℚ) / 2 ^ n < 1 / 2 ^ n := by
  rw [sub_lt_iff_lt_add, ← add_div, lt_div_iff₀ (by positivity), add_comm]
  exact Nat.lt_floor_add_one _

/-- Cutting off a binary32 value leaves a value with no more significant bits. -/
theorem cutOff_form (hf : Finite32 f) (hn : n ≤ 149) :
    ∃ (m : Nat) (e : ℤ), (cutOff f n : ℚ) / 2 ^ n = m * 2 ^ e ∧ m < 2 ^ 24 ∧ -149 ≤ e := by
  obtain ⟨m, e, hm, hlt, he⟩ := mag32_form hf
  have hscaled : mag32 f * 2 ^ n = m * 2 ^ (e + n) := by
    rw [hm, mul_assoc, ← zpow_natCast, ← zpow_add₀ two_ne_zero]
  rw [cutOff, hscaled]
  rcases le_or_gt 0 (e + n) with hwhole | hpart
  · obtain ⟨k, hk⟩ := Int.eq_ofNat_of_zero_le hwhole
    have hint : (m : ℚ) * 2 ^ (e + n) = (m * 2 ^ k : Nat) := by
      rw [hk]
      push_cast
      rfl
    refine ⟨m, e, ?_, hlt, he⟩
    rw [hint, Nat.floor_natCast, ← hint, ← hscaled, mul_div_cancel_right₀ _ (by positivity), hm]
  · refine ⟨_, -n, by rw [zpow_neg, zpow_natCast, div_eq_mul_inv], ?_, by omega⟩
    rw [Nat.floor_lt' (by norm_num)]
    push_cast
    calc (m : ℚ) * 2 ^ (e + n) ≤ m * 1 := by gcongr; exact zpow_le_one_of_nonpos₀ one_le_two hpart.le
      _ < 2 ^ 24 := by rw [mul_one]; exact_mod_cast hlt

/-- What RCOORD makes of what WCOORD sends for f (42_writer_quant.md R181, 44_reader_quant.md R261). -/
def coordEcho (f : Word32) (n : Nat) : Word32 :=
  coordPattern n (cutOff f n / 2 ^ n) (cutOff f n % 2 ^ n) (Sign32 f (1 / 2 ^ n))

theorem coordEcho_of_zero (h : cutOff f n = 0) : coordEcho f n = 0 := by simp [coordEcho, coordPattern, h]

theorem coordEcho_of_ne_zero (h : cutOff f n ≠ 0) :
    coordEcho f n = coordBits (Sign32 f (1 / 2 ^ n)) (cutOff f n / 2 ^ n) (cutOff f n % 2 ^ n) n :=
  if_neg fun ⟨hint, hfrac⟩ => h <| by rw [← Nat.div_add_mod (cutOff f n) (2 ^ n), hint, hfrac, mul_zero]

/-- What is not cut off to zero is at least the resolution, and so its sign is sent. -/
theorem sign32_eq_neg32 (hf : Finite32 f) (h : cutOff f n ≠ 0) : decide (Sign32 f (1 / 2 ^ n)) = neg32 f := by
  have hone : (1 : ℚ) ≤ cutOff f n := by exact_mod_cast Nat.one_le_iff_ne_zero.2 h
  have hres : 1 / 2 ^ n ≤ mag32 f := le_trans (by gcongr) (cutOff_le f n)
  rw [Bool.eq_iff_iff, decide_eq_true_iff]
  exact ⟨And.left, fun hneg => ⟨hneg, fun hnan => hf hnan.1, fun _ => hres⟩⟩

/-- The number that comes back is |f| cut off, with the sign of f: the rounding of R261 changes nothing. -/
theorem coordEcho_spec (hf : Finite32 f) (hn : n ≤ 31) (hle : cutOff f n / 2 ^ n ≤ 2 ^ 31) :
    Finite32 (coordEcho f n) ∧ mag32 (coordEcho f n) = (cutOff f n : ℚ) / 2 ^ n ∧
      (cutOff f n ≠ 0 → neg32 (coordEcho f n) = neg32 f) := by
  by_cases h : cutOff f n = 0
  · rw [coordEcho_of_zero h, h]
    exact ⟨by decide, by simp [mag32, exp32, frac32], fun hne => absurd rfl hne⟩
  · obtain ⟨hneg, hfin, hrne⟩ := coordBits_spec (Sign32 f (1 / 2 ^ n)) _ (cutOff f n % 2 ^ n) n hle
      (Nat.mod_lt _ (Nat.two_pow_pos n))
    rw [Rat.cast_id, intPart_add_fraction] at hrne
    rw [coordEcho_of_ne_zero h]
    refine ⟨hfin, hrne.eq_self (cutOff_form hf (by omega)), fun _ => hneg.trans (sign32_eq_neg32 hf h)⟩

end

/-! ### The commands -/

section
variable {s t u : State} {c d : CtxId} {f : Word32}

/-- WCOORD of a finite value sends the fields of its integer part and fraction, and takes no draw. -/
theorem wcoord_writes (h : exec (.wcoord c) s = .next t) (hop : s.opa.value.setWidth 32 = f) (hf : Finite32 f) :
    WritesAll 0x19 c (coordLayout s.cfg.ib s.cfg.fb (cutOff f s.cfg.fb / 2 ^ s.cfg.fb)
      (cutOff f s.cfg.fb % 2 ^ s.cfg.fb) (Sign32 f (1 / 2 ^ s.cfg.fb))) s t := by
  obtain ⟨ip, fr, hfs, -, hfin, -⟩ := coordFields_spec s.cfg f s.draws
  obtain ⟨rfl, rfl, hk⟩ := hfin hf
  have hall : wrAll 0x19 c (coordFields s.cfg (floatOperand s.opa.value) s.draws).1
    (s.setDraws (coordFields s.cfg (floatOperand s.opa.value) s.draws).2) = .ok t := write_inv h
  rw [floatOperand, lowWord, hop, hfs, hk, setDraws_self, floor_mag32_eq] at hall
  exact wrAll_outcome hall

/-- RCOORD of what WCOORD sent for f, where there was room for it, moves the cursor as far as the writer's and returns
`coordEcho` of f. -/
theorem rcoord_echo (hready : Ready s .writer c) (hroom : Fits s c (3 + s.cfg.ib + s.cfg.fb))
    (hop : s.opa.value.setWidth 32 = f) (hf : Finite32 f) (hlt : cutOff f s.cfg.fb / 2 ^ s.cfg.fb ≤ 2 ^ s.cfg.ib)
    (h : exec (.wcoord c) s = .next t) (hr : Rereads s c t u d) :
    exec (.rcoord d) u =
      .next ((u.setCursor d (t.ctx c).cursor).setRes0 ((coordEcho f s.cfg.fb).setWidth 64)) := by
  have hsent := wcoord_writes h hop hf
  have hback := readsBack_of_writesAll (op := 0x4A) hr hready.2.2 hsent (coordLayout_fits hroom)
  have hbuf := hr.buffered hready.2.2
  obtain ⟨hcfg, -, hd, hmode, -, -, hcur⟩ := hr
  rw [(writesAll_fits hsent (coordLayout_fits hroom)).ctx, ← hcur]
  rw [← hcfg] at hback hlt ⊢
  exact patternRead_next ⟨hd, hmode, hbuf⟩ (coordGet_of_readsBack hlt (Nat.mod_lt _ (Nat.two_pow_pos _)) hback)

end

/-- Settles O46: RCOORD gives back `coordEcho` of f, which is f cut off after its fraction bits. -/
theorem coordRoundTripWithinResolution : Obligations.CoordRoundTripWithinResolution := by
  intro s t u c d hv hready hroom f hf hlt h hr
  obtain ⟨-, hib, -, hfb, -⟩ := Config.valid_bounds hv
  have hint : cutOff f s.cfg.fb / 2 ^ s.cfg.fb ≤ 2 ^ s.cfg.ib := by
    rw [← floor_mag32_eq, ← Nat.lt_succ_iff, Nat.floor_lt (mag32_nonneg f)]
    exact_mod_cast hlt
  obtain ⟨hfin, hmag, hsign⟩ := coordEcho_spec hf hfb (hint.trans (Nat.pow_le_pow_right (by decide) hib))
  have hzero : cutOff f s.cfg.fb = 0 ↔ mag32 (coordEcho f s.cfg.fb) = 0 := by rw [hmag]; simp
  refine ⟨coordEcho f s.cfg.fb, _, rcoord_echo hready hroom rfl hf hint h hr, rfl, by simp, rfl, by simp, hfin, ?_, ?_,
    fun hne => hsign (mt hzero.1 hne), fun h0 => coordEcho_of_zero (hzero.2 h0)⟩
  · rw [hmag]
    exact cutOff_le f _
  · rw [hmag]
    exact sub_cutOff_lt f _

end Sys2Proof.Proofs
end

section
/-! O19: the status commands (45_status.md R290 to R295). -/

namespace Sys2Proof.Proofs

open Sys2Proof.Machine

/-- A status command, on a bound context, answers what stands behind its two checks. -/
theorem finish_status {s t : State} {c : CtxId} (hc : c.val < s.cfg.nCtx) (hm : (s.ctx c).mode ≠ .unbound) :
    finish (do needCtx c s; needBound c s; .ok t) = .next t :=
  finish_eq_next.2 <| ok_bind (needCtx_pos hc) <| ok_bind (needBound_pos hm) rfl

/-- Settles O19: behind its checks each command is one write of its result, and GETCAP two. -/
theorem statusCommandsReport : Obligations.StatusCommandsReport := fun _ _ hc hm =>
  ⟨commandWord _, commandWord _, commandWord _, commandWord _, commandWord _, commandWord _,
    finish_status hc hm, finish_status hc hm, finish_status hc hm, finish_status hc hm, finish_status hc hm,
    finish_status hc hm⟩

end Sys2Proof.Proofs
end

section
/-! O20, O55 and O56: the error procedure, and what OVF and DIAG gate (60_exceptions.md R300, R301, R304, R312). The two
changes of the state, setting OVF of a context and putting events in front of DIAG, are changes that no check and no shared
operation notices (`Blind`). A whole command does not notice such a change either, unless it gives OVF another use than the
error procedure does: the binds, GETOVF and PEEKUNS. -/

namespace Sys2Proof.Proofs

open Sys2Proof.Machine

/-! ### The error procedure -/

/-- Settles O20: the laws of `State.overflow`, and that it is two updates of the state. -/
theorem errorProcedure : Obligations.ErrorProcedure :=
  ⟨fun s op c k => ⟨ctx_overflow_same s c op k, fun d => ctx_overflow_other s c d op k, overflow_diag s c op k, rfl⟩,
    rfl, rfl⟩

/-! ### Commands under a change that no shared operation notices -/

/-- The command does after φ what it does before it, with φ applied to its next state, and stops for the same reason. -/
def Unnoticed (φ : State → State) (i : Instr) (s : State) : Prop :=
  (∀ t, exec i s = .next t → exec i (φ s) = .next (φ t)) ∧ (∀ r, exec i s = .refused r ↔ exec i (φ s) = .refused r) ∧
  ∀ f, exec i s = .fault f ↔ exec i (φ s) = .fault f

/-- What φ must respect for the four commands that use OVF in another way than through the error procedure: a bind clears
it with its whole context, GETOVF reads it, PEEKUNS puts it back as it was in s. -/
def RespectsOvf (φ : State → State) (s : State) : Instr → Prop
  | .wbind c | .rbind c => ∀ x, (φ s).setCtx c x = φ (s.setCtx c x)
  | .getovf c => ((φ s).ctx c).ovf = (s.ctx c).ovf
  | .peekuns c _ => ∀ u, (φ u).setOvf c ((φ s).ctx c).ovf = φ (u.setOvf c (s.ctx c).ovf)
  | _ => True

/-! Below, `x' = x.map φ` says that x' is the run x after the change. -/

/-- A part that answers a value and the next state, and the rest of the command after it. -/
theorem afterAccess {α : Type} {φ : State → State} {x x' : Exec (α × State)} {f f' : α × State → Exec State}
    (hx : x' = x.map (Prod.map id φ)) (h : ∀ v u, f' (v, φ u) = (f (v, u)).map φ) : (x' >>= f') = (x >>= f).map φ :=
  hx ▸ map_bind fun ⟨v, u⟩ => h v u

section
variable {φ : State → State} (H : Blind φ) {s : State} {c : CtxId}
include H

/-- The last part of a command whose result is RES0. -/
theorem ok_setRes0 {v v' : Word64} (hv : v' = v) :
    (.ok ((φ s).setRes0 v') : Exec State) = (Except.ok (s.setRes0 v)).map φ :=
  congrArg Except.ok (hv ▸ H.setRes0 s v)

/-- The checks of a command on a context in mode m that has no operand. -/
theorem afterMode {m : Mode} {x x' : Exec State} (h : x' = x.map φ) :
    (do needCtx c (φ s); needMode m c (φ s); x') = (do needCtx c s; needMode m c s; x).map φ :=
  id_bind (H.needCtx c s) fun _ => id_bind (H.needMode m c s) fun _ => h

/-- The same with the check of NB. -/
theorem afterCount {m : Mode} {nb : Fin 64} {x x' : Exec State} (h : x' = x.map φ) :
    (do needCtx c (φ s); needCount nb; needMode m c (φ s); x') =
      (do needCtx c s; needCount nb; needMode m c s; x).map φ :=
  id_bind (H.needCtx c s) fun _ => id_bind rfl fun _ => id_bind (H.needMode m c s) fun _ => h

/-- The checks of a command on a context in mode m, with the operand OPA. -/
theorem afterOperand {m : Mode} {f f' : Word64 → Exec State} (h : ∀ a, f' a = (f a).map φ) :
    (do needCtx c (φ s); let a ← operand .opa (φ s); needMode m c (φ s); f' a) =
      (do needCtx c s; let a ← operand .opa s; needMode m c s; f a).map φ :=
  id_bind (H.needCtx c s) fun _ => id_bind (H.operand .opa s) fun a => id_bind (H.needMode m c s) fun _ => h a

/-- The same with the check of NB. -/
theorem afterCountOperand {m : Mode} {nb : Fin 64} {f f' : Word64 → Exec State} (h : ∀ a, f' a = (f a).map φ) :
    (do needCtx c (φ s); needCount nb; let a ← operand .opa (φ s); needMode m c (φ s); f' a) =
      (do needCtx c s; needCount nb; let a ← operand .opa s; needMode m c s; f a).map φ :=
  id_bind (H.needCtx c s) fun _ => id_bind rfl fun _ => id_bind (H.operand .opa s) fun a =>
    id_bind (H.needMode m c s) fun _ => h a

/-- The checks of a command on a context in mode m, with the operands OPA and OPB. -/
theorem afterOperands {m : Mode} {f f' : Word64 → Word64 → Exec State} (h : ∀ a b, f' a b = (f a b).map φ) :
    (do needCtx c (φ s); let a ← operand .opa (φ s); let b ← operand .opb (φ s); needMode m c (φ s); f' a b) =
      (do needCtx c s; let a ← operand .opa s; let b ← operand .opb s; needMode m c s; f a b).map φ :=
  id_bind (H.needCtx c s) fun _ => id_bind (H.operand .opa s) fun a => id_bind (H.operand .opb s) fun b =>
    id_bind (H.needMode m c s) fun _ => h a b

/-- The checks of a bulk command or of RSTRING: OPA is an address, OPB a length in range p. -/
theorem afterLength {m : Mode} {p : Nat → Prop} [DecidablePred p] {f f' : Word64 → Word64 → Exec State}
    (h : ∀ a b, f' a b = (f a b).map φ) :
    (do needCtx c (φ s); let a ← operand .opa (φ s); let b ← operand .opb (φ s)
        require (p b.toNat) .badOperand; needMode m c (φ s); f' a b) =
      (do needCtx c s; let a ← operand .opa s; let b ← operand .opb s
          require (p b.toNat) .badOperand; needMode m c s; f a b).map φ :=
  id_bind (H.needCtx c s) fun _ => id_bind (H.operand .opa s) fun a => id_bind (H.operand .opb s) fun b =>
    id_bind rfl fun _ => id_bind (H.needMode m c s) fun _ => h a b

/-- The checks of a status command and its result, which is the same after the change. -/
theorem statusResult {v v' : Word64} (hv : v' = v) :
    (do needCtx c (φ s); needBound c (φ s); .ok ((φ s).setRes0 v')) =
      (do needCtx c s; needBound c s; .ok (s.setRes0 v)).map φ :=
  id_bind (H.needCtx c s) fun _ => id_bind (H.needBound c s) fun _ => ok_setRes0 H hv

/-- A write of fields that were computed from the parameters and the draws. -/
theorem drawnFields (op : BitVec 8) (g : Config → Nat → List StreamField × Nat) :
    wrAll op c (g (φ s).cfg (φ s).draws).1 ((φ s).setDraws (g (φ s).cfg (φ s).draws).2) =
      (wrAll op c (g s.cfg s.draws).1 (s.setDraws (g s.cfg s.draws).2)).map φ := by
  rw [H.cfg, H.draws, H.setDraws, H.wrAll]

/-! ### The commands whose last part is not one shared operation -/

theorem getcap_unnoticed : Unnoticed φ (.getcap c) s :=
  map_finish <| id_bind (H.needCtx c s) fun _ => id_bind (H.needBound c s) fun _ => by
    rw [H.bitCap, H.byteCap, H.setRes0, H.setRes1]
    rfl

theorem wbits_unnoticed : Unnoticed φ (.wbits c) s :=
  map_finish <| afterLength H (p := (· < 2 ^ 31)) fun a b => id_bind (by simp only [H.sourceOverlap]) fun _ => by
    dsimp only
    rw [H.bitCap, H.cursor, H.base, H.cfg, H.mem, H.overflow]
    split
    · rfl
    · exact id_bind rfl fun m => by rw [H.setCursor, H.setMem]; rfl

theorem wstring_unnoticed : Unnoticed φ (.wstring c) s :=
  map_finish <| afterOperand H fun a => id_bind (by rw [H.cfg, H.scanString]) fun _ => H.wrAll _ _ _ _

theorem peekuns_unnoticed {nb : Fin 64} (h : RespectsOvf φ s (.peekuns c nb)) : Unnoticed φ (.peekuns c nb) s :=
  map_finish <| afterCount H <| afterAccess (H.rd _ _ _ _) fun _ u => by
    dsimp only
    rw [H.cursor, H.setCursor, h, H.setRes0]
    rfl

theorem rubitvar_unnoticed : Unnoticed φ (.rubitvar c) s :=
  map_finish <| afterMode H <| afterAccess (H.rd _ _ _ _) fun six u => by
    dsimp only
    split
    · exact ok_setRes0 H rfl
    · rw [H.cursor, H.setCursor]
      exact afterAccess (H.rd _ _ _ _) fun _ _ => ok_setRes0 H rfl

theorem rstring_unnoticed {nl : Bool} : Unnoticed φ (.rstring c nl) s :=
  map_finish <| afterLength H (p := fun n => 1 ≤ n ∧ n < 2 ^ 31) fun a b =>
    id_bind (by simp only [H.destOverlap]) fun _ => by
      dsimp only
      rw [H.bitCap, H.cursor, H.readString]
      refine map_bind fun ⟨i, t, u⟩ => ?_
      dsimp only [Prod.map, id]
      rw [H.cfg, H.mem]
      exact id_bind rfl fun m => by rw [H.setMem, H.setRes0, H.setRes1]; rfl

theorem rvec3coord_unnoticed : Unnoticed φ (.rvec3coord c) s :=
  map_finish <| afterMode H <|
    afterAccess (H.rd _ _ _ _) fun px _ => afterAccess (H.rd _ _ _ _) fun py _ => afterAccess (H.rd _ _ _ _) fun pz _ =>
    afterAccess (Blind.axisGet px _ (H.coordGet _ _) _) fun x _ =>
    afterAccess (Blind.axisGet py _ (H.coordGet _ _) _) fun y _ =>
    afterAccess (Blind.axisGet pz _ (H.coordGet _ _) _) fun z u => congrArg Except.ok (H.setVector x y z u)

theorem rvec3normal_unnoticed : Unnoticed φ (.rvec3normal c) s :=
  map_finish <| afterMode H <|
    afterAccess (H.rd _ _ _ _) fun px _ => afterAccess (H.rd _ _ _ _) fun py _ =>
    afterAccess (Blind.axisGet px _ (H.normalGet _ _) _) fun x _ =>
    afterAccess (Blind.axisGet py _ (H.normalGet _ _) _) fun y _ =>
    afterAccess (H.rd _ _ _ _) fun _ u => congrArg Except.ok (H.setVector x y _ u)

theorem cmpbits_unnoticed {c2 : CtxId} : Unnoticed φ (.cmpbits c c2) s :=
  map_finish <| id_bind (H.needCtx c s) fun _ => id_bind (H.needCtx c2 s) fun _ => id_bind rfl fun _ =>
    id_bind (H.operand .opb s) fun _ => id_bind rfl fun _ => id_bind (H.needMode .reader c s) fun _ =>
    id_bind (H.needMode .reader c2 s) fun _ => afterAccess (H.compareFrom _ _ _ _ _ _ _) fun _ _ => ok_setRes0 H rfl

end

/-! ### Every command -/

/-- No command notices the change. The arms with one proof are the commands of one shape: the checks, the shared operation
that does the work, the result. -/
theorem exec_unnoticed {φ : State → State} (H : Blind φ) {i : Instr} {s : State} (h : RespectsOvf φ s i) :
    Unnoticed φ i s :=
  match i with
  | .zzenc32 | .zzdec32 | .zzenc64 | .zzdec64 | .vsize32 | .vsize64 =>
    map_finish <| id_bind (H.operand .opa s) fun _ => ok_setRes0 H rfl
  | .wbind c | .rbind c => map_finish <| H.bindAs h
  | .getbits c | .getbytes c => map_finish <| statusResult H (by rw [H.cursor])
  | .getbitsleft c | .getbytesleft c => map_finish <| statusResult H (by rw [H.cursor, H.bitCap])
  | .getcap _ => getcap_unnoticed H
  | .getovf c => map_finish <| statusResult H (congrArg (fun ovf : Bool => if ovf then (1 : Word64) else 0) h)
  | .wbit c | .wfloat c => map_finish <| afterOperand H fun _ => H.wr _ _ _ _ _
  | .wsigned c nb => map_finish <| afterCountOperand H fun _ => H.wr _ _ _ _ _
  | .wuns c nb =>
    map_finish <| afterCountOperand H fun _ => by
      dsimp only
      rw [H.rangeCheck, H.wr]
  | .wangle c nb =>
    map_finish <| afterCountOperand H fun _ => by
      dsimp only
      rw [H.draws, H.setDraws, H.wr]
  | .wvar32 c | .wvar64 c | .wsvar32 c | .wsvar64 c => map_finish <| afterOperand H fun _ => H.varPut _ _ _ _ _
  | .wubitvar c => map_finish <| afterOperand H fun _ => H.wrAll _ _ _ _
  | .wcoord c => map_finish <| afterOperand H fun a => drawnFields H _ (coordFields · (floatOperand a))
  | .wcoordmp c integral lowPrec =>
    map_finish <| afterOperand H fun a => drawnFields H _ (coordMpFields · integral lowPrec (floatOperand a))
  | .wnormal c => map_finish <| afterOperand H fun a => drawnFields H _ (normalFields · (floatOperand a))
  | .wvec3coord c =>
    map_finish <| afterOperands H fun a b =>
      drawnFields H _ (vec3CoordFields · (floatOperand a) (F32.ofBits (highWord a)) (floatOperand b))
  | .wvec3normal c =>
    map_finish <| afterOperands H fun a b =>
      drawnFields H _ (vec3NormalFields · (floatOperand a) (F32.ofBits (highWord a)) (floatOperand b))
  | .wbits _ => wbits_unnoticed H
  | .wstring _ => wstring_unnoticed H
  | .rbit c | .rfloat c => map_finish <| afterMode H <| afterAccess (H.rd _ _ _ _) fun _ _ => ok_setRes0 H rfl
  | .runs c nb | .rsigned c nb | .rangle c nb =>
    map_finish <| afterCount H <| afterAccess (H.rd _ _ _ _) fun _ _ => ok_setRes0 H rfl
  | .peekuns _ _ => peekuns_unnoticed H h
  | .rvar32 c | .rvar64 c | .rsvar32 c | .rsvar64 c =>
    map_finish <| afterMode H <| afterAccess (H.varGetFrom _ _ _ _ _ _) fun _ _ => ok_setRes0 H rfl
  | .rubitvar _ => rubitvar_unnoticed H
  | .rcoord c => map_finish <| afterMode H <| afterAccess (H.coordGet _ _ _) fun _ _ => ok_setRes0 H rfl
  | .rcoordmp c _ _ => map_finish <| afterMode H <| afterAccess (H.coordMpGet _ _ _ _ _) fun _ _ => ok_setRes0 H rfl
  | .rnormal c => map_finish <| afterMode H <| afterAccess (H.normalGet _ _ _) fun _ _ => ok_setRes0 H rfl
  | .rvec3coord _ => rvec3coord_unnoticed H
  | .rvec3normal _ => rvec3normal_unnoticed H
  | .rstring _ _ => rstring_unnoticed H
  | .rbytes c => map_finish <| afterLength H (p := (· < 2 ^ 28)) fun _ _ => H.readBulk _ _ _ _ _
  | .rbits c => map_finish <| afterLength H (p := (· < 2 ^ 31)) fun _ _ => H.readBulk _ _ _ _ _
  | .seek c => map_finish <| afterOperand H fun _ => congrArg Except.ok (H.seekTo _ _ _ _)
  | .seekrel c => map_finish <| afterOperand H fun _ => by rw [H.cursor, H.seekTo]; rfl
  | .cmpbits _ _ => cmpbits_unnoticed H

/-! ### OVF -/

/-- Setting OVF of c is respected by every command but those that clear or read that flag. -/
theorem respectsOvf_setOvf {i : Instr} {s : State} {c : CtxId} (hw : i ≠ .wbind c) (hr : i ≠ .rbind c)
    (hg : i ≠ .getovf c) : RespectsOvf (·.setOvf c true) s i := by
  unfold RespectsOvf
  split
  case h_1 d => exact fun x => setCtx_setOvf_ne s c d true x fun e => hw (congrArg _ e)
  case h_2 d => exact fun x => setCtx_setOvf_ne s c d true x fun e => hr (congrArg _ e)
  case h_3 d => rw [ctx_setOvf_other _ _ _ _ fun e => hg (congrArg _ e)]
  case h_4 d _ =>
    intro u
    by_cases hd : d = c
    · subst hd; simp [State.setOvf]
    · rw [ctx_setOvf_other _ _ _ _ hd, setOvf_setOvf_ne _ _ _ _ _ hd]
  case h_5 => trivial

/-- Settles O55: setting OVF is a change that commands do not notice. -/
theorem overflowFlagGatesNothing : Obligations.OverflowFlagGatesNothing := fun _ _ c hw hr hg =>
  exec_unnoticed (blind_ovf c) (respectsOvf_setOvf hw hr hg)

/-! ### DIAG -/

/-- Putting events in front of DIAG is respected by every command. -/
theorem respectsOvf_setDiag (i : Instr) (s : State) (es : List DiagEvent) :
    RespectsOvf (fun s => s.setDiag (es ++ s.diag)) s i := by
  unfold RespectsOvf
  split
  case h_1 => exact fun _ => rfl
  case h_2 => exact fun _ => rfl
  case h_3 => rfl
  case h_4 => exact fun _ => rfl
  case h_5 => trivial

/-- Settles O56: putting events in front of DIAG is a change that commands do not notice. -/
theorem diagnosticTraceGatesNothing : Obligations.DiagnosticTraceGatesNothing := fun i s es =>
  exec_unnoticed (blind_diag es) (respectsOvf_setDiag i s es)

end Sys2Proof.Proofs
end

section
/-! O8: what can run while every context is as reset left it (70_reset_and_hazards.md R331). -/

namespace Sys2Proof.Proofs

open Sys2Proof.Machine

/-- Only the binds accept an unbound context (30_encoding.md R96). -/
theorem modeOK_unbound {i : Instr} (hb : i.isBind = false) : i.modeOK .unbound = false := by
  simp [Instr.modeOK, hb]

section
variable {s : State}

/-- A command that names contexts has wrong modes where none of them is bound. -/
theorem not_rightModes_of_unbound {i : Instr} (hu : ∀ c, (s.ctx c).mode = .unbound) (hb : i.isBind = false)
    (hn : i.contexts ≠ []) : ¬RightModes i s := by
  intro hr
  obtain ⟨c, hc⟩ := List.exists_mem_of_ne_nil _ hn
  have hok : i.modeOK .unbound = true := hu c ▸ hr c hc
  simp [modeOK_unbound hb] at hok

/-- Where no context is bound, no region is in the way. -/
theorem not_sharesRegion_of_unbound {p : CtxId → Prop} {a n : Nat} (hu : ∀ c, (s.ctx c).mode = .unbound) :
    ¬SharesRegion s p a n :=
  fun ⟨d, _, hd, _⟩ => hd (hu d)

/-- The codec commands need no more than OPA. -/
theorem exec_codec_next (h : s.opa.written = true) :
    ∀ i ∈ [Instr.zzenc32, .zzdec32, .zzenc64, .zzdec64, .vsize32, .vsize64], ∃ t, exec i s = .next t := by
  intro i hi
  fin_cases hi
  exacts [⟨_, exec_zzenc32 h⟩, ⟨_, exec_zzdec32 h⟩, ⟨_, exec_zzenc64 h⟩, ⟨_, exec_zzdec64 h⟩, ⟨_, exec_vsize32 h⟩,
    ⟨_, exec_vsize64 h⟩]

end

/-- Settles O8: no context is bound, so the MODE check of every other command fails, and the overlap check of a bind
passes. -/
theorem afterResetOnlyBindsAndCodecRun : Obligations.AfterResetOnlyBindsAndCodecRun := by
  intro s hs
  have hu : ∀ c, (s.ctx c).mode = .unbound := fun c => by rw [hs c]; rfl
  refine ⟨fun i hb hn => exec_refused_of_check fun ⟨_, hr⟩ => not_rightModes_of_unbound hu hb hn hr, exec_codec_next,
    fun c hc hw ⟨cap, hcap⟩ hbase => ?binds⟩
  case binds =>
    exact ⟨⟨_, bindAs_next hc hw hcap hbase (not_sharesRegion_of_unbound hu)⟩,
      ⟨_, bindAs_next hc hw hcap hbase (not_sharesRegion_of_unbound hu)⟩⟩

end Sys2Proof.Proofs
end
